-- ==== Sys2Proof/Word.lean ====
section
/-!
DEFINITION. The bit-vector types of the engine (spec 00_scope.md R8, R9): a register or command word is 32 bits, a
byte of a local memory 8 bits, a binary64 register 64 bits.
-/

namespace Sys2Proof

/-- A 32-bit register, memory or command word (`XLEN` = 32, 00_scope.md R7). -/
abbrev Word := BitVec 32

/-- A byte of a local memory; also an element of GF(256) (40_gf.md R152). -/
abbrev Byte := BitVec 8

/-- The 64-bit encoding of an IEEE 754 binary64 value (44_sampler.md R330). -/
abbrev Dword := BitVec 64

end Sys2Proof
end

