-- ==== Sys2Proof/Syntax.lean ====
section
/-!
DEFINITION. The commands of the engine as syntax: one constructor per row of spec/opcode_table.json
(30_encoding.md R119), with its fields as names (30_encoding.md R111..R116).
-/

namespace Sys2Proof

/-- The field select F: `qr` is F = 0 (primitive 0x011D), `dm` is F = 1 (primitive 0x012D) (30_encoding.md R112). -/
inductive Field where
  | qr
  | dm
  deriving DecidableEq, Repr

/-- A polynomial register number, P0..P3 (30_encoding.md R113). -/
inductive PReg where
  | p0
  | p1
  | p2
  | p3
  deriving DecidableEq, Repr

/-- The matrix select M: MAT0 or MAT1 (30_encoding.md R114). -/
inductive Mat where
  | m0
  | m1
  deriving DecidableEq, Repr

/-- The symbology select SYM = 0..4 (30_encoding.md R115). -/
inductive Sym where
  | code39
  | code93
  | code128
  | itf
  | codabar
  deriving DecidableEq, Repr

/-- A command, one constructor per row of the opcode map (30_encoding.md R119). -/
inductive Instr where
  | nop
  | gfAdd (f : Field)
  | gfMul (f : Field)
  | gfDiv (f : Field)
  | gfInv (f : Field)
  | gfExp (f : Field)
  | gfLog (f : Field)
  | pMono (f : Field) (pd : PReg)
  | pAdd (f : Field) (pb pa pd : PReg)
  | pMul (f : Field) (pb pa pd : PReg)
  | pScale (f : Field) (pa pd : PReg)
  | pMulmono (f : Field) (pa pd : PReg)
  | pDiv (f : Field) (pe pb pa pd : PReg)
  | pEval (f : Field) (pa : PReg)
  | rsEncode (f : Field)
  | rsSyndrome (f : Field)
  | rsDecode (f : Field)
  | baGet
  | baSet
  | baFlip
  | baClear
  | baSetrange
  | baIsrange
  | baNextset
  | baNextunset
  | baReverse
  | baInit
  | bmInit (m : Mat)
  | bmGet (m : Mat)
  | bmSet (m : Mat)
  | bmUnset (m : Mat)
  | bmFlip (m : Mat)
  | bmClear (m : Mat)
  | bmSetregion (m : Mat)
  | bmGetrow (m : Mat)
  | bmRot180 (m : Mat)
  | bmXor (m : Mat)
  | bmCopy (m : Mat)
  | bmTopleft (m : Mat)
  | bmBotright (m : Mat)
  | ptS2q
  | ptQ2s
  | ptQ2q
  | ptAdj
  | ptTimes
  | ptCopy
  | ptXform
  | gridSample (m : Mat)
  | odRuns
  | odPmatch (sym : Sym)
  | odDecode (chk : Bool) (sym : Sym)
  | odMulti (chk : Bool) (en : BitVec 5)
  deriving DecidableEq, Repr

end Sys2Proof
end

