-- ==== Sys2Proof/WellFormed.lean ====
section
/-!
DEFINITION. Which commands have an encoding (30_encoding.md R118, R120): the two reserved field values that the syntax
can still write. The third, SYM = 5..7, is no value of `Sym`.
-/

namespace Sys2Proof

/-- The command has a legal word: P_DIV has two different destinations, and OD_DECODE asks for the check character only
with CODE39 (30_encoding.md R118, check 3). -/
def Instr.wf : Instr → Bool
  | .pDiv _ pe _ _ pd => pe != pd
  | .odDecode chk sym => !chk || sym == .code39
  | _ => true

end Sys2Proof
end

