-- ==== Sys2Proof/Decode.lean ====
section
/-!
DEFINITION. Decoding a command word, total on every word, with the three numbered refusals of 30_encoding.md R118, and
after it the encoder, both from the formats R111..R116 and the opcode map R119, R122.
-/

namespace Sys2Proof

/-- The decode checks of 30_encoding.md R118, in their order. -/
inductive DecodeError where
  /-- Check 1: the opcode is not in the opcode map. -/
  | unassignedOpcode
  /-- Check 2: a bit the opcode does not use is 1. -/
  | mustBeZero
  /-- Check 3: a reserved field value. -/
  | reservedField
  deriving DecidableEq, Repr

/-- The check number an ILLEGAL_COMMAND completion reports (30_encoding.md R118). -/
def DecodeError.check : DecodeError → Nat
  | .unassignedOpcode => 1
  | .mustBeZero => 2
  | .reservedField => 3

/-- F = 0 or 1 (30_encoding.md R112). -/
def Field.ofBit : Bool → Field
  | false => .qr
  | true => .dm

/-- The bit of a field select. -/
def Field.bit : Field → Bool
  | .qr => false
  | .dm => true

/-- A polynomial register number (30_encoding.md R113). -/
def PReg.ofBits (b : BitVec 2) : PReg :=
  if b = 0 then .p0 else if b = 1 then .p1 else if b = 2 then .p2 else .p3

/-- The number of a polynomial register. -/
def PReg.num : PReg → Nat
  | .p0 => 0
  | .p1 => 1
  | .p2 => 2
  | .p3 => 3

/-- M = 0 or 1 (30_encoding.md R114). -/
def Mat.ofBit : Bool → Mat
  | false => .m0
  | true => .m1

/-- The bit of a matrix select. -/
def Mat.bit : Mat → Bool
  | .m0 => false
  | .m1 => true

/-- The other matrix, `m' = 1 - M` (43_bitmatrix.md). -/
def Mat.other : Mat → Mat
  | .m0 => .m1
  | .m1 => .m0

/-- A symbology number; 5..7 are reserved (30_encoding.md R115). -/
def Sym.ofBits (b : BitVec 3) : Option Sym :=
  if b = 0 then some .code39
  else if b = 1 then some .code93
  else if b = 2 then some .code128
  else if b = 3 then some .itf
  else if b = 4 then some .codabar
  else none

/-- The number of a symbology. -/
def Sym.num : Sym → Nat
  | .code39 => 0
  | .code93 => 1
  | .code128 => 2
  | .itf => 3
  | .codabar => 4

/-- `OPC = w[31:24]` (30_encoding.md R110). -/
def opcField (w : Word) : BitVec 8 := w.extractLsb' 24 8

/-- `F = w[8]` (30_encoding.md R112, R113). -/
def fField (w : Word) : Field := Field.ofBit (w.getLsbD 8)

/-- `PE = w[7:6]` (30_encoding.md R113). -/
def peField (w : Word) : PReg := PReg.ofBits (w.extractLsb' 6 2)

/-- `PB = w[5:4]` (30_encoding.md R113). -/
def pbField (w : Word) : PReg := PReg.ofBits (w.extractLsb' 4 2)

/-- `PA = w[3:2]` (30_encoding.md R113). -/
def paField (w : Word) : PReg := PReg.ofBits (w.extractLsb' 2 2)

/-- `PD = w[1:0]` (30_encoding.md R113). -/
def pdField (w : Word) : PReg := PReg.ofBits (w.extractLsb' 0 2)

/-- `M = w[9]` (30_encoding.md R114). -/
def mField (w : Word) : Mat := Mat.ofBit (w.getLsbD 9)

/-- `SYM = w[2:0]` (30_encoding.md R115). -/
def symField (w : Word) : Option Sym := Sym.ofBits (w.extractLsb' 0 3)

/-- One row of the opcode map (30_encoding.md R119, R122): opcode, the bits that may be 1, and the command the fields
give, or none where a field value is reserved (check 3). -/
structure OpRow where
  opc : BitVec 8
  used : Word
  build : Word → Option Instr

/-- The control, GF and RS rows (30_encoding.md R119, formats N and G). -/
def gfRsRows : List OpRow :=
  [ ⟨0x00, 0xFF000000, fun _ => some .nop⟩,
    ⟨0x10, 0xFF000100, fun w => some (.gfAdd (fField w))⟩,
    ⟨0x11, 0xFF000100, fun w => some (.gfMul (fField w))⟩,
    ⟨0x12, 0xFF000100, fun w => some (.gfDiv (fField w))⟩,
    ⟨0x13, 0xFF000100, fun w => some (.gfInv (fField w))⟩,
    ⟨0x14, 0xFF000100, fun w => some (.gfExp (fField w))⟩,
    ⟨0x15, 0xFF000100, fun w => some (.gfLog (fField w))⟩,
    ⟨0x30, 0xFF000100, fun w => some (.rsEncode (fField w))⟩,
    ⟨0x31, 0xFF000100, fun w => some (.rsSyndrome (fField w))⟩,
    ⟨0x32, 0xFF000100, fun w => some (.rsDecode (fField w))⟩ ]

/-- The POLY rows (30_encoding.md R119, format P); PD = PE is reserved in P_DIV (R120). -/
def polyRows : List OpRow :=
  [ ⟨0x20, 0xFF000103, fun w => some (.pMono (fField w) (pdField w))⟩,
    ⟨0x21, 0xFF00013F, fun w => some (.pAdd (fField w) (pbField w) (paField w) (pdField w))⟩,
    ⟨0x22, 0xFF00013F, fun w => some (.pMul (fField w) (pbField w) (paField w) (pdField w))⟩,
    ⟨0x23, 0xFF00010F, fun w => some (.pScale (fField w) (paField w) (pdField w))⟩,
    ⟨0x24, 0xFF00010F, fun w => some (.pMulmono (fField w) (paField w) (pdField w))⟩,
    ⟨0x25, 0xFF0001FF, fun w =>
      if pdField w = peField w then none
      else some (.pDiv (fField w) (peField w) (pbField w) (paField w) (pdField w))⟩,
    ⟨0x26, 0xFF00010C, fun w => some (.pEval (fField w) (paField w))⟩ ]

/-- The BA rows (30_encoding.md R119, format N). -/
def baRows : List OpRow :=
  [ ⟨0x40, 0xFF000000, fun _ => some .baGet⟩,
    ⟨0x41, 0xFF000000, fun _ => some .baSet⟩,
    ⟨0x42, 0xFF000000, fun _ => some .baFlip⟩,
    ⟨0x43, 0xFF000000, fun _ => some .baClear⟩,
    ⟨0x44, 0xFF000000, fun _ => some .baSetrange⟩,
    ⟨0x45, 0xFF000000, fun _ => some .baIsrange⟩,
    ⟨0x46, 0xFF000000, fun _ => some .baNextset⟩,
    ⟨0x47, 0xFF000000, fun _ => some .baNextunset⟩,
    ⟨0x48, 0xFF000000, fun _ => some .baReverse⟩,
    ⟨0x49, 0xFF000000, fun _ => some .baInit⟩ ]

/-- The BM rows (30_encoding.md R119, format M). -/
def bmRows : List OpRow :=
  [ ⟨0x50, 0xFF000200, fun w => some (.bmInit (mField w))⟩,
    ⟨0x51, 0xFF000200, fun w => some (.bmGet (mField w))⟩,
    ⟨0x52, 0xFF000200, fun w => some (.bmSet (mField w))⟩,
    ⟨0x53, 0xFF000200, fun w => some (.bmUnset (mField w))⟩,
    ⟨0x54, 0xFF000200, fun w => some (.bmFlip (mField w))⟩,
    ⟨0x55, 0xFF000200, fun w => some (.bmClear (mField w))⟩,
    ⟨0x56, 0xFF000200, fun w => some (.bmSetregion (mField w))⟩,
    ⟨0x57, 0xFF000200, fun w => some (.bmGetrow (mField w))⟩,
    ⟨0x58, 0xFF000200, fun w => some (.bmRot180 (mField w))⟩,
    ⟨0x59, 0xFF000200, fun w => some (.bmXor (mField w))⟩,
    ⟨0x5A, 0xFF000200, fun w => some (.bmCopy (mField w))⟩,
    ⟨0x5B, 0xFF000200, fun w => some (.bmTopleft (mField w))⟩,
    ⟨0x5C, 0xFF000200, fun w => some (.bmBotright (mField w))⟩ ]

/-- The PT and GRID rows (30_encoding.md R119, formats N and M). -/
def ptRows : List OpRow :=
  [ ⟨0x60, 0xFF000000, fun _ => some .ptS2q⟩,
    ⟨0x61, 0xFF000000, fun _ => some .ptQ2s⟩,
    ⟨0x62, 0xFF000000, fun _ => some .ptQ2q⟩,
    ⟨0x63, 0xFF000000, fun _ => some .ptAdj⟩,
    ⟨0x64, 0xFF000000, fun _ => some .ptTimes⟩,
    ⟨0x65, 0xFF000000, fun _ => some .ptCopy⟩,
    ⟨0x66, 0xFF000000, fun _ => some .ptXform⟩,
    ⟨0x67, 0xFF000200, fun w => some (.gridSample (mField w))⟩ ]

/-- The OD rows (30_encoding.md R119, formats N, S and X); SYM = 5..7 is reserved in both S commands, CHK = 1 with
SYM ≠ 0 in OD_DECODE (R118, R120). -/
def odRows : List OpRow :=
  [ ⟨0x70, 0xFF000000, fun _ => some .odRuns⟩,
    ⟨0x71, 0xFF000007, fun w => (symField w).map .odPmatch⟩,
    ⟨0x72, 0xFF000017, fun w =>
      match symField w with
      | none => none
      | some sym => if w.getLsbD 4 && sym != .code39 then none else some (.odDecode (w.getLsbD 4) sym)⟩,
    ⟨0x73, 0xFF00003F, fun w => some (.odMulti (w.getLsbD 5) (w.extractLsb' 0 5))⟩ ]

/-- The opcode map (30_encoding.md R119). -/
def opRows : List OpRow := gfRsRows ++ polyRows ++ baRows ++ bmRows ++ ptRows ++ odRows

/-- The row of an opcode, none where the opcode is unassigned (30_encoding.md R120). -/
def opRow (opc : BitVec 8) : Option OpRow := opRows.find? (fun r => r.opc == opc)

/-- The command of a word, or the first decode check it fails (30_encoding.md R118). -/
def decode (w : Word) : Except DecodeError Instr :=
  match opRow (opcField w) with
  | none => .error .unassignedOpcode
  | some r =>
    if w &&& ~~~r.used ≠ 0 then .error .mustBeZero
    else
      match r.build w with
      | none => .error .reservedField
      | some i => .ok i

/-- A number in the field whose lowest bit is `lo`. -/
def atBit (lo n : Nat) : Word := BitVec.ofNat 32 n <<< lo

/-- F in bit 8. -/
def fBits (f : Field) : Word := atBit 8 f.bit.toNat

/-- M in bit 9. -/
def mBits (m : Mat) : Word := atBit 9 m.bit.toNat

/-- The word of a command with no field (format N, 30_encoding.md R111). -/
def wordN (opc : Nat) : Word := atBit 24 opc

/-- Format G (30_encoding.md R112). -/
def wordG (opc : Nat) (f : Field) : Word := atBit 24 opc ||| fBits f

/-- Format P (30_encoding.md R113); a register the opcode does not use is P0, whose number is 0 (R122). -/
def wordP (opc : Nat) (f : Field) (pe pb pa pd : PReg) : Word :=
  atBit 24 opc ||| fBits f ||| atBit 6 pe.num ||| atBit 4 pb.num ||| atBit 2 pa.num ||| atBit 0 pd.num

/-- Format M (30_encoding.md R114). -/
def wordM (opc : Nat) (m : Mat) : Word := atBit 24 opc ||| mBits m

/-- Format S (30_encoding.md R115). -/
def wordS (opc : Nat) (chk : Bool) (sym : Sym) : Word := atBit 24 opc ||| atBit 4 chk.toNat ||| atBit 0 sym.num

/-- Format X (30_encoding.md R116). -/
def wordX (opc : Nat) (chk : Bool) (en : BitVec 5) : Word := atBit 24 opc ||| atBit 5 chk.toNat ||| atBit 0 en.toNat

/-- The word of a command (30_encoding.md R111..R116, R119). -/
def encode : Instr → Word
  | .nop => wordN 0x00
  | .gfAdd f => wordG 0x10 f
  | .gfMul f => wordG 0x11 f
  | .gfDiv f => wordG 0x12 f
  | .gfInv f => wordG 0x13 f
  | .gfExp f => wordG 0x14 f
  | .gfLog f => wordG 0x15 f
  | .pMono f pd => wordP 0x20 f .p0 .p0 .p0 pd
  | .pAdd f pb pa pd => wordP 0x21 f .p0 pb pa pd
  | .pMul f pb pa pd => wordP 0x22 f .p0 pb pa pd
  | .pScale f pa pd => wordP 0x23 f .p0 .p0 pa pd
  | .pMulmono f pa pd => wordP 0x24 f .p0 .p0 pa pd
  | .pDiv f pe pb pa pd => wordP 0x25 f pe pb pa pd
  | .pEval f pa => wordP 0x26 f .p0 .p0 pa .p0
  | .rsEncode f => wordG 0x30 f
  | .rsSyndrome f => wordG 0x31 f
  | .rsDecode f => wordG 0x32 f
  | .baGet => wordN 0x40
  | .baSet => wordN 0x41
  | .baFlip => wordN 0x42
  | .baClear => wordN 0x43
  | .baSetrange => wordN 0x44
  | .baIsrange => wordN 0x45
  | .baNextset => wordN 0x46
  | .baNextunset => wordN 0x47
  | .baReverse => wordN 0x48
  | .baInit => wordN 0x49
  | .bmInit m => wordM 0x50 m
  | .bmGet m => wordM 0x51 m
  | .bmSet m => wordM 0x52 m
  | .bmUnset m => wordM 0x53 m
  | .bmFlip m => wordM 0x54 m
  | .bmClear m => wordM 0x55 m
  | .bmSetregion m => wordM 0x56 m
  | .bmGetrow m => wordM 0x57 m
  | .bmRot180 m => wordM 0x58 m
  | .bmXor m => wordM 0x59 m
  | .bmCopy m => wordM 0x5A m
  | .bmTopleft m => wordM 0x5B m
  | .bmBotright m => wordM 0x5C m
  | .ptS2q => wordN 0x60
  | .ptQ2s => wordN 0x61
  | .ptQ2q => wordN 0x62
  | .ptAdj => wordN 0x63
  | .ptTimes => wordN 0x64
  | .ptCopy => wordN 0x65
  | .ptXform => wordN 0x66
  | .gridSample m => wordM 0x67 m
  | .odRuns => wordN 0x70
  | .odPmatch sym => wordS 0x71 false sym
  | .odDecode chk sym => wordS 0x72 chk sym
  | .odMulti chk en => wordX 0x73 chk en

/-- The command the decoder reads from the table's bits: every command is one 32-bit word (30_encoding.md R110), and
every bit above `nbits` is 0. -/
def decodeTableWord (nbits w : Nat) : Option Instr :=
  match decode (BitVec.ofNat 32 (w % 2 ^ nbits)) with
  | .ok i => some i
  | .error _ => none

end Sys2Proof
end

