-- ==== Sys2Proof/Config.lean ====
section
/-!
DEFINITION. What an implementation fixes: the parameters of 00_scope.md R7, and the free values, opaque constants
nothing can evaluate, for what the spec leaves unspecified (70_reset_and_hazards.md R500, R501, R507; 20_memory.md R87;
92_eei_decisions.md D45). The OPEN parameter `LATENCY` is plain data of the state, not a constant (log 2).
-/

namespace Sys2Proof.Config

/-- `POLY_MAXDEG`, the highest representable polynomial degree (00_scope.md R7). -/
def polyMaxDeg : Nat := 255

/-- `CW_MAX`, the longest Reed-Solomon codeword in bytes (00_scope.md R7). -/
def cwMax : Nat := 255

/-- `ROW_BITS`, the capacity of ROW_MEM in bits (00_scope.md R7). -/
def rowBits : Nat := 4096

/-- `RUN_MAX`, the capacity of RUN_MEM in runs (00_scope.md R7). -/
def runMax : Nat := 4096

/-- `RES_MAX`, the capacity of OD_RES_MEM in symbol values (00_scope.md R7). -/
def resMax : Nat := 256

/-- `MAT_WORDS`, the capacity of each BitMatrix memory in 32-bit words (00_scope.md R7). -/
def matWords : Nat := 65536

/-- `DIM_MAX`, the largest BitMatrix width or height (00_scope.md R7). -/
def dimMax : Nat := 65535

/-- The size of the engine's window in bytes, 1 MiB (10_state.md R62). -/
def windowBytes : Nat := 0x100000

/-- FREE VALUE (OPEN parameter): which 1 MiB block of the host's address space the window is (20_memory.md R96, U21). -/
opaque baseIndex : Nat

/-- `BCE_BASE`, the bus address of offset 0 of the window; 1 MiB aligned by its form (20_memory.md R96). -/
def bceBase : Nat := baseIndex * windowBytes

/-- FREE VALUE: the byte at address `a` of a local memory whose contents were drawn by draw number `k`
(70_reset_and_hazards.md R500, R501; log 4). -/
opaque drawnByte : (k a : Nat) → Byte

/-- FREE VALUE: draw number `k`, for a host read of an output of the running command (70_reset_and_hazards.md R507; log 6). -/
opaque drawnWord : (k : Nat) → Word

/-- FREE VALUE: draw number `k`, for the data of a host read that gets a bus error (20_memory.md R87; log 7). -/
opaque drawnError : (k : Nat) → Dword

end Sys2Proof.Config
end

