-- ==== Sys2Proof/Machine/State.lean ====
section
/-!
DEFINITION. Everything the spec gives the engine, as plain data (spec 10_state.md R30..R62), the host's pending port
accesses and the open latencies as plain data of the model's own (log 1, 2), and the state after a power-on reset
(70_reset_and_hazards.md R500).
-/

namespace Sys2Proof.Machine

/-- What an address of a local memory that is not listed reads as: 0, or the byte of a draw
(70_reset_and_hazards.md R500; log 4, 5). -/
inductive Fill where
  | zero
  | drawn (k : Nat)
  deriving DecidableEq, Repr

/-- A local memory: the listed bytes, by their address inside the memory, over what the rest reads as (log 5). -/
structure Memory where
  fill : Fill
  cells : List Host.Cell
  deriving DecidableEq, Repr

/-- The result codes of 60_exceptions.md R460; code 7 is never written, so it is no value here. -/
inductive Code where
  | ok
  | notFound
  | format
  | checksum
  | illegalArgument
  | arithmetic
  | illegalCommand
  deriving DecidableEq, Repr

/-- The dimensions of a BitMatrix (10_state.md R44): width and height, 0 where it is not initialised. -/
structure Dim where
  w : BitVec 16
  h : BitVec 16
  deriving DecidableEq, Repr

/-- The executor (10_state.md R58): IDLE, or RUNNING the accepted word `w`, which completes after `left` more port
events (LATENCY, 70_reset_and_hazards.md R510; log 2). -/
inductive Executor where
  | idle
  | running (w : Word) (left : Nat)
  deriving DecidableEq, Repr

/-- The width of a bus access; only 32 bits is legal (20_memory.md R87). -/
inductive Width where
  | w8
  | w16
  | w32
  | w64
  deriving DecidableEq, Repr

/-- One event at the engine's edge: a host access at a byte offset from `BCE_BASE` (00_scope.md R10; 20_memory.md R80,
R87), or the power-on reset input asserted or released (70_reset_and_hazards.md R500; log 1, 11). -/
inductive PortEvent where
  | read (width : Width) (off : Nat)
  | write (width : Width) (off : Nat) (v : Dword)
  | porAssert
  | porRelease
  deriving DecidableEq, Repr

/-- What the port answered to the last access: nothing yet (also while the engine ignores the port), the word read, a
write taken, or a bus error, with the unspecified data a failed read returns (20_memory.md R80, R87). -/
inductive Response where
  | none
  | data (v : Word)
  | written
  | readError (v : Dword)
  | writeError
  deriving DecidableEq, Repr

/-- The state of the engine. -/
structure State where
  /-- CTRL.IE_DONE (10_state.md R34). -/
  ieDone : Bool
  /-- CTRL.IE_ERR (10_state.md R34). -/
  ieErr : Bool
  /-- STATUS.DONE (10_state.md R35). -/
  done : Bool
  /-- STATUS.ERR (10_state.md R35). -/
  err : Bool
  /-- STATUS.CMDOVR (10_state.md R35). -/
  cmdovr : Bool
  /-- STATUS.WOVR (10_state.md R35). -/
  wovr : Bool
  /-- STATUS.CODE (10_state.md R35). -/
  code : Code
  /-- LASTCMD (10_state.md R37). -/
  lastcmd : Word
  /-- ERRINFO.CHECK (10_state.md R38). -/
  check : BitVec 8
  /-- PFLD, bit k the field tag of Pk (10_state.md R40). -/
  pfld : BitVec 4
  /-- ROWSIZE.ROW_SIZE (10_state.md R42). -/
  rowSize : BitVec 13
  /-- NRUNS (10_state.md R43). -/
  nruns : BitVec 13
  /-- M0DIM (10_state.md R44). -/
  dim0 : Dim
  /-- M1DIM (10_state.md R44). -/
  dim1 : Dim
  /-- ARG0..ARG7 (10_state.md R45). -/
  arg : Vector Word 8
  /-- RES0..RES7 (10_state.md R46). -/
  res : Vector Word 8
  /-- F0..F15 (10_state.md R47). -/
  f : Vector Dword 16
  /-- TA0..TA8 (10_state.md R48). -/
  ta : Vector Dword 9
  /-- TB0..TB8 (10_state.md R48). -/
  tb : Vector Dword 9
  /-- CW_MEM, 256 bytes (10_state.md R49). -/
  cw : Memory
  /-- SYN_MEM, 256 bytes (10_state.md R50). -/
  syn : Memory
  /-- ELOC_MEM, 256 bytes (10_state.md R51). -/
  eloc : Memory
  /-- EMAG_MEM, 256 bytes (10_state.md R51). -/
  emag : Memory
  /-- P0, 256 bytes (10_state.md R52). -/
  p0 : Memory
  /-- P1, 256 bytes (10_state.md R52). -/
  p1 : Memory
  /-- P2, 256 bytes (10_state.md R52). -/
  p2 : Memory
  /-- P3, 256 bytes (10_state.md R52). -/
  p3 : Memory
  /-- ROW_MEM, 512 bytes (10_state.md R53). -/
  row : Memory
  /-- OD_RES_MEM, 256 bytes (10_state.md R54). -/
  odres : Memory
  /-- RUN_MEM, 4096 entries of 2 bytes (10_state.md R55; 20_memory.md R86). -/
  run : Memory
  /-- MAT0, 65536 words of 4 bytes (10_state.md R56). -/
  mat0 : Memory
  /-- MAT1, 65536 words of 4 bytes (10_state.md R56). -/
  mat1 : Memory
  /-- The generator cache of F = 0, `G[0][0..GD_0]`, each polynomial lowest degree first (10_state.md R57). -/
  gen0 : List (List Byte)
  /-- The generator cache of F = 1 (10_state.md R57). -/
  gen1 : List (List Byte)
  /-- The executor; STATUS.BUSY shows which (10_state.md R58). -/
  executor : Executor
  /-- The level of the power-on reset input: true while it is asserted (70_reset_and_hazards.md R500). -/
  porHeld : Bool
  /-- Model's own: the events the port has still to take, in port order (20_memory.md R89, R91; log 1). -/
  port : List PortEvent
  /-- Model's own: for each command still to be accepted, the port events that pass before it completes
  (70_reset_and_hazards.md R510; log 2). -/
  latencies : List Nat
  /-- Model's own: the port's answer to the last access (log 1). -/
  bus : Response
  /-- Model's own: how many draws of free values were made (92_eei_decisions.md D45; log 4). -/
  draws : Nat
  deriving DecidableEq, Repr

/-- Why the machine stops. No command and no access inside the window ever does (60_exceptions.md R469). -/
inductive Fault where
  /-- Raised by the port: an access at an offset outside the 1 MiB window, an address that does not exist on this engine
  (20_memory.md R80; log 8). Safe: the model stops where the engine is not concerned. -/
  | outsideWindow
  deriving DecidableEq, Repr

/-- Why an instruction has no meaning in the model. -/
inductive Refusal where
  /-- Raised by exec's arm of an instruction that is not modelled yet, by its mnemonic. Safe. No arm raises it now. -/
  | notModelled (mnemonic : String)
  deriving DecidableEq, Repr

/-- The outcome of one step of the engine. -/
abbrev Result := Host.Outcome State Fault Refusal

/-- The state after a power-on reset (70_reset_and_hazards.md R500): the unspecified memories hold draws 0 to 8. -/
def State.reset : State where
  ieDone := false
  ieErr := false
  done := false
  err := false
  cmdovr := false
  wovr := false
  code := .ok
  lastcmd := 0
  check := 0
  pfld := 0
  rowSize := 0
  nruns := 0
  dim0 := ⟨0, 0⟩
  dim1 := ⟨0, 0⟩
  arg := Vector.replicate 8 0
  res := Vector.replicate 8 0
  f := Vector.replicate 16 0
  ta := Vector.replicate 9 0
  tb := Vector.replicate 9 0
  cw := ⟨.drawn 0, []⟩
  syn := ⟨.drawn 1, []⟩
  eloc := ⟨.drawn 2, []⟩
  emag := ⟨.drawn 3, []⟩
  p0 := ⟨.zero, []⟩
  p1 := ⟨.zero, []⟩
  p2 := ⟨.zero, []⟩
  p3 := ⟨.zero, []⟩
  row := ⟨.drawn 4, []⟩
  odres := ⟨.drawn 5, []⟩
  run := ⟨.drawn 6, []⟩
  mat0 := ⟨.drawn 7, []⟩
  mat1 := ⟨.drawn 8, []⟩
  gen0 := [[1]]
  gen1 := [[1]]
  executor := .idle
  porHeld := false
  port := []
  latencies := []
  bus := .none
  draws := 9

end Sys2Proof.Machine
end

