-- ==== Sys2Proof/Machine/Ops.lean ====
section
/-!
DEFINITION. The named operations over the local memories and the registers, every read and write of which goes through
here, and completing a command, which on this engine is what taking an exception is (60_exceptions.md R461, R464, R469).
-/

namespace Sys2Proof.Machine

/-- What address `a` of a memory reads as when it is not listed (70_reset_and_hazards.md R500; log 4). -/
def Memory.unlisted (m : Memory) (a : Nat) : Byte :=
  match m.fill with
  | .zero => 0
  | .drawn k => Config.drawnByte k a

/-- The byte at address `a` of a local memory. -/
def Memory.byte (m : Memory) (a : Nat) : Byte :=
  match m.cells.lookup a with
  | some v => v
  | none => m.unlisted a

/-- Puts a byte in its place in a list of cells in rising address order. -/
def putCell (a : Nat) (v : Byte) : List Host.Cell → List Host.Cell
  | [] => [(a, v)]
  | (k, w) :: cs =>
    if a < k then (a, v) :: (k, w) :: cs
    else if a = k then (a, v) :: cs
    else (k, w) :: putCell a v cs

/-- Whether a byte is listed in a memory that reads `fill` elsewhere: over zeros a zero byte is not (log 5). -/
def Fill.lists (fill : Fill) (v : Byte) : Bool :=
  match fill with
  | .zero => v != 0
  | .drawn _ => true

/-- Writes the byte at address `a`. -/
def Memory.write (m : Memory) (a : Nat) (v : Byte) : Memory :=
  if m.fill.lists v then { m with cells := putCell a v m.cells }
  else { m with cells := m.cells.filter (fun c => c.1 != a) }

/-- The cells of the bytes `vs` from address `a` on. -/
def cellsFrom (fill : Fill) (a : Nat) : List Byte → List Host.Cell
  | [] => []
  | v :: vs => if fill.lists v then (a, v) :: cellsFrom fill (a + 1) vs else cellsFrom fill (a + 1) vs

/-- Writes the bytes `vs` at addresses `a`, `a + 1`, … -/
def Memory.overwrite (m : Memory) (a : Nat) (vs : List Byte) : Memory :=
  { m with
    cells := m.cells.filter (fun c => decide (c.1 < a)) ++ cellsFrom m.fill a vs ++
      m.cells.filter (fun c => decide (a + vs.length ≤ c.1)) }

/-- A memory of zeros. -/
def Memory.zeros : Memory := ⟨.zero, []⟩

/-- A memory whose contents are unspecified: draw number `k` (70_reset_and_hazards.md R500). -/
def Memory.fresh (k : Nat) : Memory := ⟨.drawn k, []⟩

/-- A memory written whole: the bytes `vs` from address 0 on, then zeros. -/
def Memory.ofBytes (vs : List Byte) : Memory := ⟨.zero, cellsFrom .zero 0 vs⟩

/-- The bytes at addresses 0 to `n - 1`. -/
def Memory.bytes (m : Memory) (n : Nat) : List Byte := (List.range n).map m.byte

/-- The canonical form of a local memory of `size` bytes (log 5): addresses strictly rising and inside the memory, and
no listed byte equal to what the unlisted rest is known to read as. -/
def Memory.wf (size : Nat) (m : Memory) : Bool :=
  decide ((m.cells.map (fun c => c.1)).Pairwise (· < ·)) &&
    m.cells.all (fun c => decide (c.1 < size) && m.fill.lists c.2)

/-- The 32-bit word `i` of a byte memory, little-endian (20_memory.md R82). -/
def Memory.word (m : Memory) (i : Nat) : Word :=
  (m.byte (4 * i + 3) ++ m.byte (4 * i + 2) ++ m.byte (4 * i + 1) ++ m.byte (4 * i) : BitVec (8 + 8 + 8 + 8))

/-- Byte `j` of a word: `v[8j+7:8j]` (20_memory.md R82). -/
def wordByte (v : Word) (j : Nat) : Byte := v.extractLsb' (8 * j) 8

/-- Writes the 32-bit word `i` of a byte memory, all four bytes together (20_memory.md R82). -/
def Memory.writeWord (m : Memory) (i : Nat) (v : Word) : Memory :=
  m.overwrite (4 * i) [wordByte v 0, wordByte v 1, wordByte v 2, wordByte v 3]

/-- The 16-bit entry `i` of a memory of 2-byte entries (20_memory.md R86). -/
def Memory.half (m : Memory) (i : Nat) : BitVec 16 :=
  (m.byte (2 * i + 1) ++ m.byte (2 * i) : BitVec (8 + 8))

/-- The two bytes of a 16-bit entry, low byte first. -/
def halfBytes (v : BitVec 16) : List Byte := [v.extractLsb' 0 8, v.extractLsb' 8 8]

/-- Writes the 16-bit entries `vs` from entry `i` on (20_memory.md R86). -/
def Memory.writeHalves (m : Memory) (i : Nat) (vs : List (BitVec 16)) : Memory :=
  m.overwrite (2 * i) (vs.flatMap halfBytes)

/-- Bit `i` of a memory: bit `i % 32` of word `i / 32` (20_memory.md R84), which is bit `i % 8` of byte `i / 8`. -/
def Memory.bit (m : Memory) (i : Nat) : Bool := (m.byte (i / 8)).getLsbD (i % 8)

/-- The byte `v` with bit `j` set to `b`. -/
def byteWithBit (v : Byte) (j : Nat) (b : Bool) : Byte :=
  if b then v ||| ((1 : Byte) <<< j) else v &&& ~~~((1 : Byte) <<< j)

/-- Writes bit `i` of a memory. -/
def Memory.setBit (m : Memory) (i : Nat) (b : Bool) : Memory :=
  m.write (i / 8) (byteWithBit (m.byte (i / 8)) (i % 8) b)

/-- Writes bits `i`, `i + 1`, …, `i + n - 1` of a memory. -/
def Memory.setBits (m : Memory) (i : Nat) : Nat → Bool → Memory
  | 0, _ => m
  | n + 1, b => (m.setBits i n b).setBit (i + n) b

/-- Byte `a` of the bit sequence `g`. -/
def byteOfBits (g : Nat → Bool) (a : Nat) : Byte :=
  (List.range 8).foldl (fun v j => v ||| (if g (8 * a + j) then (1 : Byte) <<< j else 0)) 0

/-- The first `n` bytes of the bit sequence `g`. -/
def bytesOfBits (n : Nat) (g : Nat → Bool) : List Byte := (List.range n).map (byteOfBits g)

/-- The memory of polynomial register r (10_state.md R52). -/
def State.poly (s : State) : PReg → Memory
  | .p0 => s.p0
  | .p1 => s.p1
  | .p2 => s.p2
  | .p3 => s.p3

/-- Writes the memory of polynomial register r. -/
def State.setPoly (s : State) (r : PReg) (m : Memory) : State :=
  match r with
  | .p0 => { s with p0 := m }
  | .p1 => { s with p1 := m }
  | .p2 => { s with p2 := m }
  | .p3 => { s with p3 := m }

/-- The field tag of polynomial register r (10_state.md R40). -/
def State.tag (s : State) (r : PReg) : Field := Field.ofBit (s.pfld.getLsbD r.num)

/-- Writes the field tag of polynomial register r (40_gf.md R172). -/
def State.setTag (s : State) (r : PReg) (f : Field) : State :=
  { s with
    pfld := if f.bit then s.pfld ||| ((1 : BitVec 4) <<< r.num) else s.pfld &&& ~~~((1 : BitVec 4) <<< r.num) }

/-- BitMatrix memory m (10_state.md R56). -/
def State.mat (s : State) : Mat → Memory
  | .m0 => s.mat0
  | .m1 => s.mat1

/-- Writes BitMatrix memory m. -/
def State.setMat (s : State) (m : Mat) (v : Memory) : State :=
  match m with
  | .m0 => { s with mat0 := v }
  | .m1 => { s with mat1 := v }

/-- MmDIM (10_state.md R44). -/
def State.dim (s : State) : Mat → Dim
  | .m0 => s.dim0
  | .m1 => s.dim1

/-- Writes MmDIM with width `w` and height `h`: `{h[15:0], w[15:0]}` (43_bitmatrix.md R300). -/
def State.setDim (s : State) (m : Mat) (w h : Nat) : State :=
  match m with
  | .m0 => { s with dim0 := ⟨BitVec.ofNat 16 w, BitVec.ofNat 16 h⟩ }
  | .m1 => { s with dim1 := ⟨BitVec.ofNat 16 w, BitVec.ofNat 16 h⟩ }

/-- The generator cache of a field (10_state.md R57). -/
def State.gen (s : State) : Field → List (List Byte)
  | .qr => s.gen0
  | .dm => s.gen1

/-- Writes the generator cache of a field. -/
def State.setGen (s : State) (f : Field) (g : List (List Byte)) : State :=
  match f with
  | .qr => { s with gen0 := g }
  | .dm => { s with gen1 := g }

/-- `GD_f`, the highest degree held in the generator cache (10_state.md R39). -/
def State.genDeg (s : State) (f : Field) : Nat := (s.gen f).length - 1

/-- `RES[i] <- v` (00_scope.md R9; 10_state.md R46). -/
def State.setRes (s : State) (i : Fin 8) (v : Word) : State := { s with res := s.res.set i v }

/-- `RES[i] <- zext_32(n)` for a number. -/
def State.setResNat (s : State) (i : Fin 8) (n : Nat) : State := s.setRes i (BitVec.ofNat 32 n)

/-- The failure of a command: its code and check number (00_scope.md R11). -/
structure Raise where
  code : Code
  check : Nat
  deriving DecidableEq, Repr

/-- `raise CODE(k)` (00_scope.md R11): no output of the command is kept. -/
def raise {α : Type} (c : Code) (k : Nat) : Except Raise α := .error ⟨c, k⟩

/-- The completion writes of a command that ends with code `c` and check `k` (60_exceptions.md R464). -/
def State.complete (s : State) (c : Code) (k : Nat) : State :=
  { s with
    code := c
    check := BitVec.ofNat 8 k
    done := true
    err := s.err || c != .ok
    executor := .idle }

/-- How a command ends (60_exceptions.md R461, R464): its outputs and code OK, or the state it found with its failure. -/
def finish (s : State) : Except Raise State → Result
  | .ok t => .next (t.complete .ok 0)
  | .error r => .next (s.complete r.code r.check)

/-- The completion of a word that fails decode check `k` (60_exceptions.md R462). -/
def illegalCommand (s : State) (k : Nat) : Result := finish s (raise .illegalCommand k)

end Sys2Proof.Machine
end

