-- ==== Sys2Proof/Machine/Control.lean ====
section
/-!
DEFINITION. The control command (spec 46_control.md R450).
-/

namespace Sys2Proof.Machine

/-- NOP (46_control.md R450): does nothing and completes OK. -/
def execNop (s : State) : Result := finish s (.ok s)

end Sys2Proof.Machine
end

