-- ==== Sys2Proof/Machine/Operands.lean ====
section
/-!
DEFINITION. How a command reads its operands (30_encoding.md R117; 00_scope.md R8): ARG registers as unsigned or
two's-complement numbers, numbers as field elements, the logical sizes.
-/

namespace Sys2Proof.Machine

/-- `uint(ARG[i])` (00_scope.md R8; 10_state.md R45). -/
def State.argU (s : State) (i : Fin 8) : Nat := (s.arg[i]).toNat

/-- `sint(ARG[i])` (00_scope.md R8; 10_state.md R45). -/
def State.argS (s : State) (i : Fin 8) : Int := (s.arg[i]).toInt

/-- The field element of a number in 0..255 (40_gf.md R157). -/
def element (n : Nat) : Byte := BitVec.ofNat 8 n

/-- `S = ROW_SIZE`, the logical size of the BitArray (10_state.md R42). -/
def State.size (s : State) : Nat := s.rowSize.toNat

/-- `W` of a BitMatrix (10_state.md R44). -/
def State.width (s : State) (m : Mat) : Nat := (s.dim m).w.toNat

/-- `H` of a BitMatrix (10_state.md R44). -/
def State.height (s : State) (m : Mat) : Nat := (s.dim m).h.toNat

/-- `rowSize = (W + 31) / 32`, the words of one matrix row (20_memory.md R85). -/
def rowWords (w : Nat) : Nat := (w + 31) / 32

/-- MAT[m] is initialised: W ≥ 1 and H ≥ 1 (43_bitmatrix.md R290). -/
def State.initialised (s : State) (m : Mat) : Bool := decide (1 ≤ s.width m) && decide (1 ≤ s.height m)

/-- `0 ≤ i < n` for a signed operand (42_bitarray.md R251; 43_bitmatrix.md R291). -/
def inRange (i : Int) (n : Nat) : Bool := decide (0 ≤ i) && decide (i < n)

end Sys2Proof.Machine
end

