-- ==== Sys2Proof/Machine/Flags.lean ====
section
/-!
DEFINITION. The engine's flags: the CTRL and STATUS words (10_state.md R34, R35), the result-code numbers
(60_exceptions.md R460), the write-1-to-clear bits and the interrupt output (60_exceptions.md R467, R468).
-/

namespace Sys2Proof.Machine

/-- The number of a result code (60_exceptions.md R460). -/
def Code.num : Code → Nat
  | .ok => 0
  | .notFound => 1
  | .format => 2
  | .checksum => 3
  | .illegalArgument => 4
  | .arithmetic => 5
  | .illegalCommand => 6

/-- STATUS.BUSY (10_state.md R35, R58). -/
def State.busy (s : State) : Bool :=
  match s.executor with
  | .idle => false
  | .running _ _ => true

/-- What CTRL reads as (10_state.md R34). -/
def State.ctrlWord (s : State) : Word := atBit 0 s.ieDone.toNat ||| atBit 1 s.ieErr.toNat

/-- What STATUS reads as (10_state.md R35). -/
def State.statusWord (s : State) : Word :=
  atBit 0 s.busy.toNat ||| atBit 1 s.done.toNat ||| atBit 2 s.err.toNat ||| atBit 3 s.cmdovr.toNat |||
    atBit 4 s.wovr.toNat ||| atBit 8 s.code.num

/-- A host write of `v` to STATUS: writing 1 clears a W1C bit, nothing else changes (10_state.md R35). -/
def State.clearStatus (s : State) (v : Word) : State :=
  { s with
    done := s.done && !v.getLsbD 1
    err := s.err && !v.getLsbD 2
    cmdovr := s.cmdovr && !v.getLsbD 3
    wovr := s.wovr && !v.getLsbD 4 }

/-- The IRQ output, level-sensitive (60_exceptions.md R467). -/
def State.irq (s : State) : Bool := (s.done && s.ieDone) || ((s.err || s.cmdovr || s.wovr) && s.ieErr)

end Sys2Proof.Machine
end

