-- ==== Sys2Proof/Machine/BitArray.lean ====
section
/-!
DEFINITION. The BitArray commands on ROW_MEM (spec 42_bitarray.md R250..R264). `S` is ROW_SIZE.
-/

namespace Sys2Proof.Machine

/-- The smallest i with `i ≥ from`, among `n` places, where the bit is `b`; none where there is none
(42_bitarray.md R262, R263). -/
def firstBit (g : Nat → Bool) (b : Bool) : Nat → Nat → Option Nat
  | _, 0 => none
  | i, n + 1 => if g i = b then some i else firstBit g b (i + 1) n

/-- The scan result: the first bit equal to `b` from `from` on inside the array, or S (42_bitarray.md R262, R263). -/
def State.scan (s : State) (b : Bool) (start : Nat) : Nat :=
  (firstBit s.row.bit b start (s.size - start)).getD s.size

/-- Every bit of `[start, end)` equals `b` (42_bitarray.md R261). -/
def State.rangeIs (s : State) (b : Bool) (start stop : Nat) : Bool :=
  (List.range' start (stop - start)).all (fun i => s.row.bit i == b)

/-- The half-open range of the operands ARG0, ARG1 is not `0 ≤ start ≤ end ≤ S` (42_bitarray.md R251). -/
def State.rangeBad (s : State) : Bool :=
  decide (s.argS 0 < 0) || decide (s.argS 1 < s.argS 0) || decide (s.argS 1 > s.size)

/-- The body of BA_GET (42_bitarray.md R255). -/
def baGetBody (s : State) : Except Raise State :=
  if inRange (s.argS 0) s.size = false then raise .illegalArgument 1
  else .ok (s.setResNat 0 (s.row.bit (s.argU 0)).toNat)

/-- BA_GET (42_bitarray.md R255). -/
def execBaGet (s : State) : Result := finish s (baGetBody s)

/-- The body of BA_SET (42_bitarray.md R256). -/
def baSetBody (s : State) : Except Raise State :=
  if inRange (s.argS 0) s.size = false then raise .illegalArgument 1
  else .ok { s with row := s.row.setBit (s.argU 0) true }

/-- BA_SET (42_bitarray.md R256). -/
def execBaSet (s : State) : Result := finish s (baSetBody s)

/-- The body of BA_FLIP (42_bitarray.md R257). -/
def baFlipBody (s : State) : Except Raise State :=
  if inRange (s.argS 0) s.size = false then raise .illegalArgument 1
  else .ok { s with row := s.row.setBit (s.argU 0) (!s.row.bit (s.argU 0)) }

/-- BA_FLIP (42_bitarray.md R257). -/
def execBaFlip (s : State) : Result := finish s (baFlipBody s)

/-- BA_CLEAR (42_bitarray.md R258): every word of ROW_MEM, S unchanged. -/
def execBaClear (s : State) : Result := finish s (.ok { s with row := Memory.zeros })

/-- The body of BA_SETRANGE (42_bitarray.md R259). -/
def baSetrangeBody (s : State) : Except Raise State :=
  if s.rangeBad then raise .illegalArgument 1
  else .ok { s with row := s.row.setBits (s.argU 0) (s.argU 1 - s.argU 0) true }

/-- BA_SETRANGE (42_bitarray.md R259). -/
def execBaSetrange (s : State) : Result := finish s (baSetrangeBody s)

/-- The body of BA_INIT (42_bitarray.md R260). -/
def baInitBody (s : State) : Except Raise State :=
  if s.argS 0 < 0 ∨ s.argS 0 > Config.rowBits then raise .illegalArgument 1
  else .ok { s with rowSize := BitVec.ofNat 13 (s.argU 0), row := Memory.zeros }

/-- BA_INIT (42_bitarray.md R260). -/
def execBaInit (s : State) : Result := finish s (baInitBody s)

/-- The body of BA_ISRANGE (42_bitarray.md R261). -/
def baIsrangeBody (s : State) : Except Raise State :=
  if s.rangeBad then raise .illegalArgument 1
  else if s.argU 2 > 1 then raise .illegalArgument 2
  else .ok (s.setResNat 0 (s.rangeIs (s.argU 2 == 1) (s.argU 0) (s.argU 1)).toNat)

/-- BA_ISRANGE (42_bitarray.md R261). -/
def execBaIsrange (s : State) : Result := finish s (baIsrangeBody s)

/-- The body of BA_NEXTSET (42_bitarray.md R262). -/
def baNextsetBody (s : State) : Except Raise State :=
  if s.argS 0 < 0 then raise .illegalArgument 1
  else .ok (s.setResNat 0 (s.scan true (s.argU 0)))

/-- BA_NEXTSET (42_bitarray.md R262). -/
def execBaNextset (s : State) : Result := finish s (baNextsetBody s)

/-- The body of BA_NEXTUNSET (42_bitarray.md R263). -/
def baNextunsetBody (s : State) : Except Raise State :=
  if s.argS 0 < 0 then raise .illegalArgument 1
  else .ok (s.setResNat 0 (s.scan false (s.argU 0)))

/-- BA_NEXTUNSET (42_bitarray.md R263). -/
def execBaNextunset (s : State) : Result := finish s (baNextunsetBody s)

/-- Bit `i` of the reversed array; padding is 0 (42_bitarray.md R264). -/
def State.reversedBit (s : State) (i : Nat) : Bool := decide (i < s.size) && s.row.bit (s.size - 1 - i)

/-- BA_REVERSE (42_bitarray.md R264): ROW_MEM is written whole. -/
def execBaReverse (s : State) : Result :=
  finish s (.ok { s with row := Memory.ofBytes (bytesOfBits ((s.size + 7) / 8) s.reversedBit) })

end Sys2Proof.Machine
end

