-- ==== Sys2Proof/Machine/BitMatrix.lean ====
section
/-!
DEFINITION. The BitMatrix commands (spec 43_bitmatrix.md R290..R312). `m` is the primary matrix, `W` and `H` its
dimensions; bit (x, y) is bit `32·rowSize·y + x` of its memory (20_memory.md R85).
-/

namespace Sys2Proof.Machine

/-- The place of bit (x, y) in a matrix of width `w`: bit `x % 32` of word `y·rowSize + x / 32` (20_memory.md R85). -/
def bitPlace (w x y : Nat) : Nat := 32 * (y * rowWords w) + x

/-- `MAT[m].bit(x, y)` (43_bitmatrix.md R290). -/
def State.matBit (s : State) (m : Mat) (x y : Nat) : Bool := (s.mat m).bit (bitPlace (s.width m) x y)

/-- `MAT[m].bit(x, y) <- b`. -/
def State.setMatBit (s : State) (m : Mat) (x y : Nat) (b : Bool) : State :=
  s.setMat m ((s.mat m).setBit (bitPlace (s.width m) x y) b)

/-- The bytes of the matrix region of a `w × h` matrix whose bit (x, y) is `g x y` inside and 0 in the padding
(20_memory.md R85; 43_bitmatrix.md R293). -/
def regionBytes (w h : Nat) (g : Nat → Nat → Bool) : List Byte :=
  bytesOfBits (4 * (rowWords w * h)) fun i =>
    decide (i % (32 * rowWords w) < w) && g (i % (32 * rowWords w)) (i / (32 * rowWords w))

/-- The checks on a point: initialised, then x, then y (43_bitmatrix.md R291, R292, R301). -/
def pointChecks (m : Mat) (s : State) (ok : State) : Except Raise State :=
  if s.initialised m = false then raise .illegalArgument 1
  else if inRange (s.argS 0) (s.width m) = false then raise .illegalArgument 2
  else if inRange (s.argS 1) (s.height m) = false then raise .illegalArgument 3
  else .ok ok

/-- The body of BM_INIT (43_bitmatrix.md R300). -/
def bmInitBody (m : Mat) (s : State) : Except Raise State :=
  if s.argS 0 < 1 ∨ s.argS 0 > Config.dimMax then raise .illegalArgument 1
  else if s.argS 1 < 1 ∨ s.argS 1 > Config.dimMax then raise .illegalArgument 2
  else if rowWords (s.argU 0) * s.argU 1 > Config.matWords then raise .illegalArgument 3
  else .ok ((s.setDim m (s.argU 0) (s.argU 1)).setMat m Memory.zeros)

/-- BM_INIT (43_bitmatrix.md R300). -/
def execBmInit (m : Mat) (s : State) : Result := finish s (bmInitBody m s)

/-- BM_GET (43_bitmatrix.md R301). -/
def execBmGet (m : Mat) (s : State) : Result :=
  finish s (pointChecks m s (s.setResNat 0 (s.matBit m (s.argU 0) (s.argU 1)).toNat))

/-- BM_SET (43_bitmatrix.md R302). -/
def execBmSet (m : Mat) (s : State) : Result :=
  finish s (pointChecks m s (s.setMatBit m (s.argU 0) (s.argU 1) true))

/-- BM_UNSET (43_bitmatrix.md R303). -/
def execBmUnset (m : Mat) (s : State) : Result :=
  finish s (pointChecks m s (s.setMatBit m (s.argU 0) (s.argU 1) false))

/-- BM_FLIP (43_bitmatrix.md R304). -/
def execBmFlip (m : Mat) (s : State) : Result :=
  finish s (pointChecks m s (s.setMatBit m (s.argU 0) (s.argU 1) (!s.matBit m (s.argU 0) (s.argU 1))))

/-- The body of BM_CLEAR (43_bitmatrix.md R305). -/
def bmClearBody (m : Mat) (s : State) : Except Raise State :=
  if s.initialised m = false then raise .illegalArgument 1
  else .ok (s.setMat m Memory.zeros)

/-- BM_CLEAR (43_bitmatrix.md R305). -/
def execBmClear (m : Mat) (s : State) : Result := finish s (bmClearBody m s)

/-- Sets the bits of rows `top` to `top + n - 1` from column `left`, `width` of them, to 1 (43_bitmatrix.md R306). -/
def fillRows (w left width top : Nat) : Nat → Memory → Memory
  | 0, v => v
  | n + 1, v => (fillRows w left width top n v).setBits (bitPlace w left (top + n)) width true

/-- The body of BM_SETREGION (43_bitmatrix.md R306); the sums are of mathematical integers. -/
def bmSetregionBody (m : Mat) (s : State) : Except Raise State :=
  if s.initialised m = false then raise .illegalArgument 1
  else if s.argS 0 < 0 ∨ s.argS 1 < 0 then raise .illegalArgument 2
  else if s.argS 2 < 1 ∨ s.argS 3 < 1 then raise .illegalArgument 3
  else if s.argS 0 + s.argS 2 > s.width m ∨ s.argS 1 + s.argS 3 > s.height m then raise .illegalArgument 4
  else .ok (s.setMat m (fillRows (s.width m) (s.argU 0) (s.argU 2) (s.argU 1) (s.argU 3) (s.mat m)))

/-- BM_SETREGION (43_bitmatrix.md R306). -/
def execBmSetregion (m : Mat) (s : State) : Result := finish s (bmSetregionBody m s)

/-- The body of BM_GETROW (43_bitmatrix.md R307): ROW_MEM is written whole. -/
def bmGetrowBody (m : Mat) (s : State) : Except Raise State :=
  if s.initialised m = false then raise .illegalArgument 1
  else if inRange (s.argS 0) (s.height m) = false then raise .illegalArgument 2
  else if s.width m > Config.rowBits then raise .illegalArgument 3
  else
    .ok { s with
      rowSize := BitVec.ofNat 13 (s.width m)
      row := Memory.ofBytes (bytesOfBits ((s.width m + 7) / 8)
        fun x => decide (x < s.width m) && s.matBit m x (s.argU 0)) }

/-- BM_GETROW (43_bitmatrix.md R307). -/
def execBmGetrow (m : Mat) (s : State) : Result := finish s (bmGetrowBody m s)

/-- The body of BM_ROT180 (43_bitmatrix.md R308): the matrix region is written, the words past it kept (R293). -/
def bmRot180Body (m : Mat) (s : State) : Except Raise State :=
  if s.initialised m = false then raise .illegalArgument 1
  else
    .ok (s.setMat m ((s.mat m).overwrite 0 (regionBytes (s.width m) (s.height m)
      fun x y => s.matBit m (s.width m - 1 - x) (s.height m - 1 - y))))

/-- BM_ROT180 (43_bitmatrix.md R308). -/
def execBmRot180 (m : Mat) (s : State) : Result := finish s (bmRot180Body m s)

/-- The body of BM_XOR (43_bitmatrix.md R309): the matrix region is written, the words past it kept (R293). -/
def bmXorBody (m : Mat) (s : State) : Except Raise State :=
  if s.initialised m = false then raise .illegalArgument 1
  else if s.initialised m.other = false then raise .illegalArgument 2
  else if s.dim m ≠ s.dim m.other then raise .illegalArgument 3
  else
    .ok (s.setMat m ((s.mat m).overwrite 0 (regionBytes (s.width m) (s.height m)
      fun x y => s.matBit m x y ^^ s.matBit m.other x y)))

/-- BM_XOR (43_bitmatrix.md R309). -/
def execBmXor (m : Mat) (s : State) : Result := finish s (bmXorBody m s)

/-- The body of BM_COPY (43_bitmatrix.md R310): every word and the dimensions. -/
def bmCopyBody (m : Mat) (s : State) : Except Raise State :=
  if s.initialised m = false then raise .illegalArgument 1
  else .ok ((s.setMat m.other (s.mat m)).setDim m.other (s.width m) (s.height m))

/-- BM_COPY (43_bitmatrix.md R310). -/
def execBmCopy (m : Mat) (s : State) : Result := finish s (bmCopyBody m s)

/-- The set in-bounds points of a matrix in row-major order (43_bitmatrix.md R311, R312). -/
def State.onPoints (s : State) (m : Mat) : List (Nat × Nat) :=
  (List.range (s.height m)).flatMap fun y =>
    ((List.range (s.width m)).filter fun x => s.matBit m x y).map fun x => (x, y)

/-- The results of a bounding query: the point and 1, or the source's null (43_bitmatrix.md R311, R312). -/
def State.putPoint (s : State) : Option (Nat × Nat) → State
  | some (x, y) => ((s.setResNat 0 x).setResNat 1 y).setResNat 2 1
  | none => ((s.setRes 0 0xFFFFFFFF).setRes 1 0xFFFFFFFF).setRes 2 0

/-- The body of BM_TOPLEFT (43_bitmatrix.md R311). -/
def bmTopleftBody (m : Mat) (s : State) : Except Raise State :=
  if s.initialised m = false then raise .illegalArgument 1
  else .ok (s.putPoint (s.onPoints m).head?)

/-- BM_TOPLEFT (43_bitmatrix.md R311). -/
def execBmTopleft (m : Mat) (s : State) : Result := finish s (bmTopleftBody m s)

/-- The body of BM_BOTRIGHT (43_bitmatrix.md R312). -/
def bmBotrightBody (m : Mat) (s : State) : Except Raise State :=
  if s.initialised m = false then raise .illegalArgument 1
  else .ok (s.putPoint (s.onPoints m).getLast?)

/-- BM_BOTRIGHT (43_bitmatrix.md R312). -/
def execBmBotright (m : Mat) (s : State) : Result := finish s (bmBotrightBody m s)

end Sys2Proof.Machine
end

