-- ==== Sys2Proof/Machine/F64.lean ====
section
/-!
DEFINITION. IEEE 754 binary64 arithmetic on 64-bit encodings (spec 44_sampler.md R330): every operation is computed
exactly on integers and rounded once, to nearest, ties to even. A finite value is a whole number of units of 2^-1074,
the smallest subnormal.
-/

namespace Sys2Proof.Machine

/-- The canonical NaN (44_sampler.md R330). -/
def fNaN : Dword := 0x7FF8000000000000

/-- `+0.0`. -/
def fZero : Dword := 0

/-- The literal `0.5`. -/
def fHalf : Dword := 0x3FE0000000000000

/-- The literal `1.0`. -/
def fOne : Dword := 0x3FF0000000000000

/-- The sign bit: true where the value is negative or -0.0. -/
def fSign (d : Dword) : Bool := d.getLsbD 63

/-- The biased exponent field. -/
def fExp (d : Dword) : Nat := (d.extractLsb' 52 11).toNat

/-- The fraction field. -/
def fFrac (d : Dword) : Nat := (d.extractLsb' 0 52).toNat

/-- The value is neither infinite nor NaN (44_sampler.md R346). -/
def fIsFinite (d : Dword) : Bool := fExp d != 2047

/-- The value is NaN. -/
def fIsNaN (d : Dword) : Bool := fExp d == 2047 && fFrac d != 0

/-- The value is +∞ or -∞. -/
def fIsInf (d : Dword) : Bool := fExp d == 2047 && fFrac d == 0

/-- The magnitude of a finite value in units of 2^-1074: the fraction for a subnormal, the fraction with its hidden bit
shifted by the exponent for a normal value. -/
def fMag (d : Dword) : Nat := if fExp d = 0 then fFrac d else (2 ^ 52 + fFrac d) * 2 ^ (fExp d - 1)

/-- The IEEE equality with 0.0: -0.0 equals it and NaN does not (44_sampler.md R334). -/
def fIsZero (d : Dword) : Bool := fIsFinite d && fMag d == 0

/-- The signed value of a finite value in units of 2^-1074. -/
def fVal (d : Dword) : Int := if fSign d then -(fMag d : Int) else (fMag d : Int)

/-- The unit of 1.0. -/
def fUnit : Nat := 2 ^ 1074

/-- The encoding of +∞ without its sign, above which no finite magnitude lies. -/
def fInfBits : Nat := 0x7FF0000000000000

/-- The places a magnitude of whole part `w` is shifted down to leave at most 53 significant bits. -/
def fShift (w : Nat) : Nat := Nat.log2 w - 52

/-- `num / den` rounded to the nearest integer, ties to even. -/
def roundHalfEven (num den : Nat) : Nat :=
  if 2 * (num % den) > den ∨ (2 * (num % den) = den ∧ (num / den) % 2 = 1) then num / den + 1 else num / den

/-- The 63-bit encoding of the magnitude `num / den` in units of 2^-1074, rounded to nearest, ties to even; the exponent
field and the hidden bit add up to `shift`, and an overflow is +∞ (44_sampler.md R330). -/
def roundMag (num den : Nat) : Nat :=
  min fInfBits (fShift (num / den) * 2 ^ 52 + roundHalfEven num (den * 2 ^ fShift (num / den)))

/-- A sign and a 63-bit magnitude. -/
def fPack (neg : Bool) (bits : Nat) : Dword := BitVec.ofNat 64 (neg.toNat * 2 ^ 63 + bits)

/-- The negation, used only inside subtraction. -/
def fNeg (d : Dword) : Dword := d ^^^ 0x8000000000000000

/-- `a + b` (44_sampler.md R330). -/
def fAdd (a b : Dword) : Dword :=
  if fIsNaN a ∨ fIsNaN b then fNaN
  else if fIsInf a then (if fIsInf b ∧ fSign a ≠ fSign b then fNaN else a)
  else if fIsInf b then b
  else if fVal a + fVal b = 0 then fPack (fSign a && fSign b) 0
  else fPack (decide (fVal a + fVal b < 0)) (roundMag (fVal a + fVal b).natAbs 1)

/-- `a - b` (44_sampler.md R330). -/
def fSub (a b : Dword) : Dword := fAdd a (fNeg b)

/-- `a × b` (44_sampler.md R330). -/
def fMul (a b : Dword) : Dword :=
  if fIsNaN a ∨ fIsNaN b then fNaN
  else if fIsInf a ∨ fIsInf b then
    (if fIsZero a ∨ fIsZero b then fNaN else fPack (fSign a ^^ fSign b) fInfBits)
  else fPack (fSign a ^^ fSign b) (roundMag (fMag a * fMag b) fUnit)

/-- `a ÷ b` (44_sampler.md R330). -/
def fDiv (a b : Dword) : Dword :=
  if fIsNaN a ∨ fIsNaN b then fNaN
  else if fIsInf a then (if fIsInf b then fNaN else fPack (fSign a ^^ fSign b) fInfBits)
  else if fIsInf b then fPack (fSign a ^^ fSign b) 0
  else if fIsZero b then (if fIsZero a then fNaN else fPack (fSign a ^^ fSign b) fInfBits)
  else fPack (fSign a ^^ fSign b) (roundMag (fMag a * fUnit) (fMag b))

/-- `trunc(v)` of a finite value, rounding toward zero (44_sampler.md R330, R346). -/
def fTrunc (d : Dword) : Int := if fSign d then -((fMag d / fUnit : Nat) : Int) else ((fMag d / fUnit : Nat) : Int)

/-- The exact conversion of a small integer (44_sampler.md R330). -/
def fOfNat (n : Nat) : Dword := fPack false (roundMag (n * fUnit) 1)

end Sys2Proof.Machine
end

