-- ==== Sys2Proof/Machine/Geometry.lean ====
section
/-!
DEFINITION. The perspective transform and its commands (spec 44_sampler.md R330..R342). A transform is nine binary64
values in the register order (a11, a21, a31, a12, a22, a32, a13, a23, a33); every expression is evaluated in the order
the rules write it.
-/

namespace Sys2Proof.Machine

/-- A 3×3 transform in register order (44_sampler.md R332). -/
abbrev Transform := Vector Dword 9

/-- `p + q + r`, that is `(p + q) + r` (44_sampler.md R335). -/
def fSum3 (p q r : Dword) : Dword := fAdd (fAdd p q) r

/-- `a×b - c×d`. -/
def fCross (a b c d : Dword) : Dword := fSub (fMul a b) (fMul c d)

/-- The denominator of `apply`: `a13 × x + a23 × y + a33` (44_sampler.md R332). -/
def applyDen (t : Transform) (x y : Dword) : Dword := fSum3 (fMul t[6] x) (fMul t[7] y) t[8]

/-- `apply(T, x, y)` (44_sampler.md R332). -/
def applyT (t : Transform) (x y : Dword) : Dword × Dword :=
  (fDiv (fSum3 (fMul t[0] x) (fMul t[1] y) t[2]) (applyDen t x y),
    fDiv (fSum3 (fMul t[3] x) (fMul t[4] y) t[5]) (applyDen t x y))

/-- A quadrilateral: its four corners' coordinates x0, y0, …, x3, y3 (44_sampler.md R331). -/
abbrev Quad := Vector Dword 8

/-- `x0 - x1 + x2 - x3` (44_sampler.md R334). -/
def quadSkew (a b c d : Dword) : Dword := fSub (fAdd (fSub a b) c) d

/-- The affine case of s2q (44_sampler.md R334). -/
def s2qAffine (q : Quad) : Transform :=
  #v[fSub q[2] q[0], fSub q[4] q[2], q[0], fSub q[3] q[1], fSub q[5] q[3], q[1], fZero, fZero, fOne]

/-- The projective case of s2q from a13 and a23 (44_sampler.md R334). DESIGN CHOICE (log 19), unsafe: x0 and y0, which the
rule returns with no operation on them, are copied bit for bit, a NaN payload too. -/
def s2qProjective (q : Quad) (a13 a23 : Dword) : Transform :=
  #v[fAdd (fSub q[2] q[0]) (fMul a13 q[2]), fAdd (fSub q[6] q[0]) (fMul a23 q[6]), q[0],
    fAdd (fSub q[3] q[1]) (fMul a13 q[3]), fAdd (fSub q[7] q[1]) (fMul a23 q[7]), q[1], a13, a23, fOne]

/-- a13 of the projective case: `(dx3 × dy2 - dx2 × dy3) ÷ den` (44_sampler.md R334). -/
def s2qA13 (dx1 dy1 dx2 dy2 dx3 dy3 : Dword) : Dword := fDiv (fCross dx3 dy2 dx2 dy3) (fCross dx1 dy2 dx2 dy1)

/-- a23 of the projective case: `(dx1 × dy3 - dx3 × dy1) ÷ den` (44_sampler.md R334). -/
def s2qA23 (dx1 dy1 dx2 dy2 dx3 dy3 : Dword) : Dword := fDiv (fCross dx1 dy3 dx3 dy1) (fCross dx1 dy2 dx2 dy1)

/-- The square-to-quadrilateral function `s2q` (44_sampler.md R334). -/
def s2q (q : Quad) : Transform :=
  if fIsZero (quadSkew q[0] q[2] q[4] q[6]) ∧ fIsZero (quadSkew q[1] q[3] q[5] q[7]) then s2qAffine q
  else
    s2qProjective q
      (s2qA13 (fSub q[2] q[4]) (fSub q[3] q[5]) (fSub q[6] q[4]) (fSub q[7] q[5])
        (quadSkew q[0] q[2] q[4] q[6]) (quadSkew q[1] q[3] q[5] q[7]))
      (s2qA23 (fSub q[2] q[4]) (fSub q[3] q[5]) (fSub q[6] q[4]) (fSub q[7] q[5])
        (quadSkew q[0] q[2] q[4] q[6]) (quadSkew q[1] q[3] q[5] q[7]))

/-- The adjoint `adj(T)` (44_sampler.md R335). -/
def adjT (t : Transform) : Transform :=
  #v[fCross t[4] t[8] t[7] t[5], fCross t[7] t[2] t[1] t[8], fCross t[1] t[5] t[4] t[2],
    fCross t[6] t[5] t[3] t[8], fCross t[0] t[8] t[6] t[2], fCross t[3] t[2] t[0] t[5],
    fCross t[3] t[7] t[6] t[4], fCross t[6] t[1] t[0] t[7], fCross t[0] t[4] t[3] t[1]]

/-- One element of a composition: `p×u + q×v + r×w`. -/
def fDot (p q r u v w : Dword) : Dword := fSum3 (fMul p u) (fMul q v) (fMul r w)

/-- The composition `times(T, U)`, U first (44_sampler.md R335). -/
def timesT (t u : Transform) : Transform :=
  #v[fDot t[0] t[1] t[2] u[0] u[3] u[6], fDot t[0] t[1] t[2] u[1] u[4] u[7], fDot t[0] t[1] t[2] u[2] u[5] u[8],
    fDot t[3] t[4] t[5] u[0] u[3] u[6], fDot t[3] t[4] t[5] u[1] u[4] u[7], fDot t[3] t[4] t[5] u[2] u[5] u[8],
    fDot t[6] t[7] t[8] u[0] u[3] u[6], fDot t[6] t[7] t[8] u[1] u[4] u[7], fDot t[6] t[7] t[8] u[2] u[5] u[8]]

/-- The quadrilateral F0..F7 (44_sampler.md R331). -/
def State.quadLow (s : State) : Quad := #v[s.f[0], s.f[1], s.f[2], s.f[3], s.f[4], s.f[5], s.f[6], s.f[7]]

/-- The quadrilateral F8..F15 (44_sampler.md R331). -/
def State.quadHigh (s : State) : Quad := #v[s.f[8], s.f[9], s.f[10], s.f[11], s.f[12], s.f[13], s.f[14], s.f[15]]

/-- PT_S2Q (44_sampler.md R336); a NaN x0 or y0 keeps its payload in TA2 or TA5 (log 19). -/
def execPtS2q (s : State) : Result := finish s (.ok { s with ta := s2q s.quadLow })

/-- PT_Q2S (44_sampler.md R337). -/
def execPtQ2s (s : State) : Result := finish s (.ok { s with ta := adjT (s2q s.quadLow) })

/-- PT_Q2Q (44_sampler.md R338). -/
def execPtQ2q (s : State) : Result :=
  finish s (.ok { s with ta := timesT (s2q s.quadHigh) (adjT (s2q s.quadLow)) })

/-- PT_ADJ (44_sampler.md R339). -/
def execPtAdj (s : State) : Result := finish s (.ok { s with ta := adjT s.ta })

/-- PT_TIMES (44_sampler.md R340). -/
def execPtTimes (s : State) : Result := finish s (.ok { s with ta := timesT s.ta s.tb })

/-- PT_COPY, bit for bit (44_sampler.md R341). -/
def execPtCopy (s : State) : Result := finish s (.ok { s with tb := s.ta })

/-- Eight points transformed (44_sampler.md R342). -/
def xformPoints (t : Transform) (f : Vector Dword 16) : Vector Dword 16 :=
  #v[(applyT t f[0] f[1]).1, (applyT t f[0] f[1]).2, (applyT t f[2] f[3]).1, (applyT t f[2] f[3]).2,
    (applyT t f[4] f[5]).1, (applyT t f[4] f[5]).2, (applyT t f[6] f[7]).1, (applyT t f[6] f[7]).2,
    (applyT t f[8] f[9]).1, (applyT t f[8] f[9]).2, (applyT t f[10] f[11]).1, (applyT t f[10] f[11]).2,
    (applyT t f[12] f[13]).1, (applyT t f[12] f[13]).2, (applyT t f[14] f[15]).1, (applyT t f[14] f[15]).2]

/-- PT_XFORM (44_sampler.md R342). -/
def execPtXform (s : State) : Result := finish s (.ok { s with f := xformPoints s.ta s.f })

end Sys2Proof.Machine
end

