-- ==== Sys2Proof/Machine/Grid.lean ====
section
/-!
DEFINITION. Grid sampling (spec 44_sampler.md R345..R347).
-/

namespace Sys2Proof.Machine

/-- `nudge(v, lim)` (44_sampler.md R346). -/
def nudge (v : Dword) (lim : Nat) : Except Raise Dword :=
  if fIsFinite v = false then raise .notFound 4
  else if fTrunc v < -1 ∨ fTrunc v > lim then raise .notFound 5
  else if fTrunc v = -1 then .ok fZero
  else if fTrunc v = lim then .ok (fOfNat (lim - 1))
  else .ok v

/-- The centre of module coordinate `i`: `i + 0.5` (44_sampler.md R345). -/
def moduleCentre (i : Nat) : Dword := fAdd (fOfNat i) fHalf

/-- The image bit that module (mx, my) samples, or the check its point fails, x before y (44_sampler.md R347). -/
def samplePoint (s : State) (m : Mat) (mx my : Nat) : Except Raise Bool :=
  (nudge (applyT s.ta (moduleCentre mx) (moduleCentre my)).1 (s.width m)).bind fun u =>
    (nudge (applyT s.ta (moduleCentre mx) (moduleCentre my)).2 (s.height m)).bind fun v =>
      .ok (s.matBit m (fTrunc u).toNat (fTrunc v).toNat)

/-- The samples of `n` modules of row `my` from column `mx` on, in order (44_sampler.md R347). -/
def sampleRow (s : State) (m : Mat) (my : Nat) : Nat → Nat → Except Raise (List Bool)
  | _, 0 => .ok []
  | mx, n + 1 =>
    (samplePoint s m mx my).bind fun b => (sampleRow s m my (mx + 1) n).bind fun bs => .ok (b :: bs)

/-- The samples of `n` rows from row `my` on, in order (44_sampler.md R347). -/
def sampleRows (s : State) (m : Mat) (dimX : Nat) : Nat → Nat → Except Raise (List (List Bool))
  | _, 0 => .ok []
  | my, n + 1 =>
    (sampleRow s m my 0 dimX).bind fun r => (sampleRows s m dimX (my + 1) n).bind fun rs => .ok (r :: rs)

/-- The commit of GRID_SAMPLE: every word of MAT[1-M], padding 0, and its dimensions (44_sampler.md R347). -/
def gridCommit (s : State) (m : Mat) (dimX dimY : Nat) (rows : List (List Bool)) : State :=
  (s.setDim m.other dimX dimY).setMat m.other
    (Memory.ofBytes (regionBytes dimX dimY fun x y => (rows.getD y []).getD x false))

/-- The body of GRID_SAMPLE (44_sampler.md R347). -/
def gridSampleBody (m : Mat) (s : State) : Except Raise State :=
  if s.initialised m = false then raise .illegalArgument 1
  else if s.argS 0 ≤ 0 ∨ s.argS 1 ≤ 0 then raise .notFound 2
  else if s.argS 0 > Config.dimMax ∨ s.argS 1 > Config.dimMax ∨
      rowWords (s.argU 0) * s.argU 1 > Config.matWords then raise .illegalArgument 3
  else
    (sampleRows s m (s.argU 0) 0 (s.argU 1)).bind fun rows =>
      .ok (gridCommit s m (s.argU 0) (s.argU 1) rows)

/-- GRID_SAMPLE (44_sampler.md R347). -/
def execGridSample (m : Mat) (s : State) : Result := finish s (gridSampleBody m s)

end Sys2Proof.Machine
end

