-- ==== Sys2Proof/Machine/Patterns.lean ====
section
/-!
DEFINITION. The constant state of the 1D matcher (spec 10_state.md R60): the parameters and the pattern tables of the five
symbologies (45_matcher.md R382, R383). The width lists alternate bar, space, … and start with a bar.
-/

namespace Sys2Proof.Machine

/-- Code 39: narrow 1, wide 2 (45_matcher.md R383). -/
def patCode39 : List (List Nat) :=
  [
    [[1, 1, 1, 2, 2, 1, 2, 1, 1], [2, 1, 1, 2, 1, 1, 1, 1, 2], [1, 1, 2, 2, 1, 1, 1, 1, 2], [2, 1, 2, 2, 1, 1, 1, 1, 1]],
    [[1, 1, 1, 2, 2, 1, 1, 1, 2], [2, 1, 1, 2, 2, 1, 1, 1, 1], [1, 1, 2, 2, 2, 1, 1, 1, 1], [1, 1, 1, 2, 1, 1, 2, 1, 2]],
    [[2, 1, 1, 2, 1, 1, 2, 1, 1], [1, 1, 2, 2, 1, 1, 2, 1, 1], [2, 1, 1, 1, 1, 2, 1, 1, 2], [1, 1, 2, 1, 1, 2, 1, 1, 2]],
    [[2, 1, 2, 1, 1, 2, 1, 1, 1], [1, 1, 1, 1, 2, 2, 1, 1, 2], [2, 1, 1, 1, 2, 2, 1, 1, 1], [1, 1, 2, 1, 2, 2, 1, 1, 1]],
    [[1, 1, 1, 1, 1, 2, 2, 1, 2], [2, 1, 1, 1, 1, 2, 2, 1, 1], [1, 1, 2, 1, 1, 2, 2, 1, 1], [1, 1, 1, 1, 2, 2, 2, 1, 1]],
    [[2, 1, 1, 1, 1, 1, 1, 2, 2], [1, 1, 2, 1, 1, 1, 1, 2, 2], [2, 1, 2, 1, 1, 1, 1, 2, 1], [1, 1, 1, 1, 2, 1, 1, 2, 2]],
    [[2, 1, 1, 1, 2, 1, 1, 2, 1], [1, 1, 2, 1, 2, 1, 1, 2, 1], [1, 1, 1, 1, 1, 1, 2, 2, 2], [2, 1, 1, 1, 1, 1, 2, 2, 1]],
    [[1, 1, 2, 1, 1, 1, 2, 2, 1], [1, 1, 1, 1, 2, 1, 2, 2, 1], [2, 2, 1, 1, 1, 1, 1, 1, 2], [1, 2, 2, 1, 1, 1, 1, 1, 2]],
    [[2, 2, 2, 1, 1, 1, 1, 1, 1], [1, 2, 1, 1, 2, 1, 1, 1, 2], [2, 2, 1, 1, 2, 1, 1, 1, 1], [1, 2, 2, 1, 2, 1, 1, 1, 1]],
    [[1, 2, 1, 1, 1, 1, 2, 1, 2], [2, 2, 1, 1, 1, 1, 2, 1, 1], [1, 2, 2, 1, 1, 1, 2, 1, 1], [1, 2, 1, 2, 1, 2, 1, 1, 1]],
    [[1, 2, 1, 2, 1, 1, 1, 2, 1], [1, 2, 1, 1, 1, 2, 1, 2, 1], [1, 1, 1, 2, 1, 2, 1, 2, 1], [1, 2, 1, 1, 2, 1, 2, 1, 1]] ].flatten

/-- Code 93 (45_matcher.md R383). -/
def patCode93 : List (List Nat) :=
  [
    [[1, 3, 1, 1, 1, 2], [1, 1, 1, 2, 1, 3], [1, 1, 1, 3, 1, 2], [1, 1, 1, 4, 1, 1]],
    [[1, 2, 1, 1, 1, 3], [1, 2, 1, 2, 1, 2], [1, 2, 1, 3, 1, 1], [1, 1, 1, 1, 1, 4]],
    [[1, 3, 1, 2, 1, 1], [1, 4, 1, 1, 1, 1], [2, 1, 1, 1, 1, 3], [2, 1, 1, 2, 1, 2]],
    [[2, 1, 1, 3, 1, 1], [2, 2, 1, 1, 1, 2], [2, 2, 1, 2, 1, 1], [2, 3, 1, 1, 1, 1]],
    [[1, 1, 2, 1, 1, 3], [1, 1, 2, 2, 1, 2], [1, 1, 2, 3, 1, 1], [1, 2, 2, 1, 1, 2]],
    [[1, 3, 2, 1, 1, 1], [1, 1, 1, 1, 2, 3], [1, 1, 1, 2, 2, 2], [1, 1, 1, 3, 2, 1]],
    [[1, 2, 1, 1, 2, 2], [1, 3, 1, 1, 2, 1], [2, 1, 2, 1, 1, 2], [2, 1, 2, 2, 1, 1]],
    [[2, 1, 1, 1, 2, 2], [2, 1, 1, 2, 2, 1], [2, 2, 1, 1, 2, 1], [2, 2, 2, 1, 1, 1]],
    [[1, 1, 2, 1, 2, 2], [1, 1, 2, 2, 2, 1], [1, 2, 2, 1, 2, 1], [1, 2, 3, 1, 1, 1]],
    [[1, 2, 1, 1, 3, 1], [3, 1, 1, 1, 1, 2], [3, 1, 1, 2, 1, 1], [3, 2, 1, 1, 1, 1]],
    [[1, 1, 2, 1, 3, 1], [1, 1, 3, 1, 2, 1], [2, 1, 1, 1, 3, 1], [1, 2, 1, 2, 2, 1]],
    [[3, 1, 2, 1, 1, 1], [3, 1, 1, 1, 2, 1], [1, 2, 2, 2, 1, 1], [1, 1, 1, 1, 4, 1]] ].flatten

/-- Code 128; entry 106 has a 7th width, the termination bar (45_matcher.md R383). -/
def patCode128 : List (List Nat) :=
  [
    [[2, 1, 2, 2, 2, 2], [2, 2, 2, 1, 2, 2], [2, 2, 2, 2, 2, 1], [1, 2, 1, 2, 2, 3]],
    [[1, 2, 1, 3, 2, 2], [1, 3, 1, 2, 2, 2], [1, 2, 2, 2, 1, 3], [1, 2, 2, 3, 1, 2]],
    [[1, 3, 2, 2, 1, 2], [2, 2, 1, 2, 1, 3], [2, 2, 1, 3, 1, 2], [2, 3, 1, 2, 1, 2]],
    [[1, 1, 2, 2, 3, 2], [1, 2, 2, 1, 3, 2], [1, 2, 2, 2, 3, 1], [1, 1, 3, 2, 2, 2]],
    [[1, 2, 3, 1, 2, 2], [1, 2, 3, 2, 2, 1], [2, 2, 3, 2, 1, 1], [2, 2, 1, 1, 3, 2]],
    [[2, 2, 1, 2, 3, 1], [2, 1, 3, 2, 1, 2], [2, 2, 3, 1, 1, 2], [3, 1, 2, 1, 3, 1]],
    [[3, 1, 1, 2, 2, 2], [3, 2, 1, 1, 2, 2], [3, 2, 1, 2, 2, 1], [3, 1, 2, 2, 1, 2]],
    [[3, 2, 2, 1, 1, 2], [3, 2, 2, 2, 1, 1], [2, 1, 2, 1, 2, 3], [2, 1, 2, 3, 2, 1]],
    [[2, 3, 2, 1, 2, 1], [1, 1, 1, 3, 2, 3], [1, 3, 1, 1, 2, 3], [1, 3, 1, 3, 2, 1]],
    [[1, 1, 2, 3, 1, 3], [1, 3, 2, 1, 1, 3], [1, 3, 2, 3, 1, 1], [2, 1, 1, 3, 1, 3]],
    [[2, 3, 1, 1, 1, 3], [2, 3, 1, 3, 1, 1], [1, 1, 2, 1, 3, 3], [1, 1, 2, 3, 3, 1]],
    [[1, 3, 2, 1, 3, 1], [1, 1, 3, 1, 2, 3], [1, 1, 3, 3, 2, 1], [1, 3, 3, 1, 2, 1]],
    [[3, 1, 3, 1, 2, 1], [2, 1, 1, 3, 3, 1], [2, 3, 1, 1, 3, 1], [2, 1, 3, 1, 1, 3]],
    [[2, 1, 3, 3, 1, 1], [2, 1, 3, 1, 3, 1], [3, 1, 1, 1, 2, 3], [3, 1, 1, 3, 2, 1]],
    [[3, 3, 1, 1, 2, 1], [3, 1, 2, 1, 1, 3], [3, 1, 2, 3, 1, 1], [3, 3, 2, 1, 1, 1]],
    [[3, 1, 4, 1, 1, 1], [2, 2, 1, 4, 1, 1], [4, 3, 1, 1, 1, 1], [1, 1, 1, 2, 2, 4]],
    [[1, 1, 1, 4, 2, 2], [1, 2, 1, 1, 2, 4], [1, 2, 1, 4, 2, 1], [1, 4, 1, 1, 2, 2]],
    [[1, 4, 1, 2, 2, 1], [1, 1, 2, 2, 1, 4], [1, 1, 2, 4, 1, 2], [1, 2, 2, 1, 1, 4]],
    [[1, 2, 2, 4, 1, 1], [1, 4, 2, 1, 1, 2], [1, 4, 2, 2, 1, 1], [2, 4, 1, 2, 1, 1]],
    [[2, 2, 1, 1, 1, 4], [4, 1, 3, 1, 1, 1], [2, 4, 1, 1, 1, 2], [1, 3, 4, 1, 1, 1]],
    [[1, 1, 1, 2, 4, 2], [1, 2, 1, 1, 4, 2], [1, 2, 1, 2, 4, 1], [1, 1, 4, 2, 1, 2]],
    [[1, 2, 4, 1, 1, 2], [1, 2, 4, 2, 1, 1], [4, 1, 1, 2, 1, 2], [4, 2, 1, 1, 1, 2]],
    [[4, 2, 1, 2, 1, 1], [2, 1, 2, 1, 4, 1], [2, 1, 4, 1, 2, 1], [4, 1, 2, 1, 2, 1]],
    [[1, 1, 1, 1, 4, 3], [1, 1, 1, 3, 4, 1], [1, 3, 1, 1, 4, 1], [1, 1, 4, 1, 1, 3]],
    [[1, 1, 4, 3, 1, 1], [4, 1, 1, 1, 1, 3], [4, 1, 1, 3, 1, 1], [1, 1, 3, 1, 4, 1]],
    [[1, 1, 4, 1, 3, 1], [3, 1, 1, 1, 4, 1], [4, 1, 1, 1, 3, 1], [2, 1, 1, 4, 1, 2]],
    [[2, 1, 1, 2, 1, 4], [2, 1, 1, 2, 3, 2], [2, 3, 3, 1, 1, 1, 2]] ].flatten

/-- ITF: narrow 1, wide 2 (45_matcher.md R383). -/
def patItf : List (List Nat) :=
  [
    [[1, 1, 2, 2, 1], [2, 1, 1, 1, 2], [1, 2, 1, 1, 2], [2, 2, 1, 1, 1]],
    [[1, 1, 2, 1, 2], [2, 1, 2, 1, 1], [1, 2, 2, 1, 1], [1, 1, 1, 2, 2]],
    [[2, 1, 1, 2, 1], [1, 2, 1, 2, 1]] ].flatten

/-- Codabar: narrow 1, wide 2 (45_matcher.md R383). -/
def patCodabar : List (List Nat) :=
  [
    [[1, 1, 1, 1, 1, 2, 2], [1, 1, 1, 1, 2, 2, 1], [1, 1, 1, 2, 1, 1, 2], [2, 2, 1, 1, 1, 1, 1]],
    [[1, 1, 2, 1, 1, 2, 1], [2, 1, 1, 1, 1, 2, 1], [1, 2, 1, 1, 1, 1, 2], [1, 2, 1, 1, 2, 1, 1]],
    [[1, 2, 2, 1, 1, 1, 1], [2, 1, 1, 2, 1, 1, 1], [1, 1, 1, 2, 2, 1, 1], [1, 1, 2, 2, 1, 1, 1]],
    [[2, 1, 1, 1, 2, 1, 2], [2, 1, 2, 1, 1, 1, 2], [2, 1, 2, 1, 2, 1, 1], [1, 1, 2, 1, 2, 1, 2]],
    [[1, 1, 2, 2, 1, 2, 1], [1, 2, 1, 2, 1, 1, 2], [1, 1, 1, 2, 1, 2, 2], [1, 1, 1, 2, 2, 2, 1]] ].flatten

/-- `T_SYM`, the pattern table of a symbology (45_matcher.md R383). -/
def patterns : Sym → List (List Nat)
  | .code39 => patCode39
  | .code93 => patCode93
  | .code128 => patCode128
  | .itf => patItf
  | .codabar => patCodabar

/-- `K`, the elements in one character (45_matcher.md R382). -/
def symK : Sym → Nat
  | .code39 => 9
  | .code93 => 6
  | .code128 => 6
  | .itf => 5
  | .codabar => 7

/-- The number of entries of a pattern table (45_matcher.md R382). -/
def symEntries : Sym → Nat
  | .code39 => 44
  | .code93 => 48
  | .code128 => 107
  | .itf => 10
  | .codabar => 20

/-- The START set; ITF has a start pattern instead (45_matcher.md R382). -/
def symStart : Sym → List Nat
  | .code39 => [43]
  | .code93 => [47]
  | .code128 => [103, 104, 105]
  | .itf => []
  | .codabar => [16, 17, 18, 19]

/-- The STOP set; ITF has an end pattern instead (45_matcher.md R382). -/
def symStop : Sym → List Nat
  | .code39 => [43]
  | .code93 => [47]
  | .code128 => [106]
  | .itf => []
  | .codabar => [16, 17, 18, 19]

/-- `GAP`, the gap runs after each character (45_matcher.md R382); ITF has none. -/
def symGap : Sym → Nat
  | .code39 => 1
  | .code93 => 0
  | .code128 => 0
  | .itf => 0
  | .codabar => 1

/-- `TERM = 1`: one termination bar follows the stop character (45_matcher.md R382). -/
def symTerm : Sym → Bool
  | .code39 => false
  | .code93 => true
  | .code128 => true
  | .itf => false
  | .codabar => false

/-- `MAX_AVG` (45_matcher.md R382). -/
def symMaxAvg : Sym → Nat
  | .code39 => 107
  | .code93 => 64
  | .code128 => 64
  | .itf => 107
  | .codabar => 107

/-- `MAX_IND` (45_matcher.md R382). -/
def symMaxInd : Sym → Nat
  | .code39 => 204
  | .code93 => 179
  | .code128 => 179
  | .itf => 204
  | .codabar => 204

/-- `QZ`, the quiet-zone factor (45_matcher.md R382). -/
def symQz : Sym → Nat
  | .code39 => 2
  | .code93 => 2
  | .code128 => 2
  | .itf => 10
  | .codabar => 2

/-- The start pattern of ITF (45_matcher.md R382). -/
def itfStart : List Nat := [1, 1, 1, 1]

/-- The end pattern of ITF (45_matcher.md R382). -/
def itfEnd : List Nat := [2, 1, 1]

end Sys2Proof.Machine
end

