-- ==== Sys2Proof/Machine/Matcher.lean ====
section
/-!
DEFINITION. The one-dimensional pattern matcher (spec 45_matcher.md R380..R398): runs, matching primitives, decoding
procedures, validation and the OD commands. Loops carry a count of passes that is always enough, since each pass moves
on by at least one run (70_reset_and_hazards.md R510).
-/

namespace Sys2Proof.Machine

/-- A run of equal bits: its first position `P[k]` and its length `R[k]` (45_matcher.md R381). -/
structure Run where
  pos : Nat
  len : Nat
  deriving DecidableEq, Repr

/-- The runs of the `n` bits from `i` on, inside a run of colour `b` that began at `p` and is `len` long so far
(45_matcher.md R381). -/
def runsFrom (g : Nat → Bool) (p len : Nat) (b : Bool) : Nat → Nat → List Run
  | _, 0 => [⟨p, len⟩]
  | i, n + 1 =>
    if g i = b then runsFrom g p (len + 1) b (i + 1) n else ⟨p, len⟩ :: runsFrom g i 1 (g i) (i + 1) n

/-- The runs of `runs(START)`; the first is black, and there is none where the row is white from START on
(45_matcher.md R381). -/
def State.runsOf (s : State) (start : Nat) : List Run :=
  if s.scan true start < s.size then
    runsFrom s.row.bit (s.scan true start) 1 true (s.scan true start + 1) (s.size - (s.scan true start + 1))
  else []

/-- `P[k]`. -/
def runPos (rs : List Run) (k : Nat) : Nat := (rs.getD k ⟨0, 0⟩).pos

/-- `P[k] + R[k]`, one past the last position of run k. -/
def runEnd (rs : List Run) (k : Nat) : Nat := (rs.getD k ⟨0, 0⟩).pos + (rs.getD k ⟨0, 0⟩).len

/-- The lengths `R[k..k+n-1]`. -/
def runLens (rs : List Run) (k n : Nat) : List Nat := ((rs.drop k).take n).map Run.len

/-- The difference of one element, `| (count << 8) - ref·unit |` (45_matcher.md R384). -/
def pmvDiff (unit count ref : Nat) : Nat := ((256 * count : Int) - (ref * unit : Int)).natAbs

/-- The sum of the differences, none where one is above `lim` (45_matcher.md R384). -/
def pmvSum (unit lim : Nat) : List (Nat × Nat) → Option Nat
  | [] => some 0
  | (c, r) :: rest =>
    if pmvDiff unit c r > lim then none else (pmvSum unit lim rest).map (fun t => pmvDiff unit c r + t)

/-- The pattern match variance PMV, none for INF (45_matcher.md R384). -/
def pmv (counts ref : List Nat) (maxInd : Nat) : Option Nat :=
  if counts.sum < ref.sum then none
  else
    (pmvSum (256 * counts.sum / ref.sum) (maxInd * (256 * counts.sum / ref.sum) / 256) (counts.zip ref)).map
      (fun tv => tv / counts.sum)

/-- The first K widths of entry `v` (45_matcher.md R385). -/
def symRef (sym : Sym) (v : Nat) : List Nat := ((patterns sym).getD v []).take (symK sym)

/-- One entry tried against the best so far: a strictly lower variance wins (45_matcher.md R385). -/
def bestStep (sym : Sym) (counts : List Nat) (acc : Option Nat × Nat) (v : Nat) : Option Nat × Nat :=
  match pmv counts (symRef sym v) (symMaxInd sym) with
  | none => acc
  | some x => if x < acc.2 then (some v, x) else acc

/-- `best(counts, E)`: the best entry, if any, and its variance (45_matcher.md R385). -/
def best (sym : Sym) (counts entries : List Nat) : Option Nat × Nat :=
  entries.foldl (bestStep sym counts) (none, symMaxAvg sym)

/-- `best(R[k..k+K-1], E)`, nothing past the end of the runs (45_matcher.md R385). -/
def bestAt (sym : Sym) (rs : List Run) (k : Nat) (entries : List Nat) : Option Nat × Nat :=
  if k + symK sym > rs.length then (none, symMaxAvg sym) else best sym (runLens rs k (symK sym)) entries

/-- Every entry of a table, in ascending order. -/
def allEntries (sym : Sym) : List Nat := List.range (symEntries sym)

/-- `zeros_before(p)` (45_matcher.md R386). -/
def zerosBefore (g : Nat → Bool) : Nat → Nat
  | 0 => 0
  | p + 1 => if g p then 0 else zerosBefore g p + 1

/-- `zeros_after(p)`, among the `n` bits from p to the row's end (45_matcher.md R386). -/
def zerosAfter (g : Nat → Bool) : Nat → Nat → Nat
  | _, 0 => 0
  | p, n + 1 => if g p then 0 else zerosAfter g (p + 1) n + 1

/-- `quiet_before(p, W)` (45_matcher.md R386). -/
def State.quietBefore (s : State) (sym : Sym) (p w : Nat) : Bool :=
  decide (zerosBefore s.row.bit p ≥ min p (w * symQz sym / 4))

/-- `quiet_after(p, W)` (45_matcher.md R386). -/
def State.quietAfter (s : State) (sym : Sym) (p w : Nat) : Bool :=
  decide (zerosAfter s.row.bit p (s.size - p) ≥ min (s.size - p) (w * symQz sym / 4))

/-- The start search from run `j`, giving the run and the start character (45_matcher.md R387). -/
def findStart (s : State) (sym : Sym) (rs : List Run) : Nat → Nat → Except Raise (Nat × Nat)
  | 0, _ => raise .notFound 3
  | n + 1, j =>
    if j + symK sym > rs.length then raise .notFound 3
    else
      match (bestAt sym rs j (symStart sym)).1 with
      | none => findStart s sym rs n (j + 2)
      | some v =>
        if s.quietBefore sym (runPos rs j) (runEnd rs (j + symK sym - 1) - runPos rs j) then .ok (j, v)
        else findStart s sym rs n (j + 2)

/-- The character loop from run `c` with the symbols so far, giving the stop character's run and all symbols
(45_matcher.md R388). -/
def charLoop (sym : Sym) (rs : List Run) : Nat → Nat → List Nat → Except Raise (Nat × List Nat)
  | 0, _, _ => raise .notFound 4
  | n + 1, c, syms =>
    match (bestAt sym rs c (allEntries sym)).1 with
    | none => raise .notFound 4
    | some v =>
      if syms.length = Config.resMax then raise .notFound 5
      else if v ∈ symStop sym then .ok (c, syms ++ [v])
      else charLoop sym rs n (c + symK sym + symGap sym) (syms ++ [v])

/-- What a decoding procedure gives (45_matcher.md R388, R389, R397). -/
structure Decoded where
  syms : List Nat
  sb : Nat
  se : Nat
  pb : Nat
  pe : Nat
  deriving DecidableEq, Repr

/-- The last run of the stop pattern: the termination bar where there is one (45_matcher.md R388). -/
def lastRun (sym : Sym) (c : Nat) : Nat := if symTerm sym then c + symK sym else c + symK sym - 1

/-- The end checks, on the termination bar and the trailing quiet zone, for a start at run `j` and a stop character at
run `c` (45_matcher.md R388). -/
def endChecks (s : State) (sym : Sym) (rs : List Run) (j c : Nat) (syms : List Nat) : Except Raise Decoded :=
  if symTerm sym = true ∧ c + symK sym ≥ rs.length then raise .notFound 6
  else if s.quietAfter sym (runEnd rs (lastRun sym c)) (runEnd rs (lastRun sym c) - runPos rs c) = false then
    raise .notFound 7
  else .ok ⟨syms, runPos rs j, runEnd rs (j + symK sym - 1), runPos rs c, runEnd rs (lastRun sym c)⟩

/-- The common procedure, for SYM ≠ ITF (45_matcher.md R387, R388). -/
def decodeChars (s : State) (sym : Sym) (rs : List Run) : Except Raise Decoded :=
  (findStart s sym rs (rs.length + 1) 0).bind fun js =>
    (charLoop sym rs (rs.length + 1) (js.1 + symK sym + symGap sym) [js.2]).bind fun cs =>
      endChecks s sym rs js.1 cs.1 cs.2

/-- A pattern of fixed widths matches at run `k` (45_matcher.md R389). -/
def fixedAt (rs : List Run) (k : Nat) (ref : List Nat) : Bool :=
  match pmv (runLens rs k ref.length) ref (symMaxInd .itf) with
  | none => false
  | some x => decide (x < symMaxAvg .itf)

/-- The start search of ITF (45_matcher.md R389). -/
def itfFindStart (s : State) (rs : List Run) : Nat → Nat → Except Raise Nat
  | 0, _ => raise .notFound 3
  | n + 1, j =>
    if j + 4 > rs.length then raise .notFound 3
    else if fixedAt rs j itfStart ∧ s.quietBefore .itf (runPos rs j) (runEnd rs (j + 3) - runPos rs j) then .ok j
    else itfFindStart s rs n (j + 2)

/-- The end pattern of ITF with its quiet zone is at run `c` (45_matcher.md R389). -/
def itfEndAt (s : State) (rs : List Run) (c : Nat) : Bool :=
  decide (c + 3 ≤ rs.length) && fixedAt rs c itfEnd &&
    s.quietAfter .itf (runEnd rs (c + 2)) (runEnd rs (c + 2) - runPos rs c)

/-- The digit on every second of the ten runs from `k` on (45_matcher.md R389). -/
def itfDigit (rs : List Run) (k : Nat) : Option Nat :=
  (best .itf ((List.range 5).map fun i => (rs.getD (k + 2 * i) ⟨0, 0⟩).len) (allEntries .itf)).1

/-- The pair loop of ITF, giving the end pattern's run and the digits (45_matcher.md R389). -/
def itfPairs (s : State) (rs : List Run) : Nat → Nat → List Nat → Except Raise (Nat × List Nat)
  | 0, _, _ => raise .notFound 4
  | n + 1, c, syms =>
    if itfEndAt s rs c then .ok (c, syms)
    else if c + 10 > rs.length then raise .notFound 4
    else
      match itfDigit rs c, itfDigit rs (c + 1) with
      | some d1, some d2 =>
        if syms.length + 2 > Config.resMax then raise .notFound 5
        else itfPairs s rs n (c + 10) (syms ++ [d1, d2])
      | _, _ => raise .notFound 4

/-- The end of the ITF procedure: at least one digit pair (45_matcher.md R389, R395). -/
def itfFinish (rs : List Run) (j c : Nat) (syms : List Nat) : Except Raise Decoded :=
  if syms.length = 0 then raise .notFound 8
  else .ok ⟨syms, runPos rs j, runEnd rs (j + 3), runPos rs c, runEnd rs (c + 2)⟩

/-- The ITF procedure (45_matcher.md R389). -/
def decodeItf (s : State) (rs : List Run) : Except Raise Decoded :=
  (itfFindStart s rs (rs.length + 1) 0).bind fun j =>
    (itfPairs s rs (rs.length + 1) (j + 4) []).bind fun cs => itfFinish rs j cs.1 cs.2

/-- `data`, the symbols without the start and stop characters (45_matcher.md section 5). -/
def symData (syms : List Nat) : List Nat := (syms.drop 1).dropLast

/-- `Σ i·data[i-1]` with weights from `w` on (45_matcher.md R394). -/
def weightedSum : Nat → List Nat → Nat
  | _, [] => 0
  | w, d :: ds => w * d + weightedSum (w + 1) ds

/-- The weighted sum of Code 93, over the data before the check value from the last back, the weight going back to 1
after `wmax` (45_matcher.md R393). -/
def code93Sum (wmax : Nat) : Nat → List Nat → Nat
  | _, [] => 0
  | w, d :: ds => w * d + code93Sum wmax (if w + 1 > wmax then 1 else w + 1) ds

/-- `check(cp, wmax)` of Code 93 (45_matcher.md R393). -/
def code93Check (data : List Nat) (cp wmax : Nat) : Bool :=
  data.getD cp 0 == code93Sum wmax 1 (data.take cp).reverse % 47

/-- The validation of Code 39 (45_matcher.md R392). -/
def validate39 (chk : Bool) (data : List Nat) : Except Raise Unit :=
  if data.length = 0 then raise .notFound 8
  else if chk = true ∧ data.dropLast.sum % 43 ≠ data.getD (data.length - 1) 0 then raise .checksum 10
  else .ok ()

/-- The validation of Code 93 (45_matcher.md R393). -/
def validate93 (data : List Nat) : Except Raise Unit :=
  if data.length < 2 then raise .notFound 8
  else if code93Check data (data.length - 2) 20 = false then raise .checksum 10
  else if code93Check data (data.length - 1) 15 = false then raise .checksum 11
  else .ok ()

/-- The validation of Code 128 (45_matcher.md R394). -/
def validate128 (syms : List Nat) : Except Raise Unit :=
  if (symData syms).length < 1 then raise .notFound 8
  else if (symData syms).any (fun v => decide (103 ≤ v) && decide (v ≤ 105)) then raise .format 9
  else if (syms.getD 0 0 + weightedSum 1 (symData syms).dropLast) % 103 ≠
      (symData syms).getD ((symData syms).length - 1) 0 then raise .checksum 10
  else .ok ()

/-- The validation of Codabar (45_matcher.md R396). -/
def validateCodabar (data : List Nat) : Except Raise Unit :=
  if data.length < 1 then raise .notFound 8 else .ok ()

/-- `validate(SYM, CHK, syms)`; ITF's only validation is in its procedure (45_matcher.md R392..R396). -/
def validate (sym : Sym) (chk : Bool) (syms : List Nat) : Except Raise Unit :=
  match sym with
  | .code39 => validate39 chk (symData syms)
  | .code93 => validate93 (symData syms)
  | .code128 => validate128 syms
  | .itf => .ok ()
  | .codabar => validateCodabar (symData syms)

/-- The decoding procedure of a symbology (45_matcher.md R397). -/
def decodeRuns (s : State) (sym : Sym) (rs : List Run) : Except Raise Decoded :=
  match sym with
  | .itf => decodeItf s rs
  | _ => decodeChars s sym rs

/-- One row decoded in one symbology, checks 1 to 11 (45_matcher.md R397). -/
def decodeRow (s : State) (sym : Sym) (chk : Bool) : Except Raise Decoded :=
  if s.argU 0 > s.size then raise .illegalArgument 1
  else if (s.runsOf (s.argU 0)).length = 0 then raise .notFound 2
  else
    (decodeRuns s sym (s.runsOf (s.argU 0))).bind fun d => (validate sym chk d.syms).bind fun _ => .ok d

/-- The outputs of a decoded symbol (45_matcher.md R397). -/
def odCommit (s : State) (sym : Sym) (d : Decoded) : State :=
  (((((({ s with odres := Memory.ofBytes (d.syms.map (BitVec.ofNat 8)) }.setResNat 0 d.syms.length).setResNat 1
    d.sb).setResNat 2 d.se).setResNat 3 d.pb).setResNat 4 d.pe).setResNat 5 sym.num)

/-- The body of OD_RUNS (45_matcher.md R390). DEDUCED (log 18), unsafe: START = S is no error with ROWSIZE = 0 either, against
a remark of 70_reset_and_hazards.md R500. -/
def odRunsBody (s : State) : Except Raise State :=
  if s.argU 0 > s.size then raise .illegalArgument 1
  else
    .ok (({ s with
      run := s.run.writeHalves 0 ((s.runsOf (s.argU 0)).map fun r : Run => BitVec.ofNat 16 r.len)
      nruns := BitVec.ofNat 13 (s.runsOf (s.argU 0)).length }.setResNat 0
        (s.runsOf (s.argU 0)).length).setResNat 1 (s.scan true (s.argU 0)))

/-- OD_RUNS (45_matcher.md R390). -/
def execOdRuns (s : State) : Result := finish s (odRunsBody s)

/-- How far apart the runs of one character are in RUN_MEM: ITF takes every second (45_matcher.md R391). -/
def matchStride : Sym → Nat
  | .itf => 2
  | _ => 1

/-- How many runs a match takes up: K, or 9 for ITF (45_matcher.md R391). -/
def matchSpan : Sym → Nat
  | .itf => 9
  | sym => symK sym

/-- The lengths of one character in RUN_MEM from run `j` on (45_matcher.md R391). -/
def State.runCounts (s : State) (sym : Sym) (j : Nat) : List Nat :=
  (List.range (symK sym)).map fun i => (s.run.half (j + matchStride sym * i)).toNat

/-- The results of a match (45_matcher.md R391). -/
def putMatch (s : State) : Option Nat × Nat → Except Raise State
  | (none, _) => raise .notFound 3
  | (some v, x) => .ok ((s.setResNat 0 v).setResNat 1 x)

/-- The body of OD_PMATCH (45_matcher.md R391). DEDUCED (log 18), unsafe: it has no check on ROWSIZE, against a remark of
70_reset_and_hazards.md R500. -/
def odPmatchBody (sym : Sym) (s : State) : Except Raise State :=
  if s.nruns.toNat > Config.runMax then raise .illegalArgument 1
  else if s.argU 0 + matchSpan sym > s.nruns.toNat then raise .notFound 2
  else putMatch s (best sym (s.runCounts sym (s.argU 0)) (allEntries sym))

/-- OD_PMATCH (45_matcher.md R391). -/
def execOdPmatch (sym : Sym) (s : State) : Result := finish s (odPmatchBody sym s)

/-- The body of OD_DECODE (45_matcher.md R397). -/
def odDecodeBody (chk : Bool) (sym : Sym) (s : State) : Except Raise State :=
  (decodeRow s sym chk).bind fun d => .ok (odCommit s sym d)

/-- OD_DECODE (45_matcher.md R397). -/
def execOdDecode (chk : Bool) (sym : Sym) (s : State) : Result := finish s (odDecodeBody chk sym s)

/-- The symbologies in SYM order (45_matcher.md R398). -/
def allSyms : List Sym := [.code39, .code93, .code128, .itf, .codabar]

/-- CHK as OD_MULTI passes it on: only Code 39 has it (45_matcher.md R398). -/
def multiChk (chk : Bool) (sym : Sym) : Bool := chk && sym == .code39

/-- The first enabled symbology of a list that decodes the row; a failed attempt goes on to the next
(45_matcher.md R398). -/
def multiTry (s : State) (chk : Bool) (en : BitVec 5) : List Sym → Except Raise State
  | [] => raise .notFound 2
  | sym :: rest =>
    if en.getLsbD sym.num then
      match decodeRow s sym (multiChk chk sym) with
      | .ok d => .ok (odCommit s sym d)
      | .error _ => multiTry s chk en rest
    else multiTry s chk en rest

/-- The body of OD_MULTI (45_matcher.md R398). -/
def odMultiBody (chk : Bool) (en : BitVec 5) (s : State) : Except Raise State :=
  if s.argU 0 > s.size then raise .illegalArgument 1 else multiTry s chk en allSyms

/-- OD_MULTI (45_matcher.md R398). -/
def execOdMulti (chk : Bool) (en : BitVec 5) (s : State) : Result := finish s (odMultiBody chk en s)

end Sys2Proof.Machine
end

