-- ==== Sys2Proof/Machine/Gf.lean ====
section
/-!
DEFINITION. The two GF(256) fields and the scalar GF commands (spec 40_gf.md R150..R165). The exp and log tables are the
engine's constant state (10_state.md R60), written out; Laws/Gf.lean proves that they are what the construction of R151
builds.
-/

namespace Sys2Proof.Machine

/-- The primitive polynomial of a field (40_gf.md R150). -/
def prim : Field → Nat
  | .qr => 0x11D
  | .dm => 0x12D

/-- The generator base `b_F` (40_gf.md R155). -/
def genBase : Field → Nat
  | .qr => 0
  | .dm => 1

/-- One step of the table construction: the next power of the generating element (40_gf.md R151). -/
def nextPower (f : Field) (x : Nat) : Nat :=
  if 2 * x ≥ 256 then Nat.xor (2 * x) (prim f) % 256 else 2 * x

/-- The construction of the exp table, `n` entries from the power `x` on (40_gf.md R151). -/
def buildExp (f : Field) : Nat → Nat → List Nat
  | 0, _ => []
  | n + 1, x => x :: buildExp f n (nextPower f x)

/-- EXP of the field F = 0 (40_gf.md R151). -/
def expQr : List Nat :=
  [
    [0x01, 0x02, 0x04, 0x08, 0x10, 0x20, 0x40, 0x80, 0x1D, 0x3A, 0x74, 0xE8, 0xCD, 0x87, 0x13, 0x26],
    [0x4C, 0x98, 0x2D, 0x5A, 0xB4, 0x75, 0xEA, 0xC9, 0x8F, 0x03, 0x06, 0x0C, 0x18, 0x30, 0x60, 0xC0],
    [0x9D, 0x27, 0x4E, 0x9C, 0x25, 0x4A, 0x94, 0x35, 0x6A, 0xD4, 0xB5, 0x77, 0xEE, 0xC1, 0x9F, 0x23],
    [0x46, 0x8C, 0x05, 0x0A, 0x14, 0x28, 0x50, 0xA0, 0x5D, 0xBA, 0x69, 0xD2, 0xB9, 0x6F, 0xDE, 0xA1],
    [0x5F, 0xBE, 0x61, 0xC2, 0x99, 0x2F, 0x5E, 0xBC, 0x65, 0xCA, 0x89, 0x0F, 0x1E, 0x3C, 0x78, 0xF0],
    [0xFD, 0xE7, 0xD3, 0xBB, 0x6B, 0xD6, 0xB1, 0x7F, 0xFE, 0xE1, 0xDF, 0xA3, 0x5B, 0xB6, 0x71, 0xE2],
    [0xD9, 0xAF, 0x43, 0x86, 0x11, 0x22, 0x44, 0x88, 0x0D, 0x1A, 0x34, 0x68, 0xD0, 0xBD, 0x67, 0xCE],
    [0x81, 0x1F, 0x3E, 0x7C, 0xF8, 0xED, 0xC7, 0x93, 0x3B, 0x76, 0xEC, 0xC5, 0x97, 0x33, 0x66, 0xCC],
    [0x85, 0x17, 0x2E, 0x5C, 0xB8, 0x6D, 0xDA, 0xA9, 0x4F, 0x9E, 0x21, 0x42, 0x84, 0x15, 0x2A, 0x54],
    [0xA8, 0x4D, 0x9A, 0x29, 0x52, 0xA4, 0x55, 0xAA, 0x49, 0x92, 0x39, 0x72, 0xE4, 0xD5, 0xB7, 0x73],
    [0xE6, 0xD1, 0xBF, 0x63, 0xC6, 0x91, 0x3F, 0x7E, 0xFC, 0xE5, 0xD7, 0xB3, 0x7B, 0xF6, 0xF1, 0xFF],
    [0xE3, 0xDB, 0xAB, 0x4B, 0x96, 0x31, 0x62, 0xC4, 0x95, 0x37, 0x6E, 0xDC, 0xA5, 0x57, 0xAE, 0x41],
    [0x82, 0x19, 0x32, 0x64, 0xC8, 0x8D, 0x07, 0x0E, 0x1C, 0x38, 0x70, 0xE0, 0xDD, 0xA7, 0x53, 0xA6],
    [0x51, 0xA2, 0x59, 0xB2, 0x79, 0xF2, 0xF9, 0xEF, 0xC3, 0x9B, 0x2B, 0x56, 0xAC, 0x45, 0x8A, 0x09],
    [0x12, 0x24, 0x48, 0x90, 0x3D, 0x7A, 0xF4, 0xF5, 0xF7, 0xF3, 0xFB, 0xEB, 0xCB, 0x8B, 0x0B, 0x16],
    [0x2C, 0x58, 0xB0, 0x7D, 0xFA, 0xE9, 0xCF, 0x83, 0x1B, 0x36, 0x6C, 0xD8, 0xAD, 0x47, 0x8E, 0x01] ].flatten

/-- LOG of the field F = 0; entry 0 does not exist in the spec and is never read (40_gf.md R151; log 13). -/
def logQr : List Nat :=
  [
    [0, 0, 1, 25, 2, 50, 26, 198, 3, 223, 51, 238, 27, 104, 199, 75],
    [4, 100, 224, 14, 52, 141, 239, 129, 28, 193, 105, 248, 200, 8, 76, 113],
    [5, 138, 101, 47, 225, 36, 15, 33, 53, 147, 142, 218, 240, 18, 130, 69],
    [29, 181, 194, 125, 106, 39, 249, 185, 201, 154, 9, 120, 77, 228, 114, 166],
    [6, 191, 139, 98, 102, 221, 48, 253, 226, 152, 37, 179, 16, 145, 34, 136],
    [54, 208, 148, 206, 143, 150, 219, 189, 241, 210, 19, 92, 131, 56, 70, 64],
    [30, 66, 182, 163, 195, 72, 126, 110, 107, 58, 40, 84, 250, 133, 186, 61],
    [202, 94, 155, 159, 10, 21, 121, 43, 78, 212, 229, 172, 115, 243, 167, 87],
    [7, 112, 192, 247, 140, 128, 99, 13, 103, 74, 222, 237, 49, 197, 254, 24],
    [227, 165, 153, 119, 38, 184, 180, 124, 17, 68, 146, 217, 35, 32, 137, 46],
    [55, 63, 209, 91, 149, 188, 207, 205, 144, 135, 151, 178, 220, 252, 190, 97],
    [242, 86, 211, 171, 20, 42, 93, 158, 132, 60, 57, 83, 71, 109, 65, 162],
    [31, 45, 67, 216, 183, 123, 164, 118, 196, 23, 73, 236, 127, 12, 111, 246],
    [108, 161, 59, 82, 41, 157, 85, 170, 251, 96, 134, 177, 187, 204, 62, 90],
    [203, 89, 95, 176, 156, 169, 160, 81, 11, 245, 22, 235, 122, 117, 44, 215],
    [79, 174, 213, 233, 230, 231, 173, 232, 116, 214, 244, 234, 168, 80, 88, 175] ].flatten

/-- EXP of the field F = 1 (40_gf.md R151). -/
def expDm : List Nat :=
  [
    [0x01, 0x02, 0x04, 0x08, 0x10, 0x20, 0x40, 0x80, 0x2D, 0x5A, 0xB4, 0x45, 0x8A, 0x39, 0x72, 0xE4],
    [0xE5, 0xE7, 0xE3, 0xEB, 0xFB, 0xDB, 0x9B, 0x1B, 0x36, 0x6C, 0xD8, 0x9D, 0x17, 0x2E, 0x5C, 0xB8],
    [0x5D, 0xBA, 0x59, 0xB2, 0x49, 0x92, 0x09, 0x12, 0x24, 0x48, 0x90, 0x0D, 0x1A, 0x34, 0x68, 0xD0],
    [0x8D, 0x37, 0x6E, 0xDC, 0x95, 0x07, 0x0E, 0x1C, 0x38, 0x70, 0xE0, 0xED, 0xF7, 0xC3, 0xAB, 0x7B],
    [0xF6, 0xC1, 0xAF, 0x73, 0xE6, 0xE1, 0xEF, 0xF3, 0xCB, 0xBB, 0x5B, 0xB6, 0x41, 0x82, 0x29, 0x52],
    [0xA4, 0x65, 0xCA, 0xB9, 0x5F, 0xBE, 0x51, 0xA2, 0x69, 0xD2, 0x89, 0x3F, 0x7E, 0xFC, 0xD5, 0x87],
    [0x23, 0x46, 0x8C, 0x35, 0x6A, 0xD4, 0x85, 0x27, 0x4E, 0x9C, 0x15, 0x2A, 0x54, 0xA8, 0x7D, 0xFA],
    [0xD9, 0x9F, 0x13, 0x26, 0x4C, 0x98, 0x1D, 0x3A, 0x74, 0xE8, 0xFD, 0xD7, 0x83, 0x2B, 0x56, 0xAC],
    [0x75, 0xEA, 0xF9, 0xDF, 0x93, 0x0B, 0x16, 0x2C, 0x58, 0xB0, 0x4D, 0x9A, 0x19, 0x32, 0x64, 0xC8],
    [0xBD, 0x57, 0xAE, 0x71, 0xE2, 0xE9, 0xFF, 0xD3, 0x8B, 0x3B, 0x76, 0xEC, 0xF5, 0xC7, 0xA3, 0x6B],
    [0xD6, 0x81, 0x2F, 0x5E, 0xBC, 0x55, 0xAA, 0x79, 0xF2, 0xC9, 0xBF, 0x53, 0xA6, 0x61, 0xC2, 0xA9],
    [0x7F, 0xFE, 0xD1, 0x8F, 0x33, 0x66, 0xCC, 0xB5, 0x47, 0x8E, 0x31, 0x62, 0xC4, 0xA5, 0x67, 0xCE],
    [0xB1, 0x4F, 0x9E, 0x11, 0x22, 0x44, 0x88, 0x3D, 0x7A, 0xF4, 0xC5, 0xA7, 0x63, 0xC6, 0xA1, 0x6F],
    [0xDE, 0x91, 0x0F, 0x1E, 0x3C, 0x78, 0xF0, 0xCD, 0xB7, 0x43, 0x86, 0x21, 0x42, 0x84, 0x25, 0x4A],
    [0x94, 0x05, 0x0A, 0x14, 0x28, 0x50, 0xA0, 0x6D, 0xDA, 0x99, 0x1F, 0x3E, 0x7C, 0xF8, 0xDD, 0x97],
    [0x03, 0x06, 0x0C, 0x18, 0x30, 0x60, 0xC0, 0xAD, 0x77, 0xEE, 0xF1, 0xCF, 0xB3, 0x4B, 0x96, 0x01] ].flatten

/-- LOG of the field F = 1; entry 0 does not exist in the spec and is never read (40_gf.md R151; log 13). -/
def logDm : List Nat :=
  [
    [0, 0, 1, 240, 2, 225, 241, 53, 3, 38, 226, 133, 242, 43, 54, 210],
    [4, 195, 39, 114, 227, 106, 134, 28, 243, 140, 44, 23, 55, 118, 211, 234],
    [5, 219, 196, 96, 40, 222, 115, 103, 228, 78, 107, 125, 135, 8, 29, 162],
    [244, 186, 141, 180, 45, 99, 24, 49, 56, 13, 119, 153, 212, 199, 235, 91],
    [6, 76, 220, 217, 197, 11, 97, 184, 41, 36, 223, 253, 116, 138, 104, 193],
    [229, 86, 79, 171, 108, 165, 126, 145, 136, 34, 9, 74, 30, 32, 163, 84],
    [245, 173, 187, 204, 142, 81, 181, 190, 46, 88, 100, 159, 25, 231, 50, 207],
    [57, 147, 14, 67, 120, 128, 154, 248, 213, 167, 200, 63, 236, 110, 92, 176],
    [7, 161, 77, 124, 221, 102, 218, 95, 198, 90, 12, 152, 98, 48, 185, 179],
    [42, 209, 37, 132, 224, 52, 254, 239, 117, 233, 139, 22, 105, 27, 194, 113],
    [230, 206, 87, 158, 80, 189, 172, 203, 109, 175, 166, 62, 127, 247, 146, 66],
    [137, 192, 35, 252, 10, 183, 75, 216, 31, 83, 33, 73, 164, 144, 85, 170],
    [246, 65, 174, 61, 188, 202, 205, 157, 143, 169, 82, 72, 182, 215, 191, 251],
    [47, 178, 89, 151, 101, 94, 160, 123, 26, 112, 232, 21, 51, 238, 208, 131],
    [58, 69, 148, 18, 15, 16, 68, 17, 121, 149, 129, 19, 155, 59, 249, 70],
    [214, 250, 168, 71, 201, 156, 64, 60, 237, 130, 111, 20, 93, 122, 177, 150] ].flatten

/-- `EXP_F[0..255]` (40_gf.md R151). -/
def expTable : Field → List Nat
  | .qr => expQr
  | .dm => expDm

/-- `LOG_F[1..255]` (40_gf.md R151). -/
def logTable : Field → List Nat
  | .qr => logQr
  | .dm => logDm

/-- `EXP_F[i]`, for i in 0..255 (40_gf.md R151). -/
def gfExp (f : Field) (i : Nat) : Byte := BitVec.ofNat 8 ((expTable f).getD i 0)

/-- `LOG_F[a]`, for a in 1..255 (40_gf.md R151). -/
def gfLog (f : Field) (a : Byte) : Nat := (logTable f).getD a.toNat 0

/-- `a + b = a - b = a ⊕ b` (40_gf.md R152). -/
def gfAdd (a b : Byte) : Byte := a ^^^ b

/-- `a ⊗ b` in field F (40_gf.md R153). -/
def gfMul (f : Field) (a b : Byte) : Byte :=
  if a = 0 ∨ b = 0 then 0 else gfExp f ((gfLog f a + gfLog f b) % 255)

/-- `inv_F(a)`, for a in 1..255 (40_gf.md R154). -/
def gfInv (f : Field) (a : Byte) : Byte := gfExp f (255 - gfLog f a)

/-- The body of GF_ADD (40_gf.md R160). -/
def gfAddBody (s : State) : Except Raise State :=
  if s.argU 0 > 255 then raise .illegalArgument 1
  else if s.argU 1 > 255 then raise .illegalArgument 2
  else .ok (s.setResNat 0 (gfAdd (element (s.argU 0)) (element (s.argU 1))).toNat)

/-- GF_ADD (40_gf.md R160); F has no effect. -/
def execGfAdd (_f : Field) (s : State) : Result := finish s (gfAddBody s)

/-- The body of GF_MUL (40_gf.md R161). -/
def gfMulBody (f : Field) (s : State) : Except Raise State :=
  if s.argU 0 > 255 then raise .illegalArgument 1
  else if s.argU 1 > 255 then raise .illegalArgument 2
  else .ok (s.setResNat 0 (gfMul f (element (s.argU 0)) (element (s.argU 1))).toNat)

/-- GF_MUL (40_gf.md R161). -/
def execGfMul (f : Field) (s : State) : Result := finish s (gfMulBody f s)

/-- The body of GF_DIV (40_gf.md R162). -/
def gfDivBody (f : Field) (s : State) : Except Raise State :=
  if s.argU 0 > 255 then raise .illegalArgument 1
  else if s.argU 1 > 255 then raise .illegalArgument 2
  else if s.argU 1 = 0 then raise .arithmetic 3
  else .ok (s.setResNat 0 (gfMul f (element (s.argU 0)) (gfInv f (element (s.argU 1)))).toNat)

/-- GF_DIV (40_gf.md R162). -/
def execGfDiv (f : Field) (s : State) : Result := finish s (gfDivBody f s)

/-- The body of GF_INV (40_gf.md R163). -/
def gfInvBody (f : Field) (s : State) : Except Raise State :=
  if s.argU 0 > 255 then raise .illegalArgument 1
  else if s.argU 0 = 0 then raise .arithmetic 2
  else .ok (s.setResNat 0 (gfInv f (element (s.argU 0))).toNat)

/-- GF_INV (40_gf.md R163). -/
def execGfInv (f : Field) (s : State) : Result := finish s (gfInvBody f s)

/-- The body of GF_EXP (40_gf.md R164). -/
def gfExpBody (f : Field) (s : State) : Except Raise State :=
  if s.argU 0 > 255 then raise .illegalArgument 1
  else .ok (s.setResNat 0 (gfExp f (s.argU 0)).toNat)

/-- GF_EXP (40_gf.md R164). -/
def execGfExp (f : Field) (s : State) : Result := finish s (gfExpBody f s)

/-- The body of GF_LOG (40_gf.md R165). -/
def gfLogBody (f : Field) (s : State) : Except Raise State :=
  if s.argU 0 > 255 then raise .illegalArgument 1
  else if s.argU 0 = 0 then raise .arithmetic 2
  else .ok (s.setResNat 0 (gfLog f (element (s.argU 0))))

/-- GF_LOG (40_gf.md R165). -/
def execGfLog (f : Field) (s : State) : Result := finish s (gfLogBody f s)

end Sys2Proof.Machine
end

