-- ==== Sys2Proof/Machine/Poly.lean ====
section
/-!
DEFINITION. Polynomials over GF(256) and the POLY commands (spec 40_gf.md R170..R181). A polynomial is the list of its
coefficients, the coefficient of x^i at place i, with no leading (last) zero; the zero polynomial is the empty list.
-/

namespace Sys2Proof.Machine

/-- Drops the leading zeros of a coefficient list (40_gf.md R171). -/
def polyTrim : List Byte → List Byte
  | [] => []
  | c :: cs =>
    match polyTrim cs with
    | [] => if c = 0 then [] else [c]
    | t => c :: t

/-- `c_A[i]`, the coefficient of x^i, 0 above the degree (40_gf.md R174). -/
def polyCoef (a : List Byte) (i : Nat) : Byte := a.getD i 0

/-- `isZero(P)` (40_gf.md R171). -/
def polyIsZero (a : List Byte) : Bool := (polyTrim a).isEmpty

/-- `deg(P)`: the highest i with a nonzero coefficient, 0 for the zero polynomial (40_gf.md R171). -/
def polyDeg (a : List Byte) : Nat := (polyTrim a).length - 1

/-- The leading coefficient `c_A[deg(A)]`. -/
def polyLead (a : List Byte) : Byte := polyCoef a (polyDeg a)

/-- `c·x^d`, `mono(d, c)` (40_gf.md R174). -/
def polyMono (d : Nat) (c : Byte) : List Byte := polyTrim (List.replicate d 0 ++ [c])

/-- The coefficientwise sum of two lists, of the longer length. -/
def polyAddRaw : List Byte → List Byte → List Byte
  | [], b => b
  | a, [] => a
  | x :: a, y :: b => gfAdd x y :: polyAddRaw a b

/-- `add(A, B)` (40_gf.md R174). -/
def polyAdd (a b : List Byte) : List Byte := polyTrim (polyAddRaw a b)

/-- `scale(A, s)` (40_gf.md R174). -/
def polyScale (f : Field) (a : List Byte) (s : Byte) : List Byte := polyTrim (a.map (fun c => gfMul f c s))

/-- `mulmono(A, d, c)` (40_gf.md R174). -/
def polyMulmono (f : Field) (a : List Byte) (d : Nat) (c : Byte) : List Byte :=
  polyTrim (List.replicate d 0 ++ a.map (fun x => gfMul f x c))

/-- The product before its leading zeros are dropped: `Σ_j a_j·x^j·B`. -/
def polyMulRaw (f : Field) : List Byte → List Byte → List Byte
  | [], _ => []
  | x :: a, b => polyAddRaw (b.map (fun y => gfMul f x y)) (0 :: polyMulRaw f a b)

/-- `mul(A, B)` (40_gf.md R174). -/
def polyMul (f : Field) (a b : List Byte) : List Byte := polyTrim (polyMulRaw f a b)

/-- `eval(A, a)` in the Horner form, which alone defines it (40_gf.md R174). -/
def polyEval (f : Field) : List Byte → Byte → Byte
  | [], _ => 0
  | c :: cs, a => gfAdd (gfMul f a (polyEval f cs a)) c

/-- The loop of `divmod` from quotient `q` and remainder `r`: a divisor of degree `db` with inverse leading coefficient
`inv` (40_gf.md R174). Each pass drops the leading term of `r`, so `r.length` passes are enough. -/
def polyDivLoop (f : Field) (b : List Byte) (inv : Byte) : Nat → List Byte → List Byte → List Byte × List Byte
  | 0, q, r => (q, r)
  | n + 1, q, r =>
    if polyDeg b ≤ polyDeg r ∧ polyIsZero r = false then
      polyDivLoop f b inv n
        (polyAdd q (polyMono (polyDeg r - polyDeg b) (gfMul f (polyLead r) inv)))
        (polyAdd r (polyMulmono f b (polyDeg r - polyDeg b) (gfMul f (polyLead r) inv)))
    else (q, r)

/-- `divmod(A, B)`, for B not zero (40_gf.md R174). -/
def polyDivmod (f : Field) (a b : List Byte) : List Byte × List Byte :=
  polyDivLoop f b (gfInv f (polyLead b)) a.length [] (polyTrim a)

/-- The value of polynomial register r (40_gf.md R170). -/
def State.polyOf (s : State) (r : PReg) : List Byte := polyTrim ((s.poly r).bytes 256)

/-- Writes a polynomial to register r: all 256 coefficients and the field tag (40_gf.md R172, R173). -/
def State.putPoly (s : State) (r : PReg) (f : Field) (a : List Byte) : State :=
  (s.setPoly r (Memory.ofBytes a)).setTag r f

/-- The body of P_MONO (40_gf.md R175). -/
def pMonoBody (f : Field) (pd : PReg) (s : State) : Except Raise State :=
  if s.argU 1 > 255 then raise .illegalArgument 1
  else if s.argS 0 < 0 then raise .arithmetic 2
  else if s.argS 0 > 255 then raise .illegalArgument 3
  else .ok (s.putPoly pd f (polyMono (s.argU 0) (element (s.argU 1))))

/-- P_MONO (40_gf.md R175). -/
def execPMono (f : Field) (pd : PReg) (s : State) : Result := finish s (pMonoBody f pd s)

/-- The body of P_ADD (40_gf.md R176). -/
def pAddBody (f : Field) (pb pa pd : PReg) (s : State) : Except Raise State :=
  if s.tag pa ≠ f then raise .illegalArgument 1
  else if s.tag pb ≠ f then raise .illegalArgument 2
  else .ok (s.putPoly pd f (polyAdd (s.polyOf pa) (s.polyOf pb)))

/-- P_ADD (40_gf.md R176). -/
def execPAdd (f : Field) (pb pa pd : PReg) (s : State) : Result := finish s (pAddBody f pb pa pd s)

/-- The body of P_MUL (40_gf.md R177). -/
def pMulBody (f : Field) (pb pa pd : PReg) (s : State) : Except Raise State :=
  if s.tag pa ≠ f then raise .illegalArgument 1
  else if s.tag pb ≠ f then raise .illegalArgument 2
  else if polyIsZero (s.polyOf pa) = false ∧ polyIsZero (s.polyOf pb) = false ∧
      polyDeg (s.polyOf pa) + polyDeg (s.polyOf pb) > Config.polyMaxDeg then raise .illegalArgument 3
  else .ok (s.putPoly pd f (polyMul f (s.polyOf pa) (s.polyOf pb)))

/-- P_MUL (40_gf.md R177). -/
def execPMul (f : Field) (pb pa pd : PReg) (s : State) : Result := finish s (pMulBody f pb pa pd s)

/-- The body of P_SCALE (40_gf.md R178). -/
def pScaleBody (f : Field) (pa pd : PReg) (s : State) : Except Raise State :=
  if s.tag pa ≠ f then raise .illegalArgument 1
  else if s.argU 0 > 255 then raise .illegalArgument 2
  else .ok (s.putPoly pd f (polyScale f (s.polyOf pa) (element (s.argU 0))))

/-- P_SCALE (40_gf.md R178). -/
def execPScale (f : Field) (pa pd : PReg) (s : State) : Result := finish s (pScaleBody f pa pd s)

/-- The body of P_MULMONO (40_gf.md R179). -/
def pMulmonoBody (f : Field) (pa pd : PReg) (s : State) : Except Raise State :=
  if s.tag pa ≠ f then raise .illegalArgument 1
  else if s.argU 1 > 255 then raise .illegalArgument 2
  else if s.argS 0 < 0 then raise .arithmetic 3
  else if s.argS 0 > 255 then raise .illegalArgument 4
  else if s.argU 1 ≠ 0 ∧ polyIsZero (s.polyOf pa) = false ∧
      polyDeg (s.polyOf pa) + s.argU 0 > Config.polyMaxDeg then raise .illegalArgument 5
  else .ok (s.putPoly pd f (polyMulmono f (s.polyOf pa) (s.argU 0) (element (s.argU 1))))

/-- P_MULMONO (40_gf.md R179). -/
def execPMulmono (f : Field) (pa pd : PReg) (s : State) : Result := finish s (pMulmonoBody f pa pd s)

/-- The body of P_DIV: both results are computed before either destination is written (40_gf.md R173, R180). -/
def pDivBody (f : Field) (pe pb pa pd : PReg) (s : State) : Except Raise State :=
  if s.tag pa ≠ f then raise .illegalArgument 1
  else if s.tag pb ≠ f then raise .illegalArgument 2
  else if polyIsZero (s.polyOf pb) then raise .arithmetic 3
  else
    .ok ((s.putPoly pd f (polyDivmod f (s.polyOf pa) (s.polyOf pb)).1).putPoly pe f
      (polyDivmod f (s.polyOf pa) (s.polyOf pb)).2)

/-- P_DIV (40_gf.md R180). -/
def execPDiv (f : Field) (pe pb pa pd : PReg) (s : State) : Result := finish s (pDivBody f pe pb pa pd s)

/-- The body of P_EVAL (40_gf.md R181). -/
def pEvalBody (f : Field) (pa : PReg) (s : State) : Except Raise State :=
  if s.tag pa ≠ f then raise .illegalArgument 1
  else if s.argU 0 > 255 then raise .illegalArgument 2
  else .ok (s.setResNat 0 (polyEval f (s.polyOf pa) (element (s.argU 0))).toNat)

/-- P_EVAL (40_gf.md R181). -/
def execPEval (f : Field) (pa : PReg) (s : State) : Result := finish s (pEvalBody f pa s)

end Sys2Proof.Machine
end

