-- ==== Sys2Proof/Machine/Rs.lean ====
section
/-!
DEFINITION. The Reed-Solomon commands (spec 41_rs.md R200..R214): the generator cache, encoding, syndromes, and decoding by
the Euclidean algorithm, an exhaustive root search and Forney's formula.
-/

namespace Sys2Proof.Machine

/-- The factor `x + α^(d + b_F)` that turns `G[F][d]` into `G[F][d+1]` (41_rs.md R201, R202). -/
def genFactor (f : Field) (d : Nat) : List Byte := polyAdd (polyMono 1 1) (polyMono 0 (gfExp f (d + genBase f)))

/-- `G[F][d]`, the generator polynomial of degree d (41_rs.md R201). -/
def generatorPoly (f : Field) : Nat → List Byte
  | 0 => [1]
  | d + 1 => polyMul f (generatorPoly f d) (genFactor f d)

/-- One pass of the cache's loop: appends the generator of the next degree (41_rs.md R202). -/
def extendCache (f : Field) (g : List (List Byte)) : List (List Byte) :=
  g ++ [polyMul f (g.getD (g.length - 1) [1]) (genFactor f (g.length - 1))]

/-- `n` passes of the cache's loop. -/
def growCache (f : Field) : Nat → List (List Byte) → List (List Byte)
  | 0, g => g
  | n + 1, g => growCache f n (extendCache f g)

/-- The cache once degree `e` was requested: `while GD_F < e` (41_rs.md R202). -/
def cacheFor (f : Field) (e : Nat) (g : List (List Byte)) : List (List Byte) := growCache f (e - (g.length - 1)) g

/-- The polynomial of the bytes `CW[0..n-1]`, `CW[0]` the highest-degree coefficient (41_rs.md R200). -/
def wordPoly (bs : List Byte) : List Byte := polyTrim bs.reverse

/-- The EC bytes of data bytes with a generator of degree `e`, left-padded with zeros (41_rs.md R203). -/
def ecBytes (f : Field) (e : Nat) (g data : List Byte) : List Byte :=
  (List.range e).map fun j =>
    polyCoef (polyDivmod f (polyMulmono f (wordPoly data) e 1) g).2 (e - 1 - j)

/-- The body of RS_ENCODE (41_rs.md R203). -/
def rsEncodeBody (f : Field) (s : State) : Except Raise State :=
  if s.argU 0 < 1 ∨ s.argU 0 > Config.cwMax then raise .illegalArgument 1
  else if s.argU 1 = 0 then raise .illegalArgument 2
  else if s.argU 1 ≥ s.argU 0 then raise .illegalArgument 3
  else
    .ok { s.setGen f (cacheFor f (s.argU 1) (s.gen f)) with
      cw := s.cw.overwrite (s.argU 0 - s.argU 1)
        (ecBytes f (s.argU 1) ((cacheFor f (s.argU 1) (s.gen f)).getD (s.argU 1) [1])
          (s.cw.bytes (s.argU 0 - s.argU 1))) }

/-- RS_ENCODE (41_rs.md R203). -/
def execRsEncode (f : Field) (s : State) : Result := finish s (rsEncodeBody f s)

/-- The syndromes `S_0 .. S_{twoS-1}` of the received bytes (41_rs.md R204). -/
def syndromes (f : Field) (twoS : Nat) (bs : List Byte) : List Byte :=
  (List.range twoS).map fun i => polyEval f (wordPoly bs) (gfExp f (i + genBase f))

/-- Every syndrome is 0. -/
def allZero (bs : List Byte) : Bool := bs.all (fun b => b == 0)

/-- The body of RS_SYNDROME (41_rs.md R205); SYN is written whole, zeros from twoS on. -/
def rsSyndromeBody (f : Field) (s : State) : Except Raise State :=
  if s.argU 0 < 1 ∨ s.argU 0 > Config.cwMax then raise .illegalArgument 1
  else if s.argU 1 > s.argU 0 then raise .illegalArgument 2
  else
    .ok ({ s with syn := Memory.ofBytes (syndromes f (s.argU 1) (s.cw.bytes (s.argU 0))) }.setResNat 0
      (allZero (syndromes f (s.argU 1) (s.cw.bytes (s.argU 0)))).toNat)

/-- RS_SYNDROME (41_rs.md R205). -/
def execRsSyndrome (f : Field) (s : State) : Result := finish s (rsSyndromeBody f s)

/-- The loop of the Euclidean algorithm from `rLast`, `r`, `tLast`, `t` (41_rs.md R207). Each pass lowers the degree of
`r`, so `n` = twoS + 1 passes are enough. -/
def euclidLoop (f : Field) (twoS : Nat) :
    Nat → List Byte → List Byte → List Byte → List Byte → Except Raise (List Byte × List Byte)
  | 0, _, r, _, t => .ok (r, t)
  | n + 1, rLast, r, tLast, t =>
    if 2 * polyDeg r ≥ twoS then
      if polyIsZero r then raise .checksum 3
      else
        euclidLoop f twoS n r (polyDivmod f rLast r).2 t
          (polyAdd (polyMul f (polyDivmod f rLast r).1 t) tLast)
    else .ok (r, t)

/-- The end of the Euclidean algorithm: `σ` and `ω` from `r` and `t` (41_rs.md R207). -/
def euclidScale (f : Field) (rt : List Byte × List Byte) : Except Raise (List Byte × List Byte) :=
  if polyCoef rt.2 0 = 0 then raise .checksum 4
  else .ok (polyScale f rt.2 (gfInv f (polyCoef rt.2 0)), polyScale f rt.1 (gfInv f (polyCoef rt.2 0)))

/-- `euclid(a, b, twoS)`, giving `(σ, ω)` (41_rs.md R207). -/
def euclid (f : Field) (a b : List Byte) (twoS : Nat) : Except Raise (List Byte × List Byte) :=
  (if polyDeg a < polyDeg b then euclidLoop f twoS (twoS + 1) b a [] (polyMono 0 1)
    else euclidLoop f twoS (twoS + 1) a b [] (polyMono 0 1)).bind (euclidScale f)

/-- The root search of `locate` over the candidates `is`, the inverses found so far in `xs` (41_rs.md R208). -/
def findRoots (f : Field) (sigma : List Byte) : List Nat → List Byte → List Byte
  | [], xs => xs
  | i :: is, xs =>
    if xs.length < polyDeg sigma then
      if polyEval f sigma (element i) = 0 then findRoots f sigma is (xs ++ [gfInv f (element i)])
      else findRoots f sigma is xs
    else xs

/-- `locate(σ)` (41_rs.md R208). -/
def locate (f : Field) (sigma : List Byte) : Except Raise (List Byte) :=
  if polyDeg sigma = 1 then .ok [polyCoef sigma 1]
  else if (findRoots f sigma (List.range' 1 255) []).length ≠ polyDeg sigma then raise .checksum 5
  else .ok (findRoots f sigma (List.range' 1 255) [])

/-- The denominator of Forney's formula for location number `k` (41_rs.md R209). -/
def forneyDen (f : Field) (xs : List Byte) (k : Nat) (xkInv : Byte) : Byte :=
  ((List.range xs.length).filter (fun j => j != k)).foldl
    (fun den j => gfMul f den (gfAdd (gfMul f (xs.getD j 0) xkInv) 1)) 1

/-- The magnitude of location number `k` (41_rs.md R209). -/
def forneyAt (f : Field) (omega xs : List Byte) (k : Nat) : Byte :=
  if genBase f ≠ 0 then
    gfMul f
      (gfMul f (polyEval f omega (gfInv f (xs.getD k 0))) (gfInv f (forneyDen f xs k (gfInv f (xs.getD k 0)))))
      (gfInv f (xs.getD k 0))
  else gfMul f (polyEval f omega (gfInv f (xs.getD k 0))) (gfInv f (forneyDen f xs k (gfInv f (xs.getD k 0))))

/-- `forney(ω, X)` (41_rs.md R209). -/
def forney (f : Field) (omega xs : List Byte) : List Byte := (List.range xs.length).map (forneyAt f omega xs)

/-- The byte positions of the locations, or check 6 where one is negative (41_rs.md R210). -/
def positions (f : Field) (n : Nat) (xs : List Byte) : Except Raise (List Nat) :=
  if xs.all (fun x => decide (gfLog f x ≤ n - 1)) then .ok (xs.map fun x => n - 1 - gfLog f x)
  else raise .checksum 6

/-- The received bytes with each magnitude XORed in at its position (41_rs.md R206). -/
def correct : List Byte → List (Nat × Byte) → List Byte
  | bs, [] => bs
  | bs, (p, y) :: ps => correct (bs.set p (gfAdd (bs.getD p 0) y)) ps

/-- The corrections RS_DECODE finds for received bytes with some nonzero syndrome, checks 3 to 6 (41_rs.md R206..R210). -/
def findErrors (f : Field) (n twoS : Nat) (syn : List Byte) : Except Raise (List (Nat × Byte)) :=
  (euclid f (polyMono twoS 1) (polyTrim syn) twoS).bind fun so =>
    (locate f so.1).bind fun xs =>
      (positions f n xs).bind fun ps => .ok (ps.zip (forney f so.2 xs))

/-- The commit of RS_DECODE: received bytes' syndromes, corrected bytes and corrections (41_rs.md R212). -/
def rsCommit (s : State) (syn bs : List Byte) (errs : List (Nat × Byte)) : State :=
  { s with
    cw := s.cw.overwrite 0 bs
    syn := Memory.ofBytes syn
    eloc := Memory.ofBytes (errs.map fun e : Nat × Byte => BitVec.ofNat 8 e.1)
    emag := Memory.ofBytes (errs.map fun e : Nat × Byte => e.2) }.setResNat 0 errs.length

/-- The commit of RS_DECODE where no syndrome is nonzero: CW does not change (41_rs.md R212). -/
def rsCommitClean (s : State) (syn : List Byte) : State :=
  { s with syn := Memory.ofBytes syn, eloc := Memory.zeros, emag := Memory.zeros }.setResNat 0 0

/-- The verification after correction, check 7, then the commit (41_rs.md R211, R212). -/
def rsVerify (f : Field) (s : State) (twoS : Nat) (syn bs : List Byte) (errs : List (Nat × Byte)) :
    Except Raise State :=
  if allZero (syndromes f twoS (correct bs errs)) then .ok (rsCommit s syn (correct bs errs) errs)
  else raise .checksum 7

/-- The body of RS_DECODE (41_rs.md R206). -/
def rsDecodeBody (f : Field) (s : State) : Except Raise State :=
  if s.argU 0 < 1 ∨ s.argU 0 > Config.cwMax then raise .illegalArgument 1
  else if s.argU 1 > s.argU 0 then raise .illegalArgument 2
  else if allZero (syndromes f (s.argU 1) (s.cw.bytes (s.argU 0))) then
    .ok (rsCommitClean s (syndromes f (s.argU 1) (s.cw.bytes (s.argU 0))))
  else
    (findErrors f (s.argU 0) (s.argU 1) (syndromes f (s.argU 1) (s.cw.bytes (s.argU 0)))).bind fun errs =>
      rsVerify f s (s.argU 1) (syndromes f (s.argU 1) (s.cw.bytes (s.argU 0))) (s.cw.bytes (s.argU 0)) errs

/-- RS_DECODE (41_rs.md R206). -/
def execRsDecode (f : Field) (s : State) : Result := finish s (rsDecodeBody f s)

end Sys2Proof.Machine
end

