-- ==== Sys2Proof/Machine/Dispatch.lean ====
section
/-!
DEFINITION. The one match from a command to its meaning, one arm per constructor of Instr, each one direct call.
-/

namespace Sys2Proof.Machine

/-- A command run to its completion: its effect and the completion writes (spec 60_exceptions.md R464). -/
def exec (i : Instr) (s : State) : Host.Outcome State Fault Refusal :=
  match i with
  | .nop => Sys2Proof.Machine.execNop s
  | .gfAdd f => Sys2Proof.Machine.execGfAdd f s
  | .gfMul f => Sys2Proof.Machine.execGfMul f s
  | .gfDiv f => Sys2Proof.Machine.execGfDiv f s
  | .gfInv f => Sys2Proof.Machine.execGfInv f s
  | .gfExp f => Sys2Proof.Machine.execGfExp f s
  | .gfLog f => Sys2Proof.Machine.execGfLog f s
  | .pMono f pd => Sys2Proof.Machine.execPMono f pd s
  | .pAdd f pb pa pd => Sys2Proof.Machine.execPAdd f pb pa pd s
  | .pMul f pb pa pd => Sys2Proof.Machine.execPMul f pb pa pd s
  | .pScale f pa pd => Sys2Proof.Machine.execPScale f pa pd s
  | .pMulmono f pa pd => Sys2Proof.Machine.execPMulmono f pa pd s
  | .pDiv f pe pb pa pd => Sys2Proof.Machine.execPDiv f pe pb pa pd s
  | .pEval f pa => Sys2Proof.Machine.execPEval f pa s
  | .rsEncode f => Sys2Proof.Machine.execRsEncode f s
  | .rsSyndrome f => Sys2Proof.Machine.execRsSyndrome f s
  | .rsDecode f => Sys2Proof.Machine.execRsDecode f s
  | .baGet => Sys2Proof.Machine.execBaGet s
  | .baSet => Sys2Proof.Machine.execBaSet s
  | .baFlip => Sys2Proof.Machine.execBaFlip s
  | .baClear => Sys2Proof.Machine.execBaClear s
  | .baSetrange => Sys2Proof.Machine.execBaSetrange s
  | .baIsrange => Sys2Proof.Machine.execBaIsrange s
  | .baNextset => Sys2Proof.Machine.execBaNextset s
  | .baNextunset => Sys2Proof.Machine.execBaNextunset s
  | .baReverse => Sys2Proof.Machine.execBaReverse s
  | .baInit => Sys2Proof.Machine.execBaInit s
  | .bmInit m => Sys2Proof.Machine.execBmInit m s
  | .bmGet m => Sys2Proof.Machine.execBmGet m s
  | .bmSet m => Sys2Proof.Machine.execBmSet m s
  | .bmUnset m => Sys2Proof.Machine.execBmUnset m s
  | .bmFlip m => Sys2Proof.Machine.execBmFlip m s
  | .bmClear m => Sys2Proof.Machine.execBmClear m s
  | .bmSetregion m => Sys2Proof.Machine.execBmSetregion m s
  | .bmGetrow m => Sys2Proof.Machine.execBmGetrow m s
  | .bmRot180 m => Sys2Proof.Machine.execBmRot180 m s
  | .bmXor m => Sys2Proof.Machine.execBmXor m s
  | .bmCopy m => Sys2Proof.Machine.execBmCopy m s
  | .bmTopleft m => Sys2Proof.Machine.execBmTopleft m s
  | .bmBotright m => Sys2Proof.Machine.execBmBotright m s
  | .ptS2q => Sys2Proof.Machine.execPtS2q s
  | .ptQ2s => Sys2Proof.Machine.execPtQ2s s
  | .ptQ2q => Sys2Proof.Machine.execPtQ2q s
  | .ptAdj => Sys2Proof.Machine.execPtAdj s
  | .ptTimes => Sys2Proof.Machine.execPtTimes s
  | .ptCopy => Sys2Proof.Machine.execPtCopy s
  | .ptXform => Sys2Proof.Machine.execPtXform s
  | .gridSample m => Sys2Proof.Machine.execGridSample m s
  | .odRuns => Sys2Proof.Machine.execOdRuns s
  | .odPmatch sym => Sys2Proof.Machine.execOdPmatch sym s
  | .odDecode chk sym => Sys2Proof.Machine.execOdDecode chk sym s
  | .odMulti chk en => Sys2Proof.Machine.execOdMulti chk en s

end Sys2Proof.Machine
end

