-- ==== Sys2Proof/Machine/Window.lean ====
section
/-!
DEFINITION. The engine's register and memory window (spec 10_state.md R62): what lies at an offset, what a read of it
returns and what a write stores (20_memory.md R80..R86).
-/

namespace Sys2Proof.Machine

/-- A local memory (10_state.md R49..R56). -/
inductive MemId where
  | cw
  | syn
  | eloc
  | emag
  | p (r : PReg)
  | row
  | odres
  | run
  | mat (m : Mat)
  deriving DecidableEq, Repr

/-- A binary64 register file (10_state.md R47, R48). -/
inductive DFile where
  | f
  | ta
  | tb
  deriving DecidableEq, Repr

/-- What lies at an offset of the window (10_state.md R62): a register, half of a binary64 register, a word of a local
memory, or nothing. -/
inductive Loc where
  | ident
  | version
  | ctrl
  | status
  | cmd
  | lastcmd
  | errinfo
  | gendeg
  | pfld
  | pdeg
  | rowsize
  | nruns
  | dim (m : Mat)
  | arg (i : Fin 8)
  | res (i : Fin 8)
  | dbl (file : DFile) (i : Nat) (hi : Bool)
  | mem (m : MemId) (w : Nat)
  | unmapped
  deriving DecidableEq, Repr

/-- The control and status registers by offset (10_state.md R62). -/
def ctrlRegs : List (Nat × Loc) :=
  [(0x000, .ident), (0x004, .version), (0x008, .ctrl), (0x00C, .status), (0x010, .cmd), (0x014, .lastcmd),
    (0x018, .errinfo), (0x01C, .gendeg), (0x020, .pfld), (0x024, .pdeg), (0x028, .rowsize), (0x02C, .nruns),
    (0x030, .dim .m0), (0x034, .dim .m1)]

/-- One array of words of the map: its first offset, its size in bytes, and what its word `w` is (10_state.md R62). -/
structure Span where
  base : Nat
  bytes : Nat
  loc : Nat → Loc

/-- The arrays of the register window and the local memories (10_state.md R62). -/
def spans : List Span :=
  [⟨0x040, 0x20, fun w => .arg (Fin.ofNat 8 w)⟩,
    ⟨0x060, 0x20, fun w => .res (Fin.ofNat 8 w)⟩,
    ⟨0x100, 0x80, fun w => .dbl .f (w / 2) (w % 2 == 1)⟩,
    ⟨0x180, 0x48, fun w => .dbl .ta (w / 2) (w % 2 == 1)⟩,
    ⟨0x200, 0x48, fun w => .dbl .tb (w / 2) (w % 2 == 1)⟩,
    ⟨0x1000, 0x100, .mem .cw⟩,
    ⟨0x1100, 0x100, .mem .syn⟩,
    ⟨0x1200, 0x100, .mem .eloc⟩,
    ⟨0x1300, 0x100, .mem .emag⟩,
    ⟨0x1400, 0x100, .mem (.p .p0)⟩,
    ⟨0x1500, 0x100, .mem (.p .p1)⟩,
    ⟨0x1600, 0x100, .mem (.p .p2)⟩,
    ⟨0x1700, 0x100, .mem (.p .p3)⟩,
    ⟨0x2000, 0x200, .mem .row⟩,
    ⟨0x3000, 0x100, .mem .odres⟩,
    ⟨0x4000, 0x4000, .mem .run⟩,
    ⟨0x40000, 0x40000, .mem (.mat .m0)⟩,
    ⟨0x80000, 0x40000, .mem (.mat .m1)⟩]

/-- The offset lies in an array of the map. -/
def Span.holds (sp : Span) (a : Nat) : Bool := decide (sp.base ≤ a) && decide (a < sp.base + sp.bytes)

/-- What lies at offset `a`, a multiple of 4 (10_state.md R62). -/
def locOf (a : Nat) : Loc :=
  match ctrlRegs.lookup a with
  | some l => l
  | none =>
    match spans.find? (fun sp => sp.holds a) with
    | some sp => sp.loc ((a - sp.base) / 4)
    | none => .unmapped

/-- A local memory by its name. -/
def State.memory (s : State) : MemId → Memory
  | .cw => s.cw
  | .syn => s.syn
  | .eloc => s.eloc
  | .emag => s.emag
  | .p r => s.poly r
  | .row => s.row
  | .odres => s.odres
  | .run => s.run
  | .mat m => s.mat m

/-- Writes a local memory by its name. -/
def State.setMemory (s : State) (id : MemId) (m : Memory) : State :=
  match id with
  | .cw => { s with cw := m }
  | .syn => { s with syn := m }
  | .eloc => { s with eloc := m }
  | .emag => { s with emag := m }
  | .p r => s.setPoly r m
  | .row => { s with row := m }
  | .odres => { s with odres := m }
  | .run => { s with run := m }
  | .mat k => s.setMat k m

/-- The size of a local memory in bytes; RUN_MEM holds 2 bytes an entry (10_state.md R49..R56). -/
def MemId.size : MemId → Nat
  | .cw => 256
  | .syn => 256
  | .eloc => 256
  | .emag => 256
  | .p _ => 256
  | .row => 512
  | .odres => 256
  | .run => 8192
  | .mat _ => 262144

/-- The value of a binary64 register, 0 past the end of its file. -/
def State.double (s : State) (file : DFile) (i : Nat) : Dword :=
  match file with
  | .f => s.f.getD i 0
  | .ta => s.ta.getD i 0
  | .tb => s.tb.getD i 0

/-- Writes a binary64 register. -/
def State.setDouble (s : State) (file : DFile) (i : Nat) (v : Dword) : State :=
  match file with
  | .f => { s with f := s.f.setIfInBounds i v }
  | .ta => { s with ta := s.ta.setIfInBounds i v }
  | .tb => { s with tb := s.tb.setIfInBounds i v }

/-- One half of a binary64 encoding: bits [63:32] or bits [31:0] (20_memory.md R83). -/
def halfOf (d : Dword) (hi : Bool) : Word := if hi then d.extractLsb' 32 32 else d.extractLsb' 0 32

/-- The encoding with one half replaced (20_memory.md R83). -/
def withHalf (d : Dword) (hi : Bool) (v : Word) : Dword :=
  if hi then (v ++ d.extractLsb' 0 32 : BitVec (32 + 32)) else (d.extractLsb' 32 32 ++ v : BitVec (32 + 32))

/-- The word `w` of a local memory as the host sees it; the upper half of a RUN_MEM word reads 0
(20_memory.md R82, R86). -/
def State.memWord (s : State) (id : MemId) (w : Nat) : Word :=
  match id with
  | .run => (s.run.half w).setWidth 32
  | id => (s.memory id).word w

/-- A host write of word `w` of a local memory (20_memory.md R82, R86). -/
def State.putMemWord (s : State) (id : MemId) (w : Nat) (v : Word) : State :=
  match id with
  | .run => { s with run := s.run.writeHalves w [v.extractLsb' 0 16] }
  | id => s.setMemory id ((s.memory id).writeWord w v)

/-- What GENDEG reads as (10_state.md R39). -/
def State.gendegWord (s : State) : Word :=
  (BitVec.ofNat 8 (s.genDeg .qr)).setWidth 32 ||| ((BitVec.ofNat 8 (s.genDeg .dm)).setWidth 32 <<< 8)

/-- What PDEG reads as, computed from the Pk memories (10_state.md R41). -/
def State.pdegWord (s : State) : Word :=
  atBit 0 (polyDeg (s.polyOf .p0)) ||| atBit 8 (polyDeg (s.polyOf .p1)) ||| atBit 16 (polyDeg (s.polyOf .p2)) |||
    atBit 24 (polyDeg (s.polyOf .p3))

/-- What MmDIM reads as: H in bits [31:16], W in bits [15:0] (10_state.md R44). -/
def Dim.word (d : Dim) : Word := (d.h ++ d.w : BitVec (16 + 16))

/-- What a location reads as (10_state.md R32..R56, R62; 20_memory.md R81). -/
def State.readLoc (s : State) : Loc → Word
  | .ident => 0x42434531
  | .version => 0x00010000
  | .ctrl => s.ctrlWord
  | .status => s.statusWord
  | .cmd => 0
  | .lastcmd => s.lastcmd
  | .errinfo => s.check.setWidth 32
  | .gendeg => s.gendegWord
  | .pfld => s.pfld.setWidth 32
  | .pdeg => s.pdegWord
  | .rowsize => s.rowSize.setWidth 32
  | .nruns => s.nruns.setWidth 32
  | .dim m => (s.dim m).word
  | .arg i => s.arg[i]
  | .res i => s.res[i]
  | .dbl file i hi => halfOf (s.double file i) hi
  | .mem id w => s.memWord id w
  | .unmapped => 0

/-- The local memories a host may write (10_state.md R49..R56). -/
def MemId.writable : MemId → Bool
  | .cw => true
  | .syn => false
  | .eloc => false
  | .emag => false
  | .p _ => true
  | .row => true
  | .odres => false
  | .run => true
  | .mat _ => true

/-- The locations a host write is stored in, and dropped from while the engine is busy (70_reset_and_hazards.md R506). -/
def Loc.stores : Loc → Bool
  | .pfld => true
  | .nruns => true
  | .arg _ => true
  | .dbl _ _ _ => true
  | .mem id _ => id.writable
  | _ => false

/-- A host write stored in a location; every other location ignores it (20_memory.md R81). -/
def State.storeLoc (s : State) (l : Loc) (v : Word) : State :=
  match l with
  | .pfld => { s with pfld := v.extractLsb' 0 4 }
  | .nruns => { s with nruns := v.extractLsb' 0 13 }
  | .arg i => { s with arg := s.arg.set i v }
  | .dbl file i hi => s.setDouble file i (withHalf (s.double file i) hi v)
  | .mem id w => s.putMemWord id w v
  | _ => s

end Sys2Proof.Machine
end

