-- ==== Sys2Proof/Machine/Outputs.lean ====
section
/-!
DEFINITION. The outputs of each command: the memories and registers its rule writes (spec 70_reset_and_hazards.md R501,
R507), from the rules of 40 to 46.
-/

namespace Sys2Proof.Machine

/-- The local memories a command's rule writes. -/
def outMems : Instr → List MemId
  | .nop => []
  | .gfAdd _ => []
  | .gfMul _ => []
  | .gfDiv _ => []
  | .gfInv _ => []
  | .gfExp _ => []
  | .gfLog _ => []
  | .pMono _ pd => [.p pd]
  | .pAdd _ _ _ pd => [.p pd]
  | .pMul _ _ _ pd => [.p pd]
  | .pScale _ _ pd => [.p pd]
  | .pMulmono _ _ pd => [.p pd]
  | .pDiv _ pe _ _ pd => [.p pd, .p pe]
  | .pEval _ _ => []
  | .rsEncode _ => [.cw]
  | .rsSyndrome _ => [.syn]
  | .rsDecode _ => [.cw, .syn, .eloc, .emag]
  | .baGet => []
  | .baSet => [.row]
  | .baFlip => [.row]
  | .baClear => [.row]
  | .baSetrange => [.row]
  | .baIsrange => []
  | .baNextset => []
  | .baNextunset => []
  | .baReverse => [.row]
  | .baInit => [.row]
  | .bmInit m => [.mat m]
  | .bmGet _ => []
  | .bmSet m => [.mat m]
  | .bmUnset m => [.mat m]
  | .bmFlip m => [.mat m]
  | .bmClear m => [.mat m]
  | .bmSetregion m => [.mat m]
  | .bmGetrow _ => [.row]
  | .bmRot180 m => [.mat m]
  | .bmXor m => [.mat m]
  | .bmCopy m => [.mat m.other]
  | .bmTopleft _ => []
  | .bmBotright _ => []
  | .ptS2q => []
  | .ptQ2s => []
  | .ptQ2q => []
  | .ptAdj => []
  | .ptTimes => []
  | .ptCopy => []
  | .ptXform => []
  | .gridSample m => [.mat m.other]
  | .odRuns => [.run]
  | .odPmatch _ => []
  | .odDecode _ _ => [.odres]
  | .odMulti _ _ => [.odres]

/-- How many RES registers, from RES0 on, a command's rule writes. -/
def outRes : Instr → Nat
  | .nop => 0
  | .gfAdd _ => 1
  | .gfMul _ => 1
  | .gfDiv _ => 1
  | .gfInv _ => 1
  | .gfExp _ => 1
  | .gfLog _ => 1
  | .pMono _ _ => 0
  | .pAdd _ _ _ _ => 0
  | .pMul _ _ _ _ => 0
  | .pScale _ _ _ => 0
  | .pMulmono _ _ _ => 0
  | .pDiv _ _ _ _ _ => 0
  | .pEval _ _ => 1
  | .rsEncode _ => 0
  | .rsSyndrome _ => 1
  | .rsDecode _ => 1
  | .baGet => 1
  | .baSet => 0
  | .baFlip => 0
  | .baClear => 0
  | .baSetrange => 0
  | .baIsrange => 1
  | .baNextset => 1
  | .baNextunset => 1
  | .baReverse => 0
  | .baInit => 0
  | .bmInit _ => 0
  | .bmGet _ => 1
  | .bmSet _ => 0
  | .bmUnset _ => 0
  | .bmFlip _ => 0
  | .bmClear _ => 0
  | .bmSetregion _ => 0
  | .bmGetrow _ => 0
  | .bmRot180 _ => 0
  | .bmXor _ => 0
  | .bmCopy _ => 0
  | .bmTopleft _ => 3
  | .bmBotright _ => 3
  | .ptS2q => 0
  | .ptQ2s => 0
  | .ptQ2q => 0
  | .ptAdj => 0
  | .ptTimes => 0
  | .ptCopy => 0
  | .ptXform => 0
  | .gridSample _ => 0
  | .odRuns => 2
  | .odPmatch _ => 2
  | .odDecode _ _ => 6
  | .odMulti _ _ => 6

/-- The other registers a command's rule writes: PFLD, GENDEG, ROWSIZE, NRUNS, MmDIM. -/
def outRegs : Instr → List Loc
  | .pMono _ _ => [.pfld]
  | .pAdd _ _ _ _ => [.pfld]
  | .pMul _ _ _ _ => [.pfld]
  | .pScale _ _ _ => [.pfld]
  | .pMulmono _ _ _ => [.pfld]
  | .pDiv _ _ _ _ _ => [.pfld]
  | .rsEncode _ => [.gendeg]
  | .baInit => [.rowsize]
  | .bmInit m => [.dim m]
  | .bmGetrow _ => [.rowsize]
  | .bmCopy m => [.dim m.other]
  | .gridSample m => [.dim m.other]
  | .odRuns => [.nruns]
  | _ => []

/-- The binary64 register files a command's rule writes (10_state.md R47, R48). -/
def outFiles : Instr → List DFile
  | .ptS2q => [.ta]
  | .ptQ2s => [.ta]
  | .ptQ2q => [.ta]
  | .ptAdj => [.ta]
  | .ptTimes => [.ta]
  | .ptCopy => [.tb]
  | .ptXform => [.f]
  | _ => []

/-- The location is an output of the command (70_reset_and_hazards.md R507). PDEG is none: no rule writes it, and it is
computed from the current contents of P0..P3 (10_state.md R41). -/
def isOutput (i : Instr) : Loc → Bool
  | .errinfo => true
  | .res k => decide (k.val < outRes i)
  | .dbl file _ _ => decide (file ∈ outFiles i)
  | .mem id _ => decide (id ∈ outMems i)
  | l => decide (l ∈ outRegs i)

/-- The location is an output of what the executor runs; a word that does not decode writes only ERRINFO
(60_exceptions.md R462). -/
def State.runningOutput (s : State) (l : Loc) : Bool :=
  match s.executor with
  | .idle => false
  | .running w _ =>
    match decode w with
    | .ok i => isOutput i l
    | .error _ => l == .errinfo

/-- The memories that what the executor runs would write (70_reset_and_hazards.md R501). -/
def State.runningMems (s : State) : List MemId :=
  match s.executor with
  | .idle => []
  | .running w _ =>
    match decode w with
    | .ok i => outMems i
    | .error _ => []

end Sys2Proof.Machine
end

