-- ==== Sys2Proof/Machine/Port.lean ====
section
/-!
DEFINITION. What the engine does with an event at its edge: a host access (spec 20_memory.md R80..R89), the acceptance of a
command (60_exceptions.md R465), the soft reset and the power-on reset (70_reset_and_hazards.md R500, R501, R506, R507).
-/

namespace Sys2Proof.Machine

/-- Each named memory becomes unspecified, by a draw of its own (70_reset_and_hazards.md R501). -/
def redraw : List MemId → State → State
  | [], s => s
  | id :: ids, s => redraw ids { s.setMemory id (Memory.fresh s.draws) with draws := s.draws + 1 }

/-- Every register at its reset value, the cache empty and the executor idle; the local memories, and what is the
model's own, kept (70_reset_and_hazards.md R501). -/
def State.resetRegisters (s : State) : State :=
  { State.reset with
    cw := s.cw, syn := s.syn, eloc := s.eloc, emag := s.emag
    p0 := s.p0, p1 := s.p1, p2 := s.p2, p3 := s.p3
    row := s.row, odres := s.odres, run := s.run, mat0 := s.mat0, mat1 := s.mat1
    porHeld := s.porHeld, port := s.port, latencies := s.latencies, bus := s.bus, draws := s.draws }

/-- The soft reset (70_reset_and_hazards.md R501): an abandoned command's output memories are unspecified after it. -/
def State.softReset (s : State) : State := redraw s.runningMems s.resetRegisters

/-- The state the power-on reset leaves (70_reset_and_hazards.md R500): nine new draws; the host's pending events are
kept. -/
def State.powerOn (s : State) : State :=
  { State.reset with
    cw := Memory.fresh s.draws, syn := Memory.fresh (s.draws + 1), eloc := Memory.fresh (s.draws + 2)
    emag := Memory.fresh (s.draws + 3), row := Memory.fresh (s.draws + 4), odres := Memory.fresh (s.draws + 5)
    run := Memory.fresh (s.draws + 6), mat0 := Memory.fresh (s.draws + 7), mat1 := Memory.fresh (s.draws + 8)
    port := s.port, latencies := s.latencies, draws := s.draws + 9 }

/-- The acceptance of a command word (60_exceptions.md R465); how long it runs is the next open latency (log 2). -/
def State.accept (s : State) (w : Word) : State :=
  { s with lastcmd := w, executor := .running w (s.latencies.headD 0), latencies := s.latencies.tail }

/-- A host write of `v` to CTRL (10_state.md R34); with SRST the other bits are discarded (70_reset_and_hazards.md R501). -/
def State.writeCtrl (s : State) (v : Word) : State :=
  if v.getLsbD 2 then s.softReset else { s with ieDone := v.getLsbD 0, ieErr := v.getLsbD 1 }

/-- A host write of `v` to CMD (60_exceptions.md R465). -/
def State.writeCmd (s : State) (v : Word) : State := if s.busy then { s with cmdovr := true } else s.accept v

/-- The effect of an aligned 32-bit host write (20_memory.md R80, R81; 70_reset_and_hazards.md R506). -/
def State.hostWrite (s : State) (l : Loc) (v : Word) : State :=
  match l with
  | .ctrl => s.writeCtrl v
  | .status => s.clearStatus v
  | .cmd => s.writeCmd v
  | l =>
    if l.stores then
      (if s.busy then { s with wovr := true } else s.storeLoc l v)
    else s

/-- An aligned 32-bit host read: the answer on the port; a running command's output is a fresh draw
(20_memory.md R80; 70_reset_and_hazards.md R507). -/
def State.hostRead (s : State) (l : Loc) : State :=
  if s.runningOutput l then { s with bus := .data (Config.drawnWord s.draws), draws := s.draws + 1 }
  else { s with bus := .data (s.readLoc l) }

/-- Only aligned 32-bit accesses are legal (20_memory.md R87). -/
def legalAccess (width : Width) (off : Nat) : Bool := width == .w32 && off % 4 == 0

/-- A host read at a window offset, once it is this engine's: ignored under power-on reset, a bus error where it is
illegal (20_memory.md R87; 70_reset_and_hazards.md R500). -/
def State.readAt (s : State) (width : Width) (off : Nat) : State :=
  if s.porHeld then { s with bus := .none }
  else if legalAccess width off = false then
    { s with bus := .readError (Config.drawnError s.draws), draws := s.draws + 1 }
  else s.hostRead (locOf off)

/-- A host write at a window offset, once it is this engine's (20_memory.md R87; 70_reset_and_hazards.md R500). -/
def State.writeAt (s : State) (width : Width) (off : Nat) (v : Dword) : State :=
  if s.porHeld then { s with bus := .none }
  else if legalAccess width off = false then { s with bus := .writeError }
  else { s.hostWrite (locOf off) (v.setWidth 32) with bus := .written }

/-- One event at the engine's edge (log 1); an offset past the window does not exist (log 8). -/
def State.event (s : State) : PortEvent → Result
  | .read width off => if off < Config.windowBytes then .next (s.readAt width off) else .fault .outsideWindow
  | .write width off v =>
    if off < Config.windowBytes then .next (s.writeAt width off v) else .fault .outsideWindow
  | .porAssert => .next { s.powerOn with porHeld := true }
  | .porRelease => .next { s with porHeld := false }

/-- The port takes its next event, if there is one (log 1). -/
def State.serve (s : State) : Result :=
  match s.port with
  | [] => .next s
  | e :: es => { s with port := es }.event e

/-- The window offset of a bus address, none where the address is not this engine's: how the bus routes an access to the
port (20_memory.md R80, R96; log 8). -/
def offsetOf (addr : Nat) : Option Nat :=
  if Config.bceBase ≤ addr ∧ addr < Config.bceBase + Config.windowBytes then some (addr - Config.bceBase) else none

/-- The port event of a host load of a bus address (20_memory.md R80). -/
def busRead (width : Width) (addr : Nat) : Option PortEvent := (offsetOf addr).map (.read width)

/-- The port event of a host store to a bus address (20_memory.md R80). -/
def busWrite (width : Width) (addr : Nat) (v : Dword) : Option PortEvent :=
  (offsetOf addr).map fun off => .write width off v

end Sys2Proof.Machine
end

