-- ==== Sys2Proof/Machine/Engine.lean ====
section
/-!
DEFINITION. One step of the machine in its parts: the engine's completion of a word and the turns of the port
(spec 10_state.md R58; 20_memory.md R89; 70_reset_and_hazards.md R510).
-/

namespace Sys2Proof.Machine

/-- The engine's turn: the accepted word is decoded and run to its completion (30_encoding.md R118; 60_exceptions.md R462,
R464). -/
def runWord (w : Word) (s : State) : Result :=
  match decode w with
  | .ok i => exec i s
  | .error e => illegalCommand s e.check

/-- One step: an idle engine leaves the turn to the port; a running command completes once its latency has passed, and
until then the port has the turns (20_memory.md R89; log 1, 2). -/
def State.turn (s : State) : Result :=
  match s.executor with
  | .idle => s.serve
  | .running w 0 => runWord w s
  | .running w (n + 1) => { s with executor := .running w n }.serve

end Sys2Proof.Machine
end

