-- ==== Sys2Proof/Machine/Step.lean ====
section
/-!
DEFINITION. The step function, and how an instruction is placed so that the next step runs it.
-/

namespace Sys2Proof.Machine

/-- One step of the machine (spec 20_memory.md R89). -/
def step (s : State) : Host.Outcome State Fault Refusal := s.turn

/-- The state with the table word `w` accepted and due: LASTCMD holds it and the executor runs it, as a CMD write to an
idle engine leaves them (60_exceptions.md R465; log 10), so the next step runs it. -/
def State.withFetchWord (s : State) (nbits w : Nat) : State :=
  { s with
    lastcmd := BitVec.ofNat 32 (w % 2 ^ nbits)
    executor := .running (BitVec.ofNat 32 (w % 2 ^ nbits)) 0 }

end Sys2Proof.Machine
end

