-- ==== Sys2Proof/Safety.lean ====
section
/-!
DEFINITION. What the claims are stated in: the invariant of a good state, the failures each command may complete with, and
the mathematics, tables and output lists the rules appeal to (products over GF(2), syndromes, the error locator, IEEE
rounding, transforms, runs and best matches, output spans), written without the model's tables and loops.
-/

namespace Sys2Proof.Machine

/-! ### The invariant -/

/-- The generator cache of a field holds the generator polynomials of the degrees 0 to `d` (10_state.md R57; 41_rs.md
R201, R202). -/
def State.CacheHolds (s : State) (f : Field) (d : Nat) : Prop := s.gen f = (List.range (d + 1)).map (generatorPoly f)

/-- A good state: every local memory in its canonical form inside its size, the logical sizes inside the memories
(10_state.md R42, R56; 43_bitmatrix.md R300), the generator caches what they must be (10_state.md R57), no draw used before
it was made (log 4), and nothing running under power-on reset (70_reset_and_hazards.md R500). -/
structure State.Inv (s : State) : Prop where
  memories : ∀ id, (s.memory id).wf id.size = true
  rowSize : s.size ≤ Config.rowBits
  matrices : ∀ m, rowWords (s.width m) * s.height m ≤ Config.matWords
  caches : ∀ f, ∃ d, d < Config.cwMax ∧ s.CacheHolds f d
  draws : ∀ id k, (s.memory id).fill = .drawn k → k < s.draws
  held : s.porHeld = true → s.executor = .idle

/-! ### Failures -/

/-- Every code and check number a command may complete with, other than OK (60_exceptions.md R463). -/
def failures : Instr → List (Code × Nat)
  | .nop => []
  | .gfAdd _ => [(.illegalArgument, 1), (.illegalArgument, 2)]
  | .gfMul _ => [(.illegalArgument, 1), (.illegalArgument, 2)]
  | .gfDiv _ => [(.illegalArgument, 1), (.illegalArgument, 2), (.arithmetic, 3)]
  | .gfInv _ => [(.illegalArgument, 1), (.arithmetic, 2)]
  | .gfExp _ => [(.illegalArgument, 1)]
  | .gfLog _ => [(.illegalArgument, 1), (.arithmetic, 2)]
  | .pMono _ _ => [(.illegalArgument, 1), (.arithmetic, 2), (.illegalArgument, 3)]
  | .pAdd _ _ _ _ => [(.illegalArgument, 1), (.illegalArgument, 2)]
  | .pMul _ _ _ _ => [(.illegalArgument, 1), (.illegalArgument, 2), (.illegalArgument, 3)]
  | .pScale _ _ _ => [(.illegalArgument, 1), (.illegalArgument, 2)]
  | .pMulmono _ _ _ =>
    [(.illegalArgument, 1), (.illegalArgument, 2), (.arithmetic, 3), (.illegalArgument, 4), (.illegalArgument, 5)]
  | .pDiv _ _ _ _ _ => [(.illegalArgument, 1), (.illegalArgument, 2), (.arithmetic, 3)]
  | .pEval _ _ => [(.illegalArgument, 1), (.illegalArgument, 2)]
  | .rsEncode _ => [(.illegalArgument, 1), (.illegalArgument, 2), (.illegalArgument, 3)]
  | .rsSyndrome _ => [(.illegalArgument, 1), (.illegalArgument, 2)]
  | .rsDecode _ =>
    [(.illegalArgument, 1), (.illegalArgument, 2), (.checksum, 3), (.checksum, 4), (.checksum, 5), (.checksum, 6),
      (.checksum, 7)]
  | .baGet => [(.illegalArgument, 1)]
  | .baSet => [(.illegalArgument, 1)]
  | .baFlip => [(.illegalArgument, 1)]
  | .baClear => []
  | .baSetrange => [(.illegalArgument, 1)]
  | .baIsrange => [(.illegalArgument, 1), (.illegalArgument, 2)]
  | .baNextset => [(.illegalArgument, 1)]
  | .baNextunset => [(.illegalArgument, 1)]
  | .baReverse => []
  | .baInit => [(.illegalArgument, 1)]
  | .bmInit _ => [(.illegalArgument, 1), (.illegalArgument, 2), (.illegalArgument, 3)]
  | .bmGet _ => [(.illegalArgument, 1), (.illegalArgument, 2), (.illegalArgument, 3)]
  | .bmSet _ => [(.illegalArgument, 1), (.illegalArgument, 2), (.illegalArgument, 3)]
  | .bmUnset _ => [(.illegalArgument, 1), (.illegalArgument, 2), (.illegalArgument, 3)]
  | .bmFlip _ => [(.illegalArgument, 1), (.illegalArgument, 2), (.illegalArgument, 3)]
  | .bmClear _ => [(.illegalArgument, 1)]
  | .bmSetregion _ => [(.illegalArgument, 1), (.illegalArgument, 2), (.illegalArgument, 3), (.illegalArgument, 4)]
  | .bmGetrow _ => [(.illegalArgument, 1), (.illegalArgument, 2), (.illegalArgument, 3)]
  | .bmRot180 _ => [(.illegalArgument, 1)]
  | .bmXor _ => [(.illegalArgument, 1), (.illegalArgument, 2), (.illegalArgument, 3)]
  | .bmCopy _ => [(.illegalArgument, 1)]
  | .bmTopleft _ => [(.illegalArgument, 1)]
  | .bmBotright _ => [(.illegalArgument, 1)]
  | .ptS2q => []
  | .ptQ2s => []
  | .ptQ2q => []
  | .ptAdj => []
  | .ptTimes => []
  | .ptCopy => []
  | .ptXform => []
  | .gridSample _ => [(.illegalArgument, 1), (.notFound, 2), (.illegalArgument, 3), (.notFound, 4), (.notFound, 5)]
  | .odRuns => [(.illegalArgument, 1)]
  | .odPmatch _ => [(.illegalArgument, 1), (.notFound, 2), (.notFound, 3)]
  | .odDecode _ _ =>
    [(.illegalArgument, 1), (.notFound, 2), (.notFound, 3), (.notFound, 4), (.notFound, 5), (.notFound, 6),
      (.notFound, 7), (.notFound, 8), (.format, 9), (.checksum, 10), (.checksum, 11)]
  | .odMulti _ _ => [(.illegalArgument, 1), (.notFound, 2)]

/-! ### Decoding, from the tables of 30_encoding.md -/

/-- The opcodes of the map, as the complement of the unassigned ranges (30_encoding.md R120). -/
def assigned (opc : Nat) : Prop :=
  opc = 0 ∨ (0x10 ≤ opc ∧ opc ≤ 0x15) ∨ (0x20 ≤ opc ∧ opc ≤ 0x26) ∨ (0x30 ≤ opc ∧ opc ≤ 0x32) ∨
    (0x40 ≤ opc ∧ opc ≤ 0x49) ∨ (0x50 ≤ opc ∧ opc ≤ 0x5C) ∨ (0x60 ≤ opc ∧ opc ≤ 0x67) ∨ (0x70 ≤ opc ∧ opc ≤ 0x73)

/-- `mask_used` of an assigned opcode (30_encoding.md R122). -/
def maskUsed (opc : Nat) : Word :=
  if (0x10 ≤ opc ∧ opc ≤ 0x15) ∨ (0x30 ≤ opc ∧ opc ≤ 0x32) then 0xFF000100
  else if opc = 0x20 then 0xFF000103
  else if opc = 0x21 ∨ opc = 0x22 then 0xFF00013F
  else if opc = 0x23 ∨ opc = 0x24 then 0xFF00010F
  else if opc = 0x25 then 0xFF0001FF
  else if opc = 0x26 then 0xFF00010C
  else if (0x50 ≤ opc ∧ opc ≤ 0x5C) ∨ opc = 0x67 then 0xFF000200
  else if opc = 0x71 then 0xFF000007
  else if opc = 0x72 then 0xFF000017
  else if opc = 0x73 then 0xFF00003F
  else 0xFF000000

/-- The reserved field values of check 3 (30_encoding.md R118, R120). -/
def reservedFields (w : Word) : Prop :=
  (((w >>> 24).toNat = 0x71 ∨ (w >>> 24).toNat = 0x72) ∧ 5 ≤ (w &&& 7).toNat) ∨
    ((w >>> 24).toNat = 0x72 ∧ w.getLsbD 4 = true ∧ (w &&& 7).toNat ≠ 0) ∨
    ((w >>> 24).toNat = 0x25 ∧ w.getLsbD 0 = w.getLsbD 6 ∧ w.getLsbD 1 = w.getLsbD 7)

/-! ### The window, from the map of 10_state.md R62 -/

/-- The offsets a host write is stored at: the read-write registers and memories (10_state.md R62; the list of
70_reset_and_hazards.md R506). CTRL, STATUS and CMD are not among them. -/
def writableOffset (a : Nat) : Bool :=
  a == 0x020 || a == 0x02C || (decide (0x040 ≤ a) && decide (a < 0x060)) ||
    (decide (0x100 ≤ a) && decide (a < 0x1C8)) || (decide (0x200 ≤ a) && decide (a < 0x248)) ||
    (decide (0x1000 ≤ a) && decide (a < 0x1100)) || (decide (0x1400 ≤ a) && decide (a < 0x1800)) ||
    (decide (0x2000 ≤ a) && decide (a < 0x2200)) || (decide (0x4000 ≤ a) && decide (a < 0x8000)) ||
    (decide (0x40000 ≤ a) && decide (a < 0xC0000))

/-- The four bytes at address `a` of a memory as a little-endian word (20_memory.md R82). -/
def littleWord (m : Memory) (a : Nat) : Word :=
  BitVec.ofNat 32
    ((m.byte a).toNat + 2 ^ 8 * (m.byte (a + 1)).toNat + 2 ^ 16 * (m.byte (a + 2)).toNat +
      2 ^ 24 * (m.byte (a + 3)).toNat)

/-- One half of a binary64 register of a file whose first offset is `base` (20_memory.md R83). -/
def doubleHalf {n : Nat} (file : Vector Dword n) (base a : Nat) : Word :=
  ((file.getD ((a - base) / 8) 0) >>> (if a % 8 = 4 then 32 else 0)).setWidth 32

/-- The highest index below `n` with a nonzero coefficient, or 0 (40_gf.md R171). -/
def degreeBelow (c : Nat → Byte) : Nat → Nat
  | 0 => 0
  | n + 1 => if c n ≠ 0 then n else degreeBelow c n

/-- What STATUS reads as (10_state.md R35). -/
def State.statusValue (s : State) : Nat :=
  s.busy.toNat + 2 * s.done.toNat + 4 * s.err.toNat + 8 * s.cmdovr.toNat + 16 * s.wovr.toNat + 256 * s.code.num

/-- What PDEG reads as (10_state.md R41). -/
def State.pdegValue (s : State) : Nat :=
  degreeBelow s.p0.byte 256 + 2 ^ 8 * degreeBelow s.p1.byte 256 + 2 ^ 16 * degreeBelow s.p2.byte 256 +
    2 ^ 24 * degreeBelow s.p3.byte 256

/-- What the word at a window offset, a multiple of 4, reads as in a state (10_state.md R32 to R56, R62; 20_memory.md
R80 to R86). -/
def State.windowRead (s : State) (a : Nat) : Word :=
  if a = 0x000 then 0x42434531
  else if a = 0x004 then 0x00010000
  else if a = 0x008 then BitVec.ofNat 32 (s.ieDone.toNat + 2 * s.ieErr.toNat)
  else if a = 0x00C then BitVec.ofNat 32 s.statusValue
  else if a = 0x014 then s.lastcmd
  else if a = 0x018 then s.check.setWidth 32
  else if a = 0x01C then BitVec.ofNat 32 (s.genDeg .qr % 256 + 256 * (s.genDeg .dm % 256))
  else if a = 0x020 then s.pfld.setWidth 32
  else if a = 0x024 then BitVec.ofNat 32 s.pdegValue
  else if a = 0x028 then s.rowSize.setWidth 32
  else if a = 0x02C then s.nruns.setWidth 32
  else if a = 0x030 then BitVec.ofNat 32 (s.width .m0 + 2 ^ 16 * s.height .m0)
  else if a = 0x034 then BitVec.ofNat 32 (s.width .m1 + 2 ^ 16 * s.height .m1)
  else if 0x040 ≤ a ∧ a < 0x060 then s.arg.getD ((a - 0x040) / 4) 0
  else if 0x060 ≤ a ∧ a < 0x080 then s.res.getD ((a - 0x060) / 4) 0
  else if 0x100 ≤ a ∧ a < 0x180 then doubleHalf s.f 0x100 a
  else if 0x180 ≤ a ∧ a < 0x1C8 then doubleHalf s.ta 0x180 a
  else if 0x200 ≤ a ∧ a < 0x248 then doubleHalf s.tb 0x200 a
  else if 0x1000 ≤ a ∧ a < 0x1100 then littleWord s.cw (a - 0x1000)
  else if 0x1100 ≤ a ∧ a < 0x1200 then littleWord s.syn (a - 0x1100)
  else if 0x1200 ≤ a ∧ a < 0x1300 then littleWord s.eloc (a - 0x1200)
  else if 0x1300 ≤ a ∧ a < 0x1400 then littleWord s.emag (a - 0x1300)
  else if 0x1400 ≤ a ∧ a < 0x1500 then littleWord s.p0 (a - 0x1400)
  else if 0x1500 ≤ a ∧ a < 0x1600 then littleWord s.p1 (a - 0x1500)
  else if 0x1600 ≤ a ∧ a < 0x1700 then littleWord s.p2 (a - 0x1600)
  else if 0x1700 ≤ a ∧ a < 0x1800 then littleWord s.p3 (a - 0x1700)
  else if 0x2000 ≤ a ∧ a < 0x2200 then littleWord s.row (a - 0x2000)
  else if 0x3000 ≤ a ∧ a < 0x3100 then littleWord s.odres (a - 0x3000)
  else if 0x4000 ≤ a ∧ a < 0x8000 then (s.run.half ((a - 0x4000) / 4)).setWidth 32
  else if 0x40000 ≤ a ∧ a < 0x80000 then littleWord s.mat0 (a - 0x40000)
  else if 0x80000 ≤ a ∧ a < 0xC0000 then littleWord s.mat1 (a - 0x80000)
  else 0

/-- The bits of a written word that its offset keeps (10_state.md R40, R43, R55). -/
def keptBits (a : Nat) (v : Word) : Word :=
  if a = 0x020 then v &&& 0xF
  else if a = 0x02C then v &&& 0x1FFF
  else if 0x4000 ≤ a ∧ a < 0x8000 then v &&& 0xFFFF
  else v

/-! ### The fields -/

/-- The product of two elements as polynomials over GF(2), not reduced: bit `i` is the coefficient of x^i
(40_gf.md R152). -/
def carryless (a b : Byte) : BitVec 16 :=
  (List.range 8).foldl (fun v i => if b.getLsbD i then v ^^^ (a.setWidth 16 <<< i) else v) 0

/-- The remainder modulo the primitive polynomial: the coefficients of x^(8+n-1) down to x^8 are cleared
(40_gf.md R150). -/
def reduce (f : Field) : Nat → BitVec 16 → BitVec 16
  | 0, v => v
  | n + 1, v => reduce f n (if v.getLsbD (8 + n) then v ^^^ (BitVec.ofNat 16 (prim f) <<< n) else v)

/-- Polynomial multiplication over GF(2) reduced modulo the primitive polynomial (40_gf.md R153). -/
def fieldProduct (f : Field) (a b : Byte) : Byte := (reduce f 8 (carryless a b)).setWidth 8

/-- A power of an element under `fieldProduct`. -/
def fieldPower (f : Field) (a : Byte) : Nat → Byte
  | 0 => 1
  | n + 1 => fieldProduct f a (fieldPower f a n)

/-- A power of an element under the model's product. -/
def gfPow (f : Field) (a : Byte) : Nat → Byte
  | 0 => 1
  | n + 1 => gfMul f a (gfPow f a n)

/-- The sum of `n` elements, `⊕` over `g 0` to `g (n - 1)`. -/
def xorSum : Nat → (Nat → Byte) → Byte
  | 0, _ => 0
  | n + 1, g => xorSum n g ^^^ g n

/-- The field element an ARG register holds. -/
def State.argByte (s : State) (i : Fin 8) : Byte := (s.arg[i]).setWidth 8

/-- The coefficient of x^i in polynomial register r (40_gf.md R170). -/
def State.coef (s : State) (r : PReg) (i : Nat) : Byte := (s.poly r).byte i

/-! ### Reed-Solomon -/

/-- Syndrome number `i` of the codeword of length `n` in a memory: `Σ_j CW[j]·α^((i + b_F)(n-1-j))`
(41_rs.md R200, R204). -/
def codeSyndrome (f : Field) (n : Nat) (cw : Memory) (i : Nat) : Byte :=
  xorSum n fun j => gfMul f (cw.byte j) (gfPow f (gfPow f 2 (i + genBase f)) (n - 1 - j))

/-- The word of length `n` in CW_MEM is a codeword for `twoS` EC bytes (41_rs.md R204). -/
def IsCodeword (f : Field) (n twoS : Nat) (cw : Memory) : Prop := ∀ i < twoS, codeSyndrome f n cw i = 0

/-! ### Polynomials and the error locator of RS_DECODE (41_rs.md R207 to R212) -/

/-- A polynomial by its coefficients, the coefficient of x^k at k. -/
abbrev Coefs := Nat → Byte

/-- The coefficients lie below the degree 256, which every polynomial of RS_DECODE does. -/
def Coefs.Short (c : Coefs) : Prop := ∀ k, 256 ≤ k → c k = 0

/-- The degree, 0 for the zero polynomial (40_gf.md R171). -/
def Coefs.degree (c : Coefs) : Nat := degreeBelow c 256

/-- The coefficients of the product (40_gf.md R174). -/
def Coefs.product (f : Field) (a b : Coefs) : Coefs := fun k => xorSum (k + 1) fun j => gfMul f (a j) (b (k - j))

/-- The value at a point (40_gf.md R174). -/
def Coefs.eval (f : Field) (c : Coefs) (a : Byte) : Byte := xorSum 256 fun i => gfMul f (c i) (gfPow f a i)

/-- Every coefficient times a scalar (40_gf.md R174). -/
def Coefs.scale (f : Field) (c : Coefs) (s : Byte) : Coefs := fun k => gfMul f (c k) s

/-- The passes of the Euclidean algorithm from `rLast`, `r`, `tLast`, `t` end with the last two arguments: a pass divides
`rLast` by `r`, and the algorithm stops once twice the degree of `r` is below `twoS` (41_rs.md R207). -/
inductive Euclid (f : Field) (twoS : Nat) : Coefs → Coefs → Coefs → Coefs → Coefs → Coefs → Prop where
  | stop (rLast r tLast t : Coefs) : 2 * r.degree < twoS → Euclid f twoS rLast r tLast t r t
  | pass (rLast r tLast t q r' t' rEnd tEnd : Coefs) : twoS ≤ 2 * r.degree → (∃ k, r k ≠ 0) → q.Short → r'.Short →
      (∀ k, rLast k = Coefs.product f q r k ^^^ r' k) → ((∀ k, r' k = 0) ∨ r'.degree < r.degree) →
      (∀ k, t' k = Coefs.product f q t k ^^^ tLast k) → Euclid f twoS r r' t t' rEnd tEnd →
      Euclid f twoS rLast r tLast t rEnd tEnd

/-- The syndrome polynomial of the word of length `n` in a memory (41_rs.md R204, R206). -/
def syndromeCoefs (f : Field) (n twoS : Nat) (cw : Memory) : Coefs :=
  fun k => if k < twoS then codeSyndrome f n cw k else 0

/-- The monomial x^d. -/
def powerCoefs (d : Nat) : Coefs := fun k => if k = d then 1 else 0

/-- The roots of a polynomial among 1 to 255, in ascending order (41_rs.md R208). -/
def rootsOf (f : Field) (c : Coefs) : List Byte :=
  ((List.range' 1 255).map (BitVec.ofNat 8)).filter fun a => c.eval f a == 0

/-- The error locations of a locator: its linear coefficient where its degree is 1, else the inverses of its roots
(41_rs.md R208). -/
def locations (f : Field) (sigma : Coefs) : List Byte :=
  if sigma.degree = 1 then [sigma 1] else (rootsOf f sigma).map (gfInv f)

/-- The product over the locations but number `k` of `X[j]·X[k]⁻¹ + 1` (41_rs.md R209). -/
def otherFactors (f : Field) (xs : List Byte) (k : Nat) : Byte :=
  (List.range xs.length).foldl
    (fun den j => if j = k then den else gfMul f den (gfMul f (xs.getD j 0) (gfInv f (xs.getD k 0)) ^^^ 1)) 1

/-- Forney's magnitude of location number `k` (41_rs.md R209). -/
def magnitude (f : Field) (omega : Coefs) (xs : List Byte) (k : Nat) : Byte :=
  gfMul f (gfMul f (omega.eval f (gfInv f (xs.getD k 0))) (gfInv f (otherFactors f xs k)))
    (match f with | .qr => 1 | .dm => gfInv f (xs.getD k 0))

/-- The byte `p` of a codeword of length `n` is where location `x` points: `p = n - 1 - log x` (41_rs.md R210). -/
def PointsTo (f : Field) (n : Nat) (x : Byte) (p : Nat) : Prop := p < n ∧ gfPow f 2 (n - 1 - p) = x

/-- How many of the first `n` bytes of two memories differ. -/
def changedBytes (n : Nat) (a b : Memory) : Nat := ((List.range n).filter fun j => a.byte j != b.byte j).length

/-! ### IEEE 754 binary64 (44_sampler.md R330), from the encoding as a number -/

/-- The sign bit. -/
def ieeeNeg (d : Dword) : Bool := decide (2 ^ 63 ≤ d.toNat)

/-- The biased exponent. -/
def ieeeExp (d : Dword) : Nat := d.toNat / 2 ^ 52 % 2 ^ 11

/-- The fraction. -/
def ieeeFrac (d : Dword) : Nat := d.toNat % 2 ^ 52

/-- Neither infinite nor NaN. -/
def ieeeFinite (d : Dword) : Bool := decide (ieeeExp d < 2047)

/-- The value is NaN. -/
def ieeeNaN (d : Dword) : Bool := decide (ieeeExp d = 2047) && decide (ieeeFrac d ≠ 0)

/-- The value of a finite encoding in units of 2^-1074, the smallest subnormal. -/
def ieeeUnits (d : Dword) : Int :=
  (if ieeeNeg d then -1 else 1) *
    ((if ieeeExp d = 0 then ieeeFrac d else (2 ^ 52 + ieeeFrac d) * 2 ^ (ieeeExp d - 1) : Nat) : Int)

/-- The infinity of a sign. -/
def ieeeInf (neg : Bool) : Dword := if neg then 0xFFF0000000000000 else 0x7FF0000000000000

/-- The zero of a sign. -/
def ieeeZero (neg : Bool) : Dword := if neg then 0x8000000000000000 else 0

/-- The least magnitude, in units, that rounds to an infinity: half a place above the largest finite value. -/
def overflowUnits : Nat := (2 ^ 54 - 1) * 2 ^ 2044

/-- `r` is the exact value of `num / den` units rounded to nearest, ties to even, an overflow giving the signed
infinity (44_sampler.md R330). -/
structure RoundedTo (num : Int) (den : Nat) (r : Dword) : Prop where
  /-- The result is finite exactly where the exact value is below the overflow bound. -/
  finite : ieeeFinite r = true ↔ num.natAbs < den * overflowUnits
  /-- An overflow gives the infinity of the exact value's sign. -/
  overflow : ieeeFinite r = false → r = ieeeInf (decide (num < 0))
  /-- No finite value is nearer. -/
  nearest : ieeeFinite r = true → ∀ c, ieeeFinite c = true →
    (num - ieeeUnits r * den).natAbs ≤ (num - ieeeUnits c * den).natAbs
  /-- Of two equally near ones the even one is taken. -/
  even : ieeeFinite r = true → ∀ c, ieeeFinite c = true →
    (num - ieeeUnits r * den).natAbs = (num - ieeeUnits c * den).natAbs → ieeeUnits c ≠ ieeeUnits r →
    r.getLsbD 0 = false

/-! ### Transforms as the rules write them (44_sampler.md R332 to R335) -/

/-- `apply(T, x, y)`, with T = (a11, a21, a31, a12, a22, a32, a13, a23, a33) (44_sampler.md R332). -/
def ruleApply (t : Vector Dword 9) (x y : Dword) : Dword × Dword :=
  (fDiv (fAdd (fAdd (fMul t[0] x) (fMul t[1] y)) t[2]) (fAdd (fAdd (fMul t[6] x) (fMul t[7] y)) t[8]),
    fDiv (fAdd (fAdd (fMul t[3] x) (fMul t[4] y)) t[5]) (fAdd (fAdd (fMul t[6] x) (fMul t[7] y)) t[8]))

/-- `dx3` and `dy3` of s2q: `v0 - v1 + v2 - v3` (44_sampler.md R334). -/
def ruleSkew (v0 v1 v2 v3 : Dword) : Dword := fSub (fAdd (fSub v0 v1) v2) v3

/-- The affine case of s2q: both skews are +0.0 or -0.0 (44_sampler.md R334). -/
def ruleAffine (x0 y0 x1 y1 x2 y2 x3 y3 : Dword) : Prop :=
  (ruleSkew x0 x1 x2 x3 = 0 ∨ ruleSkew x0 x1 x2 x3 = 0x8000000000000000) ∧
    (ruleSkew y0 y1 y2 y3 = 0 ∨ ruleSkew y0 y1 y2 y3 = 0x8000000000000000)

/-- `t` is `s2q(x0, y0, …, x3, y3)`, in its two cases (44_sampler.md R334); x0 and y0 stand in it as their bits (log 19). -/
def IsS2q (x0 y0 x1 y1 x2 y2 x3 y3 : Dword) (t : Vector Dword 9) : Prop :=
  (ruleAffine x0 y0 x1 y1 x2 y2 x3 y3 →
    t = #v[fSub x1 x0, fSub x2 x1, x0, fSub y1 y0, fSub y2 y1, y0, 0, 0, 0x3FF0000000000000]) ∧
  (¬ ruleAffine x0 y0 x1 y1 x2 y2 x3 y3 →
    ∃ dx1 dx2 dx3 dy1 dy2 dy3 den a13 a23 : Dword,
      dx1 = fSub x1 x2 ∧ dx2 = fSub x3 x2 ∧ dx3 = ruleSkew x0 x1 x2 x3 ∧
      dy1 = fSub y1 y2 ∧ dy2 = fSub y3 y2 ∧ dy3 = ruleSkew y0 y1 y2 y3 ∧
      den = fSub (fMul dx1 dy2) (fMul dx2 dy1) ∧
      a13 = fDiv (fSub (fMul dx3 dy2) (fMul dx2 dy3)) den ∧
      a23 = fDiv (fSub (fMul dx1 dy3) (fMul dx3 dy1)) den ∧
      t = #v[fAdd (fSub x1 x0) (fMul a13 x1), fAdd (fSub x3 x0) (fMul a23 x3), x0,
        fAdd (fSub y1 y0) (fMul a13 y1), fAdd (fSub y3 y0) (fMul a23 y3), y0, a13, a23, 0x3FF0000000000000])

/-- `p×q - u×v`, an element of the adjoint (44_sampler.md R335). -/
def ruleMinor (p q u v : Dword) : Dword := fSub (fMul p q) (fMul u v)

/-- `adj(T)` over the elements of T by name (44_sampler.md R335). -/
def ruleAdj (a11 a21 a31 a12 a22 a32 a13 a23 a33 : Dword) : Vector Dword 9 :=
  #v[ruleMinor a22 a33 a23 a32, ruleMinor a23 a31 a21 a33, ruleMinor a21 a32 a22 a31,
    ruleMinor a13 a32 a12 a33, ruleMinor a11 a33 a13 a31, ruleMinor a12 a31 a11 a32,
    ruleMinor a12 a23 a13 a22, ruleMinor a13 a21 a11 a23, ruleMinor a11 a22 a12 a21]

/-- `adj` of the elements in register order. -/
def adjOf (t : Vector Dword 9) : Vector Dword 9 := ruleAdj t[0] t[1] t[2] t[3] t[4] t[5] t[6] t[7] t[8]

/-- Row `i` of T with column `j` of U, `(p1 + p2) + p3`: element `3i + j` of `times(T, U)` (44_sampler.md R335). -/
def timesElement (t u : Vector Dword 9) (i j : Nat) : Dword :=
  fAdd (fAdd (fMul (t.getD (3 * i) 0) (u.getD j 0)) (fMul (t.getD (3 * i + 1) 0) (u.getD (j + 3) 0)))
    (fMul (t.getD (3 * i + 2) 0) (u.getD (j + 6) 0))

/-- `v` is `times(T, U)`, element by element (44_sampler.md R335). -/
def IsTimes (t u v : Vector Dword 9) : Prop := ∀ i j, i < 3 → j < 3 → v.getD (3 * i + j) 0 = timesElement t u i j

/-! ### Grid sampling -/

/-- The grid point of module (mx, my) in image coordinates: TA applied to `(mx + 0.5, my + 0.5)` (44_sampler.md R332,
R345). -/
def State.gridPoint (s : State) (mx my : Nat) : Dword × Dword :=
  ruleApply s.ta (fAdd (fOfNat mx) 0x3FE0000000000000) (fAdd (fOfNat my) 0x3FE0000000000000)

/-- The check a coordinate fails against its limit, none where it is inside the nudge window (44_sampler.md R346). -/
def coordFails (v : Dword) (lim : Nat) : Option Nat :=
  if fIsFinite v = false then some 4 else if fTrunc v < -1 ∨ fTrunc v > lim then some 5 else none

/-- The pixel a coordinate inside the nudge window samples: one outside is moved to the nearest inside
(44_sampler.md R346). -/
def coordPixel (v : Dword) (lim : Nat) : Nat :=
  if fTrunc v < 0 then 0 else if fTrunc v ≥ lim then lim - 1 else (fTrunc v).toNat

/-- The check a module's point fails, x before y (44_sampler.md R347). -/
def State.pointFails (s : State) (m : Mat) (mx my : Nat) : Option Nat :=
  (coordFails (s.gridPoint mx my).1 (s.width m)).or (coordFails (s.gridPoint mx my).2 (s.height m))

/-- The operands of GRID_SAMPLE pass its checks 1 to 3 (44_sampler.md R347). -/
def State.gridArgsOk (s : State) (m : Mat) : Prop :=
  s.initialised m = true ∧ 0 < s.argS 0 ∧ 0 < s.argS 1 ∧ s.argS 0 ≤ Config.dimMax ∧ s.argS 1 ≤ Config.dimMax ∧
    rowWords (s.argU 0) * s.argU 1 ≤ Config.matWords

/-! ### One-dimensional symbols -/

/-- The bits from `START` on as runs: alternating in colour, the first black, each whole, up to the end of the row
(45_matcher.md R381). -/
structure IsRuns (g : Nat → Bool) (size start : Nat) (rs : List Run) : Prop where
  /-- The first run starts at the first black module from START on. -/
  first : ∀ r ∈ rs.head?, start ≤ r.pos ∧ ∀ i, start ≤ i → i < r.pos → g i = false
  /-- Every run is nonempty and of its colour. -/
  colour : ∀ k r, rs[k]? = some r → 0 < r.len ∧ ∀ i, r.pos ≤ i → i < r.pos + r.len → g i = (k % 2 == 0)
  /-- Each run begins where the one before it ends. -/
  next : ∀ k r q, rs[k]? = some r → rs[k + 1]? = some q → q.pos = r.pos + r.len
  /-- The last run ends at the end of the row. -/
  last : ∀ r ∈ rs.getLast?, r.pos + r.len = size
  /-- There is none exactly where the row is white from START on. -/
  empty : rs = [] → ∀ i, start ≤ i → i < size → g i = false

/-! ### The pattern tables, from the masks of 45_matcher.md R383 -/

/-- The narrow and wide masks of Code 39, most significant bit first (45_matcher.md R383). -/
def masks39 : List Nat :=
    [0x034, 0x121, 0x061, 0x160, 0x031, 0x130, 0x070, 0x025, 0x124, 0x064, 0x109] ++
    [0x049, 0x148, 0x019, 0x118, 0x058, 0x00D, 0x10C, 0x04C, 0x01C, 0x103, 0x043] ++
    [0x142, 0x013, 0x112, 0x052, 0x007, 0x106, 0x046, 0x016, 0x181, 0x0C1, 0x1C0] ++
    [0x091, 0x190, 0x0D0, 0x085, 0x184, 0x0C4, 0x0A8, 0x0A2, 0x08A, 0x02A, 0x094]

/-- The module masks of Code 93, most significant bit first, 1 a bar module (45_matcher.md R383). -/
def masks93 : List Nat :=
    [0x114, 0x148, 0x144, 0x142, 0x128, 0x124, 0x122, 0x150, 0x112, 0x10A, 0x1A8, 0x1A4] ++
    [0x1A2, 0x194, 0x192, 0x18A, 0x168, 0x164, 0x162, 0x134, 0x11A, 0x158, 0x14C, 0x146] ++
    [0x12C, 0x116, 0x1B4, 0x1B2, 0x1AC, 0x1A6, 0x196, 0x19A, 0x16C, 0x166, 0x136, 0x13A] ++
    [0x12E, 0x1D4, 0x1D2, 0x1CA, 0x16E, 0x176, 0x1AE, 0x126, 0x1DA, 0x1D6, 0x132, 0x15E]

/-- The widths of Code 128 as decimal digits, the first six of the entry 106 (45_matcher.md R383). -/
def digits128 : List Nat :=
    [212222, 222122, 222221, 121223, 121322, 131222, 122213, 122312, 132212, 221213, 221312, 231212] ++
    [112232, 122132, 122231, 113222, 123122, 123221, 223211, 221132, 221231, 213212, 223112, 312131] ++
    [311222, 321122, 321221, 312212, 322112, 322211, 212123, 212321, 232121, 111323, 131123, 131321] ++
    [112313, 132113, 132311, 211313, 231113, 231311, 112133, 112331, 132131, 113123, 113321, 133121] ++
    [313121, 211331, 231131, 213113, 213311, 213131, 311123, 311321, 331121, 312113, 312311, 332111] ++
    [314111, 221411, 431111, 111224, 111422, 121124, 121421, 141122, 141221, 112214, 112412, 122114] ++
    [122411, 142112, 142211, 241211, 221114, 413111, 241112, 134111, 111242, 121142, 121241, 114212] ++
    [124112, 124211, 411212, 421112, 421211, 212141, 214121, 412121, 111143, 111341, 131141, 114113] ++
    [114311, 411113, 411311, 113141, 114131, 311141, 411131, 211412, 211214, 211232, 233111]

/-- The narrow and wide masks of ITF (45_matcher.md R383). -/
def masksItf : List Nat := [0b00110, 0b10001, 0b01001, 0b11000, 0b00101, 0b10100, 0b01100, 0b00011, 0b10010, 0b01010]

/-- The narrow and wide masks of Codabar (45_matcher.md R383). -/
def masksCodabar : List Nat :=
    [0x003, 0x006, 0x009, 0x060, 0x012, 0x042, 0x021, 0x024, 0x030, 0x048] ++
    [0x00C, 0x018, 0x045, 0x051, 0x054, 0x015, 0x01A, 0x029, 0x00B, 0x00E]

/-! ### One-dimensional matching (45_matcher.md R382 to R389) -/

/-- A row of the parameter table (45_matcher.md R382). -/
structure SymRow where
  k : Nat
  entries : Nat
  start : List Nat
  stop : List Nat
  gap : Nat
  term : Bool
  maxAvg : Nat
  maxInd : Nat
  qz : Nat

/-- The parameter table; ITF has fixed start and end patterns in place of sets (45_matcher.md R382). -/
def symRow : Sym → SymRow
  | .code39 => ⟨9, 44, [43], [43], 1, false, 107, 204, 2⟩
  | .code93 => ⟨6, 48, [47], [47], 0, true, 64, 179, 2⟩
  | .code128 => ⟨6, 107, [103, 104, 105], [106], 0, true, 64, 179, 2⟩
  | .itf => ⟨5, 10, [], [], 0, false, 107, 204, 10⟩
  | .codabar => ⟨7, 20, [16, 17, 18, 19], [16, 17, 18, 19], 1, false, 107, 204, 2⟩

/-- The bits of a mask of `k` bits, most significant first. -/
def maskBits (k mask : Nat) : List Bool := (List.range k).map fun i => mask.testBit (k - 1 - i)

/-- The widths of a narrow and wide mask: 1 narrow, 2 wide (45_matcher.md R383). -/
def wideWidths (k mask : Nat) : List Nat := (maskBits k mask).map fun b => if b then 2 else 1

/-- The runs of a module mask (45_matcher.md R383). -/
def moduleWidths (k mask : Nat) : List Nat := ((maskBits k mask).splitBy (· == ·)).map List.length

/-- The decimal digits of a width list of `k` widths. -/
def digitWidths (k n : Nat) : List Nat := (List.range k).map fun i => n / 10 ^ (k - 1 - i) % 10

/-- The first K widths of entry `v` of a symbology's table (45_matcher.md R383). -/
def refWidths : Sym → Nat → List Nat
  | .code39, v => wideWidths 9 (masks39.getD v 0)
  | .code93, v => moduleWidths 9 (masks93.getD v 0)
  | .code128, v => digitWidths 6 (digits128.getD v 0)
  | .itf, v => wideWidths 5 (masksItf.getD v 0)
  | .codabar, v => wideWidths 7 (masksCodabar.getD v 0)

/-- The difference of element `k`, on the scale of 256, for a module width `unit` (45_matcher.md R384). -/
def deviation (counts ref : List Nat) (unit k : Nat) : Nat :=
  ((counts.getD k 0 * 256 : Nat) - (ref.getD k 0 * unit : Nat) : Int).natAbs

/-- `PMV`, none for INF (45_matcher.md R384). -/
def variance (counts ref : List Nat) (maxInd : Nat) : Option Nat :=
  if counts.sum < ref.sum then none
  else if (List.range ref.length).any fun k =>
      decide (maxInd * (counts.sum * 256 / ref.sum) / 256 < deviation counts ref (counts.sum * 256 / ref.sum) k) then none
  else some (((List.range ref.length).map (deviation counts ref (counts.sum * 256 / ref.sum))).sum / counts.sum)

/-- The variance of a symbology's entry `v`. -/
def entryVariance (sym : Sym) (counts : List Nat) (v : Nat) : Option Nat :=
  variance counts (refWidths sym v) (symRow sym).maxInd

/-- `best(counts, E)` is entry `v` with variance `x`: below the limit, the least of all, the lowest of equals
(45_matcher.md R385). -/
def IsBest (sym : Sym) (counts entries : List Nat) (v x : Nat) : Prop :=
  v ∈ entries ∧ entryVariance sym counts v = some x ∧ x < (symRow sym).maxAvg ∧
    ∀ v' ∈ entries, ∀ x', entryVariance sym counts v' = some x' → x < x' ∨ (x = x' ∧ v ≤ v')

/-- `best(counts, E)` is none: no entry below the limit (45_matcher.md R385). -/
def NoBest (sym : Sym) (counts entries : List Nat) : Prop :=
  ∀ v ∈ entries, ∀ x, entryVariance sym counts v = some x → (symRow sym).maxAvg ≤ x

/-- Every entry of a symbology. -/
def entriesOf (sym : Sym) : List Nat := List.range (symRow sym).entries

/-- The lengths of `n` runs from run `k` on, `step` apart. -/
def runWidths (rs : List Run) (k step n : Nat) : List Nat := (List.range n).map fun i => (rs.getD (k + step * i) ⟨0, 0⟩).len

/-- The first position of run `k`. -/
def runStart (rs : List Run) (k : Nat) : Nat := (rs.getD k ⟨0, 0⟩).pos

/-- One past the last position of run `k`. -/
def runStop (rs : List Run) (k : Nat) : Nat := (rs.getD k ⟨0, 0⟩).pos + (rs.getD k ⟨0, 0⟩).len

/-- The character on the runs from `k` on is `v` among some entries (45_matcher.md R385). -/
def Reads (sym : Sym) (rs : List Run) (k : Nat) (entries : List Nat) (v : Nat) : Prop :=
  k + (symRow sym).k ≤ rs.length ∧ ∃ x, IsBest sym (runWidths rs k 1 (symRow sym).k) entries v x

/-- There is none: the runs end before it, or nothing matches (45_matcher.md R385). -/
def ReadsNone (sym : Sym) (rs : List Run) (k : Nat) (entries : List Nat) : Prop :=
  rs.length < k + (symRow sym).k ∨ NoBest sym (runWidths rs k 1 (symRow sym).k) entries

/-- The quiet zone before position `p` for a pattern of width `w`: white, or the edge of the row (45_matcher.md R386). -/
def QuietLeft (g : Nat → Bool) (sym : Sym) (p w : Nat) : Prop :=
  ∀ i, p - min p (w * (symRow sym).qz / 4) ≤ i → i < p → g i = false

/-- The quiet zone from position `p` on (45_matcher.md R386). -/
def QuietRight (g : Nat → Bool) (size : Nat) (sym : Sym) (p w : Nat) : Prop :=
  ∀ i, p ≤ i → i < p + min (size - p) (w * (symRow sym).qz / 4) → g i = false

/-- A start character `v` with its quiet zone is at run `j` (45_matcher.md R387). -/
def StartsAt (g : Nat → Bool) (sym : Sym) (rs : List Run) (j v : Nat) : Prop :=
  Reads sym rs j (symRow sym).start v ∧
    QuietLeft g sym (runStart rs j) (runStop rs (j + (symRow sym).k - 1) - runStart rs j)

/-- The first black run with a start character and its quiet zone is run `j` (45_matcher.md R387). -/
def FirstStart (g : Nat → Bool) (sym : Sym) (rs : List Run) (j v : Nat) : Prop :=
  j % 2 = 0 ∧ StartsAt g sym rs j v ∧ ∀ i, i < j → i % 2 = 0 → ∀ u, ¬ StartsAt g sym rs i u

/-- The first run of character number `m` after a start character at run `j` (45_matcher.md R388). -/
def charRun (sym : Sym) (j m : Nat) : Nat := j + (m + 1) * ((symRow sym).k + (symRow sym).gap)

/-- The characters after the start are `ds`, none of them a stop character, and ODRES holds them with the start
(45_matcher.md R388). -/
def DataRead (sym : Sym) (rs : List Run) (j : Nat) (ds : List Nat) : Prop :=
  1 + ds.length ≤ Config.resMax ∧
    ∀ m, m < ds.length →
      Reads sym rs (charRun sym j m) (entriesOf sym) (ds.getD m 0) ∧ ds.getD m 0 ∉ (symRow sym).stop

/-- The last run of the stop pattern whose character is at run `c` (45_matcher.md R388). -/
def lastOf (sym : Sym) (c : Nat) : Nat := if (symRow sym).term then c + (symRow sym).k else c + (symRow sym).k - 1

/-- The symbol ends at run `c`: the character there is the stop character `z`, the first after `ds`, and there is room
for it (45_matcher.md R388). -/
def StopsAt (sym : Sym) (rs : List Run) (j : Nat) (ds : List Nat) (c z : Nat) : Prop :=
  DataRead sym rs j ds ∧ c = charRun sym j ds.length ∧ 1 + ds.length < Config.resMax ∧
    Reads sym rs c (entriesOf sym) z ∧ z ∈ (symRow sym).stop

/-- The start pattern of ITF with its quiet zone is at run `j` (45_matcher.md R389). -/
def ItfStartsAt (g : Nat → Bool) (rs : List Run) (j : Nat) : Prop :=
  j + 4 ≤ rs.length ∧
    (∃ x, variance (runWidths rs j 1 4) [1, 1, 1, 1] 204 = some x ∧ x < 107) ∧
    QuietLeft g .itf (runStart rs j) (runStop rs (j + 3) - runStart rs j)

/-- The first black run with the start pattern of ITF is run `j` (45_matcher.md R389). -/
def ItfFirstStart (g : Nat → Bool) (rs : List Run) (j : Nat) : Prop :=
  j % 2 = 0 ∧ ItfStartsAt g rs j ∧ ∀ i, i < j → i % 2 = 0 → ¬ ItfStartsAt g rs i

/-- The end pattern of ITF with its quiet zone is at run `c` (45_matcher.md R389). -/
def ItfEndsAt (g : Nat → Bool) (size : Nat) (rs : List Run) (c : Nat) : Prop :=
  c + 3 ≤ rs.length ∧
    (∃ x, variance (runWidths rs c 1 3) [2, 1, 1] 204 = some x ∧ x < 107) ∧
    QuietRight g size .itf (runStop rs (c + 2)) (runStop rs (c + 2) - runStart rs c)

/-- The ten runs from `c` on are the digit pair `d` (45_matcher.md R389). -/
def ItfPair (rs : List Run) (c : Nat) (d : Nat × Nat) : Prop :=
  c + 10 ≤ rs.length ∧ (∃ x, IsBest .itf (runWidths rs c 2 5) (entriesOf .itf) d.1 x) ∧
    ∃ x, IsBest .itf (runWidths rs (c + 1) 2 5) (entriesOf .itf) d.2 x

/-- The ten runs from `c` on are no digit pair (45_matcher.md R389). -/
def ItfNoPair (rs : List Run) (c : Nat) : Prop :=
  rs.length < c + 10 ∨ NoBest .itf (runWidths rs c 2 5) (entriesOf .itf) ∨
    NoBest .itf (runWidths rs (c + 1) 2 5) (entriesOf .itf)

/-- The digit pairs after a start pattern at run `j` are `ds`, with no end pattern before one of them, and ODRES holds
them (45_matcher.md R389). -/
def ItfDataRead (g : Nat → Bool) (size : Nat) (rs : List Run) (j : Nat) (ds : List (Nat × Nat)) : Prop :=
  2 * ds.length ≤ Config.resMax ∧
    ∀ m, m < ds.length →
      ¬ ItfEndsAt g size rs (j + 4 + 10 * m) ∧ ItfPair rs (j + 4 + 10 * m) (ds.getD m (0, 0))

/-- The sum of the check `check(cp, wmax)` of Code 93, modulo 47 (45_matcher.md R393). -/
def code93Value (data : List Nat) (cp wmax : Nat) : Nat :=
  ((List.range cp).map fun i => ((cp - 1 - i) % wmax + 1) * data.getD i 0).sum % 47

/-- The check of Code 128 over the start value and the data, modulo 103 (45_matcher.md R394). -/
def code128Value (start : Nat) (data : List Nat) : Nat :=
  (start + ((List.range (data.length - 1)).map fun i => (i + 1) * data.getD i 0).sum) % 103

/-- The check that a start value and data fail in the validation of a symbology other than ITF, if any
(45_matcher.md R392 to R394, R396). -/
def validityCheck (sym : Sym) (chk : Bool) (start : Nat) (data : List Nat) : Option (Code × Nat) :=
  match sym with
  | .code39 =>
    if data.length = 0 then some (.notFound, 8)
    else if chk = true ∧ (data.take (data.length - 1)).sum % 43 ≠ data.getD (data.length - 1) 0 then some (.checksum, 10)
    else none
  | .code93 =>
    if data.length < 2 then some (.notFound, 8)
    else if code93Value data (data.length - 2) 20 ≠ data.getD (data.length - 2) 0 then some (.checksum, 10)
    else if code93Value data (data.length - 1) 15 ≠ data.getD (data.length - 1) 0 then some (.checksum, 11)
    else none
  | .code128 =>
    if data.length < 1 then some (.notFound, 8)
    else if data.any fun v => decide (103 ≤ v ∧ v ≤ 105) then some (.format, 9)
    else if code128Value start data ≠ data.getD (data.length - 1) 0 then some (.checksum, 10)
    else none
  | .itf => none
  | .codabar => if data.length < 1 then some (.notFound, 8) else none

/-- The outputs of OD_DECODE: ODRES, and RES0 to RES5 (45_matcher.md R397). -/
def State.withSymbol (s : State) (sym : Sym) (v : Memory) (n sb se pb pe : Nat) : State :=
  (((((({ s with odres := v }.setResNat 0 n).setResNat 1 sb).setResNat 2 se).setResNat 3 pb).setResNat 4
    pe).setResNat 5 sym.num)

/-! ### The outputs of the commands, as spans of the window (70_reset_and_hazards.md R501, R507) -/

/-- The first offset of each local memory in the window (10_state.md R62). -/
def memoryBase : MemId → Nat
  | .cw => 0x1000
  | .syn => 0x1100
  | .eloc => 0x1200
  | .emag => 0x1300
  | .p .p0 => 0x1400
  | .p .p1 => 0x1500
  | .p .p2 => 0x1600
  | .p .p3 => 0x1700
  | .row => 0x2000
  | .odres => 0x3000
  | .run => 0x4000
  | .mat .m0 => 0x40000
  | .mat .m1 => 0x80000

/-- The span of a polynomial register and that of PFLD (40_gf.md R173). -/
def polySpans (r : PReg) : List (Nat × Nat) := [(memoryBase (.p r), 0x100), (0x020, 4)]

/-- The span of a matrix's memory. -/
def matSpan (m : Mat) : Nat × Nat := (memoryBase (.mat m), 0x40000)

/-- The span of a matrix's dimensions. -/
def dimSpan : Mat → Nat × Nat
  | .m0 => (0x030, 4)
  | .m1 => (0x034, 4)

/-- The spans, first offset and bytes, of the registers and memories a command's rule writes, but for ERRINFO: the rules
of 40_gf.md to 45_matcher.md. -/
def outputSpans : Instr → List (Nat × Nat)
  | .nop => []
  | .gfAdd _ => [(0x060, 4)]
  | .gfMul _ => [(0x060, 4)]
  | .gfDiv _ => [(0x060, 4)]
  | .gfInv _ => [(0x060, 4)]
  | .gfExp _ => [(0x060, 4)]
  | .gfLog _ => [(0x060, 4)]
  | .pMono _ pd => polySpans pd
  | .pAdd _ _ _ pd => polySpans pd
  | .pMul _ _ _ pd => polySpans pd
  | .pScale _ _ pd => polySpans pd
  | .pMulmono _ _ pd => polySpans pd
  | .pDiv _ pe _ _ pd => polySpans pd ++ polySpans pe
  | .pEval _ _ => [(0x060, 4)]
  | .rsEncode _ => [(0x1000, 0x100), (0x01C, 4)]
  | .rsSyndrome _ => [(0x1100, 0x100), (0x060, 4)]
  | .rsDecode _ => [(0x1000, 0x400), (0x060, 4)]
  | .baGet => [(0x060, 4)]
  | .baSet => [(0x2000, 0x200)]
  | .baFlip => [(0x2000, 0x200)]
  | .baClear => [(0x2000, 0x200)]
  | .baSetrange => [(0x2000, 0x200)]
  | .baIsrange => [(0x060, 4)]
  | .baNextset => [(0x060, 4)]
  | .baNextunset => [(0x060, 4)]
  | .baReverse => [(0x2000, 0x200)]
  | .baInit => [(0x2000, 0x200), (0x028, 4)]
  | .bmInit m => [matSpan m, dimSpan m]
  | .bmGet _ => [(0x060, 4)]
  | .bmSet m => [matSpan m]
  | .bmUnset m => [matSpan m]
  | .bmFlip m => [matSpan m]
  | .bmClear m => [matSpan m]
  | .bmSetregion m => [matSpan m]
  | .bmGetrow _ => [(0x2000, 0x200), (0x028, 4)]
  | .bmRot180 m => [matSpan m]
  | .bmXor m => [matSpan m]
  | .bmCopy m => [matSpan m.other, dimSpan m.other]
  | .bmTopleft _ => [(0x060, 12)]
  | .bmBotright _ => [(0x060, 12)]
  | .ptS2q => [(0x180, 0x48)]
  | .ptQ2s => [(0x180, 0x48)]
  | .ptQ2q => [(0x180, 0x48)]
  | .ptAdj => [(0x180, 0x48)]
  | .ptTimes => [(0x180, 0x48)]
  | .ptCopy => [(0x200, 0x48)]
  | .ptXform => [(0x100, 0x80)]
  | .gridSample m => [matSpan m.other, dimSpan m.other]
  | .odRuns => [(0x4000, 0x4000), (0x02C, 4), (0x060, 8)]
  | .odPmatch _ => [(0x060, 8)]
  | .odDecode _ _ => [(0x3000, 0x100), (0x060, 24)]
  | .odMulti _ _ => [(0x3000, 0x100), (0x060, 24)]

/-- The offset lies in an output of the command; ERRINFO is one of every command (70_reset_and_hazards.md R507). -/
def outputOffset (i : Instr) (a : Nat) : Bool :=
  a == 0x018 || (outputSpans i).any fun r => decide (r.1 ≤ a) && decide (a < r.1 + r.2)

/-- The check value at index `cp` of Code 93 data: weights count up from 1 at its left neighbour and go back to 1 after
`wmax` (45_matcher.md R393). -/
def Code93Holds (data : List Nat) (cp wmax : Nat) : Prop := data.getD cp 0 = code93Value data cp wmax

/-- The checksums and lengths a decoded symbol list meets, by symbology (45_matcher.md R392 to R396). -/
def ValidSymbols (sym : Sym) (chk : Bool) (syms : List Nat) : Prop :=
  match sym with
  | .code39 =>
    1 ≤ (symData syms).length ∧
      (chk = true → (symData syms).dropLast.sum % 43 = (symData syms).getLastD 0)
  | .code93 =>
    2 ≤ (symData syms).length ∧ Code93Holds (symData syms) ((symData syms).length - 2) 20 ∧
      Code93Holds (symData syms) ((symData syms).length - 1) 15
  | .code128 =>
    1 ≤ (symData syms).length ∧ (∀ v ∈ symData syms, ¬ (103 ≤ v ∧ v ≤ 105)) ∧
      (syms.headD 0 + ((List.range ((symData syms).length - 1)).map fun i => (i + 1) * (symData syms).getD i 0).sum) % 103
        = (symData syms).getLastD 0
  | .itf => 2 ≤ syms.length ∧ syms.length % 2 = 0
  | .codabar => 1 ≤ (symData syms).length

end Sys2Proof.Machine
end

