-- ==== Sys2Proof/Certificates/Slice0/Obligations.lean ====
section
/-!
DEFINITION. The statements about the model, from the numbered rules of spec/. Each docstring cites its rules. In every
statement `exec i s = .next (u.complete .ok 0)` says that command `i` completes OK from `s` with the outputs that `u` holds
over `s`: it gives the command's results and, for everything that `u` shares with `s`, its frame.
-/

open Sys2Proof Sys2Proof.Machine

/-! ### Encoding (30_encoding.md) -/

/-- The words of the well-formed commands and the words that decode are in bijection: decoding the word of a command gives
it back, with every operand, and a word that decodes is its command's word (30_encoding.md R110 to R122). -/
def Obligations.EncodingIsBijection : Prop :=
  (∀ i : Instr, i.wf = true → decode (encode i) = .ok i) ∧
  (∀ (w : Word) (i : Instr), decode w = .ok i → encode i = w ∧ i.wf = true)

/-- The three decode checks in their order, and a word that passes them is a command (30_encoding.md R118, with the
tables of R120 and R122). -/
def Obligations.DecodeChecksInOrder : Prop :=
  ∀ w : Word,
    (¬ assigned (w >>> 24).toNat → decode w = .error .unassignedOpcode) ∧
    (assigned (w >>> 24).toNat → w &&& ~~~(maskUsed (w >>> 24).toNat) ≠ 0 → decode w = .error .mustBeZero) ∧
    (assigned (w >>> 24).toNat → w &&& ~~~(maskUsed (w >>> 24).toNat) = 0 → reservedFields w →
      decode w = .error .reservedField) ∧
    (assigned (w >>> 24).toNat → w &&& ~~~(maskUsed (w >>> 24).toNat) = 0 → ¬ reservedFields w →
      ∃ i, decode w = .ok i)

/-- Words written out from the formats and the opcode map decode to the commands they stand for, or fail the check the
rules name (30_encoding.md R111 to R116, R119, R120). -/
def Obligations.SpecWordsDecode : Prop :=
  decode 0x00000000 = .ok .nop ∧ decode 0x11000100 = .ok (.gfMul .dm) ∧
  decode 0x250000D2 = .ok (.pDiv .qr .p3 .p1 .p0 .p2) ∧ decode 0x32000100 = .ok (.rsDecode .dm) ∧
  decode 0x44000000 = .ok .baSetrange ∧ decode 0x59000200 = .ok (.bmXor .m1) ∧
  decode 0x66000000 = .ok .ptXform ∧ decode 0x67000200 = .ok (.gridSample .m1) ∧
  decode 0x71000003 = .ok (.odPmatch .itf) ∧ decode 0x72000010 = .ok (.odDecode true .code39) ∧
  decode 0x7300002D = .ok (.odMulti true 0b01101) ∧ decode 0x01000000 = .error .unassignedOpcode ∧
  decode 0x40000001 = .error .mustBeZero ∧ decode 0x71000005 = .error .reservedField ∧
  decode 0x72000011 = .error .reservedField ∧ decode 0x25000041 = .error .reservedField

/-! ### The engine's step (10_state.md R58; 20_memory.md R89; 60_exceptions.md) -/

/-- A step runs the decoded command: where the executor runs a word that is due and decodes to `i`, the step is `exec i`
(30_encoding.md R118; log 1, 2). -/
def Obligations.StepRunsDecoded : Prop :=
  ∀ (s : State) (w : Word) (i : Instr), s.executor = .running w 0 → decode w = .ok i → step s = exec i s

/-- What a step does around `exec`: an idle engine, and a running command that is not due yet, leave the turn to the port,
whose next event is taken off its list; with no event left an idle engine stays as it is (60_exceptions.md R474;
70_reset_and_hazards.md R510; log 1, 2: the list and the countdown are the model's). -/
def Obligations.StepServesPort : Prop :=
  (∀ (s : State) (e : PortEvent) (es : List PortEvent), s.executor = .idle → s.port = e :: es →
    step s = { s with port := es }.event e) ∧
  (∀ (s : State) (w : Word) (n : Nat) (e : PortEvent) (es : List PortEvent), s.executor = .running w (n + 1) →
    s.port = e :: es → step s = { s with executor := .running w n, port := es }.event e) ∧
  (∀ (s : State) (w : Word) (n : Nat), s.executor = .running w (n + 1) → s.port = [] →
    step s = .next { s with executor := .running w n }) ∧
  (∀ s : State, s.executor = .idle → s.port = [] → step s = .next s)

/-- Every step keeps the invariant: memories canonical and inside their sizes, the sizes inside the memories, the generator
caches right, nothing running under power-on reset (10_state.md R42, R57; 43_bitmatrix.md R300; log 4, 5). -/
def Obligations.StepKeepsInv : Prop := ∀ s t : State, s.Inv → step s = .next t → t.Inv

/-- The invariant holds after power-on reset (70_reset_and_hazards.md R500). -/
def Obligations.ResetHasInv : Prop := State.reset.Inv

/-- NOP does nothing and completes OK, its only word is 0, and the sticky ERR stays (46_control.md R450). -/
def Obligations.NopCompletes : Prop :=
  (∀ s : State, exec .nop s = .next { s with code := .ok, check := 0, done := true, executor := .idle }) ∧
  decode 0 = .ok .nop ∧ (∀ w : Word, w ≠ 0 → w >>> 24 = 0 → decode w = .error .mustBeZero)

/-- A word that fails a decode check is accepted and recorded, and completes with ILLEGAL_COMMAND and the check's number,
changing nothing else (60_exceptions.md R462). -/
def Obligations.IllegalWordCompletes : Prop :=
  ∀ (s : State) (v : Dword) (es : List PortEvent) (e : DecodeError),
    s.executor = .idle → s.porHeld = false → s.port = .write .w32 0x010 v :: es → s.latencies.headD 0 = 0 →
    decode (v.setWidth 32) = .error e →
    step s = .next { s with
      port := es, bus := .written, lastcmd := v.setWidth 32, executor := .running (v.setWidth 32) 0
      latencies := s.latencies.tail } ∧
    step { s with
      port := es, bus := .written, lastcmd := v.setWidth 32, executor := .running (v.setWidth 32) 0
      latencies := s.latencies.tail } =
    .next { s with
      port := es, bus := .written, lastcmd := v.setWidth 32, executor := .idle, latencies := s.latencies.tail
      code := .illegalCommand, done := true, err := true
      check := match e with | .unassignedOpcode => 1 | .mustBeZero => 2 | .reservedField => 3 }

/-- Every command completes: DONE set, BUSY clear, ERR sticky and set by a failure, the check number 0 on success; and a
failed command changes nothing but these (60_exceptions.md R461, R464, R469). -/
def Obligations.EveryCommandCompletes : Prop :=
  ∀ (i : Instr) (s : State), ∃ t, exec i s = .next t ∧ t.done = true ∧ t.executor = .idle ∧
    t.err = (s.err || t.code != .ok) ∧ (t.code = .ok → t.check = 0) ∧
    (t.code ≠ .ok →
      t = { s with code := t.code, check := t.check, done := true, err := true, executor := .idle })

/-- A command that fails does so with a code and check number that the summary table lists for it
(60_exceptions.md R463). -/
def Obligations.FailuresAreListed : Prop :=
  ∀ (i : Instr) (s t : State), exec i s = .next t → t.code ≠ .ok → (t.code, t.check.toNat) ∈ failures i

/-- The frame of every command: memories and RES registers outside its outputs, and every register it does not name, keep
their values (10_state.md R40 to R48, R57; 42_bitarray.md R253; 43_bitmatrix.md R294; 40_gf.md R172). -/
def Obligations.CommandFrames : Prop :=
  ∀ (i : Instr) (s t : State), exec i s = .next t →
    (∀ id, id ∉ outMems i → t.memory id = s.memory id) ∧
    (∀ k : Fin 8, outRes i ≤ k.val → t.res[k] = s.res[k]) ∧
    (∀ r, MemId.p r ∉ outMems i → t.tag r = s.tag r) ∧
    t.arg = s.arg ∧ t.lastcmd = s.lastcmd ∧ t.ieDone = s.ieDone ∧ t.ieErr = s.ieErr ∧ t.cmdovr = s.cmdovr ∧
    t.wovr = s.wovr ∧
    (i ≠ .ptXform → t.f = s.f) ∧
    (i ∉ [.ptS2q, .ptQ2s, .ptQ2q, .ptAdj, .ptTimes] → t.ta = s.ta) ∧
    (i ≠ .ptCopy → t.tb = s.tb) ∧
    (i ≠ .baInit → (∀ m, i ≠ .bmGetrow m) → t.rowSize = s.rowSize) ∧
    (i ≠ .odRuns → t.nruns = s.nruns) ∧
    (∀ m, i ∉ [.bmInit m, .bmCopy m.other, .gridSample m.other] → t.dim m = s.dim m) ∧
    (∀ f, i ≠ .rsEncode f → t.gen f = s.gen f) ∧
    t.porHeld = s.porHeld ∧ t.port = s.port ∧ t.latencies = s.latencies ∧ t.bus = s.bus ∧ t.draws = s.draws

/-! ### Scalar GF commands (40_gf.md) -/

/-- GF_ADD and GF_MUL: their two checks in order, else RES0 is the XOR of the operands, or their product as polynomials
over GF(2) reduced modulo the primitive polynomial (40_gf.md R150, R152, R160, R161; that the product by the tables is this
one is the spec's own inference, R153, "[derived: from rule R151 and rule R152]"). -/
def Obligations.GfAddMulArePolynomial : Prop :=
  ∀ (f : Field) (s : State),
    (255 < s.argU 0 → exec (.gfAdd f) s = .next (s.complete .illegalArgument 1) ∧
      exec (.gfMul f) s = .next (s.complete .illegalArgument 1)) ∧
    (s.argU 0 ≤ 255 → 255 < s.argU 1 → exec (.gfAdd f) s = .next (s.complete .illegalArgument 2) ∧
      exec (.gfMul f) s = .next (s.complete .illegalArgument 2)) ∧
    (s.argU 0 ≤ 255 → s.argU 1 ≤ 255 →
      exec (.gfAdd f) s = .next ((s.setRes 0 (s.arg[0] ^^^ s.arg[1])).complete .ok 0) ∧
      exec (.gfMul f) s =
        .next ((s.setRes 0 ((fieldProduct f (s.argByte 0) (s.argByte 1)).setWidth 32)).complete .ok 0))

/-- GF_DIV and GF_INV: their checks in order, else the quotient times the divisor is the dividend, and the inverse times
the operand is 1 (40_gf.md R154, R162, R163). -/
def Obligations.GfDivInvUndoProduct : Prop :=
  ∀ (f : Field) (s : State),
    (255 < s.argU 0 → exec (.gfDiv f) s = .next (s.complete .illegalArgument 1) ∧
      exec (.gfInv f) s = .next (s.complete .illegalArgument 1)) ∧
    (s.argU 0 ≤ 255 → 255 < s.argU 1 → exec (.gfDiv f) s = .next (s.complete .illegalArgument 2)) ∧
    (s.argU 0 ≤ 255 → s.argU 1 = 0 → exec (.gfDiv f) s = .next (s.complete .arithmetic 3)) ∧
    (s.argU 0 ≤ 255 → 0 < s.argU 1 → s.argU 1 ≤ 255 →
      ∃ q : Byte, fieldProduct f q (s.argByte 1) = s.argByte 0 ∧
        exec (.gfDiv f) s = .next ((s.setRes 0 (q.setWidth 32)).complete .ok 0)) ∧
    (s.argU 0 = 0 → exec (.gfInv f) s = .next (s.complete .arithmetic 2)) ∧
    (0 < s.argU 0 → s.argU 0 ≤ 255 →
      ∃ q : Byte, fieldProduct f q (s.argByte 0) = 1 ∧
        exec (.gfInv f) s = .next ((s.setRes 0 (q.setWidth 32)).complete .ok 0))

/-- GF_EXP and GF_LOG: their checks in order, else the power of the generating element 2, and the exponent in 0..254 of
which the operand is that power (40_gf.md R151, R164, R165). -/
def Obligations.GfExpLogArePowers : Prop :=
  ∀ (f : Field) (s : State),
    (255 < s.argU 0 → exec (.gfExp f) s = .next (s.complete .illegalArgument 1) ∧
      exec (.gfLog f) s = .next (s.complete .illegalArgument 1)) ∧
    (s.argU 0 ≤ 255 →
      exec (.gfExp f) s = .next ((s.setRes 0 ((fieldPower f 2 (s.argU 0)).setWidth 32)).complete .ok 0)) ∧
    (s.argU 0 = 0 → exec (.gfLog f) s = .next (s.complete .arithmetic 2)) ∧
    (0 < s.argU 0 → s.argU 0 ≤ 255 →
      ∃ l, l ≤ 254 ∧ fieldPower f 2 l = s.argByte 0 ∧
        exec (.gfLog f) s = .next ((s.setResNat 0 l).complete .ok 0))

/-- The product is commutative and associative, distributes over the sum, has the identity 1 and no zero divisors, and the
inverse of a nonzero element is its inverse under it (40_gf.md R152, R153, R154). -/
def Obligations.FieldLaws : Prop :=
  ∀ (f : Field) (a b c : Byte),
    gfMul f a b = gfMul f b a ∧ gfMul f (gfMul f a b) c = gfMul f a (gfMul f b c) ∧
    gfMul f a (gfAdd b c) = gfAdd (gfMul f a b) (gfMul f a c) ∧ gfMul f 1 a = a ∧
    (gfMul f a b = 0 → a = 0 ∨ b = 0) ∧ (a ≠ 0 → gfMul f a (gfInv f a) = 1) ∧ gfAdd a a = 0 ∧ gfAdd a 0 = a

/-! ### Polynomial commands (40_gf.md) -/

/-- P_MONO: its three checks in order, else the destination is the monomial, with the field's tag (40_gf.md R174, R175). -/
def Obligations.PMonoBuildsMonomial : Prop :=
  ∀ (f : Field) (pd : PReg) (s : State),
    (255 < s.argU 1 → exec (.pMono f pd) s = .next (s.complete .illegalArgument 1)) ∧
    (s.argU 1 ≤ 255 → s.argS 0 < 0 → exec (.pMono f pd) s = .next (s.complete .arithmetic 2)) ∧
    (s.argU 1 ≤ 255 → 255 < s.argS 0 → exec (.pMono f pd) s = .next (s.complete .illegalArgument 3)) ∧
    (s.argU 1 ≤ 255 → 0 ≤ s.argS 0 → s.argS 0 ≤ 255 →
      ∃ v : Memory, (∀ k, v.byte k = if k = s.argU 0 then s.argByte 1 else 0) ∧
        exec (.pMono f pd) s = .next (((s.setPoly pd v).setTag pd f).complete .ok 0))

/-- P_ADD: its tag checks in order, else every coefficient is the XOR of the sources' (40_gf.md R172, R173, R174, R176). -/
def Obligations.PAddAddsCoefficients : Prop :=
  ∀ (f : Field) (pb pa pd : PReg) (s : State),
    (s.tag pa ≠ f → exec (.pAdd f pb pa pd) s = .next (s.complete .illegalArgument 1)) ∧
    (s.tag pa = f → s.tag pb ≠ f → exec (.pAdd f pb pa pd) s = .next (s.complete .illegalArgument 2)) ∧
    (s.tag pa = f → s.tag pb = f →
      ∃ v : Memory, (∀ k, v.byte k = if k < 256 then s.coef pa k ^^^ s.coef pb k else 0) ∧
        exec (.pAdd f pb pa pd) s = .next (((s.setPoly pd v).setTag pd f).complete .ok 0))

/-- P_MUL: its checks in order, the third where two nonzero coefficients meet above degree 255, else every coefficient is
the convolution sum (40_gf.md R172, R173, R174, R177). -/
def Obligations.PMulConvolves : Prop :=
  ∀ (f : Field) (pb pa pd : PReg) (s : State),
    (s.tag pa ≠ f → exec (.pMul f pb pa pd) s = .next (s.complete .illegalArgument 1)) ∧
    (s.tag pa = f → s.tag pb ≠ f → exec (.pMul f pb pa pd) s = .next (s.complete .illegalArgument 2)) ∧
    (s.tag pa = f → s.tag pb = f →
      (∃ i j, i < 256 ∧ j < 256 ∧ s.coef pa i ≠ 0 ∧ s.coef pb j ≠ 0 ∧ 255 < i + j) →
      exec (.pMul f pb pa pd) s = .next (s.complete .illegalArgument 3)) ∧
    (s.tag pa = f → s.tag pb = f →
      (∀ i j, i < 256 → j < 256 → s.coef pa i ≠ 0 → s.coef pb j ≠ 0 → i + j ≤ 255) →
      ∃ v : Memory,
        (∀ k, v.byte k =
          if k < 256 then xorSum (k + 1) (fun j => gfMul f (s.coef pa j) (s.coef pb (k - j))) else 0) ∧
        exec (.pMul f pb pa pd) s = .next (((s.setPoly pd v).setTag pd f).complete .ok 0))

/-- P_SCALE and P_MULMONO: their checks in order, else every coefficient times the scalar, and for P_MULMONO moved up by
the degree (40_gf.md R172, R173, R174, R178, R179). -/
def Obligations.PScaleMulmonoShift : Prop :=
  ∀ (f : Field) (pa pd : PReg) (s : State),
    (s.tag pa ≠ f → exec (.pScale f pa pd) s = .next (s.complete .illegalArgument 1)) ∧
    (s.tag pa = f → 255 < s.argU 0 → exec (.pScale f pa pd) s = .next (s.complete .illegalArgument 2)) ∧
    (s.tag pa = f → s.argU 0 ≤ 255 →
      ∃ v : Memory, (∀ k, v.byte k = if k < 256 then gfMul f (s.coef pa k) (s.argByte 0) else 0) ∧
        exec (.pScale f pa pd) s = .next (((s.setPoly pd v).setTag pd f).complete .ok 0)) ∧
    (s.tag pa ≠ f → exec (.pMulmono f pa pd) s = .next (s.complete .illegalArgument 1)) ∧
    (s.tag pa = f → 255 < s.argU 1 → exec (.pMulmono f pa pd) s = .next (s.complete .illegalArgument 2)) ∧
    (s.tag pa = f → s.argU 1 ≤ 255 → s.argS 0 < 0 → exec (.pMulmono f pa pd) s = .next (s.complete .arithmetic 3)) ∧
    (s.tag pa = f → s.argU 1 ≤ 255 → 255 < s.argS 0 →
      exec (.pMulmono f pa pd) s = .next (s.complete .illegalArgument 4)) ∧
    (s.tag pa = f → s.argU 1 ≤ 255 → 0 ≤ s.argS 0 → s.argS 0 ≤ 255 →
      (s.argU 1 ≠ 0 ∧ ∃ i, i < 256 ∧ s.coef pa i ≠ 0 ∧ 255 < i + s.argU 0) →
      exec (.pMulmono f pa pd) s = .next (s.complete .illegalArgument 5)) ∧
    (s.tag pa = f → s.argU 1 ≤ 255 → 0 ≤ s.argS 0 → s.argS 0 ≤ 255 →
      (s.argU 1 = 0 ∨ ∀ i, i < 256 → s.coef pa i ≠ 0 → i + s.argU 0 ≤ 255) →
      ∃ v : Memory,
        (∀ k, v.byte k =
          if k < 256 ∧ s.argU 0 ≤ k then gfMul f (s.coef pa (k - s.argU 0)) (s.argByte 1) else 0) ∧
        exec (.pMulmono f pa pd) s = .next (((s.setPoly pd v).setTag pd f).complete .ok 0))

/-- P_DIV: its checks in order, else quotient `q` and remainder `r` with dividend = `q`·divisor + `r` and `r` zero or of
lower degree than the divisor, both computed from the sources as they were (40_gf.md R172, R173, R174, R180). -/
def Obligations.PDivDivides : Prop :=
  ∀ (f : Field) (pe pb pa pd : PReg) (s : State),
    (s.tag pa ≠ f → exec (.pDiv f pe pb pa pd) s = .next (s.complete .illegalArgument 1)) ∧
    (s.tag pa = f → s.tag pb ≠ f → exec (.pDiv f pe pb pa pd) s = .next (s.complete .illegalArgument 2)) ∧
    (s.tag pa = f → s.tag pb = f → (∀ i, i < 256 → s.coef pb i = 0) →
      exec (.pDiv f pe pb pa pd) s = .next (s.complete .arithmetic 3)) ∧
    (s.tag pa = f → s.tag pb = f → (∃ i, i < 256 ∧ s.coef pb i ≠ 0) →
      ∃ q r : Memory,
        (∀ k, k < 256 →
          s.coef pa k = xorSum (k + 1) (fun j => gfMul f (q.byte j) (s.coef pb (k - j))) ^^^ r.byte k) ∧
        (∀ i j, i < 256 → j < 256 → q.byte i ≠ 0 → s.coef pb j ≠ 0 → i + j ≤ 255) ∧
        (∀ i, r.byte i ≠ 0 → ∃ j, i < j ∧ j < 256 ∧ s.coef pb j ≠ 0) ∧ (∀ i, 256 ≤ i → q.byte i = 0) ∧
        exec (.pDiv f pe pb pa pd) s =
          .next (((((s.setPoly pd q).setTag pd f).setPoly pe r).setTag pe f).complete .ok 0))

/-- P_EVAL: its checks in order, else RES0 is the sum of the coefficients times the powers of the point
(40_gf.md R172, R174, R181). -/
def Obligations.PEvalSumsPowers : Prop :=
  ∀ (f : Field) (pa : PReg) (s : State),
    (s.tag pa ≠ f → exec (.pEval f pa) s = .next (s.complete .illegalArgument 1)) ∧
    (s.tag pa = f → 255 < s.argU 0 → exec (.pEval f pa) s = .next (s.complete .illegalArgument 2)) ∧
    (s.tag pa = f → s.argU 0 ≤ 255 →
      exec (.pEval f pa) s =
        .next ((s.setRes 0
          ((xorSum 256 fun i => gfMul f (s.coef pa i) (gfPow f (s.argByte 0) i)).setWidth 32)).complete .ok 0))

/-! ### Reed-Solomon commands (41_rs.md) -/

/-- RS_ENCODE: its checks in order, else it leaves a codeword: every syndrome is 0, the data bytes and the bytes past the
codeword keep their values, and the cache holds the generators up to the larger degree (41_rs.md R200 to R204). -/
def Obligations.RsEncodeMakesCodeword : Prop :=
  ∀ (f : Field) (s : State) (d : Nat), d < Config.cwMax → s.CacheHolds f d →
    (s.argU 0 < 1 ∨ 255 < s.argU 0 → exec (.rsEncode f) s = .next (s.complete .illegalArgument 1)) ∧
    (1 ≤ s.argU 0 → s.argU 0 ≤ 255 → s.argU 1 = 0 →
      exec (.rsEncode f) s = .next (s.complete .illegalArgument 2)) ∧
    (1 ≤ s.argU 0 → s.argU 0 ≤ 255 → s.argU 0 ≤ s.argU 1 →
      exec (.rsEncode f) s = .next (s.complete .illegalArgument 3)) ∧
    (s.argU 0 ≤ 255 → 1 ≤ s.argU 1 → s.argU 1 < s.argU 0 →
      ∃ v : Memory,
        IsCodeword f (s.argU 0) (s.argU 1) v ∧
        (∀ j, j < s.argU 0 - s.argU 1 ∨ s.argU 0 ≤ j → v.byte j = s.cw.byte j) ∧
        exec (.rsEncode f) s =
          .next ({ s.setGen f ((List.range (max d (s.argU 1) + 1)).map (generatorPoly f)) with cw := v }.complete
            .ok 0))

/-- RS_SYNDROME: its checks in order, else SYN holds the syndromes and zeros after them, and RES0 says whether all are 0
(41_rs.md R204, R205). -/
def Obligations.RsSyndromeComputes : Prop :=
  ∀ (f : Field) (s : State),
    (s.argU 0 < 1 ∨ 255 < s.argU 0 → exec (.rsSyndrome f) s = .next (s.complete .illegalArgument 1)) ∧
    (1 ≤ s.argU 0 → s.argU 0 ≤ 255 → s.argU 0 < s.argU 1 →
      exec (.rsSyndrome f) s = .next (s.complete .illegalArgument 2)) ∧
    (1 ≤ s.argU 0 → s.argU 0 ≤ 255 → s.argU 1 ≤ s.argU 0 →
      ∃ (v : Memory) (r : Word),
        (∀ k, v.byte k = if k < s.argU 1 then codeSyndrome f (s.argU 0) s.cw k else 0) ∧
        (IsCodeword f (s.argU 0) (s.argU 1) s.cw → r = 1) ∧ (¬ IsCodeword f (s.argU 0) (s.argU 1) s.cw → r = 0) ∧
        exec (.rsSyndrome f) s = .next (({ s with syn := v }.setRes 0 r).complete .ok 0))

/-- RS_DECODE refuses bad lengths, and completes on a codeword with no correction. On any other word it runs the rules'
algorithm: the Euclidean algorithm on x^twoS and the syndromes ends, then check 4 on the constant term of the locator,
check 5 on the count of its roots, check 6 on a location outside the codeword, check 7 on the corrected word, in that
order, else the corrected word is committed with its positions and magnitudes (41_rs.md R206 to R212). -/
def Obligations.RsDecodeKeepsCodeword : Prop :=
  ∀ (f : Field) (s : State),
    (s.argU 0 < 1 ∨ 255 < s.argU 0 → exec (.rsDecode f) s = .next (s.complete .illegalArgument 1)) ∧
    (1 ≤ s.argU 0 → s.argU 0 ≤ 255 → s.argU 0 < s.argU 1 →
      exec (.rsDecode f) s = .next (s.complete .illegalArgument 2)) ∧
    (1 ≤ s.argU 0 → s.argU 0 ≤ 255 → s.argU 1 ≤ s.argU 0 → IsCodeword f (s.argU 0) (s.argU 1) s.cw →
      exec (.rsDecode f) s =
        .next (({ s with syn := Memory.zeros, eloc := Memory.zeros, emag := Memory.zeros }.setRes 0 0).complete .ok 0)) ∧
    (1 ≤ s.argU 0 → s.argU 0 ≤ 255 → s.argU 1 ≤ s.argU 0 → ¬ IsCodeword f (s.argU 0) (s.argU 1) s.cw →
      ∃ rEnd tEnd : Coefs,
        Euclid f (s.argU 1) (powerCoefs (s.argU 1)) (syndromeCoefs f (s.argU 0) (s.argU 1) s.cw) (fun _ => 0)
          (powerCoefs 0) rEnd tEnd ∧
        (tEnd 0 = 0 → exec (.rsDecode f) s = .next (s.complete .checksum 4)) ∧
        (tEnd 0 ≠ 0 → ∀ sigma omega : Coefs,
          sigma = tEnd.scale f (gfInv f (tEnd 0)) → omega = rEnd.scale f (gfInv f (tEnd 0)) →
          ((locations f sigma).length ≠ sigma.degree → exec (.rsDecode f) s = .next (s.complete .checksum 5)) ∧
          ((locations f sigma).length = sigma.degree →
            (∃ x ∈ locations f sigma, ∀ p, ¬ PointsTo f (s.argU 0) x p) →
            exec (.rsDecode f) s = .next (s.complete .checksum 6)) ∧
          ((locations f sigma).length = sigma.degree →
            ∀ ps : List Nat, ps.length = (locations f sigma).length →
            (∀ k, k < ps.length → PointsTo f (s.argU 0) ((locations f sigma).getD k 0) (ps.getD k 0)) →
            ∀ v : Memory,
            (∀ j, v.byte j = s.cw.byte j ^^^ xorSum ps.length (fun k =>
              if ps.getD k 0 = j then magnitude f omega (locations f sigma) k else 0)) →
            (¬ IsCodeword f (s.argU 0) (s.argU 1) v → exec (.rsDecode f) s = .next (s.complete .checksum 7)) ∧
            (IsCodeword f (s.argU 0) (s.argU 1) v →
              ∃ cw syn loc mag : Memory,
                (∀ j, cw.byte j = v.byte j) ∧
                (∀ k, syn.byte k = syndromeCoefs f (s.argU 0) (s.argU 1) s.cw k) ∧
                (∀ k, loc.byte k = if k < ps.length then BitVec.ofNat 8 (ps.getD k 0) else 0) ∧
                (∀ k, mag.byte k = if k < ps.length then magnitude f omega (locations f sigma) k else 0) ∧
                exec (.rsDecode f) s =
                  .next (({ s with cw := cw, syn := syn, eloc := loc, emag := mag }.setResNat 0 ps.length).complete
                    .ok 0)))))

/-- A successful RS_DECODE leaves a codeword, whose bytes are the received ones with the reported magnitudes XORed in at
the reported positions, SYN the syndromes before, and nothing else changed (41_rs.md R206, R211, R212). -/
def Obligations.RsDecodeSuccessIsVerified : Prop :=
  ∀ (f : Field) (s t : State), exec (.rsDecode f) s = .next t → t.code = .ok →
    ∃ e, e ≤ 255 ∧ IsCodeword f (s.argU 0) (s.argU 1) t.cw ∧
      (∀ j, s.argU 0 ≤ j → t.cw.byte j = s.cw.byte j) ∧
      (∀ j, j < s.argU 0 →
        t.cw.byte j =
          s.cw.byte j ^^^ xorSum e (fun k => if (t.eloc.byte k).toNat = j then t.emag.byte k else 0)) ∧
      (∀ k, t.syn.byte k = if k < s.argU 1 then codeSyndrome f (s.argU 0) s.cw k else 0) ∧
      (∀ k, k < e → (t.eloc.byte k).toNat < s.argU 0) ∧
      (∀ k, e ≤ k → t.eloc.byte k = 0 ∧ t.emag.byte k = 0) ∧
      t = ({ s with cw := t.cw, syn := t.syn, eloc := t.eloc, emag := t.emag }.setResNat 0 e).complete .ok 0

/-- RS_DECODE of a codeword with at most half as many bytes changed, rounded down, as it has EC bytes: it completes,
restores the codeword exactly, keeps the bytes past it, and RES0 is the number of changed bytes; ELOC lists their
positions and EMAG the changes (41_rs.md R206 to R212; the guarantee is the spec's own inference, R213, "[derived: from rule
R203 and rule R206 to rule R211]"). -/
def Obligations.RsDecodeCorrectsErrors : Prop :=
  ∀ (f : Field) (s : State) (c : Memory) (e : Nat),
    1 ≤ s.argU 0 → s.argU 0 ≤ 255 → s.argU 1 ≤ s.argU 0 → IsCodeword f (s.argU 0) (s.argU 1) c →
    e = changedBytes (s.argU 0) s.cw c → e ≤ s.argU 1 / 2 →
    ∃ v syn loc mag : Memory,
      (∀ k, v.byte k = if k < s.argU 0 then c.byte k else s.cw.byte k) ∧
      (∀ k, syn.byte k = if k < s.argU 1 then codeSyndrome f (s.argU 0) s.cw k else 0) ∧
      (∀ j, j < s.argU 0 → ((∃ k, k < e ∧ (loc.byte k).toNat = j) ↔ s.cw.byte j ≠ c.byte j)) ∧
      (∀ k, k < e → (loc.byte k).toNat < s.argU 0 ∧
        mag.byte k = s.cw.byte (loc.byte k).toNat ^^^ c.byte (loc.byte k).toNat) ∧
      (∀ k, e ≤ k → loc.byte k = 0 ∧ mag.byte k = 0) ∧
      exec (.rsDecode f) s =
        .next (({ s with cw := v, syn := syn, eloc := loc, emag := mag }.setResNat 0 e).complete .ok 0)

/-! ### BitArray commands (42_bitarray.md) -/

/-- BA_GET, BA_SET and BA_FLIP: refused outside the array; else they read, set or invert exactly one bit
(42_bitarray.md R251, R255, R256, R257). -/
def Obligations.BaSingleBits : Prop :=
  ∀ s : State,
    ((s.argS 0 < 0 ∨ s.size ≤ s.argS 0) →
      exec .baGet s = .next (s.complete .illegalArgument 1) ∧ exec .baSet s = .next (s.complete .illegalArgument 1) ∧
      exec .baFlip s = .next (s.complete .illegalArgument 1)) ∧
    (0 ≤ s.argS 0 → s.argS 0 < s.size →
      exec .baGet s = .next ((s.setRes 0 (if s.row.bit (s.argU 0) then 1 else 0)).complete .ok 0) ∧
      (∃ v : Memory, (∀ j, v.bit j = if j = s.argU 0 then true else s.row.bit j) ∧
        exec .baSet s = .next ({ s with row := v }.complete .ok 0)) ∧
      (∃ v : Memory, (∀ j, v.bit j = if j = s.argU 0 then !s.row.bit j else s.row.bit j) ∧
        exec .baFlip s = .next ({ s with row := v }.complete .ok 0)))

/-- BA_SETRANGE and BA_ISRANGE: a range that is not `0 ≤ start ≤ end ≤ S` is refused; else the range is set, and no other
bit changes, or tested (42_bitarray.md R251, R259, R261). -/
def Obligations.BaRanges : Prop :=
  ∀ s : State,
    ((s.argS 0 < 0 ∨ s.argS 1 < s.argS 0 ∨ s.size < s.argS 1) →
      exec .baSetrange s = .next (s.complete .illegalArgument 1) ∧
      exec .baIsrange s = .next (s.complete .illegalArgument 1)) ∧
    (0 ≤ s.argS 0 → s.argS 0 ≤ s.argS 1 → s.argS 1 ≤ s.size →
      (∃ v : Memory, (∀ j, v.bit j = if s.argU 0 ≤ j ∧ j < s.argU 1 then true else s.row.bit j) ∧
        exec .baSetrange s = .next ({ s with row := v }.complete .ok 0)) ∧
      (1 < s.argU 2 → exec .baIsrange s = .next (s.complete .illegalArgument 2)) ∧
      (s.argU 2 ≤ 1 → (∀ j, s.argU 0 ≤ j → j < s.argU 1 → (s.row.bit j).toNat = s.argU 2) →
        exec .baIsrange s = .next ((s.setRes 0 1).complete .ok 0)) ∧
      (s.argU 2 ≤ 1 → (∃ j, s.argU 0 ≤ j ∧ j < s.argU 1 ∧ (s.row.bit j).toNat ≠ s.argU 2) →
        exec .baIsrange s = .next ((s.setRes 0 0).complete .ok 0)))

/-- BA_NEXTSET and BA_NEXTUNSET: a negative start is refused; else RES0 is the first set (unset) bit from there on inside
the array, or S (42_bitarray.md R262, R263). -/
def Obligations.BaScansFindFirst : Prop :=
  ∀ s : State,
    (s.argS 0 < 0 →
      exec .baNextset s = .next (s.complete .illegalArgument 1) ∧
      exec .baNextunset s = .next (s.complete .illegalArgument 1)) ∧
    (0 ≤ s.argS 0 →
      ∀ b : Bool, ∃ r, r ≤ s.size ∧ (s.size ≤ s.argU 0 → r = s.size) ∧
        (s.argU 0 < s.size → s.argU 0 ≤ r ∧ (∀ j, s.argU 0 ≤ j → j < r → s.row.bit j = !b) ∧
          (r < s.size → s.row.bit r = b)) ∧
        exec (if b then .baNextset else .baNextunset) s = .next ((s.setResNat 0 r).complete .ok 0))

/-- BA_CLEAR, BA_INIT and BA_REVERSE: ROW_MEM all 0; a legal size taken and ROW_MEM all 0, or refused; the logical bits in
reverse with zeros after them (42_bitarray.md R252, R258, R260, R264). -/
def Obligations.BaWholeArray : Prop :=
  ∀ s : State,
    exec .baClear s = .next ({ s with row := Memory.zeros }.complete .ok 0) ∧
    ((s.argS 0 < 0 ∨ 4096 < s.argS 0) → exec .baInit s = .next (s.complete .illegalArgument 1)) ∧
    (0 ≤ s.argS 0 → s.argS 0 ≤ 4096 →
      exec .baInit s = .next ({ s with rowSize := s.arg[0].setWidth 13, row := Memory.zeros }.complete .ok 0)) ∧
    (∃ v : Memory, (∀ j, v.bit j = if j < s.size then s.row.bit (s.size - 1 - j) else false) ∧
      exec .baReverse s = .next ({ s with row := v }.complete .ok 0))

/-- No command reads a padding bit of the BitArray: two states that differ only there complete alike, and differ only
there afterwards (42_bitarray.md R252). -/
def Obligations.RowPaddingIsNeverRead : Prop :=
  ∀ (i : Instr) (s : State) (v : Memory), (∀ j, j < s.size → v.bit j = s.row.bit j) →
    ∃ t t' : State, exec i s = .next t ∧ exec i { s with row := v } = .next t' ∧ { t' with row := t.row } = t ∧
      ∀ j, j < t.size → t'.row.bit j = t.row.bit j

/-! ### BitMatrix commands (43_bitmatrix.md) -/

/-- Every BM command but BM_INIT checks first that its matrix is initialised (43_bitmatrix.md R292). -/
def Obligations.BmChecksInitialised : Prop :=
  ∀ (m : Mat) (s : State), s.width m = 0 ∨ s.height m = 0 →
    ∀ i ∈ [Instr.bmGet m, .bmSet m, .bmUnset m, .bmFlip m, .bmClear m, .bmSetregion m, .bmGetrow m, .bmRot180 m,
      .bmXor m, .bmCopy m, .bmTopleft m, .bmBotright m],
      exec i s = .next (s.complete .illegalArgument 1)

/-- BM_INIT: its three checks in order, else the dimensions are taken and every word is 0; BM_CLEAR: every word is 0
(43_bitmatrix.md R300, R305). -/
def Obligations.BmInitClear : Prop :=
  ∀ (m : Mat) (s : State),
    ((s.argS 0 < 1 ∨ 65535 < s.argS 0) → exec (.bmInit m) s = .next (s.complete .illegalArgument 1)) ∧
    (1 ≤ s.argS 0 → s.argS 0 ≤ 65535 → (s.argS 1 < 1 ∨ 65535 < s.argS 1) →
      exec (.bmInit m) s = .next (s.complete .illegalArgument 2)) ∧
    (1 ≤ s.argS 0 → s.argS 0 ≤ 65535 → 1 ≤ s.argS 1 → s.argS 1 ≤ 65535 →
      65536 < (s.argU 0 + 31) / 32 * s.argU 1 → exec (.bmInit m) s = .next (s.complete .illegalArgument 3)) ∧
    (1 ≤ s.argS 0 → s.argS 0 ≤ 65535 → 1 ≤ s.argS 1 → s.argS 1 ≤ 65535 →
      (s.argU 0 + 31) / 32 * s.argU 1 ≤ 65536 →
      ∃ t, exec (.bmInit m) s = .next t ∧ t.width m = s.argU 0 ∧ t.height m = s.argU 1 ∧
        t = ((s.setDim m (s.argU 0) (s.argU 1)).setMat m Memory.zeros).complete .ok 0) ∧
    (1 ≤ s.width m → 1 ≤ s.height m →
      exec (.bmClear m) s = .next ((s.setMat m Memory.zeros).complete .ok 0))

/-- BM_GET, BM_SET, BM_UNSET and BM_FLIP: x then y refused outside an initialised matrix; else they read, set, clear or
invert exactly the bit of the point (43_bitmatrix.md R291, R301 to R304). -/
def Obligations.BmSingleBits : Prop :=
  ∀ (m : Mat) (s : State), 1 ≤ s.width m → 1 ≤ s.height m →
    ((s.argS 0 < 0 ∨ s.width m ≤ s.argS 0) →
      ∀ i ∈ [Instr.bmGet m, .bmSet m, .bmUnset m, .bmFlip m], exec i s = .next (s.complete .illegalArgument 2)) ∧
    (0 ≤ s.argS 0 → s.argS 0 < s.width m → (s.argS 1 < 0 ∨ s.height m ≤ s.argS 1) →
      ∀ i ∈ [Instr.bmGet m, .bmSet m, .bmUnset m, .bmFlip m], exec i s = .next (s.complete .illegalArgument 3)) ∧
    (0 ≤ s.argS 0 → s.argS 0 < s.width m → 0 ≤ s.argS 1 → s.argS 1 < s.height m →
      exec (.bmGet m) s =
        .next ((s.setRes 0 (if s.matBit m (s.argU 0) (s.argU 1) then 1 else 0)).complete .ok 0) ∧
      (∃ v : Memory,
        (∀ j, v.bit j = if j = bitPlace (s.width m) (s.argU 0) (s.argU 1) then true else (s.mat m).bit j) ∧
        exec (.bmSet m) s = .next ((s.setMat m v).complete .ok 0)) ∧
      (∃ v : Memory,
        (∀ j, v.bit j = if j = bitPlace (s.width m) (s.argU 0) (s.argU 1) then false else (s.mat m).bit j) ∧
        exec (.bmUnset m) s = .next ((s.setMat m v).complete .ok 0)) ∧
      (∃ v : Memory,
        (∀ j, v.bit j =
          if j = bitPlace (s.width m) (s.argU 0) (s.argU 1) then !(s.mat m).bit j else (s.mat m).bit j) ∧
        exec (.bmFlip m) s = .next ((s.setMat m v).complete .ok 0)))

/-- BM_SETREGION: its checks in order on an initialised matrix, the sums not wrapping, else exactly the bits of the
rectangle are set (43_bitmatrix.md R306). -/
def Obligations.BmSetregionFills : Prop :=
  ∀ (m : Mat) (s : State), 1 ≤ s.width m → 1 ≤ s.height m →
    ((s.argS 0 < 0 ∨ s.argS 1 < 0) → exec (.bmSetregion m) s = .next (s.complete .illegalArgument 2)) ∧
    (0 ≤ s.argS 0 → 0 ≤ s.argS 1 → (s.argS 2 < 1 ∨ s.argS 3 < 1) →
      exec (.bmSetregion m) s = .next (s.complete .illegalArgument 3)) ∧
    (0 ≤ s.argS 0 → 0 ≤ s.argS 1 → 1 ≤ s.argS 2 → 1 ≤ s.argS 3 →
      (s.width m < s.argS 0 + s.argS 2 ∨ s.height m < s.argS 1 + s.argS 3) →
      exec (.bmSetregion m) s = .next (s.complete .illegalArgument 4)) ∧
    (0 ≤ s.argS 0 → 0 ≤ s.argS 1 → 1 ≤ s.argS 2 → 1 ≤ s.argS 3 → s.argS 0 + s.argS 2 ≤ s.width m →
      s.argS 1 + s.argS 3 ≤ s.height m →
      ∃ v : Memory,
        (∀ j, v.bit j = true ↔ (s.mat m).bit j = true ∨
          ∃ x y, s.argU 0 ≤ x ∧ x < s.argU 0 + s.argU 2 ∧ s.argU 1 ≤ y ∧ y < s.argU 1 + s.argU 3 ∧
            j = bitPlace (s.width m) x y) ∧
        exec (.bmSetregion m) s = .next ((s.setMat m v).complete .ok 0))

/-- BM_GETROW: its checks in order on an initialised matrix, else the BitArray is the row, of the matrix's width, with
zeros after it (43_bitmatrix.md R307). -/
def Obligations.BmGetrowCopiesRow : Prop :=
  ∀ (m : Mat) (s : State), 1 ≤ s.width m → 1 ≤ s.height m →
    ((s.argS 0 < 0 ∨ s.height m ≤ s.argS 0) → exec (.bmGetrow m) s = .next (s.complete .illegalArgument 2)) ∧
    (0 ≤ s.argS 0 → s.argS 0 < s.height m → 4096 < s.width m →
      exec (.bmGetrow m) s = .next (s.complete .illegalArgument 3)) ∧
    (0 ≤ s.argS 0 → s.argS 0 < s.height m → s.width m ≤ 4096 →
      ∃ (t : State) (v : Memory), exec (.bmGetrow m) s = .next t ∧ t.size = s.width m ∧
        (∀ j, v.bit j = if j < s.width m then s.matBit m j (s.argU 0) else false) ∧
        t = { s with rowSize := BitVec.ofNat 13 (s.width m), row := v }.complete .ok 0)

/-- BM_ROT180 turns an initialised matrix about its centre: padding in its region becomes 0, the words past it stay
(43_bitmatrix.md R293, R308). -/
def Obligations.BmRot180Rotates : Prop :=
  ∀ (m : Mat) (s : State), 1 ≤ s.width m → 1 ≤ s.height m →
    ∃ v : Memory,
      (∀ x y, x < s.width m → y < s.height m →
        v.bit (bitPlace (s.width m) x y) = s.matBit m (s.width m - 1 - x) (s.height m - 1 - y)) ∧
      (∀ x y, s.width m ≤ x → x < 32 * rowWords (s.width m) → y < s.height m →
        v.bit (bitPlace (s.width m) x y) = false) ∧
      (∀ j, 32 * (rowWords (s.width m) * s.height m) ≤ j → v.bit j = (s.mat m).bit j) ∧
      exec (.bmRot180 m) s = .next ((s.setMat m v).complete .ok 0)

/-- BM_XOR: its checks in order on an initialised matrix, else the bitwise XOR of the two, padding in the region 0 and the
words past it kept; BM_COPY copies every word and the dimensions (43_bitmatrix.md R293, R309, R310). -/
def Obligations.BmXorCopy : Prop :=
  ∀ (m : Mat) (s : State), 1 ≤ s.width m → 1 ≤ s.height m →
    ((s.width m.other = 0 ∨ s.height m.other = 0) → exec (.bmXor m) s = .next (s.complete .illegalArgument 2)) ∧
    (1 ≤ s.width m.other → 1 ≤ s.height m.other → (s.width m, s.height m) ≠ (s.width m.other, s.height m.other) →
      exec (.bmXor m) s = .next (s.complete .illegalArgument 3)) ∧
    (s.width m = s.width m.other → s.height m = s.height m.other →
      ∃ v : Memory,
        (∀ x y, x < s.width m → y < s.height m →
          v.bit (bitPlace (s.width m) x y) = (s.matBit m x y ^^ s.matBit m.other x y)) ∧
        (∀ x y, s.width m ≤ x → x < 32 * rowWords (s.width m) → y < s.height m →
          v.bit (bitPlace (s.width m) x y) = false) ∧
        (∀ j, 32 * (rowWords (s.width m) * s.height m) ≤ j → v.bit j = (s.mat m).bit j) ∧
        exec (.bmXor m) s = .next ((s.setMat m v).complete .ok 0)) ∧
    exec (.bmCopy m) s =
      .next (((s.setMat m.other (s.mat m)).setDim m.other (s.width m) (s.height m)).complete .ok 0)

/-- BM_TOPLEFT and BM_BOTRIGHT on an initialised matrix: the first and the last set in-bounds bit in row-major order with
RES2 = 1, or the null result where no bit is set (43_bitmatrix.md R311, R312). -/
def Obligations.BmBoundingBits : Prop :=
  ∀ (m : Mat) (s : State), 1 ≤ s.width m → 1 ≤ s.height m →
    (∀ x y, x < s.width m → y < s.height m → s.matBit m x y = true →
      ((∀ x' y', x' < s.width m → y' < s.height m → s.matBit m x' y' = true → y < y' ∨ (y = y' ∧ x ≤ x')) →
        exec (.bmTopleft m) s = .next ((((s.setResNat 0 x).setResNat 1 y).setRes 2 1).complete .ok 0)) ∧
      ((∀ x' y', x' < s.width m → y' < s.height m → s.matBit m x' y' = true → y' < y ∨ (y' = y ∧ x' ≤ x)) →
        exec (.bmBotright m) s = .next ((((s.setResNat 0 x).setResNat 1 y).setRes 2 1).complete .ok 0))) ∧
    ((∀ x y, x < s.width m → y < s.height m → s.matBit m x y = false) →
      ∀ i ∈ [Instr.bmTopleft m, .bmBotright m],
        exec i s = .next ((((s.setRes 0 0xFFFFFFFF).setRes 1 0xFFFFFFFF).setRes 2 0).complete .ok 0))

/-- Which word of the window a bit is in: bit i of the BitArray, and bit (x, y) of a matrix, at the offsets the packing
rules give (20_memory.md R84, R85). -/
def Obligations.BitPacking : Prop :=
  (∀ (s : State) (i : Nat), i < 4096 →
    s.row.bit i = (s.windowRead (0x2000 + 4 * (i / 32))).getLsbD (i % 32)) ∧
  (∀ (s : State) (x y : Nat), x < s.width .m0 → y < s.height .m0 →
    (s.width .m0 + 31) / 32 * s.height .m0 ≤ 65536 →
    s.matBit .m0 x y =
      (s.windowRead (0x40000 + 4 * (y * ((s.width .m0 + 31) / 32) + x / 32))).getLsbD (x % 32)) ∧
  (∀ (s : State) (x y : Nat), x < s.width .m1 → y < s.height .m1 →
    (s.width .m1 + 31) / 32 * s.height .m1 ≤ 65536 →
    s.matBit .m1 x y =
      (s.windowRead (0x80000 + 4 * (y * ((s.width .m1 + 31) / 32) + x / 32))).getLsbD (x % 32))

/-! ### Transforms and grid sampling (44_sampler.md) -/

/-- The seven PT commands complete OK on any operands, with every element of TA, TB and F as the rules' expressions write
it: PT_S2Q by both cases of s2q, PT_Q2S the adjoint of that, PT_Q2Q its composition with the s2q of F8 to F15, PT_ADJ and
PT_TIMES over TA and TB, PT_COPY bit for bit, PT_XFORM each of the eight points (44_sampler.md R331 to R342). That PT_S2Q
copies x0 and y0 into TA2 and TA5 bit for bit, the payload of a NaN too, is the model's choice (log 19). -/
def Obligations.PtCommandsComplete : Prop :=
  ∀ s : State,
    (∃ t : Vector Dword 9, IsS2q s.f[0] s.f[1] s.f[2] s.f[3] s.f[4] s.f[5] s.f[6] s.f[7] t ∧
      exec .ptS2q s = .next ({ s with ta := t }.complete .ok 0) ∧
      exec .ptQ2s s = .next ({ s with ta := adjOf t }.complete .ok 0) ∧
      ∃ u v : Vector Dword 9, IsS2q s.f[8] s.f[9] s.f[10] s.f[11] s.f[12] s.f[13] s.f[14] s.f[15] u ∧
        IsTimes u (adjOf t) v ∧ exec .ptQ2q s = .next ({ s with ta := v }.complete .ok 0)) ∧
    exec .ptAdj s =
      .next ({ s with
        ta := ruleAdj s.ta[0] s.ta[1] s.ta[2] s.ta[3] s.ta[4] s.ta[5] s.ta[6] s.ta[7] s.ta[8] }.complete .ok 0) ∧
    (∃ v : Vector Dword 9, IsTimes s.ta s.tb v ∧ exec .ptTimes s = .next ({ s with ta := v }.complete .ok 0)) ∧
    exec .ptCopy s = .next ({ s with tb := s.ta }.complete .ok 0) ∧
    ∃ g : Vector Dword 16,
      (∀ j, j < 8 →
        (g.getD (2 * j) 0, g.getD (2 * j + 1) 0) = ruleApply s.ta (s.f.getD (2 * j) 0) (s.f.getD (2 * j + 1) 0)) ∧
      exec .ptXform s = .next ({ s with f := g }.complete .ok 0)

/-- Sums, differences, products and quotients of finite values are the exact results rounded to nearest, ties to even,
finite exactly below the overflow bound and the signed infinity above it; the signs of the results, of zero results too,
follow IEEE 754; and the two conversions, of small integers to binary64 and by truncation toward zero, are exact
(44_sampler.md R330; details of IEEE 754 that the rule names without stating them: log 15). -/
def Obligations.ArithmeticRoundsToNearest : Prop :=
  (∀ a b : Dword, ieeeFinite a = true → ieeeFinite b = true →
    RoundedTo (ieeeUnits a + ieeeUnits b) 1 (fAdd a b) ∧
    (ieeeUnits a + ieeeUnits b = 0 → fAdd a b = ieeeZero (ieeeNeg a && ieeeNeg b)) ∧
    RoundedTo (ieeeUnits a - ieeeUnits b) 1 (fSub a b) ∧
    (ieeeUnits a - ieeeUnits b = 0 → fSub a b = ieeeZero (ieeeNeg a && !ieeeNeg b)) ∧
    RoundedTo (ieeeUnits a * ieeeUnits b) (2 ^ 1074) (fMul a b) ∧
    ieeeNeg (fMul a b) = (ieeeNeg a ^^ ieeeNeg b) ∧
    (ieeeUnits b ≠ 0 →
      RoundedTo (ieeeUnits a * 2 ^ 1074 * (ieeeUnits b).sign) (ieeeUnits b).natAbs (fDiv a b) ∧
      ieeeNeg (fDiv a b) = (ieeeNeg a ^^ ieeeNeg b))) ∧
  (∀ n : Nat, n < 2 ^ 53 →
    ieeeFinite (fOfNat n) = true ∧ ieeeUnits (fOfNat n) = n * 2 ^ 1074 ∧ ieeeNeg (fOfNat n) = false) ∧
  (∀ a : Dword, ieeeFinite a = true → fTrunc a = (ieeeUnits a).tdiv (2 ^ 1074))

/-- A result that is NaN is the canonical NaN, and a NaN operand gives it, in all four operations; with an infinite
operand, and in a division by zero, the result is the signed infinity, the signed zero, the finite operand's infinite
partner, or the canonical NaN for `∞ - ∞`, `0 × ∞`, `∞ ÷ ∞` and `0 ÷ 0` (44_sampler.md R330; log 15). -/
def Obligations.NanIsCanonical : Prop :=
  (∀ (a b : Dword) (op : Dword → Dword → Dword), op ∈ [fAdd, fSub, fMul, fDiv] →
    (ieeeNaN (op a b) = true → op a b = 0x7FF8000000000000) ∧
    (ieeeNaN a = true ∨ ieeeNaN b = true → op a b = 0x7FF8000000000000)) ∧
  (∀ m n : Bool,
    fAdd (ieeeInf m) (ieeeInf n) = (if m = n then ieeeInf m else 0x7FF8000000000000) ∧
    fSub (ieeeInf m) (ieeeInf n) = (if m = n then 0x7FF8000000000000 else ieeeInf m) ∧
    fMul (ieeeInf m) (ieeeInf n) = ieeeInf (m ^^ n) ∧ fDiv (ieeeInf m) (ieeeInf n) = 0x7FF8000000000000) ∧
  (∀ (a : Dword) (m : Bool), ieeeFinite a = true →
    fAdd (ieeeInf m) a = ieeeInf m ∧ fAdd a (ieeeInf m) = ieeeInf m ∧
    fSub (ieeeInf m) a = ieeeInf m ∧ fSub a (ieeeInf m) = ieeeInf !m ∧
    fMul (ieeeInf m) a = (if ieeeUnits a = 0 then 0x7FF8000000000000 else ieeeInf (m ^^ ieeeNeg a)) ∧
    fMul a (ieeeInf m) = (if ieeeUnits a = 0 then 0x7FF8000000000000 else ieeeInf (ieeeNeg a ^^ m)) ∧
    fDiv (ieeeInf m) a = ieeeInf (m ^^ ieeeNeg a) ∧ fDiv a (ieeeInf m) = ieeeZero (ieeeNeg a ^^ m)) ∧
  (∀ a b : Dword, ieeeFinite a = true → ieeeFinite b = true → ieeeUnits b = 0 →
    fDiv a b = if ieeeUnits a = 0 then 0x7FF8000000000000 else ieeeInf (ieeeNeg a ^^ ieeeNeg b))

/-- GRID_SAMPLE whose operands and points all pass: the other matrix takes the grid's dimensions, and bit (mx, my) is the
source pixel of its point, moved inside where it is one pixel out; every other bit is 0 (44_sampler.md R332, R345, R346,
R347). -/
def Obligations.GridSampleSamples : Prop :=
  ∀ (m : Mat) (s : State), s.gridArgsOk m →
    (∀ mx my, mx < s.argU 0 → my < s.argU 1 → s.pointFails m mx my = none) →
    ∃ v : Memory,
      (∀ mx my, mx < s.argU 0 → my < s.argU 1 →
        v.bit (bitPlace (s.argU 0) mx my) =
          s.matBit m (coordPixel (s.gridPoint mx my).1 (s.width m)) (coordPixel (s.gridPoint mx my).2 (s.height m))) ∧
      (∀ j, (∀ mx my, mx < s.argU 0 → my < s.argU 1 → j ≠ bitPlace (s.argU 0) mx my) → v.bit j = false) ∧
      exec (.gridSample m) s =
        .next (((s.setDim m.other (s.argU 0) (s.argU 1)).setMat m.other v).complete .ok 0)

/-- Where GRID_SAMPLE fails: checks 1 to 3 in order, then the first point in sampling order that fails decides between
NOT_FOUND(4) and NOT_FOUND(5) (44_sampler.md R346, R347). -/
def Obligations.GridSampleFailures : Prop :=
  ∀ (m : Mat) (s : State),
    ((s.width m = 0 ∨ s.height m = 0) → exec (.gridSample m) s = .next (s.complete .illegalArgument 1)) ∧
    (1 ≤ s.width m → 1 ≤ s.height m → (s.argS 0 ≤ 0 ∨ s.argS 1 ≤ 0) →
      exec (.gridSample m) s = .next (s.complete .notFound 2)) ∧
    (1 ≤ s.width m → 1 ≤ s.height m → 0 < s.argS 0 → 0 < s.argS 1 →
      (65535 < s.argS 0 ∨ 65535 < s.argS 1 ∨ 65536 < (s.argU 0 + 31) / 32 * s.argU 1) →
      exec (.gridSample m) s = .next (s.complete .illegalArgument 3)) ∧
    (s.gridArgsOk m → ∀ mx my k, mx < s.argU 0 → my < s.argU 1 → s.pointFails m mx my = some k →
      (∀ mx' my', mx' < s.argU 0 → my' < s.argU 1 → (my' < my ∨ (my' = my ∧ mx' < mx)) →
        s.pointFails m mx' my' = none) →
      exec (.gridSample m) s = .next (s.complete .notFound k))

/-! ### The one-dimensional matcher (45_matcher.md) -/

/-- OD_RUNS: a start past the row is refused; else RUN_MEM's first entries are the lengths of the runs of the row from
START on, the other entries keep their values, and RES1 is where the first run starts (45_matcher.md R381, R390). With
ROWSIZE = 0 and START = 0 it completes with no runs: the model follows R390 there against the remark of
70_reset_and_hazards.md R500 (log 18). -/
def Obligations.OdRunsExtractsRuns : Prop :=
  ∀ s : State,
    (s.size < s.argU 0 → exec .odRuns s = .next (s.complete .illegalArgument 1)) ∧
    (s.argU 0 ≤ s.size →
      ∃ (rs : List Run) (v : Memory), IsRuns s.row.bit s.size (s.argU 0) rs ∧
        (∀ k, v.half k = if k < rs.length then BitVec.ofNat 16 (rs.getD k ⟨0, 0⟩).len else s.run.half k) ∧
        exec .odRuns s =
          .next ((({ s with run := v, nruns := BitVec.ofNat 13 rs.length }.setResNat 0 rs.length).setResNat 1
            (rs.headD ⟨s.size, 0⟩).pos).complete .ok 0))

/-- OD_PMATCH: its checks in order; else RES0 and RES1 are the entry of least variance, the lowest of equals, and its
variance, below the symbology's limit; with none below it, NOT_FOUND(3). The variance is the formula of R384, the
entries and limits those of the rules' tables. It reads RUN_MEM and NRUNS and no row, so it completes with ROWSIZE = 0
too: the model follows R391 there against the remark of 70_reset_and_hazards.md R500 (45_matcher.md R382 to R385, R391;
log 18). -/
def Obligations.OdPmatchFindsBest : Prop :=
  ∀ (sym : Sym) (s : State) (span : Nat) (counts : List Nat),
    span = (if sym = .itf then 9 else (symRow sym).k) →
    counts = ((List.range (symRow sym).k).map fun i =>
      (s.run.half (s.argU 0 + (if sym = .itf then 2 else 1) * i)).toNat) →
    (4096 < s.nruns.toNat → exec (.odPmatch sym) s = .next (s.complete .illegalArgument 1)) ∧
    (s.nruns.toNat ≤ 4096 → s.nruns.toNat < s.argU 0 + span →
      exec (.odPmatch sym) s = .next (s.complete .notFound 2)) ∧
    (s.nruns.toNat ≤ 4096 → s.argU 0 + span ≤ s.nruns.toNat → NoBest sym counts (entriesOf sym) →
      exec (.odPmatch sym) s = .next (s.complete .notFound 3)) ∧
    (s.nruns.toNat ≤ 4096 → s.argU 0 + span ≤ s.nruns.toNat → ∀ v x, IsBest sym counts (entriesOf sym) v x →
      exec (.odPmatch sym) s = .next (((s.setResNat 0 v).setResNat 1 x).complete .ok 0))

/-- OD_DECODE over the runs of the row from START on, check by check: a start past the row; no black module; no start
character, or ITF start pattern, with its quiet zone; a character or digit pair that does not match; no room in ODRES; no
termination bar; no quiet zone after the stop; the validation of the symbology; else ODRES holds the symbols with zeros
after them and RES0 to RES5 their number, the bounds of the start and stop patterns and SYM. Every success is such a one:
valid symbols, and bounds in order inside the row (45_matcher.md R381 to R389, R392 to R397). -/
def Obligations.OdDecodeReportsSymbol : Prop :=
  ∀ (chk : Bool) (sym : Sym) (s : State),
    (s.size < s.argU 0 → exec (.odDecode chk sym) s = .next (s.complete .illegalArgument 1)) ∧
    (s.argU 0 ≤ s.size → (∀ j, s.argU 0 ≤ j → j < s.size → s.row.bit j = false) →
      exec (.odDecode chk sym) s = .next (s.complete .notFound 2)) ∧
    (∀ d : Decoded, decodeRow s sym (chk && sym == .code39) = .ok d →
      ∃ v : Memory,
        (∀ k, v.byte k = BitVec.ofNat 8 (d.syms.getD k 0)) ∧ d.syms.length ≤ 256 ∧
        (∀ x ∈ d.syms, x < symEntries sym) ∧ ValidSymbols sym (chk && sym == .code39) d.syms ∧
        s.argU 0 ≤ d.sb ∧ d.sb < d.se ∧ d.se ≤ d.pb ∧ d.pb < d.pe ∧ d.pe ≤ s.size ∧
        exec (.odDecode chk sym) s =
          .next ((((((({ s with odres := v }.setResNat 0 d.syms.length).setResNat 1 d.sb).setResNat 2
            d.se).setResNat 3 d.pb).setResNat 4 d.pe).setResNat 5 sym.num).complete .ok 0)) ∧
    (s.argU 0 ≤ s.size → ∀ rs : List Run, IsRuns s.row.bit s.size (s.argU 0) rs → rs ≠ [] → sym ≠ .itf →
      ((∀ i, i % 2 = 0 → ∀ u, ¬ StartsAt s.row.bit sym rs i u) →
        exec (.odDecode chk sym) s = .next (s.complete .notFound 3)) ∧
      (∀ j v, FirstStart s.row.bit sym rs j v →
        (∀ ds, DataRead sym rs j ds → ReadsNone sym rs (charRun sym j ds.length) (entriesOf sym) →
          exec (.odDecode chk sym) s = .next (s.complete .notFound 4)) ∧
        (∀ ds z, DataRead sym rs j ds → 1 + ds.length = Config.resMax →
          Reads sym rs (charRun sym j ds.length) (entriesOf sym) z →
          exec (.odDecode chk sym) s = .next (s.complete .notFound 5)) ∧
        (∀ ds c z, StopsAt sym rs j ds c z →
          ((symRow sym).term = true → rs.length ≤ c + (symRow sym).k →
            exec (.odDecode chk sym) s = .next (s.complete .notFound 6)) ∧
          (lastOf sym c < rs.length →
            ¬ QuietRight s.row.bit s.size sym (runStop rs (lastOf sym c)) (runStop rs (lastOf sym c) - runStart rs c) →
            exec (.odDecode chk sym) s = .next (s.complete .notFound 7)) ∧
          (lastOf sym c < rs.length →
            QuietRight s.row.bit s.size sym (runStop rs (lastOf sym c)) (runStop rs (lastOf sym c) - runStart rs c) →
            (∀ code k, validityCheck sym chk v ds = some (code, k) →
              exec (.odDecode chk sym) s = .next (s.complete code k)) ∧
            (validityCheck sym chk v ds = none →
              ∃ m : Memory, (∀ k, m.byte k = BitVec.ofNat 8 ((v :: ds ++ [z]).getD k 0)) ∧
                exec (.odDecode chk sym) s =
                  .next ((s.withSymbol sym m (ds.length + 2) (runStart rs j) (runStop rs (j + (symRow sym).k - 1))
                    (runStart rs c) (runStop rs (lastOf sym c))).complete .ok 0)))))) ∧
    (s.argU 0 ≤ s.size → ∀ rs : List Run, IsRuns s.row.bit s.size (s.argU 0) rs → rs ≠ [] → sym = .itf →
      ((∀ i, i % 2 = 0 → ¬ ItfStartsAt s.row.bit rs i) →
        exec (.odDecode chk sym) s = .next (s.complete .notFound 3)) ∧
      (∀ j ds c, ItfFirstStart s.row.bit rs j → ItfDataRead s.row.bit s.size rs j ds → c = j + 4 + 10 * ds.length →
        (¬ ItfEndsAt s.row.bit s.size rs c → ItfNoPair rs c →
          exec (.odDecode chk sym) s = .next (s.complete .notFound 4)) ∧
        (¬ ItfEndsAt s.row.bit s.size rs c → (∃ d, ItfPair rs c d) → Config.resMax < 2 * ds.length + 2 →
          exec (.odDecode chk sym) s = .next (s.complete .notFound 5)) ∧
        (ItfEndsAt s.row.bit s.size rs c → ds = [] →
          exec (.odDecode chk sym) s = .next (s.complete .notFound 8)) ∧
        (ItfEndsAt s.row.bit s.size rs c → ds ≠ [] →
          ∃ m : Memory, (∀ k, m.byte k = BitVec.ofNat 8 ((ds.flatMap fun d => [d.1, d.2]).getD k 0)) ∧
            exec (.odDecode chk sym) s =
              .next ((s.withSymbol sym m (2 * ds.length) (runStart rs j) (runStop rs (j + 3)) (runStart rs c)
                (runStop rs (c + 2))).complete .ok 0))))

/-- OD_MULTI: a start past the row is refused; else it completes as OD_DECODE of the lowest enabled symbology that decodes
the row, with the check character only for Code 39; where none does, NOT_FOUND(2) (45_matcher.md R398). -/
def Obligations.OdMultiTriesInOrder : Prop :=
  ∀ (chk : Bool) (en : BitVec 5) (s : State),
    (s.size < s.argU 0 → exec (.odMulti chk en) s = .next (s.complete .illegalArgument 1)) ∧
    (s.argU 0 ≤ s.size →
      (∀ sym d, en.getLsbD sym.num = true → decodeRow s sym (chk && sym == .code39) ≠ .ok d) →
      exec (.odMulti chk en) s = .next (s.complete .notFound 2)) ∧
    (∀ sym d, en.getLsbD sym.num = true → decodeRow s sym (chk && sym == .code39) = .ok d →
      (∀ sym' d', sym'.num < sym.num → en.getLsbD sym'.num = true →
        decodeRow s sym' (chk && sym' == .code39) ≠ .ok d') →
      exec (.odMulti chk en) s = exec (.odDecode (chk && sym == .code39) sym) s ∧
      exec (.odMulti chk en) s = .next ((odCommit s sym d).complete .ok 0))

/-! ### The port (10_state.md, 20_memory.md, 60_exceptions.md, 70_reset_and_hazards.md) -/

/-- A CMD write is accepted by an idle engine: LASTCMD and BUSY change, DONE does not; while busy it is dropped and only
CMDOVR is set (60_exceptions.md R465; how long the command runs is the model's list, log 2). -/
def Obligations.CmdWriteAcceptedOrDropped : Prop :=
  ∀ (s : State) (v : Dword) (es : List PortEvent), s.porHeld = false → s.port = .write .w32 0x010 v :: es →
    (s.executor = .idle →
      step s = .next { s with
        port := es, bus := .written, lastcmd := v.setWidth 32
        executor := .running (v.setWidth 32) (s.latencies.headD 0), latencies := s.latencies.tail }) ∧
    (∀ w n, s.executor = .running w (n + 1) →
      step s = .next { s with port := es, bus := .written, executor := .running w n, cmdovr := true })

/-- While a command runs, a write to any read-write register or memory is dropped and sets WOVR; a write to a read-only or
unmapped offset is ignored, busy or not; none of them changes anything else (70_reset_and_hazards.md R506; 20_memory.md
R81). -/
def Obligations.WritesDroppedOrIgnored : Prop :=
  ∀ (s : State) (off : Nat) (v : Dword) (es : List PortEvent),
    s.porHeld = false → s.port = .write .w32 off v :: es → off < 0x100000 → off % 4 = 0 →
    off ∉ [0x008, 0x00C, 0x010] →
    (∀ w n, s.executor = .running w (n + 1) →
      step s = .next { s with
        port := es, bus := .written, executor := .running w n, wovr := s.wovr || writableOffset off }) ∧
    (s.executor = .idle → writableOffset off = false → step s = .next { s with port := es, bus := .written })

/-- An idle engine answers a read with what the map gives for the offset, and the read has no side effect; it stores a
write at a read-write offset, so that the offset then reads the bits it keeps and every other offset but PDEG reads as
before (20_memory.md R80 to R86, R88; 10_state.md R32 to R56, R62). -/
def Obligations.IdleReadsAndWrites : Prop :=
  ∀ (s : State) (off : Nat) (es : List PortEvent),
    s.executor = .idle → s.porHeld = false → off < 0x100000 → off % 4 = 0 →
    (s.port = .read .w32 off :: es → step s = .next { s with port := es, bus := .data (s.windowRead off) }) ∧
    (∀ v, s.port = .write .w32 off v :: es → writableOffset off = true →
      ∃ t, step s = .next t ∧ t.windowRead off = keptBits off (v.setWidth 32) ∧
        (∀ a, a % 4 = 0 → a ≠ off → a ≠ 0x024 → t.windowRead a = s.windowRead a) ∧ t.executor = .idle ∧
        t.port = es ∧ t.bus = .written)

/-- A read while a command runs: an offset that is no output of the command reads its current value, STATUS and PDEG among
them; an output reads an unspecified value. A running word that fails decoding has ERRINFO as its only output
(70_reset_and_hazards.md R507; 60_exceptions.md R462; 10_state.md R41; the draw, and that a memory or register is an
output as a whole, are the model's, log 6). -/
def Obligations.BusyReads : Prop :=
  ∀ (s : State) (w : Word) (n off : Nat) (es : List PortEvent),
    s.executor = .running w (n + 1) → s.porHeld = false → s.port = .read .w32 off :: es →
    off < 0x100000 → off % 4 = 0 →
    (∀ i, decode w = .ok i →
      (outputOffset i off = false →
        step s = .next { s with port := es, executor := .running w n, bus := .data (s.windowRead off) }) ∧
      (outputOffset i off = true →
        ∃ v, step s =
          .next { s with port := es, executor := .running w n, bus := .data v, draws := s.draws + 1 }) ∧
      outputOffset i 0x00C = false ∧ outputOffset i 0x024 = false) ∧
    (∀ e, decode w = .error e →
      (off ≠ 0x018 →
        step s = .next { s with port := es, executor := .running w n, bus := .data (s.windowRead off) }) ∧
      (off = 0x018 →
        ∃ v, step s =
          .next { s with port := es, executor := .running w n, bus := .data v, draws := s.draws + 1 }))

/-- An access that is not an aligned 32-bit one gets a bus error and changes no engine state, whether the engine is idle or
busy; the data of a failed read are unspecified (20_memory.md R87; the answer and the draw are the model's, log 7). -/
def Obligations.IllegalAccessIsBusError : Prop :=
  ∀ (s : State) (width : Width) (off : Nat) (es : List PortEvent) (x : Executor),
    (s.executor = .idle ∧ x = .idle) ∨ (∃ w n, s.executor = .running w (n + 1) ∧ x = .running w n) →
    s.porHeld = false → off < 0x100000 → width ≠ .w32 ∨ off % 4 ≠ 0 →
    (∀ v : Dword, s.port = .write width off v :: es →
      step s = .next { s with port := es, executor := x, bus := .writeError }) ∧
    (s.port = .read width off :: es →
      ∃ v, step s = .next { s with port := es, executor := x, bus := .readError v, draws := s.draws + 1 })

/-- A STATUS write clears exactly the W1C bits written as 1, and a CTRL write without SRST sets the two enables, whether or
not the engine is busy (10_state.md R34, R35; 70_reset_and_hazards.md R506). -/
def Obligations.StatusAndCtrlWrites : Prop :=
  ∀ (s : State) (v : Dword) (es : List PortEvent), s.porHeld = false →
    (∀ x, (s.executor = .idle ∧ x = .idle) ∨ (∃ w n, s.executor = .running w (n + 1) ∧ x = .running w n) →
      (s.port = .write .w32 0x00C v :: es →
        step s = .next { s with
          port := es, bus := .written, executor := x, done := s.done && !v.getLsbD 1
          err := s.err && !v.getLsbD 2, cmdovr := s.cmdovr && !v.getLsbD 3, wovr := s.wovr && !v.getLsbD 4 }) ∧
      (s.port = .write .w32 0x008 v :: es → v.getLsbD 2 = false →
        step s = .next { s with
          port := es, bus := .written, executor := x, ieDone := v.getLsbD 0, ieErr := v.getLsbD 1 }))

/-- Writing 1 to SRST: every register takes its reset value, the caches are emptied, the executor is idle with no
completion and IRQ is 0; the local memories keep their contents but for those the abandoned command's rule writes, which
are drawn anew (70_reset_and_hazards.md R501; the draws, and that a memory is drawn as a whole, are the model's,
log 4, 9). -/
def Obligations.SoftResetResets : Prop :=
  ∀ (s : State) (v : Dword) (es : List PortEvent),
    s.executor = .idle ∨ (∃ w n, s.executor = .running w (n + 1)) → s.porHeld = false →
    s.port = .write .w32 0x008 v :: es → v.getLsbD 2 = true →
    ∃ t, step s = .next t ∧ t.executor = .idle ∧ t.irq = false ∧
      (∀ a, a < 0x1000 → a % 4 = 0 → a ≠ 0x024 → t.windowRead a = State.reset.windowRead a) ∧
      t.gen0 = [[1]] ∧ t.gen1 = [[1]] ∧
      (∀ id, (∀ w n i, s.executor = .running w n → decode w = .ok i → outputOffset i (memoryBase id) = false) →
        t.memory id = s.memory id) ∧
      (∀ id w n i, s.executor = .running w n → decode w = .ok i → outputOffset i (memoryBase id) = true →
        ∃ k, s.draws ≤ k ∧ k < t.draws ∧ t.memory id = Memory.fresh k)

/-- The values after a power-on reset, as the map reads them: ID and VERSION, every other register 0, P0 to P3 all zeros,
the executor idle and IRQ 0 (70_reset_and_hazards.md R500). -/
def Obligations.ResetValues : Prop :=
  State.reset.windowRead 0x000 = 0x42434531 ∧ State.reset.windowRead 0x004 = 0x00010000 ∧
  (∀ a, 0x008 ≤ a → a < 0x1000 → State.reset.windowRead a = 0) ∧
  (∀ a, 0x1400 ≤ a → a < 0x1800 → State.reset.windowRead a = 0) ∧
  State.reset.gen0 = [[1]] ∧ State.reset.gen1 = [[1]] ∧ State.reset.executor = .idle ∧ State.reset.irq = false

/-- The power-on reset input: asserting it, idle or while a command runs, ends the command and leaves the reset registers,
cleared P0 to P3 and nine memories drawn anew; while it is asserted accesses are ignored, and releasing it changes nothing
else (70_reset_and_hazards.md R500; the draws, the level and the port are the model's, log 1, 4, 11). -/
def Obligations.PowerOnReset : Prop :=
  ∀ (s : State) (es : List PortEvent),
    (s.executor = .idle ∨ (∃ w n, s.executor = .running w (n + 1)) → s.port = .porAssert :: es →
      ∃ t, step s = .next t ∧ t.porHeld = true ∧ t.executor = .idle ∧ t.port = es ∧
        (∀ a, a < 0x1000 → t.windowRead a = State.reset.windowRead a) ∧ t.gen0 = [[1]] ∧ t.gen1 = [[1]] ∧
        (∀ r, t.poly r = Memory.zeros) ∧
        (∀ id, (∀ r, id ≠ .p r) → ∃ k, s.draws ≤ k ∧ k < t.draws ∧ t.memory id = Memory.fresh k)) ∧
    (s.executor = .idle → s.porHeld = true →
      (∀ width off, off < 0x100000 → s.port = .read width off :: es →
        step s = .next { s with port := es, bus := .none }) ∧
      (∀ width off v, off < 0x100000 → s.port = .write width off v :: es →
        step s = .next { s with port := es, bus := .none }) ∧
      (s.port = .porRelease :: es → step s = .next { s with port := es, porHeld := false }))

/-- IRQ is the enabled status bits and nothing else, and setting an enable while its status bit is set raises it at once
(60_exceptions.md R467). -/
def Obligations.IrqIsLevel : Prop :=
  (∀ s : State, s.irq = ((s.done && s.ieDone) || ((s.err || s.cmdovr || s.wovr) && s.ieErr))) ∧
  (∀ s : State, s.done = true → (s.writeCtrl 1).irq = true) ∧
  (∀ s : State, s.err = true ∨ s.cmdovr = true ∨ s.wovr = true → (s.writeCtrl 2).irq = true)
end

