-- ==== Sys2Proof/Laws/Memory.lean ====
section
/-!
SUPPORT. What the memory operations do, byte by byte and bit by bit, whatever the cells are, and that every one of them
keeps the canonical form (log 5).
-/

namespace Sys2Proof.Machine

/-! ### Looking a cell up -/

theorem lookup_putCell (a : Nat) (v : Byte) (cs : List Host.Cell) (b : Nat) :
    (putCell a v cs).lookup b = if b = a then some v else cs.lookup b := by
  have front : ∀ ds : List Host.Cell, ((a, v) :: ds).lookup b = if b = a then some v else ds.lookup b := by
    intro ds
    by_cases h : b = a
    · subst h; simp
    · have : (b == a) = false := by simpa using h
      simp [List.lookup_cons, this, h]
  induction cs with
  | nil => exact front []
  | cons c cs ih =>
    obtain ⟨k, w⟩ := c
    simp only [putCell]
    split
    · exact front _
    · split
      · next h =>
        subst h
        rw [front]
        by_cases h : b = a
        · simp [h]
        · have : (b == a) = false := by simpa using h
          simp [List.lookup_cons, this, h]
      · by_cases h : b = k
        · subst h; simp; omega
        · have : (b == k) = false := by simpa using h
          simp [List.lookup_cons, this, ih]

theorem lookup_filter (p : Host.Cell → Bool) (q : Nat → Bool) (hpq : ∀ c, p c = q c.1) (cs : List Host.Cell) (b : Nat) :
    (cs.filter p).lookup b = if q b then cs.lookup b else none := by
  induction cs with
  | nil => simp
  | cons c cs ih =>
    obtain ⟨k, w⟩ := c
    rw [List.filter_cons]
    by_cases hk : b = k
    · subst hk
      by_cases hq : q b
      · simp [hpq, hq]
      · simp [hpq, hq, ih]
    · have hk' : (b == k) = false := by simpa using hk
      split
      · simp [List.lookup_cons, hk', ih]
      · simp [List.lookup_cons, hk', ih]

theorem lookup_append (xs ys : List Host.Cell) (b : Nat) :
    (xs ++ ys).lookup b = (xs.lookup b).or (ys.lookup b) := by
  induction xs with
  | nil => simp
  | cons c cs ih =>
    obtain ⟨k, w⟩ := c
    by_cases h : b == k <;> simp [List.lookup_cons, h, ih]

theorem lookup_cellsFrom (fill : Fill) (vs : List Byte) (a b : Nat) :
    (cellsFrom fill a vs).lookup b =
      if a ≤ b then (vs[b - a]?).bind (fun v => if fill.lists v then some v else none) else none := by
  induction vs generalizing a with
  | nil => simp [cellsFrom]
  | cons v vs ih =>
    simp only [cellsFrom]
    by_cases hb : b = a
    · subst hb
      by_cases hl : fill.lists v <;> simp [hl, ih]
    · have hb' : (b == a) = false := by simpa using hb
      have key : (if a + 1 ≤ b then (vs[b - (a + 1)]?).bind (fun v => if fill.lists v then some v else none) else none)
          = if a ≤ b then ((v :: vs)[b - a]?).bind (fun v => if fill.lists v then some v else none) else none := by
        by_cases h : a + 1 ≤ b
        · have h1 : a ≤ b := by omega
          have h2 : b - a = (b - (a + 1)) + 1 := by omega
          rw [if_pos h, if_pos h1, h2, List.getElem?_cons_succ]
        · have h1 : ¬ a ≤ b := by omega
          rw [if_neg h, if_neg h1]
      by_cases hl : fill.lists v
      · rw [if_pos hl, List.lookup_cons, hb', ih, key]
      · rw [if_neg hl, ih, key]

/-- A byte a fill does not list is what the fill reads as. -/
theorem Memory.unlisted_of_not_lists (m : Memory) (a : Nat) (v : Byte) (h : m.fill.lists v = false) : m.unlisted a = v := by
  unfold Fill.lists at h
  unfold Memory.unlisted
  cases hf : m.fill with
  | zero => simp_all
  | drawn k => simp [hf] at h

/-! ### Bytes -/

theorem Memory.byte_write (m : Memory) (a : Nat) (v : Byte) (b : Nat) :
    (m.write a v).byte b = if b = a then v else m.byte b := by
  unfold Memory.write
  split
  · simp only [Memory.byte, lookup_putCell]
    by_cases h : b = a <;> simp [h, Memory.unlisted]
  · next hl =>
    simp only [Memory.byte]
    rw [lookup_filter _ (fun k => k != a) (fun _ => rfl)]
    by_cases h : b = a
    · subst h
      simpa [Memory.unlisted] using m.unlisted_of_not_lists b v (by simpa using hl)
    · simp [h, Memory.unlisted]

theorem Memory.byte_overwrite (m : Memory) (a : Nat) (vs : List Byte) (b : Nat) :
    (m.overwrite a vs).byte b = if a ≤ b ∧ b < a + vs.length then vs.getD (b - a) 0 else m.byte b := by
  have hun : ∀ cs, (Memory.mk m.fill cs).unlisted b = m.unlisted b := fun _ => rfl
  unfold Memory.overwrite Memory.byte
  simp only [lookup_append, lookup_cellsFrom]
  rw [lookup_filter _ (fun k => decide (k < a)) (fun _ => rfl),
    lookup_filter _ (fun k => decide (a + vs.length ≤ k)) (fun _ => rfl)]
  by_cases h1 : b < a
  · have h2 : ¬ a ≤ b := by omega
    have h3 : ¬ a + vs.length ≤ b := by omega
    simp [h1, h2, h3, hun]
  · by_cases h3 : a + vs.length ≤ b
    · have h2 : a ≤ b := by omega
      have h4 : ¬ b < a + vs.length := by omega
      have h5 : vs[b - a]? = none := by simp; omega
      simp [h1, h2, h3, h4, h5, hun]
    · have h2 : a ≤ b := by omega
      have h4 : b < a + vs.length := by omega
      have h6 : b - a < vs.length := by omega
      simp only [h1, h2, h3, h4, decide_false, if_true, and_self, Option.none_or, Option.or_none, hun,
        Bool.false_eq_true, if_false]
      rw [List.getElem?_eq_getElem h6, List.getD_eq_getElem _ _ h6]
      by_cases hl : m.fill.lists vs[b - a]
      · simp [hl]
      · simpa [hl] using m.unlisted_of_not_lists b vs[b - a] (by simpa using hl)

@[simp] theorem Memory.byte_zeros (a : Nat) : Memory.zeros.byte a = 0 := rfl

@[simp] theorem Memory.byte_fresh (k a : Nat) : (Memory.fresh k).byte a = Config.drawnByte k a := rfl

theorem Memory.ofBytes_eq_overwrite (vs : List Byte) : Memory.ofBytes vs = Memory.zeros.overwrite 0 vs := by
  simp [Memory.ofBytes, Memory.overwrite, Memory.zeros]

@[simp] theorem Memory.byte_ofBytes (vs : List Byte) (a : Nat) : (Memory.ofBytes vs).byte a = vs.getD a 0 := by
  rw [Memory.ofBytes_eq_overwrite, Memory.byte_overwrite]
  by_cases h : a < vs.length
  · simp [h]
  · simp [h]

@[simp] theorem Memory.length_bytes (m : Memory) (n : Nat) : (m.bytes n).length = n := by simp [Memory.bytes]

theorem Memory.getD_bytes (m : Memory) (n i : Nat) (h : i < n) : (m.bytes n).getD i 0 = m.byte i := by
  simp [Memory.bytes, h]

/-! ### Words and 16-bit entries -/

@[simp] theorem wordByte_word (m : Memory) (i : Nat) :
    wordByte (m.word i) 0 = m.byte (4 * i) ∧ wordByte (m.word i) 1 = m.byte (4 * i + 1) ∧
      wordByte (m.word i) 2 = m.byte (4 * i + 2) ∧ wordByte (m.word i) 3 = m.byte (4 * i + 3) := by
  unfold wordByte Memory.word
  generalize m.byte (4 * i) = b0
  generalize m.byte (4 * i + 1) = b1
  generalize m.byte (4 * i + 2) = b2
  generalize m.byte (4 * i + 3) = b3
  refine ⟨?_, ?_, ?_, ?_⟩ <;>
  · apply BitVec.eq_of_getLsbD_eq
    intro j hj
    simp only [BitVec.getLsbD_extractLsb', BitVec.getLsbD_append, hj, decide_true, Bool.true_and]
    interval_cases j <;> simp

theorem word_of_wordBytes (v : Word) :
    ((wordByte v 3 ++ wordByte v 2 ++ wordByte v 1 ++ wordByte v 0 : BitVec (8 + 8 + 8 + 8)) : Word) = v := by
  apply BitVec.eq_of_getLsbD_eq
  intro j hj
  simp only [wordByte, BitVec.getLsbD_append, BitVec.getLsbD_extractLsb']
  interval_cases j <;> simp

theorem Memory.byte_writeWord (m : Memory) (i : Nat) (v : Word) (b : Nat) :
    (m.writeWord i v).byte b = if b / 4 = i then wordByte v (b % 4) else m.byte b := by
  unfold Memory.writeWord
  rw [Memory.byte_overwrite]
  by_cases h : b / 4 = i
  · have h1 : 4 * i ≤ b ∧ b < 4 * i + [wordByte v 0, wordByte v 1, wordByte v 2, wordByte v 3].length := by
      simp only [List.length_cons, List.length_nil]; omega
    have h2 : b - 4 * i = b % 4 := by omega
    have h3 : b % 4 < 4 := Nat.mod_lt _ (by decide)
    rw [if_pos h1, if_pos h, h2]
    interval_cases b % 4 <;> rfl
  · have h1 : ¬ (4 * i ≤ b ∧ b < 4 * i + [wordByte v 0, wordByte v 1, wordByte v 2, wordByte v 3].length) := by
      simp only [List.length_cons, List.length_nil]; omega
    rw [if_neg h1, if_neg h]

/-- A word reads back as it was written, and no other word changes (20_memory.md R82). -/
theorem Memory.word_writeWord (m : Memory) (i j : Nat) (v : Word) :
    (m.writeWord i v).word j = if j = i then v else m.word j := by
  unfold Memory.word
  simp only [Memory.byte_writeWord]
  have e0 : (4 * j + 3) / 4 = j := by omega
  have e1 : (4 * j + 2) / 4 = j := by omega
  have e2 : (4 * j + 1) / 4 = j := by omega
  have e3 : 4 * j / 4 = j := by omega
  have r0 : (4 * j + 3) % 4 = 3 := by omega
  have r1 : (4 * j + 2) % 4 = 2 := by omega
  have r2 : (4 * j + 1) % 4 = 1 := by omega
  have r3 : 4 * j % 4 = 0 := by omega
  rw [e0, e1, e2, e3, r0, r1, r2, r3]
  by_cases h : j = i
  · simp only [h, if_true]; exact word_of_wordBytes v
  · simp only [h, if_false]

theorem halfBytes_getD (vs : List (BitVec 16)) (k : Nat) (h : k / 2 < vs.length) :
    (vs.flatMap halfBytes).getD k 0 = (vs[k / 2]).extractLsb' (8 * (k % 2)) 8 := by
  induction vs generalizing k with
  | nil => simp at h
  | cons v vs ih =>
    rcases k with _ | _ | k
    · simp [halfBytes]
    · simp [halfBytes]
    · have e : (k + 1 + 1) / 2 = k / 2 + 1 := by omega
      have e2 : (k + 1 + 1) % 2 = k % 2 := by omega
      have hk : k / 2 < vs.length := by simp only [List.length_cons] at h; omega
      simp only [e, e2, List.getElem_cons_succ]
      rw [← ih k hk]
      simp [halfBytes]

theorem length_flatMap_halfBytes (vs : List (BitVec 16)) : (vs.flatMap halfBytes).length = 2 * vs.length := by
  induction vs with
  | nil => rfl
  | cons v vs ih => simp [halfBytes, ih]; omega

/-- An entry reads back as it was written, and no other entry changes (20_memory.md R86). -/
theorem Memory.half_writeHalves (m : Memory) (i : Nat) (vs : List (BitVec 16)) (j : Nat) :
    (m.writeHalves i vs).half j = if i ≤ j ∧ j < i + vs.length then vs.getD (j - i) 0 else m.half j := by
  unfold Memory.half Memory.writeHalves
  simp only [Memory.byte_overwrite, length_flatMap_halfBytes]
  by_cases h : i ≤ j ∧ j < i + vs.length
  · have h1 : 2 * i ≤ 2 * j + 1 ∧ 2 * j + 1 < 2 * i + 2 * vs.length := by omega
    have h2 : 2 * i ≤ 2 * j ∧ 2 * j < 2 * i + 2 * vs.length := by omega
    rw [if_pos h1, if_pos h2, if_pos h]
    have l1 : (2 * j + 1 - 2 * i) / 2 < vs.length := by omega
    have l2 : (2 * j - 2 * i) / 2 < vs.length := by omega
    rw [halfBytes_getD _ _ l1, halfBytes_getD _ _ l2]
    have e1 : (2 * j + 1 - 2 * i) / 2 = j - i := by omega
    have e2 : (2 * j - 2 * i) / 2 = j - i := by omega
    have e3 : (2 * j + 1 - 2 * i) % 2 = 1 := by omega
    have e4 : (2 * j - 2 * i) % 2 = 0 := by omega
    simp only [e1, e2, e3, e4]
    have l3 : j - i < vs.length := by omega
    rw [List.getD_eq_getElem _ _ l3]
    apply BitVec.eq_of_getLsbD_eq
    intro k hk
    simp only [BitVec.getLsbD_append, BitVec.getLsbD_extractLsb']
    interval_cases k <;> simp
  · have h1 : ¬ (2 * i ≤ 2 * j + 1 ∧ 2 * j + 1 < 2 * i + 2 * vs.length) := by omega
    have h2 : ¬ (2 * i ≤ 2 * j ∧ 2 * j < 2 * i + 2 * vs.length) := by omega
    rw [if_neg h1, if_neg h2, if_neg h]

/-! ### Bits -/

theorem getLsbD_byteWithBit (v : Byte) (j k : Nat) (b : Bool) (hk : k < 8) :
    (byteWithBit v j b).getLsbD k = if k = j then b else v.getLsbD k := by
  unfold byteWithBit
  by_cases h : k = j
  · subst h
    cases b <;> simp [hk]
  · by_cases hl : k < j
    · cases b <;> simp [hk, h, hl]
    · have hs : k - j ≠ 0 := by omega
      cases b <;> simp [hk, h, hl, hs]

/-- A bit reads back as it was written, and no other bit changes (20_memory.md R84, R85). -/
theorem Memory.bit_setBit (m : Memory) (i j : Nat) (b : Bool) :
    (m.setBit i b).bit j = if j = i then b else m.bit j := by
  unfold Memory.bit Memory.setBit
  rw [Memory.byte_write]
  have hj : j % 8 < 8 := Nat.mod_lt _ (by decide)
  by_cases hd : j / 8 = i / 8
  · rw [if_pos hd, getLsbD_byteWithBit _ _ _ _ hj, hd]
    by_cases h : j = i
    · subst h; simp
    · have : j % 8 ≠ i % 8 := by omega
      simp [h, this]
  · have h : j ≠ i := by rintro rfl; exact hd rfl
    simp [hd, h]

theorem Memory.bit_setBits (m : Memory) (i n j : Nat) (b : Bool) :
    (m.setBits i n b).bit j = if i ≤ j ∧ j < i + n then b else m.bit j := by
  induction n with
  | zero =>
    have : ¬ (i ≤ j ∧ j < i + 0) := by omega
    simp only [Memory.setBits, if_neg this]
  | succ n ih =>
    simp only [Memory.setBits, Memory.bit_setBit, ih]
    by_cases h : j = i + n
    · have : i ≤ j ∧ j < i + (n + 1) := by omega
      simp [h]
    · by_cases h2 : i ≤ j ∧ j < i + n
      · have : i ≤ j ∧ j < i + (n + 1) := by omega
        simp [h, h2, this]
      · have : ¬ (i ≤ j ∧ j < i + (n + 1)) := by omega
        rw [if_neg h, if_neg h2, if_neg this]

theorem foldl_or_getLsbD (g : Nat → Bool) (a n k : Nat) (v : Byte) (hk : k < 8) (hn : n ≤ 8) :
    ((List.range n).foldl (fun v j => v ||| (if g (8 * a + j) then (1 : Byte) <<< j else 0)) v).getLsbD k =
      (v.getLsbD k || (decide (k < n) && g (8 * a + k))) := by
  induction n with
  | zero => simp
  | succ n ih =>
    rw [List.range_succ, List.foldl_append]
    simp only [List.foldl_cons, List.foldl_nil, BitVec.getLsbD_or]
    rw [ih (by omega)]
    have hbit : (if g (8 * a + n) then (1 : Byte) <<< n else 0).getLsbD k = (decide (k = n) && g (8 * a + n)) := by
      by_cases hg : g (8 * a + n)
      · simp only [hg, if_true, Bool.and_true]
        by_cases h : k = n
        · subst h; simp [hk]
        · by_cases hl : k < n
          · simp [h, hl]
          · have : k - n ≠ 0 := by omega
            simp [hk, h, hl, this]
      · simp [hg]
    rw [hbit]
    by_cases h : k = n
    · subst h; simp
    · have hh : (k < n + 1) = (k < n) := by simp; omega
      simp [h, hh]

theorem getLsbD_byteOfBits (g : Nat → Bool) (a k : Nat) (hk : k < 8) : (byteOfBits g a).getLsbD k = g (8 * a + k) := by
  unfold byteOfBits
  rw [foldl_or_getLsbD g a 8 k 0 hk (by decide)]
  simp [hk]

@[simp] theorem length_bytesOfBits (n : Nat) (g : Nat → Bool) : (bytesOfBits n g).length = n := by simp [bytesOfBits]

/-- The bits of a memory written whole from a bit sequence: the sequence, then zeros. -/
theorem Memory.bit_ofBytes_bytesOfBits (n : Nat) (g : Nat → Bool) (i : Nat) :
    (Memory.ofBytes (bytesOfBits n g)).bit i = (decide (i < 8 * n) && g i) := by
  unfold Memory.bit
  rw [Memory.byte_ofBytes]
  have hk : i % 8 < 8 := Nat.mod_lt _ (by decide)
  by_cases h : i / 8 < n
  · have : i < 8 * n := by omega
    have e : 8 * (i / 8) + i % 8 = i := by omega
    simp [bytesOfBits, h, this, getLsbD_byteOfBits _ _ _ hk, e]
  · have : ¬ i < 8 * n := by omega
    simp [bytesOfBits, h, this]

/-- The bits of a memory whose first `n` bytes are overwritten from a bit sequence. -/
theorem Memory.bit_overwrite_bytesOfBits (m : Memory) (n : Nat) (g : Nat → Bool) (i : Nat) :
    (m.overwrite 0 (bytesOfBits n g)).bit i = if i < 8 * n then g i else m.bit i := by
  unfold Memory.bit
  rw [Memory.byte_overwrite]
  have hk : i % 8 < 8 := Nat.mod_lt _ (by decide)
  by_cases h : i / 8 < n
  · have h1 : i < 8 * n := by omega
    have e : 8 * (i / 8) + i % 8 = i := by omega
    simp [bytesOfBits, h, h1, getLsbD_byteOfBits _ _ _ hk, e]
  · have h1 : ¬ i < 8 * n := by omega
    simp [h, h1]

@[simp] theorem Memory.bit_zeros (i : Nat) : Memory.zeros.bit i = false := by
  unfold Memory.bit
  simp

end Sys2Proof.Machine
end

