-- ==== Sys2Proof/Laws/MemoryWf.lean ====
section
/-!
SUPPORT. Every memory operation keeps the canonical form of a memory, inside the memory's bounds (log 5), and the memories
of the reset state have it.
-/

namespace Sys2Proof.Machine

theorem Memory.wf_iff (size : Nat) (m : Memory) :
    m.wf size = true ↔
      (m.cells.map (fun c => c.1)).Pairwise (· < ·) ∧ ∀ c ∈ m.cells, c.1 < size ∧ m.fill.lists c.2 = true := by
  simp [Memory.wf, List.all_eq_true]

theorem mem_putCell {a : Nat} {v : Byte} {cs : List Host.Cell} {c : Host.Cell} (h : c ∈ putCell a v cs) :
    c = (a, v) ∨ c ∈ cs := by
  induction cs with
  | nil => simpa [putCell] using h
  | cons d ds ih =>
    obtain ⟨k, w⟩ := d
    simp only [putCell] at h
    split at h
    · simpa using h
    · split at h
      · simp only [List.mem_cons] at h ⊢; tauto
      · simp only [List.mem_cons] at h ⊢
        rcases h with h | h
        · tauto
        · rcases ih h with h | h <;> tauto

theorem pairwise_putCell (a : Nat) (v : Byte) (cs : List Host.Cell)
    (h : (cs.map (fun c => c.1)).Pairwise (· < ·)) : ((putCell a v cs).map (fun c => c.1)).Pairwise (· < ·) := by
  induction cs with
  | nil => simp [putCell]
  | cons d ds ih =>
    obtain ⟨k, w⟩ := d
    simp only [List.map_cons, List.pairwise_cons] at h
    simp only [putCell]
    split
    · next hlt =>
      simp only [List.map_cons, List.pairwise_cons]
      refine ⟨?_, h.1, h.2⟩
      intro x hx
      rcases List.mem_cons.mp hx with rfl | hx
      · exact hlt
      · exact Nat.lt_trans hlt (h.1 x hx)
    · split
      · next heq => subst heq; simpa only [List.map_cons, List.pairwise_cons] using h
      · simp only [List.map_cons, List.pairwise_cons]
        refine ⟨?_, ih h.2⟩
        intro x hx
        obtain ⟨c, hc, rfl⟩ := List.mem_map.mp hx
        rcases mem_putCell hc with rfl | hc
        · simp only; omega
        · exact h.1 _ (List.mem_map_of_mem hc)

theorem pairwise_filter (p : Host.Cell → Bool) (cs : List Host.Cell)
    (h : (cs.map (fun c => c.1)).Pairwise (· < ·)) : ((cs.filter p).map (fun c => c.1)).Pairwise (· < ·) :=
  h.sublist (List.Sublist.map _ List.filter_sublist)

theorem mem_cellsFrom {fill : Fill} {vs : List Byte} {a : Nat} {c : Host.Cell} (h : c ∈ cellsFrom fill a vs) :
    a ≤ c.1 ∧ c.1 < a + vs.length ∧ fill.lists c.2 = true := by
  induction vs generalizing a with
  | nil => simp [cellsFrom] at h
  | cons v vs ih =>
    simp only [cellsFrom] at h
    simp only [List.length_cons]
    split at h
    · next hl =>
      rcases List.mem_cons.mp h with rfl | h
      · exact ⟨Nat.le_refl _, by simp, hl⟩
      · have := ih h; exact ⟨by omega, by omega, this.2.2⟩
    · have := ih h; exact ⟨by omega, by omega, this.2.2⟩

theorem pairwise_cellsFrom (fill : Fill) (vs : List Byte) (a : Nat) :
    ((cellsFrom fill a vs).map (fun c => c.1)).Pairwise (· < ·) := by
  induction vs generalizing a with
  | nil => simp [cellsFrom]
  | cons v vs ih =>
    simp only [cellsFrom]
    split
    · simp only [List.map_cons, List.pairwise_cons]
      refine ⟨?_, ih _⟩
      intro x hx
      obtain ⟨c, hc, rfl⟩ := List.mem_map.mp hx
      have := (mem_cellsFrom hc).1
      omega
    · exact ih _

/-! ### The operations -/

theorem Memory.wf_write {size : Nat} {m : Memory} (h : m.wf size = true) {a : Nat} (ha : a < size) (v : Byte) :
    (m.write a v).wf size = true := by
  rw [Memory.wf_iff] at h ⊢
  unfold Memory.write
  split
  · next hl =>
    refine ⟨pairwise_putCell a v _ h.1, fun c hc => ?_⟩
    rcases mem_putCell hc with rfl | hc
    · exact ⟨ha, hl⟩
    · exact h.2 c hc
  · exact ⟨pairwise_filter _ _ h.1, fun c hc => h.2 c (List.mem_of_mem_filter hc)⟩

theorem Memory.wf_overwrite {size : Nat} {m : Memory} (h : m.wf size = true) {a : Nat} (vs : List Byte)
    (ha : a + vs.length ≤ size) : (m.overwrite a vs).wf size = true := by
  rw [Memory.wf_iff] at h ⊢
  unfold Memory.overwrite
  constructor
  · simp only [List.map_append, List.pairwise_append]
    refine ⟨⟨pairwise_filter _ _ h.1, pairwise_cellsFrom _ _ _, ?_⟩, pairwise_filter _ _ h.1, ?_⟩
    · intro x hx y hy
      obtain ⟨c, hc, rfl⟩ := List.mem_map.mp hx
      obtain ⟨d, hd, rfl⟩ := List.mem_map.mp hy
      have h1 := (List.mem_filter.mp hc).2
      have h2 := (mem_cellsFrom hd).1
      simp only [decide_eq_true_eq] at h1
      omega
    · intro x hx y hy
      obtain ⟨d, hd, rfl⟩ := List.mem_map.mp hy
      have h2 := (List.mem_filter.mp hd).2
      simp only [decide_eq_true_eq] at h2
      rcases List.mem_append.mp hx with hx | hx
      · obtain ⟨c, hc, rfl⟩ := List.mem_map.mp hx
        have h1 := (List.mem_filter.mp hc).2
        simp only [decide_eq_true_eq] at h1
        omega
      · obtain ⟨c, hc, rfl⟩ := List.mem_map.mp hx
        have := (mem_cellsFrom hc).2.1
        omega
  · intro c hc
    simp only [List.mem_append] at hc
    rcases hc with (hc | hc) | hc
    · exact h.2 c (List.mem_of_mem_filter hc)
    · have := mem_cellsFrom hc
      exact ⟨by omega, this.2.2⟩
    · exact h.2 c (List.mem_of_mem_filter hc)

@[simp] theorem Memory.wf_zeros (size : Nat) : Memory.zeros.wf size = true := rfl

@[simp] theorem Memory.wf_fresh (size k : Nat) : (Memory.fresh k).wf size = true := rfl

theorem Memory.wf_ofBytes {size : Nat} {vs : List Byte} (h : vs.length ≤ size) : (Memory.ofBytes vs).wf size = true := by
  rw [Memory.ofBytes_eq_overwrite]
  exact Memory.wf_overwrite (Memory.wf_zeros size) vs (by omega)

theorem Memory.wf_writeWord {size : Nat} {m : Memory} (h : m.wf size = true) {i : Nat} (hi : 4 * i + 4 ≤ size)
    (v : Word) : (m.writeWord i v).wf size = true := Memory.wf_overwrite h _ hi

theorem Memory.wf_writeHalves {size : Nat} {m : Memory} (h : m.wf size = true) {i : Nat} (vs : List (BitVec 16))
    (hi : 2 * i + 2 * vs.length ≤ size) : (m.writeHalves i vs).wf size = true :=
  Memory.wf_overwrite h _ (by rw [length_flatMap_halfBytes]; exact hi)

theorem Memory.wf_setBit {size : Nat} {m : Memory} (h : m.wf size = true) {i : Nat} (hi : i < 8 * size) (b : Bool) :
    (m.setBit i b).wf size = true := Memory.wf_write h (by omega) _

theorem Memory.wf_setBits {size : Nat} {m : Memory} (h : m.wf size = true) {i n : Nat} (hi : i + n ≤ 8 * size)
    (b : Bool) : (m.setBits i n b).wf size = true := by
  induction n with
  | zero => exact h
  | succ n ih => exact Memory.wf_setBit (ih (by omega)) (by omega) b

/-! ### What a fill becomes -/

@[simp] theorem Memory.fill_write (m : Memory) (a : Nat) (v : Byte) : (m.write a v).fill = m.fill := by
  unfold Memory.write; split <;> rfl

@[simp] theorem Memory.fill_overwrite (m : Memory) (a : Nat) (vs : List Byte) : (m.overwrite a vs).fill = m.fill := rfl

@[simp] theorem Memory.fill_zeros : Memory.zeros.fill = .zero := rfl

@[simp] theorem Memory.fill_fresh (k : Nat) : (Memory.fresh k).fill = .drawn k := rfl

@[simp] theorem Memory.fill_ofBytes (vs : List Byte) : (Memory.ofBytes vs).fill = .zero := rfl

@[simp] theorem Memory.fill_writeWord (m : Memory) (i : Nat) (v : Word) : (m.writeWord i v).fill = m.fill := rfl

@[simp] theorem Memory.fill_writeHalves (m : Memory) (i : Nat) (vs : List (BitVec 16)) :
    (m.writeHalves i vs).fill = m.fill := rfl

@[simp] theorem Memory.fill_setBit (m : Memory) (i : Nat) (b : Bool) : (m.setBit i b).fill = m.fill := by
  simp [Memory.setBit]

@[simp] theorem Memory.fill_setBits (m : Memory) (i n : Nat) (b : Bool) : (m.setBits i n b).fill = m.fill := by
  induction n with
  | zero => rfl
  | succ n ih => simp [Memory.setBits, ih]

end Sys2Proof.Machine
end

