-- ==== Sys2Proof/Laws/State.lean ====
section
/-!
SUPPORT. Every field after every update of the state, so that no later proof unfolds a record update; and the accessors
over registers of one kind.
-/

namespace Sys2Proof.Machine

/-! ### complete -/

@[simp] theorem State.ieDone_complete (s : State) (c : Code) (k : Nat) : (s.complete c k).ieDone = s.ieDone := rfl

@[simp] theorem State.ieErr_complete (s : State) (c : Code) (k : Nat) : (s.complete c k).ieErr = s.ieErr := rfl

@[simp] theorem State.done_complete (s : State) (c : Code) (k : Nat) :
    (s.complete c k).done = true := rfl

@[simp] theorem State.err_complete (s : State) (c : Code) (k : Nat) :
    (s.complete c k).err = (s.err || c != .ok) := rfl

@[simp] theorem State.cmdovr_complete (s : State) (c : Code) (k : Nat) : (s.complete c k).cmdovr = s.cmdovr := rfl

@[simp] theorem State.wovr_complete (s : State) (c : Code) (k : Nat) : (s.complete c k).wovr = s.wovr := rfl

@[simp] theorem State.code_complete (s : State) (c : Code) (k : Nat) :
    (s.complete c k).code = c := rfl

@[simp] theorem State.lastcmd_complete (s : State) (c : Code) (k : Nat) : (s.complete c k).lastcmd = s.lastcmd := rfl

@[simp] theorem State.check_complete (s : State) (c : Code) (k : Nat) :
    (s.complete c k).check = BitVec.ofNat 8 k := rfl

@[simp] theorem State.pfld_complete (s : State) (c : Code) (k : Nat) : (s.complete c k).pfld = s.pfld := rfl

@[simp] theorem State.rowSize_complete (s : State) (c : Code) (k : Nat) : (s.complete c k).rowSize = s.rowSize := rfl

@[simp] theorem State.nruns_complete (s : State) (c : Code) (k : Nat) : (s.complete c k).nruns = s.nruns := rfl

@[simp] theorem State.dim0_complete (s : State) (c : Code) (k : Nat) : (s.complete c k).dim0 = s.dim0 := rfl

@[simp] theorem State.dim1_complete (s : State) (c : Code) (k : Nat) : (s.complete c k).dim1 = s.dim1 := rfl

@[simp] theorem State.arg_complete (s : State) (c : Code) (k : Nat) : (s.complete c k).arg = s.arg := rfl

@[simp] theorem State.res_complete (s : State) (c : Code) (k : Nat) : (s.complete c k).res = s.res := rfl

@[simp] theorem State.f_complete (s : State) (c : Code) (k : Nat) : (s.complete c k).f = s.f := rfl

@[simp] theorem State.ta_complete (s : State) (c : Code) (k : Nat) : (s.complete c k).ta = s.ta := rfl

@[simp] theorem State.tb_complete (s : State) (c : Code) (k : Nat) : (s.complete c k).tb = s.tb := rfl

@[simp] theorem State.cw_complete (s : State) (c : Code) (k : Nat) : (s.complete c k).cw = s.cw := rfl

@[simp] theorem State.syn_complete (s : State) (c : Code) (k : Nat) : (s.complete c k).syn = s.syn := rfl

@[simp] theorem State.eloc_complete (s : State) (c : Code) (k : Nat) : (s.complete c k).eloc = s.eloc := rfl

@[simp] theorem State.emag_complete (s : State) (c : Code) (k : Nat) : (s.complete c k).emag = s.emag := rfl

@[simp] theorem State.p0_complete (s : State) (c : Code) (k : Nat) : (s.complete c k).p0 = s.p0 := rfl

@[simp] theorem State.p1_complete (s : State) (c : Code) (k : Nat) : (s.complete c k).p1 = s.p1 := rfl

@[simp] theorem State.p2_complete (s : State) (c : Code) (k : Nat) : (s.complete c k).p2 = s.p2 := rfl

@[simp] theorem State.p3_complete (s : State) (c : Code) (k : Nat) : (s.complete c k).p3 = s.p3 := rfl

@[simp] theorem State.row_complete (s : State) (c : Code) (k : Nat) : (s.complete c k).row = s.row := rfl

@[simp] theorem State.odres_complete (s : State) (c : Code) (k : Nat) : (s.complete c k).odres = s.odres := rfl

@[simp] theorem State.run_complete (s : State) (c : Code) (k : Nat) : (s.complete c k).run = s.run := rfl

@[simp] theorem State.mat0_complete (s : State) (c : Code) (k : Nat) : (s.complete c k).mat0 = s.mat0 := rfl

@[simp] theorem State.mat1_complete (s : State) (c : Code) (k : Nat) : (s.complete c k).mat1 = s.mat1 := rfl

@[simp] theorem State.gen0_complete (s : State) (c : Code) (k : Nat) : (s.complete c k).gen0 = s.gen0 := rfl

@[simp] theorem State.gen1_complete (s : State) (c : Code) (k : Nat) : (s.complete c k).gen1 = s.gen1 := rfl

@[simp] theorem State.executor_complete (s : State) (c : Code) (k : Nat) :
    (s.complete c k).executor = .idle := rfl

@[simp] theorem State.porHeld_complete (s : State) (c : Code) (k : Nat) : (s.complete c k).porHeld = s.porHeld := rfl

@[simp] theorem State.port_complete (s : State) (c : Code) (k : Nat) : (s.complete c k).port = s.port := rfl

@[simp] theorem State.latencies_complete (s : State) (c : Code) (k : Nat) :
    (s.complete c k).latencies = s.latencies := rfl

@[simp] theorem State.bus_complete (s : State) (c : Code) (k : Nat) : (s.complete c k).bus = s.bus := rfl

@[simp] theorem State.draws_complete (s : State) (c : Code) (k : Nat) : (s.complete c k).draws = s.draws := rfl

/-! ### setRes -/

@[simp] theorem State.ieDone_setRes (s : State) (i : Fin 8) (v : Word) : (s.setRes i v).ieDone = s.ieDone := rfl

@[simp] theorem State.ieErr_setRes (s : State) (i : Fin 8) (v : Word) : (s.setRes i v).ieErr = s.ieErr := rfl

@[simp] theorem State.done_setRes (s : State) (i : Fin 8) (v : Word) : (s.setRes i v).done = s.done := rfl

@[simp] theorem State.err_setRes (s : State) (i : Fin 8) (v : Word) : (s.setRes i v).err = s.err := rfl

@[simp] theorem State.cmdovr_setRes (s : State) (i : Fin 8) (v : Word) : (s.setRes i v).cmdovr = s.cmdovr := rfl

@[simp] theorem State.wovr_setRes (s : State) (i : Fin 8) (v : Word) : (s.setRes i v).wovr = s.wovr := rfl

@[simp] theorem State.code_setRes (s : State) (i : Fin 8) (v : Word) : (s.setRes i v).code = s.code := rfl

@[simp] theorem State.lastcmd_setRes (s : State) (i : Fin 8) (v : Word) : (s.setRes i v).lastcmd = s.lastcmd := rfl

@[simp] theorem State.check_setRes (s : State) (i : Fin 8) (v : Word) : (s.setRes i v).check = s.check := rfl

@[simp] theorem State.pfld_setRes (s : State) (i : Fin 8) (v : Word) : (s.setRes i v).pfld = s.pfld := rfl

@[simp] theorem State.rowSize_setRes (s : State) (i : Fin 8) (v : Word) : (s.setRes i v).rowSize = s.rowSize := rfl

@[simp] theorem State.nruns_setRes (s : State) (i : Fin 8) (v : Word) : (s.setRes i v).nruns = s.nruns := rfl

@[simp] theorem State.dim0_setRes (s : State) (i : Fin 8) (v : Word) : (s.setRes i v).dim0 = s.dim0 := rfl

@[simp] theorem State.dim1_setRes (s : State) (i : Fin 8) (v : Word) : (s.setRes i v).dim1 = s.dim1 := rfl

@[simp] theorem State.arg_setRes (s : State) (i : Fin 8) (v : Word) : (s.setRes i v).arg = s.arg := rfl

@[simp] theorem State.res_setRes (s : State) (i : Fin 8) (v : Word) :
    (s.setRes i v).res = s.res.set i v := rfl

@[simp] theorem State.f_setRes (s : State) (i : Fin 8) (v : Word) : (s.setRes i v).f = s.f := rfl

@[simp] theorem State.ta_setRes (s : State) (i : Fin 8) (v : Word) : (s.setRes i v).ta = s.ta := rfl

@[simp] theorem State.tb_setRes (s : State) (i : Fin 8) (v : Word) : (s.setRes i v).tb = s.tb := rfl

@[simp] theorem State.cw_setRes (s : State) (i : Fin 8) (v : Word) : (s.setRes i v).cw = s.cw := rfl

@[simp] theorem State.syn_setRes (s : State) (i : Fin 8) (v : Word) : (s.setRes i v).syn = s.syn := rfl

@[simp] theorem State.eloc_setRes (s : State) (i : Fin 8) (v : Word) : (s.setRes i v).eloc = s.eloc := rfl

@[simp] theorem State.emag_setRes (s : State) (i : Fin 8) (v : Word) : (s.setRes i v).emag = s.emag := rfl

@[simp] theorem State.p0_setRes (s : State) (i : Fin 8) (v : Word) : (s.setRes i v).p0 = s.p0 := rfl

@[simp] theorem State.p1_setRes (s : State) (i : Fin 8) (v : Word) : (s.setRes i v).p1 = s.p1 := rfl

@[simp] theorem State.p2_setRes (s : State) (i : Fin 8) (v : Word) : (s.setRes i v).p2 = s.p2 := rfl

@[simp] theorem State.p3_setRes (s : State) (i : Fin 8) (v : Word) : (s.setRes i v).p3 = s.p3 := rfl

@[simp] theorem State.row_setRes (s : State) (i : Fin 8) (v : Word) : (s.setRes i v).row = s.row := rfl

@[simp] theorem State.odres_setRes (s : State) (i : Fin 8) (v : Word) : (s.setRes i v).odres = s.odres := rfl

@[simp] theorem State.run_setRes (s : State) (i : Fin 8) (v : Word) : (s.setRes i v).run = s.run := rfl

@[simp] theorem State.mat0_setRes (s : State) (i : Fin 8) (v : Word) : (s.setRes i v).mat0 = s.mat0 := rfl

@[simp] theorem State.mat1_setRes (s : State) (i : Fin 8) (v : Word) : (s.setRes i v).mat1 = s.mat1 := rfl

@[simp] theorem State.gen0_setRes (s : State) (i : Fin 8) (v : Word) : (s.setRes i v).gen0 = s.gen0 := rfl

@[simp] theorem State.gen1_setRes (s : State) (i : Fin 8) (v : Word) : (s.setRes i v).gen1 = s.gen1 := rfl

@[simp] theorem State.executor_setRes (s : State) (i : Fin 8) (v : Word) : (s.setRes i v).executor = s.executor := rfl

@[simp] theorem State.porHeld_setRes (s : State) (i : Fin 8) (v : Word) : (s.setRes i v).porHeld = s.porHeld := rfl

@[simp] theorem State.port_setRes (s : State) (i : Fin 8) (v : Word) : (s.setRes i v).port = s.port := rfl

@[simp] theorem State.latencies_setRes (s : State) (i : Fin 8) (v : Word) :
    (s.setRes i v).latencies = s.latencies := rfl

@[simp] theorem State.bus_setRes (s : State) (i : Fin 8) (v : Word) : (s.setRes i v).bus = s.bus := rfl

@[simp] theorem State.draws_setRes (s : State) (i : Fin 8) (v : Word) : (s.setRes i v).draws = s.draws := rfl

/-! ### setResNat -/

@[simp] theorem State.ieDone_setResNat (s : State) (i : Fin 8) (n : Nat) : (s.setResNat i n).ieDone = s.ieDone := rfl

@[simp] theorem State.ieErr_setResNat (s : State) (i : Fin 8) (n : Nat) : (s.setResNat i n).ieErr = s.ieErr := rfl

@[simp] theorem State.done_setResNat (s : State) (i : Fin 8) (n : Nat) : (s.setResNat i n).done = s.done := rfl

@[simp] theorem State.err_setResNat (s : State) (i : Fin 8) (n : Nat) : (s.setResNat i n).err = s.err := rfl

@[simp] theorem State.cmdovr_setResNat (s : State) (i : Fin 8) (n : Nat) : (s.setResNat i n).cmdovr = s.cmdovr := rfl

@[simp] theorem State.wovr_setResNat (s : State) (i : Fin 8) (n : Nat) : (s.setResNat i n).wovr = s.wovr := rfl

@[simp] theorem State.code_setResNat (s : State) (i : Fin 8) (n : Nat) : (s.setResNat i n).code = s.code := rfl

@[simp] theorem State.lastcmd_setResNat (s : State) (i : Fin 8) (n : Nat) :
    (s.setResNat i n).lastcmd = s.lastcmd := rfl

@[simp] theorem State.check_setResNat (s : State) (i : Fin 8) (n : Nat) : (s.setResNat i n).check = s.check := rfl

@[simp] theorem State.pfld_setResNat (s : State) (i : Fin 8) (n : Nat) : (s.setResNat i n).pfld = s.pfld := rfl

@[simp] theorem State.rowSize_setResNat (s : State) (i : Fin 8) (n : Nat) :
    (s.setResNat i n).rowSize = s.rowSize := rfl

@[simp] theorem State.nruns_setResNat (s : State) (i : Fin 8) (n : Nat) : (s.setResNat i n).nruns = s.nruns := rfl

@[simp] theorem State.dim0_setResNat (s : State) (i : Fin 8) (n : Nat) : (s.setResNat i n).dim0 = s.dim0 := rfl

@[simp] theorem State.dim1_setResNat (s : State) (i : Fin 8) (n : Nat) : (s.setResNat i n).dim1 = s.dim1 := rfl

@[simp] theorem State.arg_setResNat (s : State) (i : Fin 8) (n : Nat) : (s.setResNat i n).arg = s.arg := rfl

@[simp] theorem State.res_setResNat (s : State) (i : Fin 8) (n : Nat) :
    (s.setResNat i n).res = s.res.set i (BitVec.ofNat 32 n) := rfl

@[simp] theorem State.f_setResNat (s : State) (i : Fin 8) (n : Nat) : (s.setResNat i n).f = s.f := rfl

@[simp] theorem State.ta_setResNat (s : State) (i : Fin 8) (n : Nat) : (s.setResNat i n).ta = s.ta := rfl

@[simp] theorem State.tb_setResNat (s : State) (i : Fin 8) (n : Nat) : (s.setResNat i n).tb = s.tb := rfl

@[simp] theorem State.cw_setResNat (s : State) (i : Fin 8) (n : Nat) : (s.setResNat i n).cw = s.cw := rfl

@[simp] theorem State.syn_setResNat (s : State) (i : Fin 8) (n : Nat) : (s.setResNat i n).syn = s.syn := rfl

@[simp] theorem State.eloc_setResNat (s : State) (i : Fin 8) (n : Nat) : (s.setResNat i n).eloc = s.eloc := rfl

@[simp] theorem State.emag_setResNat (s : State) (i : Fin 8) (n : Nat) : (s.setResNat i n).emag = s.emag := rfl

@[simp] theorem State.p0_setResNat (s : State) (i : Fin 8) (n : Nat) : (s.setResNat i n).p0 = s.p0 := rfl

@[simp] theorem State.p1_setResNat (s : State) (i : Fin 8) (n : Nat) : (s.setResNat i n).p1 = s.p1 := rfl

@[simp] theorem State.p2_setResNat (s : State) (i : Fin 8) (n : Nat) : (s.setResNat i n).p2 = s.p2 := rfl

@[simp] theorem State.p3_setResNat (s : State) (i : Fin 8) (n : Nat) : (s.setResNat i n).p3 = s.p3 := rfl

@[simp] theorem State.row_setResNat (s : State) (i : Fin 8) (n : Nat) : (s.setResNat i n).row = s.row := rfl

@[simp] theorem State.odres_setResNat (s : State) (i : Fin 8) (n : Nat) : (s.setResNat i n).odres = s.odres := rfl

@[simp] theorem State.run_setResNat (s : State) (i : Fin 8) (n : Nat) : (s.setResNat i n).run = s.run := rfl

@[simp] theorem State.mat0_setResNat (s : State) (i : Fin 8) (n : Nat) : (s.setResNat i n).mat0 = s.mat0 := rfl

@[simp] theorem State.mat1_setResNat (s : State) (i : Fin 8) (n : Nat) : (s.setResNat i n).mat1 = s.mat1 := rfl

@[simp] theorem State.gen0_setResNat (s : State) (i : Fin 8) (n : Nat) : (s.setResNat i n).gen0 = s.gen0 := rfl

@[simp] theorem State.gen1_setResNat (s : State) (i : Fin 8) (n : Nat) : (s.setResNat i n).gen1 = s.gen1 := rfl

@[simp] theorem State.executor_setResNat (s : State) (i : Fin 8) (n : Nat) :
    (s.setResNat i n).executor = s.executor := rfl

@[simp] theorem State.porHeld_setResNat (s : State) (i : Fin 8) (n : Nat) :
    (s.setResNat i n).porHeld = s.porHeld := rfl

@[simp] theorem State.port_setResNat (s : State) (i : Fin 8) (n : Nat) : (s.setResNat i n).port = s.port := rfl

@[simp] theorem State.latencies_setResNat (s : State) (i : Fin 8) (n : Nat) :
    (s.setResNat i n).latencies = s.latencies := rfl

@[simp] theorem State.bus_setResNat (s : State) (i : Fin 8) (n : Nat) : (s.setResNat i n).bus = s.bus := rfl

@[simp] theorem State.draws_setResNat (s : State) (i : Fin 8) (n : Nat) : (s.setResNat i n).draws = s.draws := rfl

/-! ### setPoly -/

@[simp] theorem State.ieDone_setPoly (s : State) (r : PReg) (m : Memory) : (s.setPoly r m).ieDone = s.ieDone := by
  cases r <;> rfl

@[simp] theorem State.ieErr_setPoly (s : State) (r : PReg) (m : Memory) : (s.setPoly r m).ieErr = s.ieErr := by
  cases r <;> rfl

@[simp] theorem State.done_setPoly (s : State) (r : PReg) (m : Memory) : (s.setPoly r m).done = s.done := by
  cases r <;> rfl

@[simp] theorem State.err_setPoly (s : State) (r : PReg) (m : Memory) : (s.setPoly r m).err = s.err := by
  cases r <;> rfl

@[simp] theorem State.cmdovr_setPoly (s : State) (r : PReg) (m : Memory) : (s.setPoly r m).cmdovr = s.cmdovr := by
  cases r <;> rfl

@[simp] theorem State.wovr_setPoly (s : State) (r : PReg) (m : Memory) : (s.setPoly r m).wovr = s.wovr := by
  cases r <;> rfl

@[simp] theorem State.code_setPoly (s : State) (r : PReg) (m : Memory) : (s.setPoly r m).code = s.code := by
  cases r <;> rfl

@[simp] theorem State.lastcmd_setPoly (s : State) (r : PReg) (m : Memory) : (s.setPoly r m).lastcmd = s.lastcmd := by
  cases r <;> rfl

@[simp] theorem State.check_setPoly (s : State) (r : PReg) (m : Memory) : (s.setPoly r m).check = s.check := by
  cases r <;> rfl

@[simp] theorem State.pfld_setPoly (s : State) (r : PReg) (m : Memory) : (s.setPoly r m).pfld = s.pfld := by
  cases r <;> rfl

@[simp] theorem State.rowSize_setPoly (s : State) (r : PReg) (m : Memory) : (s.setPoly r m).rowSize = s.rowSize := by
  cases r <;> rfl

@[simp] theorem State.nruns_setPoly (s : State) (r : PReg) (m : Memory) : (s.setPoly r m).nruns = s.nruns := by
  cases r <;> rfl

@[simp] theorem State.dim0_setPoly (s : State) (r : PReg) (m : Memory) : (s.setPoly r m).dim0 = s.dim0 := by
  cases r <;> rfl

@[simp] theorem State.dim1_setPoly (s : State) (r : PReg) (m : Memory) : (s.setPoly r m).dim1 = s.dim1 := by
  cases r <;> rfl

@[simp] theorem State.arg_setPoly (s : State) (r : PReg) (m : Memory) : (s.setPoly r m).arg = s.arg := by
  cases r <;> rfl

@[simp] theorem State.res_setPoly (s : State) (r : PReg) (m : Memory) : (s.setPoly r m).res = s.res := by
  cases r <;> rfl

@[simp] theorem State.f_setPoly (s : State) (r : PReg) (m : Memory) : (s.setPoly r m).f = s.f := by
  cases r <;> rfl

@[simp] theorem State.ta_setPoly (s : State) (r : PReg) (m : Memory) : (s.setPoly r m).ta = s.ta := by
  cases r <;> rfl

@[simp] theorem State.tb_setPoly (s : State) (r : PReg) (m : Memory) : (s.setPoly r m).tb = s.tb := by
  cases r <;> rfl

@[simp] theorem State.cw_setPoly (s : State) (r : PReg) (m : Memory) : (s.setPoly r m).cw = s.cw := by
  cases r <;> rfl

@[simp] theorem State.syn_setPoly (s : State) (r : PReg) (m : Memory) : (s.setPoly r m).syn = s.syn := by
  cases r <;> rfl

@[simp] theorem State.eloc_setPoly (s : State) (r : PReg) (m : Memory) : (s.setPoly r m).eloc = s.eloc := by
  cases r <;> rfl

@[simp] theorem State.emag_setPoly (s : State) (r : PReg) (m : Memory) : (s.setPoly r m).emag = s.emag := by
  cases r <;> rfl

@[simp] theorem State.row_setPoly (s : State) (r : PReg) (m : Memory) : (s.setPoly r m).row = s.row := by
  cases r <;> rfl

@[simp] theorem State.odres_setPoly (s : State) (r : PReg) (m : Memory) : (s.setPoly r m).odres = s.odres := by
  cases r <;> rfl

@[simp] theorem State.run_setPoly (s : State) (r : PReg) (m : Memory) : (s.setPoly r m).run = s.run := by
  cases r <;> rfl

@[simp] theorem State.mat0_setPoly (s : State) (r : PReg) (m : Memory) : (s.setPoly r m).mat0 = s.mat0 := by
  cases r <;> rfl

@[simp] theorem State.mat1_setPoly (s : State) (r : PReg) (m : Memory) : (s.setPoly r m).mat1 = s.mat1 := by
  cases r <;> rfl

@[simp] theorem State.gen0_setPoly (s : State) (r : PReg) (m : Memory) : (s.setPoly r m).gen0 = s.gen0 := by
  cases r <;> rfl

@[simp] theorem State.gen1_setPoly (s : State) (r : PReg) (m : Memory) : (s.setPoly r m).gen1 = s.gen1 := by
  cases r <;> rfl

@[simp] theorem State.executor_setPoly (s : State) (r : PReg) (m : Memory) :
    (s.setPoly r m).executor = s.executor := by
  cases r <;> rfl

@[simp] theorem State.porHeld_setPoly (s : State) (r : PReg) (m : Memory) : (s.setPoly r m).porHeld = s.porHeld := by
  cases r <;> rfl

@[simp] theorem State.port_setPoly (s : State) (r : PReg) (m : Memory) : (s.setPoly r m).port = s.port := by
  cases r <;> rfl

@[simp] theorem State.latencies_setPoly (s : State) (r : PReg) (m : Memory) :
    (s.setPoly r m).latencies = s.latencies := by
  cases r <;> rfl

@[simp] theorem State.bus_setPoly (s : State) (r : PReg) (m : Memory) : (s.setPoly r m).bus = s.bus := by
  cases r <;> rfl

@[simp] theorem State.draws_setPoly (s : State) (r : PReg) (m : Memory) : (s.setPoly r m).draws = s.draws := by
  cases r <;> rfl

/-! ### setTag -/

@[simp] theorem State.ieDone_setTag (s : State) (r : PReg) (g : Field) : (s.setTag r g).ieDone = s.ieDone := rfl

@[simp] theorem State.ieErr_setTag (s : State) (r : PReg) (g : Field) : (s.setTag r g).ieErr = s.ieErr := rfl

@[simp] theorem State.done_setTag (s : State) (r : PReg) (g : Field) : (s.setTag r g).done = s.done := rfl

@[simp] theorem State.err_setTag (s : State) (r : PReg) (g : Field) : (s.setTag r g).err = s.err := rfl

@[simp] theorem State.cmdovr_setTag (s : State) (r : PReg) (g : Field) : (s.setTag r g).cmdovr = s.cmdovr := rfl

@[simp] theorem State.wovr_setTag (s : State) (r : PReg) (g : Field) : (s.setTag r g).wovr = s.wovr := rfl

@[simp] theorem State.code_setTag (s : State) (r : PReg) (g : Field) : (s.setTag r g).code = s.code := rfl

@[simp] theorem State.lastcmd_setTag (s : State) (r : PReg) (g : Field) : (s.setTag r g).lastcmd = s.lastcmd := rfl

@[simp] theorem State.check_setTag (s : State) (r : PReg) (g : Field) : (s.setTag r g).check = s.check := rfl

@[simp] theorem State.rowSize_setTag (s : State) (r : PReg) (g : Field) : (s.setTag r g).rowSize = s.rowSize := rfl

@[simp] theorem State.nruns_setTag (s : State) (r : PReg) (g : Field) : (s.setTag r g).nruns = s.nruns := rfl

@[simp] theorem State.dim0_setTag (s : State) (r : PReg) (g : Field) : (s.setTag r g).dim0 = s.dim0 := rfl

@[simp] theorem State.dim1_setTag (s : State) (r : PReg) (g : Field) : (s.setTag r g).dim1 = s.dim1 := rfl

@[simp] theorem State.arg_setTag (s : State) (r : PReg) (g : Field) : (s.setTag r g).arg = s.arg := rfl

@[simp] theorem State.res_setTag (s : State) (r : PReg) (g : Field) : (s.setTag r g).res = s.res := rfl

@[simp] theorem State.f_setTag (s : State) (r : PReg) (g : Field) : (s.setTag r g).f = s.f := rfl

@[simp] theorem State.ta_setTag (s : State) (r : PReg) (g : Field) : (s.setTag r g).ta = s.ta := rfl

@[simp] theorem State.tb_setTag (s : State) (r : PReg) (g : Field) : (s.setTag r g).tb = s.tb := rfl

@[simp] theorem State.cw_setTag (s : State) (r : PReg) (g : Field) : (s.setTag r g).cw = s.cw := rfl

@[simp] theorem State.syn_setTag (s : State) (r : PReg) (g : Field) : (s.setTag r g).syn = s.syn := rfl

@[simp] theorem State.eloc_setTag (s : State) (r : PReg) (g : Field) : (s.setTag r g).eloc = s.eloc := rfl

@[simp] theorem State.emag_setTag (s : State) (r : PReg) (g : Field) : (s.setTag r g).emag = s.emag := rfl

@[simp] theorem State.p0_setTag (s : State) (r : PReg) (g : Field) : (s.setTag r g).p0 = s.p0 := rfl

@[simp] theorem State.p1_setTag (s : State) (r : PReg) (g : Field) : (s.setTag r g).p1 = s.p1 := rfl

@[simp] theorem State.p2_setTag (s : State) (r : PReg) (g : Field) : (s.setTag r g).p2 = s.p2 := rfl

@[simp] theorem State.p3_setTag (s : State) (r : PReg) (g : Field) : (s.setTag r g).p3 = s.p3 := rfl

@[simp] theorem State.row_setTag (s : State) (r : PReg) (g : Field) : (s.setTag r g).row = s.row := rfl

@[simp] theorem State.odres_setTag (s : State) (r : PReg) (g : Field) : (s.setTag r g).odres = s.odres := rfl

@[simp] theorem State.run_setTag (s : State) (r : PReg) (g : Field) : (s.setTag r g).run = s.run := rfl

@[simp] theorem State.mat0_setTag (s : State) (r : PReg) (g : Field) : (s.setTag r g).mat0 = s.mat0 := rfl

@[simp] theorem State.mat1_setTag (s : State) (r : PReg) (g : Field) : (s.setTag r g).mat1 = s.mat1 := rfl

@[simp] theorem State.gen0_setTag (s : State) (r : PReg) (g : Field) : (s.setTag r g).gen0 = s.gen0 := rfl

@[simp] theorem State.gen1_setTag (s : State) (r : PReg) (g : Field) : (s.setTag r g).gen1 = s.gen1 := rfl

@[simp] theorem State.executor_setTag (s : State) (r : PReg) (g : Field) : (s.setTag r g).executor = s.executor := rfl

@[simp] theorem State.porHeld_setTag (s : State) (r : PReg) (g : Field) : (s.setTag r g).porHeld = s.porHeld := rfl

@[simp] theorem State.port_setTag (s : State) (r : PReg) (g : Field) : (s.setTag r g).port = s.port := rfl

@[simp] theorem State.latencies_setTag (s : State) (r : PReg) (g : Field) :
    (s.setTag r g).latencies = s.latencies := rfl

@[simp] theorem State.bus_setTag (s : State) (r : PReg) (g : Field) : (s.setTag r g).bus = s.bus := rfl

@[simp] theorem State.draws_setTag (s : State) (r : PReg) (g : Field) : (s.setTag r g).draws = s.draws := rfl

/-! ### setMat -/

@[simp] theorem State.ieDone_setMat (s : State) (k : Mat) (m : Memory) : (s.setMat k m).ieDone = s.ieDone := by
  cases k <;> rfl

@[simp] theorem State.ieErr_setMat (s : State) (k : Mat) (m : Memory) : (s.setMat k m).ieErr = s.ieErr := by
  cases k <;> rfl

@[simp] theorem State.done_setMat (s : State) (k : Mat) (m : Memory) : (s.setMat k m).done = s.done := by
  cases k <;> rfl

@[simp] theorem State.err_setMat (s : State) (k : Mat) (m : Memory) : (s.setMat k m).err = s.err := by
  cases k <;> rfl

@[simp] theorem State.cmdovr_setMat (s : State) (k : Mat) (m : Memory) : (s.setMat k m).cmdovr = s.cmdovr := by
  cases k <;> rfl

@[simp] theorem State.wovr_setMat (s : State) (k : Mat) (m : Memory) : (s.setMat k m).wovr = s.wovr := by
  cases k <;> rfl

@[simp] theorem State.code_setMat (s : State) (k : Mat) (m : Memory) : (s.setMat k m).code = s.code := by
  cases k <;> rfl

@[simp] theorem State.lastcmd_setMat (s : State) (k : Mat) (m : Memory) : (s.setMat k m).lastcmd = s.lastcmd := by
  cases k <;> rfl

@[simp] theorem State.check_setMat (s : State) (k : Mat) (m : Memory) : (s.setMat k m).check = s.check := by
  cases k <;> rfl

@[simp] theorem State.pfld_setMat (s : State) (k : Mat) (m : Memory) : (s.setMat k m).pfld = s.pfld := by
  cases k <;> rfl

@[simp] theorem State.rowSize_setMat (s : State) (k : Mat) (m : Memory) : (s.setMat k m).rowSize = s.rowSize := by
  cases k <;> rfl

@[simp] theorem State.nruns_setMat (s : State) (k : Mat) (m : Memory) : (s.setMat k m).nruns = s.nruns := by
  cases k <;> rfl

@[simp] theorem State.dim0_setMat (s : State) (k : Mat) (m : Memory) : (s.setMat k m).dim0 = s.dim0 := by
  cases k <;> rfl

@[simp] theorem State.dim1_setMat (s : State) (k : Mat) (m : Memory) : (s.setMat k m).dim1 = s.dim1 := by
  cases k <;> rfl

@[simp] theorem State.arg_setMat (s : State) (k : Mat) (m : Memory) : (s.setMat k m).arg = s.arg := by
  cases k <;> rfl

@[simp] theorem State.res_setMat (s : State) (k : Mat) (m : Memory) : (s.setMat k m).res = s.res := by
  cases k <;> rfl

@[simp] theorem State.f_setMat (s : State) (k : Mat) (m : Memory) : (s.setMat k m).f = s.f := by
  cases k <;> rfl

@[simp] theorem State.ta_setMat (s : State) (k : Mat) (m : Memory) : (s.setMat k m).ta = s.ta := by
  cases k <;> rfl

@[simp] theorem State.tb_setMat (s : State) (k : Mat) (m : Memory) : (s.setMat k m).tb = s.tb := by
  cases k <;> rfl

@[simp] theorem State.cw_setMat (s : State) (k : Mat) (m : Memory) : (s.setMat k m).cw = s.cw := by
  cases k <;> rfl

@[simp] theorem State.syn_setMat (s : State) (k : Mat) (m : Memory) : (s.setMat k m).syn = s.syn := by
  cases k <;> rfl

@[simp] theorem State.eloc_setMat (s : State) (k : Mat) (m : Memory) : (s.setMat k m).eloc = s.eloc := by
  cases k <;> rfl

@[simp] theorem State.emag_setMat (s : State) (k : Mat) (m : Memory) : (s.setMat k m).emag = s.emag := by
  cases k <;> rfl

@[simp] theorem State.p0_setMat (s : State) (k : Mat) (m : Memory) : (s.setMat k m).p0 = s.p0 := by
  cases k <;> rfl

@[simp] theorem State.p1_setMat (s : State) (k : Mat) (m : Memory) : (s.setMat k m).p1 = s.p1 := by
  cases k <;> rfl

@[simp] theorem State.p2_setMat (s : State) (k : Mat) (m : Memory) : (s.setMat k m).p2 = s.p2 := by
  cases k <;> rfl

@[simp] theorem State.p3_setMat (s : State) (k : Mat) (m : Memory) : (s.setMat k m).p3 = s.p3 := by
  cases k <;> rfl

@[simp] theorem State.row_setMat (s : State) (k : Mat) (m : Memory) : (s.setMat k m).row = s.row := by
  cases k <;> rfl

@[simp] theorem State.odres_setMat (s : State) (k : Mat) (m : Memory) : (s.setMat k m).odres = s.odres := by
  cases k <;> rfl

@[simp] theorem State.run_setMat (s : State) (k : Mat) (m : Memory) : (s.setMat k m).run = s.run := by
  cases k <;> rfl

@[simp] theorem State.gen0_setMat (s : State) (k : Mat) (m : Memory) : (s.setMat k m).gen0 = s.gen0 := by
  cases k <;> rfl

@[simp] theorem State.gen1_setMat (s : State) (k : Mat) (m : Memory) : (s.setMat k m).gen1 = s.gen1 := by
  cases k <;> rfl

@[simp] theorem State.executor_setMat (s : State) (k : Mat) (m : Memory) : (s.setMat k m).executor = s.executor := by
  cases k <;> rfl

@[simp] theorem State.porHeld_setMat (s : State) (k : Mat) (m : Memory) : (s.setMat k m).porHeld = s.porHeld := by
  cases k <;> rfl

@[simp] theorem State.port_setMat (s : State) (k : Mat) (m : Memory) : (s.setMat k m).port = s.port := by
  cases k <;> rfl

@[simp] theorem State.latencies_setMat (s : State) (k : Mat) (m : Memory) :
    (s.setMat k m).latencies = s.latencies := by
  cases k <;> rfl

@[simp] theorem State.bus_setMat (s : State) (k : Mat) (m : Memory) : (s.setMat k m).bus = s.bus := by
  cases k <;> rfl

@[simp] theorem State.draws_setMat (s : State) (k : Mat) (m : Memory) : (s.setMat k m).draws = s.draws := by
  cases k <;> rfl

/-! ### setDim -/

@[simp] theorem State.ieDone_setDim (s : State) (k : Mat) (a b : Nat) : (s.setDim k a b).ieDone = s.ieDone := by
  cases k <;> rfl

@[simp] theorem State.ieErr_setDim (s : State) (k : Mat) (a b : Nat) : (s.setDim k a b).ieErr = s.ieErr := by
  cases k <;> rfl

@[simp] theorem State.done_setDim (s : State) (k : Mat) (a b : Nat) : (s.setDim k a b).done = s.done := by
  cases k <;> rfl

@[simp] theorem State.err_setDim (s : State) (k : Mat) (a b : Nat) : (s.setDim k a b).err = s.err := by
  cases k <;> rfl

@[simp] theorem State.cmdovr_setDim (s : State) (k : Mat) (a b : Nat) : (s.setDim k a b).cmdovr = s.cmdovr := by
  cases k <;> rfl

@[simp] theorem State.wovr_setDim (s : State) (k : Mat) (a b : Nat) : (s.setDim k a b).wovr = s.wovr := by
  cases k <;> rfl

@[simp] theorem State.code_setDim (s : State) (k : Mat) (a b : Nat) : (s.setDim k a b).code = s.code := by
  cases k <;> rfl

@[simp] theorem State.lastcmd_setDim (s : State) (k : Mat) (a b : Nat) : (s.setDim k a b).lastcmd = s.lastcmd := by
  cases k <;> rfl

@[simp] theorem State.check_setDim (s : State) (k : Mat) (a b : Nat) : (s.setDim k a b).check = s.check := by
  cases k <;> rfl

@[simp] theorem State.pfld_setDim (s : State) (k : Mat) (a b : Nat) : (s.setDim k a b).pfld = s.pfld := by
  cases k <;> rfl

@[simp] theorem State.rowSize_setDim (s : State) (k : Mat) (a b : Nat) : (s.setDim k a b).rowSize = s.rowSize := by
  cases k <;> rfl

@[simp] theorem State.nruns_setDim (s : State) (k : Mat) (a b : Nat) : (s.setDim k a b).nruns = s.nruns := by
  cases k <;> rfl

@[simp] theorem State.arg_setDim (s : State) (k : Mat) (a b : Nat) : (s.setDim k a b).arg = s.arg := by
  cases k <;> rfl

@[simp] theorem State.res_setDim (s : State) (k : Mat) (a b : Nat) : (s.setDim k a b).res = s.res := by
  cases k <;> rfl

@[simp] theorem State.f_setDim (s : State) (k : Mat) (a b : Nat) : (s.setDim k a b).f = s.f := by
  cases k <;> rfl

@[simp] theorem State.ta_setDim (s : State) (k : Mat) (a b : Nat) : (s.setDim k a b).ta = s.ta := by
  cases k <;> rfl

@[simp] theorem State.tb_setDim (s : State) (k : Mat) (a b : Nat) : (s.setDim k a b).tb = s.tb := by
  cases k <;> rfl

@[simp] theorem State.cw_setDim (s : State) (k : Mat) (a b : Nat) : (s.setDim k a b).cw = s.cw := by
  cases k <;> rfl

@[simp] theorem State.syn_setDim (s : State) (k : Mat) (a b : Nat) : (s.setDim k a b).syn = s.syn := by
  cases k <;> rfl

@[simp] theorem State.eloc_setDim (s : State) (k : Mat) (a b : Nat) : (s.setDim k a b).eloc = s.eloc := by
  cases k <;> rfl

@[simp] theorem State.emag_setDim (s : State) (k : Mat) (a b : Nat) : (s.setDim k a b).emag = s.emag := by
  cases k <;> rfl

@[simp] theorem State.p0_setDim (s : State) (k : Mat) (a b : Nat) : (s.setDim k a b).p0 = s.p0 := by
  cases k <;> rfl

@[simp] theorem State.p1_setDim (s : State) (k : Mat) (a b : Nat) : (s.setDim k a b).p1 = s.p1 := by
  cases k <;> rfl

@[simp] theorem State.p2_setDim (s : State) (k : Mat) (a b : Nat) : (s.setDim k a b).p2 = s.p2 := by
  cases k <;> rfl

@[simp] theorem State.p3_setDim (s : State) (k : Mat) (a b : Nat) : (s.setDim k a b).p3 = s.p3 := by
  cases k <;> rfl

@[simp] theorem State.row_setDim (s : State) (k : Mat) (a b : Nat) : (s.setDim k a b).row = s.row := by
  cases k <;> rfl

@[simp] theorem State.odres_setDim (s : State) (k : Mat) (a b : Nat) : (s.setDim k a b).odres = s.odres := by
  cases k <;> rfl

@[simp] theorem State.run_setDim (s : State) (k : Mat) (a b : Nat) : (s.setDim k a b).run = s.run := by
  cases k <;> rfl

@[simp] theorem State.mat0_setDim (s : State) (k : Mat) (a b : Nat) : (s.setDim k a b).mat0 = s.mat0 := by
  cases k <;> rfl

@[simp] theorem State.mat1_setDim (s : State) (k : Mat) (a b : Nat) : (s.setDim k a b).mat1 = s.mat1 := by
  cases k <;> rfl

@[simp] theorem State.gen0_setDim (s : State) (k : Mat) (a b : Nat) : (s.setDim k a b).gen0 = s.gen0 := by
  cases k <;> rfl

@[simp] theorem State.gen1_setDim (s : State) (k : Mat) (a b : Nat) : (s.setDim k a b).gen1 = s.gen1 := by
  cases k <;> rfl

@[simp] theorem State.executor_setDim (s : State) (k : Mat) (a b : Nat) : (s.setDim k a b).executor = s.executor := by
  cases k <;> rfl

@[simp] theorem State.porHeld_setDim (s : State) (k : Mat) (a b : Nat) : (s.setDim k a b).porHeld = s.porHeld := by
  cases k <;> rfl

@[simp] theorem State.port_setDim (s : State) (k : Mat) (a b : Nat) : (s.setDim k a b).port = s.port := by
  cases k <;> rfl

@[simp] theorem State.latencies_setDim (s : State) (k : Mat) (a b : Nat) :
    (s.setDim k a b).latencies = s.latencies := by
  cases k <;> rfl

@[simp] theorem State.bus_setDim (s : State) (k : Mat) (a b : Nat) : (s.setDim k a b).bus = s.bus := by
  cases k <;> rfl

@[simp] theorem State.draws_setDim (s : State) (k : Mat) (a b : Nat) : (s.setDim k a b).draws = s.draws := by
  cases k <;> rfl

/-! ### setGen -/

@[simp] theorem State.ieDone_setGen (s : State) (g : Field) (l : List (List Byte)) :
    (s.setGen g l).ieDone = s.ieDone := by
  cases g <;> rfl

@[simp] theorem State.ieErr_setGen (s : State) (g : Field) (l : List (List Byte)) :
    (s.setGen g l).ieErr = s.ieErr := by
  cases g <;> rfl

@[simp] theorem State.done_setGen (s : State) (g : Field) (l : List (List Byte)) : (s.setGen g l).done = s.done := by
  cases g <;> rfl

@[simp] theorem State.err_setGen (s : State) (g : Field) (l : List (List Byte)) : (s.setGen g l).err = s.err := by
  cases g <;> rfl

@[simp] theorem State.cmdovr_setGen (s : State) (g : Field) (l : List (List Byte)) :
    (s.setGen g l).cmdovr = s.cmdovr := by
  cases g <;> rfl

@[simp] theorem State.wovr_setGen (s : State) (g : Field) (l : List (List Byte)) : (s.setGen g l).wovr = s.wovr := by
  cases g <;> rfl

@[simp] theorem State.code_setGen (s : State) (g : Field) (l : List (List Byte)) : (s.setGen g l).code = s.code := by
  cases g <;> rfl

@[simp] theorem State.lastcmd_setGen (s : State) (g : Field) (l : List (List Byte)) :
    (s.setGen g l).lastcmd = s.lastcmd := by
  cases g <;> rfl

@[simp] theorem State.check_setGen (s : State) (g : Field) (l : List (List Byte)) :
    (s.setGen g l).check = s.check := by
  cases g <;> rfl

@[simp] theorem State.pfld_setGen (s : State) (g : Field) (l : List (List Byte)) : (s.setGen g l).pfld = s.pfld := by
  cases g <;> rfl

@[simp] theorem State.rowSize_setGen (s : State) (g : Field) (l : List (List Byte)) :
    (s.setGen g l).rowSize = s.rowSize := by
  cases g <;> rfl

@[simp] theorem State.nruns_setGen (s : State) (g : Field) (l : List (List Byte)) :
    (s.setGen g l).nruns = s.nruns := by
  cases g <;> rfl

@[simp] theorem State.dim0_setGen (s : State) (g : Field) (l : List (List Byte)) : (s.setGen g l).dim0 = s.dim0 := by
  cases g <;> rfl

@[simp] theorem State.dim1_setGen (s : State) (g : Field) (l : List (List Byte)) : (s.setGen g l).dim1 = s.dim1 := by
  cases g <;> rfl

@[simp] theorem State.arg_setGen (s : State) (g : Field) (l : List (List Byte)) : (s.setGen g l).arg = s.arg := by
  cases g <;> rfl

@[simp] theorem State.res_setGen (s : State) (g : Field) (l : List (List Byte)) : (s.setGen g l).res = s.res := by
  cases g <;> rfl

@[simp] theorem State.f_setGen (s : State) (g : Field) (l : List (List Byte)) : (s.setGen g l).f = s.f := by
  cases g <;> rfl

@[simp] theorem State.ta_setGen (s : State) (g : Field) (l : List (List Byte)) : (s.setGen g l).ta = s.ta := by
  cases g <;> rfl

@[simp] theorem State.tb_setGen (s : State) (g : Field) (l : List (List Byte)) : (s.setGen g l).tb = s.tb := by
  cases g <;> rfl

@[simp] theorem State.cw_setGen (s : State) (g : Field) (l : List (List Byte)) : (s.setGen g l).cw = s.cw := by
  cases g <;> rfl

@[simp] theorem State.syn_setGen (s : State) (g : Field) (l : List (List Byte)) : (s.setGen g l).syn = s.syn := by
  cases g <;> rfl

@[simp] theorem State.eloc_setGen (s : State) (g : Field) (l : List (List Byte)) : (s.setGen g l).eloc = s.eloc := by
  cases g <;> rfl

@[simp] theorem State.emag_setGen (s : State) (g : Field) (l : List (List Byte)) : (s.setGen g l).emag = s.emag := by
  cases g <;> rfl

@[simp] theorem State.p0_setGen (s : State) (g : Field) (l : List (List Byte)) : (s.setGen g l).p0 = s.p0 := by
  cases g <;> rfl

@[simp] theorem State.p1_setGen (s : State) (g : Field) (l : List (List Byte)) : (s.setGen g l).p1 = s.p1 := by
  cases g <;> rfl

@[simp] theorem State.p2_setGen (s : State) (g : Field) (l : List (List Byte)) : (s.setGen g l).p2 = s.p2 := by
  cases g <;> rfl

@[simp] theorem State.p3_setGen (s : State) (g : Field) (l : List (List Byte)) : (s.setGen g l).p3 = s.p3 := by
  cases g <;> rfl

@[simp] theorem State.row_setGen (s : State) (g : Field) (l : List (List Byte)) : (s.setGen g l).row = s.row := by
  cases g <;> rfl

@[simp] theorem State.odres_setGen (s : State) (g : Field) (l : List (List Byte)) :
    (s.setGen g l).odres = s.odres := by
  cases g <;> rfl

@[simp] theorem State.run_setGen (s : State) (g : Field) (l : List (List Byte)) : (s.setGen g l).run = s.run := by
  cases g <;> rfl

@[simp] theorem State.mat0_setGen (s : State) (g : Field) (l : List (List Byte)) : (s.setGen g l).mat0 = s.mat0 := by
  cases g <;> rfl

@[simp] theorem State.mat1_setGen (s : State) (g : Field) (l : List (List Byte)) : (s.setGen g l).mat1 = s.mat1 := by
  cases g <;> rfl

@[simp] theorem State.executor_setGen (s : State) (g : Field) (l : List (List Byte)) :
    (s.setGen g l).executor = s.executor := by
  cases g <;> rfl

@[simp] theorem State.porHeld_setGen (s : State) (g : Field) (l : List (List Byte)) :
    (s.setGen g l).porHeld = s.porHeld := by
  cases g <;> rfl

@[simp] theorem State.port_setGen (s : State) (g : Field) (l : List (List Byte)) : (s.setGen g l).port = s.port := by
  cases g <;> rfl

@[simp] theorem State.latencies_setGen (s : State) (g : Field) (l : List (List Byte)) :
    (s.setGen g l).latencies = s.latencies := by
  cases g <;> rfl

@[simp] theorem State.bus_setGen (s : State) (g : Field) (l : List (List Byte)) : (s.setGen g l).bus = s.bus := by
  cases g <;> rfl

@[simp] theorem State.draws_setGen (s : State) (g : Field) (l : List (List Byte)) :
    (s.setGen g l).draws = s.draws := by
  cases g <;> rfl

/-! ### accept -/

@[simp] theorem State.ieDone_accept (s : State) (v : Word) : (s.accept v).ieDone = s.ieDone := rfl

@[simp] theorem State.ieErr_accept (s : State) (v : Word) : (s.accept v).ieErr = s.ieErr := rfl

@[simp] theorem State.done_accept (s : State) (v : Word) : (s.accept v).done = s.done := rfl

@[simp] theorem State.err_accept (s : State) (v : Word) : (s.accept v).err = s.err := rfl

@[simp] theorem State.cmdovr_accept (s : State) (v : Word) : (s.accept v).cmdovr = s.cmdovr := rfl

@[simp] theorem State.wovr_accept (s : State) (v : Word) : (s.accept v).wovr = s.wovr := rfl

@[simp] theorem State.code_accept (s : State) (v : Word) : (s.accept v).code = s.code := rfl

@[simp] theorem State.lastcmd_accept (s : State) (v : Word) :
    (s.accept v).lastcmd = v := rfl

@[simp] theorem State.check_accept (s : State) (v : Word) : (s.accept v).check = s.check := rfl

@[simp] theorem State.pfld_accept (s : State) (v : Word) : (s.accept v).pfld = s.pfld := rfl

@[simp] theorem State.rowSize_accept (s : State) (v : Word) : (s.accept v).rowSize = s.rowSize := rfl

@[simp] theorem State.nruns_accept (s : State) (v : Word) : (s.accept v).nruns = s.nruns := rfl

@[simp] theorem State.dim0_accept (s : State) (v : Word) : (s.accept v).dim0 = s.dim0 := rfl

@[simp] theorem State.dim1_accept (s : State) (v : Word) : (s.accept v).dim1 = s.dim1 := rfl

@[simp] theorem State.arg_accept (s : State) (v : Word) : (s.accept v).arg = s.arg := rfl

@[simp] theorem State.res_accept (s : State) (v : Word) : (s.accept v).res = s.res := rfl

@[simp] theorem State.f_accept (s : State) (v : Word) : (s.accept v).f = s.f := rfl

@[simp] theorem State.ta_accept (s : State) (v : Word) : (s.accept v).ta = s.ta := rfl

@[simp] theorem State.tb_accept (s : State) (v : Word) : (s.accept v).tb = s.tb := rfl

@[simp] theorem State.cw_accept (s : State) (v : Word) : (s.accept v).cw = s.cw := rfl

@[simp] theorem State.syn_accept (s : State) (v : Word) : (s.accept v).syn = s.syn := rfl

@[simp] theorem State.eloc_accept (s : State) (v : Word) : (s.accept v).eloc = s.eloc := rfl

@[simp] theorem State.emag_accept (s : State) (v : Word) : (s.accept v).emag = s.emag := rfl

@[simp] theorem State.p0_accept (s : State) (v : Word) : (s.accept v).p0 = s.p0 := rfl

@[simp] theorem State.p1_accept (s : State) (v : Word) : (s.accept v).p1 = s.p1 := rfl

@[simp] theorem State.p2_accept (s : State) (v : Word) : (s.accept v).p2 = s.p2 := rfl

@[simp] theorem State.p3_accept (s : State) (v : Word) : (s.accept v).p3 = s.p3 := rfl

@[simp] theorem State.row_accept (s : State) (v : Word) : (s.accept v).row = s.row := rfl

@[simp] theorem State.odres_accept (s : State) (v : Word) : (s.accept v).odres = s.odres := rfl

@[simp] theorem State.run_accept (s : State) (v : Word) : (s.accept v).run = s.run := rfl

@[simp] theorem State.mat0_accept (s : State) (v : Word) : (s.accept v).mat0 = s.mat0 := rfl

@[simp] theorem State.mat1_accept (s : State) (v : Word) : (s.accept v).mat1 = s.mat1 := rfl

@[simp] theorem State.gen0_accept (s : State) (v : Word) : (s.accept v).gen0 = s.gen0 := rfl

@[simp] theorem State.gen1_accept (s : State) (v : Word) : (s.accept v).gen1 = s.gen1 := rfl

@[simp] theorem State.executor_accept (s : State) (v : Word) :
    (s.accept v).executor = .running v (s.latencies.headD 0) := rfl

@[simp] theorem State.porHeld_accept (s : State) (v : Word) : (s.accept v).porHeld = s.porHeld := rfl

@[simp] theorem State.port_accept (s : State) (v : Word) : (s.accept v).port = s.port := rfl

@[simp] theorem State.latencies_accept (s : State) (v : Word) :
    (s.accept v).latencies = s.latencies.tail := rfl

@[simp] theorem State.bus_accept (s : State) (v : Word) : (s.accept v).bus = s.bus := rfl

@[simp] theorem State.draws_accept (s : State) (v : Word) : (s.accept v).draws = s.draws := rfl

/-! ### clearStatus -/

@[simp] theorem State.ieDone_clearStatus (s : State) (v : Word) : (s.clearStatus v).ieDone = s.ieDone := rfl

@[simp] theorem State.ieErr_clearStatus (s : State) (v : Word) : (s.clearStatus v).ieErr = s.ieErr := rfl

@[simp] theorem State.done_clearStatus (s : State) (v : Word) :
    (s.clearStatus v).done = (s.done && !v.getLsbD 1) := rfl

@[simp] theorem State.err_clearStatus (s : State) (v : Word) :
    (s.clearStatus v).err = (s.err && !v.getLsbD 2) := rfl

@[simp] theorem State.cmdovr_clearStatus (s : State) (v : Word) :
    (s.clearStatus v).cmdovr = (s.cmdovr && !v.getLsbD 3) := rfl

@[simp] theorem State.wovr_clearStatus (s : State) (v : Word) :
    (s.clearStatus v).wovr = (s.wovr && !v.getLsbD 4) := rfl

@[simp] theorem State.code_clearStatus (s : State) (v : Word) : (s.clearStatus v).code = s.code := rfl

@[simp] theorem State.lastcmd_clearStatus (s : State) (v : Word) : (s.clearStatus v).lastcmd = s.lastcmd := rfl

@[simp] theorem State.check_clearStatus (s : State) (v : Word) : (s.clearStatus v).check = s.check := rfl

@[simp] theorem State.pfld_clearStatus (s : State) (v : Word) : (s.clearStatus v).pfld = s.pfld := rfl

@[simp] theorem State.rowSize_clearStatus (s : State) (v : Word) : (s.clearStatus v).rowSize = s.rowSize := rfl

@[simp] theorem State.nruns_clearStatus (s : State) (v : Word) : (s.clearStatus v).nruns = s.nruns := rfl

@[simp] theorem State.dim0_clearStatus (s : State) (v : Word) : (s.clearStatus v).dim0 = s.dim0 := rfl

@[simp] theorem State.dim1_clearStatus (s : State) (v : Word) : (s.clearStatus v).dim1 = s.dim1 := rfl

@[simp] theorem State.arg_clearStatus (s : State) (v : Word) : (s.clearStatus v).arg = s.arg := rfl

@[simp] theorem State.res_clearStatus (s : State) (v : Word) : (s.clearStatus v).res = s.res := rfl

@[simp] theorem State.f_clearStatus (s : State) (v : Word) : (s.clearStatus v).f = s.f := rfl

@[simp] theorem State.ta_clearStatus (s : State) (v : Word) : (s.clearStatus v).ta = s.ta := rfl

@[simp] theorem State.tb_clearStatus (s : State) (v : Word) : (s.clearStatus v).tb = s.tb := rfl

@[simp] theorem State.cw_clearStatus (s : State) (v : Word) : (s.clearStatus v).cw = s.cw := rfl

@[simp] theorem State.syn_clearStatus (s : State) (v : Word) : (s.clearStatus v).syn = s.syn := rfl

@[simp] theorem State.eloc_clearStatus (s : State) (v : Word) : (s.clearStatus v).eloc = s.eloc := rfl

@[simp] theorem State.emag_clearStatus (s : State) (v : Word) : (s.clearStatus v).emag = s.emag := rfl

@[simp] theorem State.p0_clearStatus (s : State) (v : Word) : (s.clearStatus v).p0 = s.p0 := rfl

@[simp] theorem State.p1_clearStatus (s : State) (v : Word) : (s.clearStatus v).p1 = s.p1 := rfl

@[simp] theorem State.p2_clearStatus (s : State) (v : Word) : (s.clearStatus v).p2 = s.p2 := rfl

@[simp] theorem State.p3_clearStatus (s : State) (v : Word) : (s.clearStatus v).p3 = s.p3 := rfl

@[simp] theorem State.row_clearStatus (s : State) (v : Word) : (s.clearStatus v).row = s.row := rfl

@[simp] theorem State.odres_clearStatus (s : State) (v : Word) : (s.clearStatus v).odres = s.odres := rfl

@[simp] theorem State.run_clearStatus (s : State) (v : Word) : (s.clearStatus v).run = s.run := rfl

@[simp] theorem State.mat0_clearStatus (s : State) (v : Word) : (s.clearStatus v).mat0 = s.mat0 := rfl

@[simp] theorem State.mat1_clearStatus (s : State) (v : Word) : (s.clearStatus v).mat1 = s.mat1 := rfl

@[simp] theorem State.gen0_clearStatus (s : State) (v : Word) : (s.clearStatus v).gen0 = s.gen0 := rfl

@[simp] theorem State.gen1_clearStatus (s : State) (v : Word) : (s.clearStatus v).gen1 = s.gen1 := rfl

@[simp] theorem State.executor_clearStatus (s : State) (v : Word) : (s.clearStatus v).executor = s.executor := rfl

@[simp] theorem State.porHeld_clearStatus (s : State) (v : Word) : (s.clearStatus v).porHeld = s.porHeld := rfl

@[simp] theorem State.port_clearStatus (s : State) (v : Word) : (s.clearStatus v).port = s.port := rfl

@[simp] theorem State.latencies_clearStatus (s : State) (v : Word) : (s.clearStatus v).latencies = s.latencies := rfl

@[simp] theorem State.bus_clearStatus (s : State) (v : Word) : (s.clearStatus v).bus = s.bus := rfl

@[simp] theorem State.draws_clearStatus (s : State) (v : Word) : (s.clearStatus v).draws = s.draws := rfl

/-! ### setMemory -/

@[simp] theorem State.ieDone_setMemory (s : State) (id : MemId) (m : Memory) :
    (s.setMemory id m).ieDone = s.ieDone := by
  cases id <;> first | rfl | simp [State.setMemory]

@[simp] theorem State.ieErr_setMemory (s : State) (id : MemId) (m : Memory) : (s.setMemory id m).ieErr = s.ieErr := by
  cases id <;> first | rfl | simp [State.setMemory]

@[simp] theorem State.done_setMemory (s : State) (id : MemId) (m : Memory) : (s.setMemory id m).done = s.done := by
  cases id <;> first | rfl | simp [State.setMemory]

@[simp] theorem State.err_setMemory (s : State) (id : MemId) (m : Memory) : (s.setMemory id m).err = s.err := by
  cases id <;> first | rfl | simp [State.setMemory]

@[simp] theorem State.cmdovr_setMemory (s : State) (id : MemId) (m : Memory) :
    (s.setMemory id m).cmdovr = s.cmdovr := by
  cases id <;> first | rfl | simp [State.setMemory]

@[simp] theorem State.wovr_setMemory (s : State) (id : MemId) (m : Memory) : (s.setMemory id m).wovr = s.wovr := by
  cases id <;> first | rfl | simp [State.setMemory]

@[simp] theorem State.code_setMemory (s : State) (id : MemId) (m : Memory) : (s.setMemory id m).code = s.code := by
  cases id <;> first | rfl | simp [State.setMemory]

@[simp] theorem State.lastcmd_setMemory (s : State) (id : MemId) (m : Memory) :
    (s.setMemory id m).lastcmd = s.lastcmd := by
  cases id <;> first | rfl | simp [State.setMemory]

@[simp] theorem State.check_setMemory (s : State) (id : MemId) (m : Memory) : (s.setMemory id m).check = s.check := by
  cases id <;> first | rfl | simp [State.setMemory]

@[simp] theorem State.pfld_setMemory (s : State) (id : MemId) (m : Memory) : (s.setMemory id m).pfld = s.pfld := by
  cases id <;> first | rfl | simp [State.setMemory]

@[simp] theorem State.rowSize_setMemory (s : State) (id : MemId) (m : Memory) :
    (s.setMemory id m).rowSize = s.rowSize := by
  cases id <;> first | rfl | simp [State.setMemory]

@[simp] theorem State.nruns_setMemory (s : State) (id : MemId) (m : Memory) : (s.setMemory id m).nruns = s.nruns := by
  cases id <;> first | rfl | simp [State.setMemory]

@[simp] theorem State.dim0_setMemory (s : State) (id : MemId) (m : Memory) : (s.setMemory id m).dim0 = s.dim0 := by
  cases id <;> first | rfl | simp [State.setMemory]

@[simp] theorem State.dim1_setMemory (s : State) (id : MemId) (m : Memory) : (s.setMemory id m).dim1 = s.dim1 := by
  cases id <;> first | rfl | simp [State.setMemory]

@[simp] theorem State.arg_setMemory (s : State) (id : MemId) (m : Memory) : (s.setMemory id m).arg = s.arg := by
  cases id <;> first | rfl | simp [State.setMemory]

@[simp] theorem State.res_setMemory (s : State) (id : MemId) (m : Memory) : (s.setMemory id m).res = s.res := by
  cases id <;> first | rfl | simp [State.setMemory]

@[simp] theorem State.f_setMemory (s : State) (id : MemId) (m : Memory) : (s.setMemory id m).f = s.f := by
  cases id <;> first | rfl | simp [State.setMemory]

@[simp] theorem State.ta_setMemory (s : State) (id : MemId) (m : Memory) : (s.setMemory id m).ta = s.ta := by
  cases id <;> first | rfl | simp [State.setMemory]

@[simp] theorem State.tb_setMemory (s : State) (id : MemId) (m : Memory) : (s.setMemory id m).tb = s.tb := by
  cases id <;> first | rfl | simp [State.setMemory]

@[simp] theorem State.gen0_setMemory (s : State) (id : MemId) (m : Memory) : (s.setMemory id m).gen0 = s.gen0 := by
  cases id <;> first | rfl | simp [State.setMemory]

@[simp] theorem State.gen1_setMemory (s : State) (id : MemId) (m : Memory) : (s.setMemory id m).gen1 = s.gen1 := by
  cases id <;> first | rfl | simp [State.setMemory]

@[simp] theorem State.executor_setMemory (s : State) (id : MemId) (m : Memory) :
    (s.setMemory id m).executor = s.executor := by
  cases id <;> first | rfl | simp [State.setMemory]

@[simp] theorem State.porHeld_setMemory (s : State) (id : MemId) (m : Memory) :
    (s.setMemory id m).porHeld = s.porHeld := by
  cases id <;> first | rfl | simp [State.setMemory]

@[simp] theorem State.port_setMemory (s : State) (id : MemId) (m : Memory) : (s.setMemory id m).port = s.port := by
  cases id <;> first | rfl | simp [State.setMemory]

@[simp] theorem State.latencies_setMemory (s : State) (id : MemId) (m : Memory) :
    (s.setMemory id m).latencies = s.latencies := by
  cases id <;> first | rfl | simp [State.setMemory]

@[simp] theorem State.bus_setMemory (s : State) (id : MemId) (m : Memory) : (s.setMemory id m).bus = s.bus := by
  cases id <;> first | rfl | simp [State.setMemory]

@[simp] theorem State.draws_setMemory (s : State) (id : MemId) (m : Memory) : (s.setMemory id m).draws = s.draws := by
  cases id <;> first | rfl | simp [State.setMemory]

/-! ### setDouble -/

@[simp] theorem State.ieDone_setDouble (s : State) (file : DFile) (i : Nat) (v : Dword) :
    (s.setDouble file i v).ieDone = s.ieDone := by
  cases file <;> rfl

@[simp] theorem State.ieErr_setDouble (s : State) (file : DFile) (i : Nat) (v : Dword) :
    (s.setDouble file i v).ieErr = s.ieErr := by
  cases file <;> rfl

@[simp] theorem State.done_setDouble (s : State) (file : DFile) (i : Nat) (v : Dword) :
    (s.setDouble file i v).done = s.done := by
  cases file <;> rfl

@[simp] theorem State.err_setDouble (s : State) (file : DFile) (i : Nat) (v : Dword) :
    (s.setDouble file i v).err = s.err := by
  cases file <;> rfl

@[simp] theorem State.cmdovr_setDouble (s : State) (file : DFile) (i : Nat) (v : Dword) :
    (s.setDouble file i v).cmdovr = s.cmdovr := by
  cases file <;> rfl

@[simp] theorem State.wovr_setDouble (s : State) (file : DFile) (i : Nat) (v : Dword) :
    (s.setDouble file i v).wovr = s.wovr := by
  cases file <;> rfl

@[simp] theorem State.code_setDouble (s : State) (file : DFile) (i : Nat) (v : Dword) :
    (s.setDouble file i v).code = s.code := by
  cases file <;> rfl

@[simp] theorem State.lastcmd_setDouble (s : State) (file : DFile) (i : Nat) (v : Dword) :
    (s.setDouble file i v).lastcmd = s.lastcmd := by
  cases file <;> rfl

@[simp] theorem State.check_setDouble (s : State) (file : DFile) (i : Nat) (v : Dword) :
    (s.setDouble file i v).check = s.check := by
  cases file <;> rfl

@[simp] theorem State.pfld_setDouble (s : State) (file : DFile) (i : Nat) (v : Dword) :
    (s.setDouble file i v).pfld = s.pfld := by
  cases file <;> rfl

@[simp] theorem State.rowSize_setDouble (s : State) (file : DFile) (i : Nat) (v : Dword) :
    (s.setDouble file i v).rowSize = s.rowSize := by
  cases file <;> rfl

@[simp] theorem State.nruns_setDouble (s : State) (file : DFile) (i : Nat) (v : Dword) :
    (s.setDouble file i v).nruns = s.nruns := by
  cases file <;> rfl

@[simp] theorem State.dim0_setDouble (s : State) (file : DFile) (i : Nat) (v : Dword) :
    (s.setDouble file i v).dim0 = s.dim0 := by
  cases file <;> rfl

@[simp] theorem State.dim1_setDouble (s : State) (file : DFile) (i : Nat) (v : Dword) :
    (s.setDouble file i v).dim1 = s.dim1 := by
  cases file <;> rfl

@[simp] theorem State.arg_setDouble (s : State) (file : DFile) (i : Nat) (v : Dword) :
    (s.setDouble file i v).arg = s.arg := by
  cases file <;> rfl

@[simp] theorem State.res_setDouble (s : State) (file : DFile) (i : Nat) (v : Dword) :
    (s.setDouble file i v).res = s.res := by
  cases file <;> rfl

@[simp] theorem State.cw_setDouble (s : State) (file : DFile) (i : Nat) (v : Dword) :
    (s.setDouble file i v).cw = s.cw := by
  cases file <;> rfl

@[simp] theorem State.syn_setDouble (s : State) (file : DFile) (i : Nat) (v : Dword) :
    (s.setDouble file i v).syn = s.syn := by
  cases file <;> rfl

@[simp] theorem State.eloc_setDouble (s : State) (file : DFile) (i : Nat) (v : Dword) :
    (s.setDouble file i v).eloc = s.eloc := by
  cases file <;> rfl

@[simp] theorem State.emag_setDouble (s : State) (file : DFile) (i : Nat) (v : Dword) :
    (s.setDouble file i v).emag = s.emag := by
  cases file <;> rfl

@[simp] theorem State.p0_setDouble (s : State) (file : DFile) (i : Nat) (v : Dword) :
    (s.setDouble file i v).p0 = s.p0 := by
  cases file <;> rfl

@[simp] theorem State.p1_setDouble (s : State) (file : DFile) (i : Nat) (v : Dword) :
    (s.setDouble file i v).p1 = s.p1 := by
  cases file <;> rfl

@[simp] theorem State.p2_setDouble (s : State) (file : DFile) (i : Nat) (v : Dword) :
    (s.setDouble file i v).p2 = s.p2 := by
  cases file <;> rfl

@[simp] theorem State.p3_setDouble (s : State) (file : DFile) (i : Nat) (v : Dword) :
    (s.setDouble file i v).p3 = s.p3 := by
  cases file <;> rfl

@[simp] theorem State.row_setDouble (s : State) (file : DFile) (i : Nat) (v : Dword) :
    (s.setDouble file i v).row = s.row := by
  cases file <;> rfl

@[simp] theorem State.odres_setDouble (s : State) (file : DFile) (i : Nat) (v : Dword) :
    (s.setDouble file i v).odres = s.odres := by
  cases file <;> rfl

@[simp] theorem State.run_setDouble (s : State) (file : DFile) (i : Nat) (v : Dword) :
    (s.setDouble file i v).run = s.run := by
  cases file <;> rfl

@[simp] theorem State.mat0_setDouble (s : State) (file : DFile) (i : Nat) (v : Dword) :
    (s.setDouble file i v).mat0 = s.mat0 := by
  cases file <;> rfl

@[simp] theorem State.mat1_setDouble (s : State) (file : DFile) (i : Nat) (v : Dword) :
    (s.setDouble file i v).mat1 = s.mat1 := by
  cases file <;> rfl

@[simp] theorem State.gen0_setDouble (s : State) (file : DFile) (i : Nat) (v : Dword) :
    (s.setDouble file i v).gen0 = s.gen0 := by
  cases file <;> rfl

@[simp] theorem State.gen1_setDouble (s : State) (file : DFile) (i : Nat) (v : Dword) :
    (s.setDouble file i v).gen1 = s.gen1 := by
  cases file <;> rfl

@[simp] theorem State.executor_setDouble (s : State) (file : DFile) (i : Nat) (v : Dword) :
    (s.setDouble file i v).executor = s.executor := by
  cases file <;> rfl

@[simp] theorem State.porHeld_setDouble (s : State) (file : DFile) (i : Nat) (v : Dword) :
    (s.setDouble file i v).porHeld = s.porHeld := by
  cases file <;> rfl

@[simp] theorem State.port_setDouble (s : State) (file : DFile) (i : Nat) (v : Dword) :
    (s.setDouble file i v).port = s.port := by
  cases file <;> rfl

@[simp] theorem State.latencies_setDouble (s : State) (file : DFile) (i : Nat) (v : Dword) :
    (s.setDouble file i v).latencies = s.latencies := by
  cases file <;> rfl

@[simp] theorem State.bus_setDouble (s : State) (file : DFile) (i : Nat) (v : Dword) :
    (s.setDouble file i v).bus = s.bus := by
  cases file <;> rfl

@[simp] theorem State.draws_setDouble (s : State) (file : DFile) (i : Nat) (v : Dword) :
    (s.setDouble file i v).draws = s.draws := by
  cases file <;> rfl

/-! ### putPoly -/

@[simp] theorem State.ieDone_putPoly (s : State) (r : PReg) (g : Field) (a : List Byte) :
    (s.putPoly r g a).ieDone = s.ieDone := by
  simp [State.putPoly]

@[simp] theorem State.ieErr_putPoly (s : State) (r : PReg) (g : Field) (a : List Byte) :
    (s.putPoly r g a).ieErr = s.ieErr := by
  simp [State.putPoly]

@[simp] theorem State.done_putPoly (s : State) (r : PReg) (g : Field) (a : List Byte) :
    (s.putPoly r g a).done = s.done := by
  simp [State.putPoly]

@[simp] theorem State.err_putPoly (s : State) (r : PReg) (g : Field) (a : List Byte) :
    (s.putPoly r g a).err = s.err := by
  simp [State.putPoly]

@[simp] theorem State.cmdovr_putPoly (s : State) (r : PReg) (g : Field) (a : List Byte) :
    (s.putPoly r g a).cmdovr = s.cmdovr := by
  simp [State.putPoly]

@[simp] theorem State.wovr_putPoly (s : State) (r : PReg) (g : Field) (a : List Byte) :
    (s.putPoly r g a).wovr = s.wovr := by
  simp [State.putPoly]

@[simp] theorem State.code_putPoly (s : State) (r : PReg) (g : Field) (a : List Byte) :
    (s.putPoly r g a).code = s.code := by
  simp [State.putPoly]

@[simp] theorem State.lastcmd_putPoly (s : State) (r : PReg) (g : Field) (a : List Byte) :
    (s.putPoly r g a).lastcmd = s.lastcmd := by
  simp [State.putPoly]

@[simp] theorem State.check_putPoly (s : State) (r : PReg) (g : Field) (a : List Byte) :
    (s.putPoly r g a).check = s.check := by
  simp [State.putPoly]

@[simp] theorem State.rowSize_putPoly (s : State) (r : PReg) (g : Field) (a : List Byte) :
    (s.putPoly r g a).rowSize = s.rowSize := by
  simp [State.putPoly]

@[simp] theorem State.nruns_putPoly (s : State) (r : PReg) (g : Field) (a : List Byte) :
    (s.putPoly r g a).nruns = s.nruns := by
  simp [State.putPoly]

@[simp] theorem State.dim0_putPoly (s : State) (r : PReg) (g : Field) (a : List Byte) :
    (s.putPoly r g a).dim0 = s.dim0 := by
  simp [State.putPoly]

@[simp] theorem State.dim1_putPoly (s : State) (r : PReg) (g : Field) (a : List Byte) :
    (s.putPoly r g a).dim1 = s.dim1 := by
  simp [State.putPoly]

@[simp] theorem State.arg_putPoly (s : State) (r : PReg) (g : Field) (a : List Byte) :
    (s.putPoly r g a).arg = s.arg := by
  simp [State.putPoly]

@[simp] theorem State.res_putPoly (s : State) (r : PReg) (g : Field) (a : List Byte) :
    (s.putPoly r g a).res = s.res := by
  simp [State.putPoly]

@[simp] theorem State.f_putPoly (s : State) (r : PReg) (g : Field) (a : List Byte) : (s.putPoly r g a).f = s.f := by
  simp [State.putPoly]

@[simp] theorem State.ta_putPoly (s : State) (r : PReg) (g : Field) (a : List Byte) :
    (s.putPoly r g a).ta = s.ta := by
  simp [State.putPoly]

@[simp] theorem State.tb_putPoly (s : State) (r : PReg) (g : Field) (a : List Byte) :
    (s.putPoly r g a).tb = s.tb := by
  simp [State.putPoly]

@[simp] theorem State.cw_putPoly (s : State) (r : PReg) (g : Field) (a : List Byte) :
    (s.putPoly r g a).cw = s.cw := by
  simp [State.putPoly]

@[simp] theorem State.syn_putPoly (s : State) (r : PReg) (g : Field) (a : List Byte) :
    (s.putPoly r g a).syn = s.syn := by
  simp [State.putPoly]

@[simp] theorem State.eloc_putPoly (s : State) (r : PReg) (g : Field) (a : List Byte) :
    (s.putPoly r g a).eloc = s.eloc := by
  simp [State.putPoly]

@[simp] theorem State.emag_putPoly (s : State) (r : PReg) (g : Field) (a : List Byte) :
    (s.putPoly r g a).emag = s.emag := by
  simp [State.putPoly]

@[simp] theorem State.row_putPoly (s : State) (r : PReg) (g : Field) (a : List Byte) :
    (s.putPoly r g a).row = s.row := by
  simp [State.putPoly]

@[simp] theorem State.odres_putPoly (s : State) (r : PReg) (g : Field) (a : List Byte) :
    (s.putPoly r g a).odres = s.odres := by
  simp [State.putPoly]

@[simp] theorem State.run_putPoly (s : State) (r : PReg) (g : Field) (a : List Byte) :
    (s.putPoly r g a).run = s.run := by
  simp [State.putPoly]

@[simp] theorem State.mat0_putPoly (s : State) (r : PReg) (g : Field) (a : List Byte) :
    (s.putPoly r g a).mat0 = s.mat0 := by
  simp [State.putPoly]

@[simp] theorem State.mat1_putPoly (s : State) (r : PReg) (g : Field) (a : List Byte) :
    (s.putPoly r g a).mat1 = s.mat1 := by
  simp [State.putPoly]

@[simp] theorem State.gen0_putPoly (s : State) (r : PReg) (g : Field) (a : List Byte) :
    (s.putPoly r g a).gen0 = s.gen0 := by
  simp [State.putPoly]

@[simp] theorem State.gen1_putPoly (s : State) (r : PReg) (g : Field) (a : List Byte) :
    (s.putPoly r g a).gen1 = s.gen1 := by
  simp [State.putPoly]

@[simp] theorem State.executor_putPoly (s : State) (r : PReg) (g : Field) (a : List Byte) :
    (s.putPoly r g a).executor = s.executor := by
  simp [State.putPoly]

@[simp] theorem State.porHeld_putPoly (s : State) (r : PReg) (g : Field) (a : List Byte) :
    (s.putPoly r g a).porHeld = s.porHeld := by
  simp [State.putPoly]

@[simp] theorem State.port_putPoly (s : State) (r : PReg) (g : Field) (a : List Byte) :
    (s.putPoly r g a).port = s.port := by
  simp [State.putPoly]

@[simp] theorem State.latencies_putPoly (s : State) (r : PReg) (g : Field) (a : List Byte) :
    (s.putPoly r g a).latencies = s.latencies := by
  simp [State.putPoly]

@[simp] theorem State.bus_putPoly (s : State) (r : PReg) (g : Field) (a : List Byte) :
    (s.putPoly r g a).bus = s.bus := by
  simp [State.putPoly]

@[simp] theorem State.draws_putPoly (s : State) (r : PReg) (g : Field) (a : List Byte) :
    (s.putPoly r g a).draws = s.draws := by
  simp [State.putPoly]

/-! ### Registers of one kind -/

@[simp] theorem State.poly_setPoly (s : State) (r q : PReg) (m : Memory) :
    (s.setPoly r m).poly q = if q = r then m else s.poly q := by
  cases r <;> cases q <;> rfl

@[simp] theorem State.mat_setMat (s : State) (k l : Mat) (m : Memory) :
    (s.setMat k m).mat l = if l = k then m else s.mat l := by
  cases k <;> cases l <;> rfl

@[simp] theorem State.dim_setDim (s : State) (k l : Mat) (a b : Nat) :
    (s.setDim k a b).dim l = if l = k then ⟨BitVec.ofNat 16 a, BitVec.ofNat 16 b⟩ else s.dim l := by
  cases k <;> cases l <;> rfl

@[simp] theorem State.gen_setGen (s : State) (g h : Field) (l : List (List Byte)) :
    (s.setGen g l).gen h = if h = g then l else s.gen h := by
  cases g <;> cases h <;> rfl

@[simp] theorem State.memory_setMemory (s : State) (id jd : MemId) (m : Memory) :
    (s.setMemory id m).memory jd = if jd = id then m else s.memory jd := by
  cases id with
  | p r =>
    cases jd with
    | mat k => cases k <;> simp [State.setMemory, State.memory, State.mat]
    | _ => simp [State.setMemory, State.memory]
  | mat k =>
    cases jd with
    | p r => cases r <;> simp [State.setMemory, State.memory, State.poly]
    | _ => simp [State.setMemory, State.memory]
  | _ => cases jd <;> rfl

theorem ofBit_tagBits (v : BitVec 4) (r q : PReg) (g : Field) :
    Field.ofBit ((if g.bit then v ||| ((1 : BitVec 4) <<< r.num) else v &&& ~~~((1 : BitVec 4) <<< r.num)).getLsbD
      q.num) = if q = r then g else Field.ofBit (v.getLsbD q.num) := by
  revert v
  cases r <;> cases q <;> cases g <;> decide

theorem State.tag_setTag (s : State) (r q : PReg) (g : Field) :
    (s.setTag r g).tag q = if q = r then g else s.tag q := ofBit_tagBits s.pfld r q g

@[simp] theorem State.poly_putPoly (s : State) (r q : PReg) (g : Field) (a : List Byte) :
    (s.putPoly r g a).poly q = if q = r then Memory.ofBytes a else s.poly q := by
  have h : ∀ t : State, (t.setTag r g).poly q = t.poly q := by intro t; cases q <;> rfl
  simp [State.putPoly, h]

@[simp] theorem State.tag_putPoly (s : State) (r q : PReg) (g : Field) (a : List Byte) :
    (s.putPoly r g a).tag q = if q = r then g else s.tag q := by
  have h : (s.setPoly r (Memory.ofBytes a)).tag q = s.tag q := by simp [State.tag]
  simp [State.putPoly, State.tag_setTag, h]

theorem State.memory_of_mems {s t : State} (h : t.cw = s.cw ∧ t.syn = s.syn ∧ t.eloc = s.eloc ∧ t.emag = s.emag ∧
    t.p0 = s.p0 ∧ t.p1 = s.p1 ∧ t.p2 = s.p2 ∧ t.p3 = s.p3 ∧ t.row = s.row ∧ t.odres = s.odres ∧ t.run = s.run ∧
    t.mat0 = s.mat0 ∧ t.mat1 = s.mat1) (id : MemId) : t.memory id = s.memory id := by
  obtain ⟨h1, h2, h3, h4, h5, h6, h7, h8, h9, h10, h11, h12, h13⟩ := h
  cases id with
  | p r => cases r <;> assumption
  | mat k => cases k <;> assumption
  | _ => assumption

end Sys2Proof.Machine
end

