-- ==== Sys2Proof/Laws/Completion.lean ====
section
/-!
SUPPORT. What the shared operations over commands and the port can do, said once: how a command ends, what a host write
does, and the cases of a step (log 1, 2).
-/

namespace Sys2Proof.Machine

/-- How a command ends: with its outputs and OK, or with the state it found and its failure. -/
theorem finish_cases {s t : State} {r : Except Raise State} (h : finish s r = .next t) :
    (∃ u, r = .ok u ∧ t = u.complete .ok 0) ∨ (∃ e : Raise, r = .error e ∧ t = s.complete e.code e.check) := by
  cases r with
  | ok u => left; exact ⟨u, rfl, by simpa [finish] using h.symm⟩
  | error e => right; exact ⟨e, rfl, by simpa [finish] using h.symm⟩

@[simp] theorem finish_ok (s u : State) : finish s (.ok u) = .next (u.complete .ok 0) := rfl

@[simp] theorem finish_raise (s : State) (c : Code) (k : Nat) :
    finish s (raise c k) = .next (s.complete c k) := rfl

/-- A command always completes. -/
theorem finish_next (s : State) (r : Except Raise State) : ∃ t, finish s r = .next t := by
  cases r <;> exact ⟨_, rfl⟩

/-- A check that fails ends the body. -/
theorem raise_bind {α β : Type} (c : Code) (k : Nat) (g : α → Except Raise β) : (raise c k).bind g = raise c k := rfl

/-- A body of two parts that succeeds: both parts succeed. -/
theorem bind_ok {α β : Type} {x : Except Raise α} {g : α → Except Raise β} {b : β} (h : x.bind g = .ok b) :
    ∃ a, x = .ok a ∧ g a = .ok b := by
  cases x with
  | ok a => exact ⟨a, rfl, h⟩
  | error e => simp [Except.bind] at h

/-- A body of two parts that fails: the first part fails, or it succeeds and the second fails. -/
theorem bind_error {α β : Type} {x : Except Raise α} {g : α → Except Raise β} {e : Raise} (h : x.bind g = .error e) :
    x = .error e ∨ ∃ a, x = .ok a ∧ g a = .error e := by
  cases x with
  | ok a => exact .inr ⟨a, rfl, h⟩
  | error e' => left; simpa [Except.bind] using h

/-- What a host write of a word does, by where it lands (20_memory.md R80, R81; 70_reset_and_hazards.md R506). -/
theorem State.hostWrite_cases (s : State) (l : Loc) (v : Word) :
    (l = .ctrl ∧ s.hostWrite l v = s.writeCtrl v) ∨ (l = .status ∧ s.hostWrite l v = s.clearStatus v) ∨
      (l = .cmd ∧ s.hostWrite l v = s.writeCmd v) ∨
      (l.stores = true ∧ s.busy = true ∧ s.hostWrite l v = { s with wovr := true }) ∨
      (l.stores = true ∧ s.busy = false ∧ s.hostWrite l v = s.storeLoc l v) ∨
      (l ≠ .ctrl ∧ l ≠ .status ∧ l ≠ .cmd ∧ l.stores = false ∧ s.hostWrite l v = s) := by
  have other : l ≠ .ctrl → l ≠ .status → l ≠ .cmd →
      s.hostWrite l v = if l.stores then (if s.busy then { s with wovr := true } else s.storeLoc l v) else s := by
    cases l <;> simp [State.hostWrite]
  by_cases h1 : l = .ctrl
  · subst h1; exact .inl ⟨rfl, rfl⟩
  by_cases h2 : l = .status
  · subst h2; exact .inr (.inl ⟨rfl, rfl⟩)
  by_cases h3 : l = .cmd
  · subst h3; exact .inr (.inr (.inl ⟨rfl, rfl⟩))
  rw [other h1 h2 h3]
  by_cases h4 : l.stores = true <;> by_cases h5 : s.busy = true <;> simp [h1, h2, h3, h4, h5]

/-- The cases of a step, by what the executor does (20_memory.md R89; log 1, 2). -/
theorem step_cases (s : State) :
    (s.executor = .idle ∧ step s = s.serve) ∨ (∃ w, s.executor = .running w 0 ∧ step s = runWord w s) ∨
      (∃ w n, s.executor = .running w (n + 1) ∧ step s = { s with executor := .running w n }.serve) := by
  unfold step State.turn
  cases h : s.executor with
  | idle => simp
  | running w n => cases n <;> simp

/-- What an accepted word does when it is due (30_encoding.md R118; 60_exceptions.md R462). -/
theorem runWord_cases (w : Word) (s : State) :
    (∃ i, decode w = .ok i ∧ runWord w s = exec i s) ∨
      (∃ e, decode w = .error e ∧ runWord w s = .next (s.complete .illegalCommand e.check)) := by
  unfold runWord
  cases h : decode w with
  | ok i => exact .inl ⟨i, rfl, rfl⟩
  | error e => exact .inr ⟨e, rfl, rfl⟩

/-- The cases of the port's turn (log 1, 8). -/
theorem State.serve_cases (s : State) :
    (s.port = [] ∧ s.serve = .next s) ∨ (∃ e es, s.port = e :: es ∧ s.serve = { s with port := es }.event e) := by
  unfold State.serve
  cases s.port with
  | nil => simp
  | cons e es => simp

/-- The cases of a port event (log 1, 8, 11). -/
theorem State.event_cases (s : State) (e : PortEvent) :
    (∃ width off, e = .read width off ∧ off < Config.windowBytes ∧ s.event e = .next (s.readAt width off)) ∨
      (∃ width off v, e = .write width off v ∧ off < Config.windowBytes ∧ s.event e = .next (s.writeAt width off v)) ∨
      (e = .porAssert ∧ s.event e = .next { s.powerOn with porHeld := true }) ∨
      (e = .porRelease ∧ s.event e = .next { s with porHeld := false }) ∨
      (s.event e = .fault .outsideWindow) := by
  cases e with
  | read width off =>
    by_cases h : off < Config.windowBytes
    · exact .inl ⟨width, off, rfl, h, by simp [State.event, h]⟩
    · simp [State.event, h]
  | write width off v =>
    by_cases h : off < Config.windowBytes
    · exact .inr (.inl ⟨width, off, v, rfl, h, by simp [State.event, h]⟩)
    · simp [State.event, h]
  | porAssert => simp [State.event]
  | porRelease => simp [State.event]

end Sys2Proof.Machine
end

