-- ==== Sys2Proof/Laws/Gf.lean ====
section
/-!
SUPPORT. The written-out exp and log tables are what the construction of 40_gf.md R151 builds, and what the table functions
give.
-/

namespace Sys2Proof.Machine

-- The tables are evaluated one theorem at a time, which keeps the check inside its memory limit.
set_option Elab.async false

theorem expTable_is_built (f : Field) : expTable f = buildExp f 256 1 := by cases f <;> decide +kernel

theorem length_expTable (f : Field) : (expTable f).length = 256 := by cases f <;> decide +kernel

theorem length_logTable (f : Field) : (logTable f).length = 256 := by cases f <;> decide +kernel

theorem expTable_range (f : Field) : ∀ x ∈ expTable f, 1 ≤ x ∧ x ≤ 255 := by cases f <;> decide +kernel

theorem logTable_range (f : Field) : ∀ l ∈ logTable f, l ≤ 254 := by cases f <;> decide +kernel

theorem exp_of_log_table (f : Field) :
    ∀ a ∈ List.range' 1 255, (expTable f).getD ((logTable f).getD a 0) 0 = a := by cases f <;> decide +kernel

theorem log_of_exp_table (f : Field) :
    ∀ i ∈ List.range 255, (logTable f).getD ((expTable f).getD i 0) 0 = i := by cases f <;> decide +kernel

theorem gfLog_le (f : Field) (a : Byte) : gfLog f a ≤ 254 := by
  have h : a.toNat < (logTable f).length := by rw [length_logTable]; exact a.isLt
  unfold gfLog
  rw [List.getD_eq_getElem _ _ h]
  exact logTable_range f _ (List.getElem_mem h)

/-- `exp(log(a)) = a` for a nonzero element (40_gf.md R154). -/
theorem gfExp_gfLog (f : Field) (a : Byte) (ha : a ≠ 0) : gfExp f (gfLog f a) = a := by
  have h0 : a.toNat ≠ 0 := fun h => ha (BitVec.eq_of_toNat_eq (by simpa using h))
  have h1 : a.toNat ∈ List.range' 1 255 := List.mem_range'_1.mpr ⟨by omega, by have := a.isLt; omega⟩
  unfold gfExp gfLog
  rw [exp_of_log_table f _ h1]
  simp

/-- `log(exp(i)) = i` for an exponent in 0..254 (40_gf.md R151). -/
theorem gfLog_gfExp (f : Field) (i : Nat) (hi : i ≤ 254) : gfLog f (gfExp f i) = i := by
  have hm : i ∈ List.range 255 := List.mem_range.mpr (by omega)
  have hl : i < (expTable f).length := by rw [length_expTable]; omega
  have hr := expTable_range f _ (List.getElem_mem hl)
  unfold gfExp gfLog
  have he : (expTable f).getD i 0 = (expTable f)[i] := List.getD_eq_getElem _ _ hl
  have ht : (BitVec.ofNat 8 ((expTable f).getD i 0)).toNat = (expTable f).getD i 0 := by
    rw [BitVec.toNat_ofNat, he]
    exact Nat.mod_eq_of_lt (by omega)
  rw [ht]
  exact log_of_exp_table f i hm

theorem gfExp_ne_zero (f : Field) (i : Nat) (hi : i ≤ 255) : gfExp f i ≠ 0 := by
  have hl : i < (expTable f).length := by rw [length_expTable]; omega
  have hr := expTable_range f _ (List.getElem_mem hl)
  unfold gfExp
  rw [List.getD_eq_getElem _ _ hl]
  intro h
  have := congrArg BitVec.toNat h
  rw [BitVec.toNat_ofNat, Nat.mod_eq_of_lt (by omega)] at this
  simp at this
  omega

@[simp] theorem gfMul_zero_left (f : Field) (a : Byte) : gfMul f 0 a = 0 := by simp [gfMul]

@[simp] theorem gfMul_zero_right (f : Field) (a : Byte) : gfMul f a 0 = 0 := by simp [gfMul]

/-- The product of nonzero elements adds their logarithms modulo 255 (40_gf.md R153). -/
theorem gfMul_eq_exp (f : Field) {a b : Byte} (ha : a ≠ 0) (hb : b ≠ 0) :
    gfMul f a b = gfExp f ((gfLog f a + gfLog f b) % 255) := by
  unfold gfMul
  rw [if_neg (by rintro (h | h); exacts [ha h, hb h])]

end Sys2Proof.Machine
end

