-- ==== Sys2Proof/Laws/Ieee.lean ====
section
/-!
SUPPORT. The fields of a binary64 encoding read as a number are those that the arithmetic takes as bits, and its zero test
(44_sampler.md R330, R334).
-/

namespace Sys2Proof.Machine

theorem fSign_eq (d : Dword) : fSign d = ieeeNeg d := by
  simp [fSign, ieeeNeg, BitVec.getLsbD, Nat.testBit_eq_decide_div_mod_eq]
  have := d.isLt
  omega

theorem fExp_eq (d : Dword) : fExp d = ieeeExp d := by
  simp [fExp, ieeeExp, BitVec.extractLsb'_toNat, Nat.shiftRight_eq_div_pow]

theorem fFrac_eq (d : Dword) : fFrac d = ieeeFrac d := by
  simp [fFrac, ieeeFrac, BitVec.extractLsb'_toNat]

theorem fIsFinite_eq (d : Dword) : fIsFinite d = ieeeFinite d := by
  have : ieeeExp d < 2 ^ 11 := Nat.mod_lt _ (by decide)
  rw [fIsFinite, ieeeFinite, fExp_eq, Bool.eq_iff_iff]
  simp
  omega

theorem fIsNaN_eq (d : Dword) : fIsNaN d = ieeeNaN d := by
  rw [fIsNaN, ieeeNaN, fExp_eq, fFrac_eq, Bool.eq_iff_iff]
  simp

theorem fVal_eq (d : Dword) : fVal d = ieeeUnits d := by
  rw [fVal, ieeeUnits, fMag, fSign_eq, fExp_eq, fFrac_eq]
  cases ieeeNeg d <;> simp
  split <;> rfl

/-- The two zeros are the only encodings of zero (44_sampler.md R334). -/
theorem fIsZero_iff (d : Dword) : fIsZero d = true ↔ d = 0 ∨ d = 0x8000000000000000 := by
  have h := d.isLt
  have hd : (d = 0 ∨ d = 0x8000000000000000) ↔ (d.toNat = 0 ∨ d.toNat = 2 ^ 63) := by
    constructor
    · rintro (rfl | rfl) <;> simp
    · rintro (e | e)
      · exact .inl (BitVec.eq_of_toNat_eq (by simpa using e))
      · exact .inr (BitVec.eq_of_toNat_eq (by simpa using e))
  rw [hd, fIsZero, fIsFinite_eq, fMag, fExp_eq, fFrac_eq, ieeeFinite, Bool.and_eq_true, decide_eq_true_eq, beq_iff_eq]
  constructor
  · rintro ⟨h1, h2⟩
    split at h2
    · next he => simp only [ieeeExp, ieeeFrac] at *; omega
    · exact absurd h2 (Nat.mul_ne_zero (by omega) (by positivity))
  · intro h1
    have he : ieeeExp d = 0 := by simp only [ieeeExp]; omega
    rw [he]
    simp [ieeeFrac]
    omega

end Sys2Proof.Machine
end

