-- ==== Sys2Proof/Laws/Window.lean ====
section
/-!
SUPPORT. What the window map can answer, what storing at a location and drawing memories anew leave of the other memories,
and what the scans over a bit sequence find.
-/

namespace Sys2Proof.Machine

theorem lookup_mem {α : Type} {l : List (Nat × α)} {a : Nat} {v : α} (h : l.lookup a = some v) : (a, v) ∈ l := by
  induction l with
  | nil => simp at h
  | cons c cs ih =>
    obtain ⟨k, w⟩ := c
    rw [List.lookup_cons] at h
    cases hk : a == k with
    | true => rw [hk] at h; simp at h hk; subst hk h; simp
    | false => rw [hk] at h; exact List.mem_cons_of_mem _ (ih h)

/-- What lies at an offset: a control register, a word of an array that holds the offset, or nothing (10_state.md R62). -/
theorem locOf_cases (a : Nat) :
    (∃ l, (a, l) ∈ ctrlRegs ∧ locOf a = l) ∨
      (∃ sp ∈ spans, sp.base ≤ a ∧ a < sp.base + sp.bytes ∧ locOf a = sp.loc ((a - sp.base) / 4)) ∨
      (ctrlRegs.lookup a = none ∧ (∀ sp ∈ spans, ¬ (sp.base ≤ a ∧ a < sp.base + sp.bytes)) ∧ locOf a = .unmapped) := by
  unfold locOf
  cases h : ctrlRegs.lookup a with
  | some l => exact .inl ⟨l, lookup_mem h, rfl⟩
  | none =>
    right
    cases h2 : spans.find? (fun sp => sp.holds a) with
    | some sp =>
      have hm := List.mem_of_find?_eq_some h2
      have hp := List.find?_some h2
      simp only [Span.holds, Bool.and_eq_true, decide_eq_true_eq] at hp
      exact .inl ⟨sp, hm, hp.1, hp.2, rfl⟩
    | none =>
      right
      refine ⟨rfl, fun sp hsp hc => ?_, rfl⟩
      have := List.find?_eq_none.mp h2 sp hsp
      simp only [Span.holds, Bool.and_eq_true, decide_eq_true_eq] at this
      exact this hc

/-- A word of a local memory that an offset names lies inside the memory (10_state.md R62). -/
theorem locOf_mem_bound {a w : Nat} {id : MemId} (h : locOf a = .mem id w) :
    if id = .run then 2 * w + 2 ≤ id.size else 4 * w + 4 ≤ id.size := by
  rcases locOf_cases a with ⟨l, hl, he⟩ | ⟨sp, hsp, hb, hu, he⟩ | ⟨_, _, he⟩
  · rw [h] at he
    subst he
    simp [ctrlRegs] at hl
  · rw [h] at he
    simp only [spans, List.mem_cons, List.not_mem_nil, or_false] at hsp
    rcases hsp with rfl | rfl | rfl | rfl | rfl | rfl | rfl | rfl | rfl | rfl | rfl | rfl | rfl | rfl | rfl | rfl |
      rfl | rfl <;> simp only [Loc.mem.injEq, reduceCtorEq] at he <;> obtain ⟨rfl, rfl⟩ := he <;>
      simp [MemId.size] <;> simp only at hb hu <;> omega
  · rw [h] at he
    cases he

/-- Storing a word keeps every memory in its canonical form. -/
theorem State.wf_storeLoc {s : State} {a : Nat} (v : Word) (h : ∀ id, (s.memory id).wf id.size = true) (id : MemId) :
    ((s.storeLoc (locOf a) v).memory id).wf id.size = true := by
  cases hl : locOf a with
  | mem jd w =>
    have hb := locOf_mem_bound hl
    by_cases hr : jd = .run
    · subst hr
      have hw : 2 * w + 2 ≤ 8192 := by simpa [MemId.size] using hb
      have hm : (s.storeLoc (.mem .run w) v).memory id =
          if id = .run then s.run.writeHalves w [v.extractLsb' 0 16] else s.memory id := by
        cases id with
        | p r => cases r <;> rfl
        | mat k => cases k <;> rfl
        | _ => rfl
      rw [hm]
      split
      · next he =>
        subst he
        exact Memory.wf_writeHalves (h .run) _ (by simp [MemId.size]; omega)
      · exact h id
    · have hw : 4 * w + 4 ≤ jd.size := by simpa [hr] using hb
      have hm : s.storeLoc (.mem jd w) v = s.setMemory jd ((s.memory jd).writeWord w v) := by
        cases jd <;> first | rfl | exact absurd rfl hr
      rw [hm, State.memory_setMemory]
      split
      · next he => subst he; exact Memory.wf_writeWord (h _) hw v
      · exact h id
  | dbl file i hi =>
    have hm : (s.storeLoc (.dbl file i hi) v).memory id = s.memory id := by
      apply State.memory_of_mems
      simp [State.storeLoc]
    rw [hm]; exact h id
  | _ => exact h id

/-- The memories after some of them were drawn anew: each of those is a draw of its own, made since, and the others stay
(70_reset_and_hazards.md R501). -/
theorem redraw_spec (ids : List MemId) (s : State) :
    s.draws ≤ (redraw ids s).draws ∧
      (∀ id, id ∉ ids → (redraw ids s).memory id = s.memory id) ∧
      (∀ id, id ∈ ids → ∃ k, s.draws ≤ k ∧ k < (redraw ids s).draws ∧ (redraw ids s).memory id = Memory.fresh k) := by
  induction ids generalizing s with
  | nil => simp [redraw]
  | cons jd ids ih =>
    simp only [redraw]
    generalize hs' : ({ s.setMemory jd (Memory.fresh s.draws) with draws := s.draws + 1 } : State) = s'
    have hd : s'.draws = s.draws + 1 := by rw [← hs']
    have hm : ∀ id, s'.memory id = if id = jd then Memory.fresh s.draws else s.memory id := by
      intro id
      have h1 : s'.memory id = (s.setMemory jd (Memory.fresh s.draws)).memory id := by
        rw [← hs']
        cases id with
        | p r => cases r <;> rfl
        | mat k => cases k <;> rfl
        | _ => rfl
      rw [h1, State.memory_setMemory]
    obtain ⟨ih1, ih2, ih3⟩ := ih s'
    refine ⟨by omega, ?_, ?_⟩
    · intro id hid
      simp only [List.mem_cons, not_or] at hid
      rw [ih2 id hid.2, hm, if_neg hid.1]
    · intro id hid
      by_cases hin : id ∈ ids
      · obtain ⟨k, h1, h2, h3⟩ := ih3 id hin
        exact ⟨k, by omega, h2, h3⟩
      · have he : id = jd := by simpa [hin] using hid
        exact ⟨s.draws, by omega, by omega, by rw [ih2 id hin, hm, if_pos he]⟩

/-- What a scan of `n` places from `i` on finds: the first place with bit `b`, if there is one (42_bitarray.md R262). -/
theorem firstBit_spec (g : Nat → Bool) (b : Bool) (i n : Nat) :
    match firstBit g b i n with
    | some r => i ≤ r ∧ r < i + n ∧ g r = b ∧ ∀ j, i ≤ j → j < r → g j = !b
    | none => ∀ j, i ≤ j → j < i + n → g j = !b := by
  induction n generalizing i with
  | zero => simp only [firstBit]; intro j h1 h2; omega
  | succ n ih =>
    by_cases hg : g i = b
    · rw [firstBit, if_pos hg]
      exact ⟨Nat.le_refl _, by omega, hg, fun j h1 h2 => by omega⟩
    · have hn : g i = !b := by cases hb : b <;> simp_all
      have := ih (i + 1)
      rw [firstBit, if_neg hg]
      cases hf : firstBit g b (i + 1) n with
      | some r =>
        rw [hf] at this
        obtain ⟨h1, h2, h3, h4⟩ := this
        refine ⟨by omega, by omega, h3, fun j hj1 hj2 => ?_⟩
        by_cases hji : j = i
        · rw [hji]; exact hn
        · exact h4 j (by omega) hj2
      | none =>
        rw [hf] at this
        intro j hj1 hj2
        by_cases hji : j = i
        · rw [hji]; exact hn
        · exact this j (by omega) (by omega)

end Sys2Proof.Machine
end

