-- ==== Sys2Proof/Laws/Matcher.lean ====
section
/-!
SUPPORT. What the shared operations of the one-dimensional matcher can do (45_matcher.md R381 to R386): the model's tables
and variance are those of the statements, what the best match gives, the quiet zones as white stretches, and the runs.
-/

namespace Sys2Proof.Machine

/-! ### The tables and the variance -/

/-- The widths from the masks are those of the model's tables (45_matcher.md R383). -/
theorem refWidths_eq (sym : Sym) (v : Nat) (h : v < symEntries sym) : refWidths sym v = symRef sym v := by
  revert v
  cases sym <;> decide +kernel

/-- The deviation of one element is the model's difference. -/
theorem deviation_eq (counts ref : List Nat) (unit k : Nat) :
    deviation counts ref unit k = pmvDiff unit (counts.getD k 0) (ref.getD k 0) := by
  simp [deviation, pmvDiff, Int.mul_comm]

/-- The model's loop is the sum of the deviations, or none where one is above the limit (45_matcher.md R384). -/
theorem pmvSum_eq (unit lim : Nat) : ∀ (counts ref : List Nat), counts.length = ref.length →
    pmvSum unit lim (counts.zip ref) =
      if (List.range ref.length).any fun k => decide (lim < deviation counts ref unit k) then none
      else some ((List.range ref.length).map (deviation counts ref unit)).sum
  | [], [], _ => by simp [pmvSum]
  | c :: cs, r :: rs, h => by
    have ih := pmvSum_eq unit lim cs rs (by simpa using h)
    have h0 : deviation (c :: cs) (r :: rs) unit 0 = pmvDiff unit c r := by simp [deviation_eq]
    have h1 : ∀ k, deviation (c :: cs) (r :: rs) unit (k + 1) = deviation cs rs unit k := by simp [deviation_eq]
    simp only [List.zip_cons_cons, pmvSum, ih, List.length_cons, List.range_succ_eq_map, List.any_cons, List.any_map,
      Function.comp_def, List.map_cons, List.map_map, List.sum_cons, h0, h1, Bool.or_eq_true, decide_eq_true_eq, gt_iff_lt]
    by_cases ha : lim < pmvDiff unit c r
    · simp [ha]
    · simp only [ha, false_or, if_false]
      split <;> rfl

/-- The variance is the model's PMV (45_matcher.md R384). -/
theorem variance_eq (counts ref : List Nat) (maxInd : Nat) (h : counts.length = ref.length) :
    variance counts ref maxInd = pmv counts ref maxInd := by
  unfold variance pmv
  rw [pmvSum_eq _ _ _ _ h, Nat.mul_comm 256]
  split
  · rfl
  · split <;> rfl

/-- An entry has K widths. -/
theorem symRef_length (sym : Sym) (v : Nat) (h : v < symEntries sym) : (symRef sym v).length = symK sym := by
  revert v
  cases sym <;> decide +kernel

/-- The parameter table is the model's (45_matcher.md R382). -/
theorem symRow_eq (sym : Sym) :
    symRow sym = ⟨symK sym, symEntries sym, symStart sym, symStop sym, symGap sym, symTerm sym, symMaxAvg sym, symMaxInd sym, symQz sym⟩ := by
  cases sym <;> rfl

theorem entryVariance_eq (sym : Sym) (counts : List Nat) (v : Nat) (hc : counts.length = symK sym) (h : v < symEntries sym) :
    entryVariance sym counts v = pmv counts (symRef sym v) (symMaxInd sym) := by
  unfold entryVariance
  rw [refWidths_eq sym v h, variance_eq _ _ _ (by rw [hc, symRef_length sym v h]), symRow_eq]

/-- All that `best` can give, over entries in ascending order: none with the limit, or the best entry and its variance
(45_matcher.md R385). -/
theorem best_spec (sym : Sym) (counts : List Nat) (hc : counts.length = symK sym) (es : List Nat)
    (hs : es.Pairwise (· < ·)) (he : ∀ v ∈ es, v < symEntries sym) :
    ((best sym counts es).1 = none ∧ (best sym counts es).2 = symMaxAvg sym ∧ NoBest sym counts es) ∨
      ∃ v x, best sym counts es = (some v, x) ∧ IsBest sym counts es v x := by
  induction es using List.reverseRecOn with
  | nil => exact .inl ⟨rfl, rfl, by simp [NoBest]⟩
  | append_singleton es w ih =>
    rw [List.pairwise_append] at hs
    have hw : ∀ v ∈ es, v < w := fun v hv => hs.2.2 v hv w (by simp)
    have hev := entryVariance_eq sym counts w hc (he w (by simp))
    have hb : best sym counts (es ++ [w]) = bestStep sym counts (best sym counts es) w := by simp [best]
    have hm : (symRow sym).maxAvg = symMaxAvg sym := by rw [symRow_eq]
    rw [hb]
    rcases ih hs.1 (fun v hv => he v (by simp [hv])) with ⟨h1, h2, h3⟩ | ⟨v, x, h1, h2, h3, h4, h5⟩
    · cases hx : pmv counts (symRef sym w) (symMaxInd sym) with
      | none =>
        refine .inl ⟨by simp [bestStep, hx, h1], by simp [bestStep, hx, h2], fun v hv x h => ?_⟩
        rcases List.mem_append.1 hv with hv | hv
        · exact h3 v hv x h
        · simp at hv; subst hv; rw [hev, hx] at h; cases h
      | some y =>
        by_cases hy : y < symMaxAvg sym
        · refine .inr ⟨w, y, by simp [bestStep, hx, h2, hy], by simp, by rw [hev, hx], by rw [hm]; exact hy, ?_⟩
          intro v hv x h
          rcases List.mem_append.1 hv with hv | hv
          · have := h3 v hv x h; rw [hm] at this; omega
          · simp at hv; subst hv; rw [hev, hx] at h; cases h; exact .inr ⟨rfl, le_rfl⟩
        · refine .inl ⟨by simp [bestStep, hx, h2, hy, h1], by simp [bestStep, hx, h2, hy], fun v hv x h => ?_⟩
          rcases List.mem_append.1 hv with hv | hv
          · exact h3 v hv x h
          · simp at hv; subst hv; rw [hev, hx] at h; cases h; rw [hm]; omega
    · cases hx : pmv counts (symRef sym w) (symMaxInd sym) with
      | none =>
        refine .inr ⟨v, x, by simp [bestStep, hx, h1], by simp [h2], h3, h4, fun u hu z h => ?_⟩
        rcases List.mem_append.1 hu with hu | hu
        · exact h5 u hu z h
        · simp at hu; subst hu; rw [hev, hx] at h; cases h
      | some y =>
        by_cases hy : y < x
        · refine .inr ⟨w, y, by simp [bestStep, hx, h1, hy], by simp, by rw [hev, hx], by omega, ?_⟩
          intro u hu z h
          rcases List.mem_append.1 hu with hu | hu
          · have := h5 u hu z h; omega
          · simp at hu; subst hu; rw [hev, hx] at h; cases h; exact .inr ⟨rfl, le_rfl⟩
        · refine .inr ⟨v, x, by simp [bestStep, hx, h1, hy], by simp [h2], h3, h4, fun u hu z h => ?_⟩
          rcases List.mem_append.1 hu with hu | hu
          · exact h5 u hu z h
          · simp at hu; subst hu; rw [hev, hx] at h; cases h
            have := hw v h2
            omega

/-! ### The match of a character, and the quiet zones -/

theorem runWidths_eq (rs : List Run) (k n : Nat) (h : k + n ≤ rs.length) : runWidths rs k 1 n = runLens rs k n := by
  apply List.ext_getElem
  · simp [runWidths, runLens]; omega
  · intro i h1 h2
    simp [runWidths] at h1
    simp [runWidths, runLens, List.getD_eq_getElem?_getD, List.getElem?_eq_getElem (show k + i < rs.length by omega)]

/-- All that the match of the character at run `k` can give (45_matcher.md R385). -/
theorem bestAt_spec (sym : Sym) (rs : List Run) (k : Nat) (es : List Nat) (hs : es.Pairwise (· < ·))
    (he : ∀ v ∈ es, v < symEntries sym) :
    ((bestAt sym rs k es).1 = none ∧ ReadsNone sym rs k es) ∨
      ∃ v, (bestAt sym rs k es).1 = some v ∧ Reads sym rs k es v := by
  have hk : (symRow sym).k = symK sym := by rw [symRow_eq]
  unfold bestAt Reads ReadsNone
  rw [hk]
  split
  · next h => exact .inl ⟨rfl, .inl h⟩
  · next h =>
    have hle : k + symK sym ≤ rs.length := by omega
    rw [runWidths_eq rs k _ hle]
    rcases best_spec sym (runLens rs k (symK sym)) (by simp [runLens]; omega) es hs he with ⟨h1, _, h3⟩ | ⟨v, x, h1, h2⟩
    · exact .inl ⟨h1, .inr h3⟩
    · exact .inr ⟨v, by rw [h1], hle, x, h2⟩

/-- The character at a run, where the match gives one. -/
theorem reads_of_bestAt {sym : Sym} {rs : List Run} {k v : Nat} {es : List Nat} (hs : es.Pairwise (· < ·))
    (he : ∀ v ∈ es, v < symEntries sym) (h : (bestAt sym rs k es).1 = some v) : Reads sym rs k es v := by
  rcases bestAt_spec sym rs k es hs he with ⟨h1, _⟩ | ⟨w, h1, h2⟩
  · rw [h1] at h; cases h
  · rw [h1] at h; cases h; exact h2

/-- The best entry of a match that gives one. -/
theorem isBest_of_best {sym : Sym} {counts es : List Nat} {v : Nat} (hc : counts.length = symK sym)
    (hs : es.Pairwise (· < ·)) (he : ∀ v ∈ es, v < symEntries sym) (h : (best sym counts es).1 = some v) :
    ∃ x, IsBest sym counts es v x := by
  rcases best_spec sym counts hc es hs he with ⟨h1, _⟩ | ⟨w, x, h1, h2⟩
  · rw [h1] at h; cases h
  · rw [h1] at h; cases h; exact ⟨x, h2⟩

/-- No entry below the limit where the match gives none. -/
theorem noBest_of_best {sym : Sym} {counts es : List Nat} (hc : counts.length = symK sym)
    (hs : es.Pairwise (· < ·)) (he : ∀ v ∈ es, v < symEntries sym) (h : (best sym counts es).1 = none) :
    NoBest sym counts es := by
  rcases best_spec sym counts hc es hs he with ⟨_, _, h2⟩ | ⟨w, x, h1, _⟩
  · exact h2
  · rw [h1] at h; cases h

/-- Every entry of a symbology, in ascending order. -/
theorem entriesOf_sorted (sym : Sym) : (entriesOf sym).Pairwise (· < ·) := List.pairwise_lt_range

theorem entriesOf_lt (sym : Sym) : ∀ v ∈ entriesOf sym, v < symEntries sym := by
  rw [entriesOf, symRow_eq]
  exact fun v h => List.mem_range.1 h

/-- No character at a run, where the match gives none. -/
theorem readsNone_of_bestAt {sym : Sym} {rs : List Run} {k : Nat} {es : List Nat} (hs : es.Pairwise (· < ·))
    (he : ∀ v ∈ es, v < symEntries sym) (h : (bestAt sym rs k es).1 = none) : ReadsNone sym rs k es := by
  rcases bestAt_spec sym rs k es hs he with ⟨_, h2⟩ | ⟨w, h1, _⟩
  · exact h2
  · rw [h1] at h; cases h

theorem zerosBefore_ge (g : Nat → Bool) (p m : Nat) (h : m ≤ p) :
    m ≤ zerosBefore g p ↔ ∀ i, p - m ≤ i → i < p → g i = false := by
  induction p generalizing m with
  | zero => simp [show m = 0 by omega]
  | succ p ih =>
    cases m with
    | zero => simp; omega
    | succ m =>
      rw [zerosBefore]
      split
      · next hg => exact ⟨by omega, fun h' => by rw [h' p (by omega) (by omega)] at hg; cases hg⟩
      · next hg =>
        rw [Nat.add_le_add_iff_right, ih m (by omega)]
        refine ⟨fun h' i h1 h2 => ?_, fun h' i h1 h2 => h' i (by omega) (by omega)⟩
        by_cases hi : i = p
        · rw [hi]; simpa using hg
        · exact h' i (by omega) (by omega)

theorem zerosAfter_ge (g : Nat → Bool) (n p m : Nat) (h : m ≤ n) :
    m ≤ zerosAfter g p n ↔ ∀ i, p ≤ i → i < p + m → g i = false := by
  induction n generalizing p m with
  | zero => simp [show m = 0 by omega]; omega
  | succ n ih =>
    cases m with
    | zero => simp; omega
    | succ m =>
      rw [zerosAfter]
      split
      · next hg => exact ⟨by omega, fun h' => by rw [h' p (by omega) (by omega)] at hg; cases hg⟩
      · next hg =>
        rw [Nat.add_le_add_iff_right, ih (p + 1) m (by omega)]
        refine ⟨fun h' i h1 h2 => ?_, fun h' i h1 h2 => h' i (by omega) (by omega)⟩
        by_cases hi : i = p
        · rw [hi]; simpa using hg
        · exact h' i (by omega) (by omega)

/-- The quiet zone before a pattern is a white stretch (45_matcher.md R386). -/
theorem State.quietBefore_iff (s : State) (sym : Sym) (p w : Nat) :
    s.quietBefore sym p w = true ↔ QuietLeft s.row.bit sym p w := by
  have hq : (symRow sym).qz = symQz sym := by rw [symRow_eq]
  unfold State.quietBefore QuietLeft
  rw [decide_eq_true_eq, ge_iff_le, zerosBefore_ge _ _ _ (Nat.min_le_left _ _), hq]

/-- The quiet zone after a pattern is a white stretch (45_matcher.md R386). -/
theorem State.quietAfter_iff (s : State) (sym : Sym) (p w : Nat) :
    s.quietAfter sym p w = true ↔ QuietRight s.row.bit s.size sym p w := by
  have hq : (symRow sym).qz = symQz sym := by rw [symRow_eq]
  unfold State.quietAfter QuietRight
  rw [decide_eq_true_eq, ge_iff_le, zerosAfter_ge _ _ _ _ (Nat.min_le_left _ _), hq]

/-! ### Runs -/

/-- What follows the first `len` bits of a run: the runs from there on, alternating in colour, contiguous, up to the end. -/
structure RunsFrom (g : Nat → Bool) (p n : Nat) (b : Bool) (rs : List Run) : Prop where
  head : ∃ l q, rs = ⟨p, l⟩ :: q
  colour : ∀ k r, rs[k]? = some r → 0 < r.len ∧ ∀ i, r.pos ≤ i → i < r.pos + r.len → g i = (b == (k % 2 == 0))
  next : ∀ k r q, rs[k]? = some r → rs[k + 1]? = some q → q.pos = r.pos + r.len
  last : ∀ r ∈ rs.getLast?, r.pos + r.len = n

theorem runsFrom_spec (g : Nat → Bool) (n : Nat) : ∀ (p len : Nat) (b : Bool) (i : Nat), i = p + len → 0 < len →
    (∀ j, p ≤ j → j < i → g j = b) → RunsFrom g p (i + n) b (runsFrom g p len b i n) := by
  induction n with
  | zero =>
    intro p len b i hi hl hb
    refine ⟨⟨len, [], rfl⟩, fun k r h => ?_, fun k r q h1 h2 => ?_, fun r h => ?_⟩
    · cases k <;> simp [runsFrom] at h
      subst h
      exact ⟨hl, fun j h1 h2 => by simp [hb j h1 (by simp at h2; omega)]⟩
    · simp [runsFrom] at h2
    · simp [runsFrom] at h
      subst h; simp [hi]
  | succ n ih =>
    intro p len b i hi hl hb
    by_cases hg : g i = b
    · have := ih p (len + 1) b (i + 1) (by omega) (by omega) fun j h1 h2 => by
        by_cases hj : j = i
        · rw [hj, hg]
        · exact hb j h1 (by omega)
      rw [show i + (n + 1) = i + 1 + n by omega]
      simpa [runsFrom, hg] using this
    · have hh := ih i 1 (g i) (i + 1) rfl (by omega) fun j h1 h2 => by rw [show j = i by omega]
      rw [show i + (n + 1) = i + 1 + n by omega]
      have hr : runsFrom g p len b i (n + 1) = ⟨p, len⟩ :: runsFrom g i 1 (g i) (i + 1) n := by simp [runsFrom, hg]
      rw [hr]
      have hgb : g i = !b := by cases hx : g i <;> cases b <;> simp_all
      refine ⟨⟨len, _, rfl⟩, fun k r h => ?_, fun k r q h1 h2 => ?_, fun r h => ?_⟩
      · cases k with
        | zero =>
          simp at h; subst h
          exact ⟨hl, fun j h1 h2 => by simp [hb j h1 (by simp at h2; omega)]⟩
        | succ k =>
          obtain ⟨h1, h2⟩ := hh.colour k r (by simpa using h)
          refine ⟨h1, fun j hj hj' => ?_⟩
          rw [h2 j hj hj', hgb]
          rcases Nat.mod_two_eq_zero_or_one k with e | e <;> cases b <;> simp [Nat.add_mod, e]
      · cases k with
        | zero =>
          simp at h1; subst h1
          obtain ⟨l, q', hq⟩ := hh.head
          rw [hq] at h2; simp at h2; subst h2; simp [hi]
        | succ k => exact hh.next k r q (by simpa using h1) (by simpa using h2)
      · apply hh.last r
        obtain ⟨l, q', hq⟩ := hh.head
        rw [hq] at h ⊢
        simpa [List.getLast?_cons_cons] using h

/-- The runs of the row from `start` on are what the rule says (45_matcher.md R381). -/
theorem State.runsOf_isRuns (s : State) (start : Nat) (h : start ≤ s.size) :
    IsRuns s.row.bit s.size start (s.runsOf start) := by
  have hf := firstBit_spec s.row.bit true start (s.size - start)
  unfold State.runsOf
  split
  · next hlt =>
    have hsc : start ≤ s.scan true start ∧ s.row.bit (s.scan true start) = true ∧
        ∀ i, start ≤ i → i < s.scan true start → s.row.bit i = false := by
      unfold State.scan at hlt ⊢
      cases hx : firstBit s.row.bit true start (s.size - start) with
      | none => rw [hx] at hlt; simp at hlt
      | some q => rw [hx] at hf; exact ⟨hf.1, hf.2.2.1, fun i h1 h2 => by simpa using hf.2.2.2 i h1 h2⟩
    have hr := runsFrom_spec s.row.bit (s.size - (s.scan true start + 1)) (s.scan true start) 1 true
      (s.scan true start + 1) rfl (by omega) fun j h1 h2 => by rw [show j = s.scan true start by omega]; exact hsc.2.1
    rw [show s.scan true start + 1 + (s.size - (s.scan true start + 1)) = s.size by omega] at hr
    refine ⟨fun r h => ?_, fun k r h => ?_, hr.next, hr.last, fun h => ?_⟩
    · obtain ⟨l, q, hq⟩ := hr.head
      rw [hq] at h; simp at h; subst h
      exact ⟨hsc.1, hsc.2.2⟩
    · simpa using hr.colour k r h
    · obtain ⟨l, q, hq⟩ := hr.head
      rw [hq] at h; cases h
  · next hlt =>
    refine ⟨by simp, by simp, by simp, by simp, fun _ => ?_⟩
    unfold State.scan at hlt
    cases hx : firstBit s.row.bit true start (s.size - start) with
    | none => rw [hx] at hf; exact fun i h1 h2 => by simpa using hf i h1 (by omega)
    | some q => rw [hx] at hf hlt; exact absurd hf.2.1 (by simp at hlt; omega)

end Sys2Proof.Machine
end

