-- ==== Sys2Proof/Laws/PerInstr.lean ====
section
/-!
SUPPORT. The statements made of every command as syntax. Family `Encoding`: the word of a command has an assigned opcode and
no bit outside the ones its opcode uses (30_encoding.md R119, R122).
-/

namespace Sys2Proof.Laws.Encoding

/-- The word of the command lands on a row of the opcode map and passes decode checks 1 and 2. -/
def Statement (i : Instr) : Prop := ∃ r, opRow (opcField (encode i)) = some r ∧ encode i &&& ~~~r.used = 0

theorem nop : Statement .nop := ⟨_, rfl, by decide⟩

theorem gfAdd (f : Field) : Statement (.gfAdd f) := by
  cases f <;> exact ⟨_, rfl, by decide⟩

theorem gfMul (f : Field) : Statement (.gfMul f) := by
  cases f <;> exact ⟨_, rfl, by decide⟩

theorem gfDiv (f : Field) : Statement (.gfDiv f) := by
  cases f <;> exact ⟨_, rfl, by decide⟩

theorem gfInv (f : Field) : Statement (.gfInv f) := by
  cases f <;> exact ⟨_, rfl, by decide⟩

theorem gfExp (f : Field) : Statement (.gfExp f) := by
  cases f <;> exact ⟨_, rfl, by decide⟩

theorem gfLog (f : Field) : Statement (.gfLog f) := by
  cases f <;> exact ⟨_, rfl, by decide⟩

theorem pMono (f : Field) (pd : PReg) : Statement (.pMono f pd) := by
  cases f <;> cases pd <;> exact ⟨_, rfl, by decide⟩

theorem pAdd (f : Field) (pb : PReg) (pa : PReg) (pd : PReg) : Statement (.pAdd f pb pa pd) := by
  cases f <;> cases pb <;> cases pa <;> cases pd <;> exact ⟨_, rfl, by decide⟩

theorem pMul (f : Field) (pb : PReg) (pa : PReg) (pd : PReg) : Statement (.pMul f pb pa pd) := by
  cases f <;> cases pb <;> cases pa <;> cases pd <;> exact ⟨_, rfl, by decide⟩

theorem pScale (f : Field) (pa : PReg) (pd : PReg) : Statement (.pScale f pa pd) := by
  cases f <;> cases pa <;> cases pd <;> exact ⟨_, rfl, by decide⟩

theorem pMulmono (f : Field) (pa : PReg) (pd : PReg) : Statement (.pMulmono f pa pd) := by
  cases f <;> cases pa <;> cases pd <;> exact ⟨_, rfl, by decide⟩

theorem pDiv (f : Field) (pe : PReg) (pb : PReg) (pa : PReg) (pd : PReg) : Statement (.pDiv f pe pb pa pd) := by
  cases f <;> cases pe <;> cases pb <;> cases pa <;> cases pd <;> exact ⟨_, rfl, by decide⟩

theorem pEval (f : Field) (pa : PReg) : Statement (.pEval f pa) := by
  cases f <;> cases pa <;> exact ⟨_, rfl, by decide⟩

theorem rsEncode (f : Field) : Statement (.rsEncode f) := by
  cases f <;> exact ⟨_, rfl, by decide⟩

theorem rsSyndrome (f : Field) : Statement (.rsSyndrome f) := by
  cases f <;> exact ⟨_, rfl, by decide⟩

theorem rsDecode (f : Field) : Statement (.rsDecode f) := by
  cases f <;> exact ⟨_, rfl, by decide⟩

theorem baGet : Statement .baGet := ⟨_, rfl, by decide⟩

theorem baSet : Statement .baSet := ⟨_, rfl, by decide⟩

theorem baFlip : Statement .baFlip := ⟨_, rfl, by decide⟩

theorem baClear : Statement .baClear := ⟨_, rfl, by decide⟩

theorem baSetrange : Statement .baSetrange := ⟨_, rfl, by decide⟩

theorem baIsrange : Statement .baIsrange := ⟨_, rfl, by decide⟩

theorem baNextset : Statement .baNextset := ⟨_, rfl, by decide⟩

theorem baNextunset : Statement .baNextunset := ⟨_, rfl, by decide⟩

theorem baReverse : Statement .baReverse := ⟨_, rfl, by decide⟩

theorem baInit : Statement .baInit := ⟨_, rfl, by decide⟩

theorem bmInit (m : Mat) : Statement (.bmInit m) := by
  cases m <;> exact ⟨_, rfl, by decide⟩

theorem bmGet (m : Mat) : Statement (.bmGet m) := by
  cases m <;> exact ⟨_, rfl, by decide⟩

theorem bmSet (m : Mat) : Statement (.bmSet m) := by
  cases m <;> exact ⟨_, rfl, by decide⟩

theorem bmUnset (m : Mat) : Statement (.bmUnset m) := by
  cases m <;> exact ⟨_, rfl, by decide⟩

theorem bmFlip (m : Mat) : Statement (.bmFlip m) := by
  cases m <;> exact ⟨_, rfl, by decide⟩

theorem bmClear (m : Mat) : Statement (.bmClear m) := by
  cases m <;> exact ⟨_, rfl, by decide⟩

theorem bmSetregion (m : Mat) : Statement (.bmSetregion m) := by
  cases m <;> exact ⟨_, rfl, by decide⟩

theorem bmGetrow (m : Mat) : Statement (.bmGetrow m) := by
  cases m <;> exact ⟨_, rfl, by decide⟩

theorem bmRot180 (m : Mat) : Statement (.bmRot180 m) := by
  cases m <;> exact ⟨_, rfl, by decide⟩

theorem bmXor (m : Mat) : Statement (.bmXor m) := by
  cases m <;> exact ⟨_, rfl, by decide⟩

theorem bmCopy (m : Mat) : Statement (.bmCopy m) := by
  cases m <;> exact ⟨_, rfl, by decide⟩

theorem bmTopleft (m : Mat) : Statement (.bmTopleft m) := by
  cases m <;> exact ⟨_, rfl, by decide⟩

theorem bmBotright (m : Mat) : Statement (.bmBotright m) := by
  cases m <;> exact ⟨_, rfl, by decide⟩

theorem ptS2q : Statement .ptS2q := ⟨_, rfl, by decide⟩

theorem ptQ2s : Statement .ptQ2s := ⟨_, rfl, by decide⟩

theorem ptQ2q : Statement .ptQ2q := ⟨_, rfl, by decide⟩

theorem ptAdj : Statement .ptAdj := ⟨_, rfl, by decide⟩

theorem ptTimes : Statement .ptTimes := ⟨_, rfl, by decide⟩

theorem ptCopy : Statement .ptCopy := ⟨_, rfl, by decide⟩

theorem ptXform : Statement .ptXform := ⟨_, rfl, by decide⟩

theorem gridSample (m : Mat) : Statement (.gridSample m) := by
  cases m <;> exact ⟨_, rfl, by decide⟩

theorem odRuns : Statement .odRuns := ⟨_, rfl, by decide⟩

theorem odPmatch (sym : Sym) : Statement (.odPmatch sym) := by
  cases sym <;> exact ⟨_, rfl, by decide⟩

theorem odDecode (chk : Bool) (sym : Sym) : Statement (.odDecode chk sym) := by
  cases chk <;> cases sym <;> exact ⟨_, rfl, by decide⟩

theorem odMulti (chk : Bool) (en : BitVec 5) : Statement (.odMulti chk en) := by
  have h : ∀ (chk : Bool) (en : BitVec 5), opcField (encode (.odMulti chk en)) = 0x73 ∧
      encode (.odMulti chk en) &&& ~~~(0xFF00003F : Word) = 0 := by decide
  exact ⟨_, by rw [(h chk en).1]; rfl, (h chk en).2⟩

end Sys2Proof.Laws.Encoding
end

