-- ==== Sys2Proof/Laws/Poly.lean ====
section
/-!
SUPPORT. The coefficients and the lengths of the polynomial operations (40_gf.md R171, R174), and what writing a polynomial
to a register does (R172, R173).
-/

namespace Sys2Proof.Machine

theorem polyCoef_nil (i : Nat) : polyCoef [] i = 0 := rfl

theorem polyCoef_cons_zero (c : Byte) (cs : List Byte) : polyCoef (c :: cs) 0 = c := rfl

theorem polyCoef_cons_succ (c : Byte) (cs : List Byte) (i : Nat) : polyCoef (c :: cs) (i + 1) = polyCoef cs i := rfl

/-- The first step of dropping leading zeros. -/
theorem polyTrim_cons (c : Byte) (cs : List Byte) :
    polyTrim (c :: cs) = if polyTrim cs = [] then (if c = 0 then [] else [c]) else c :: polyTrim cs := by
  rw [polyTrim]
  cases polyTrim cs <;> rfl

/-- Dropping leading zeros changes no coefficient. -/
@[simp] theorem polyCoef_trim (a : List Byte) (i : Nat) : polyCoef (polyTrim a) i = polyCoef a i := by
  induction a generalizing i with
  | nil => rfl
  | cons c cs ih =>
    rw [polyTrim_cons]
    split
    · next h =>
      have hz : ∀ j, polyCoef cs j = 0 := fun j => by rw [← ih, h]; rfl
      split
      · next hc =>
        cases i with
        | zero => exact hc.symm
        | succ i => rw [polyCoef_cons_succ, hz]; rfl
      · cases i with
        | zero => rfl
        | succ i => rw [polyCoef_cons_succ, polyCoef_cons_succ, hz]; rfl
    · cases i with
      | zero => rfl
      | succ i => rw [polyCoef_cons_succ, polyCoef_cons_succ, ih]

theorem length_trim_le (a : List Byte) : (polyTrim a).length ≤ a.length := by
  induction a with
  | nil => exact Nat.le_refl _
  | cons c cs ih =>
    rw [polyTrim_cons]
    split
    · split <;> simp
    · simpa using ih

/-- A list of zeros is the zero polynomial. -/
theorem polyTrim_of_zero (a : List Byte) (h : ∀ i, polyCoef a i = 0) : polyTrim a = [] := by
  induction a with
  | nil => rfl
  | cons c cs ih =>
    have h0 : c = 0 := h 0
    have hs : polyTrim cs = [] := ih fun i => h (i + 1)
    rw [polyTrim_cons, if_pos hs, if_pos h0]

theorem length_addRaw (a b : List Byte) : (polyAddRaw a b).length = max a.length b.length := by
  induction a generalizing b with
  | nil => simp [polyAddRaw]
  | cons x a ih =>
    cases b with
    | nil => simp [polyAddRaw]
    | cons y b => simp [polyAddRaw, ih]

theorem polyCoef_addRaw (a b : List Byte) (i : Nat) : polyCoef (polyAddRaw a b) i = polyCoef a i ^^^ polyCoef b i := by
  induction a generalizing b i with
  | nil => simp [polyAddRaw, polyCoef]
  | cons x a ih =>
    cases b with
    | nil => simp [polyAddRaw, polyCoef]
    | cons y b =>
      cases i with
      | zero => rfl
      | succ i => exact ih b i

/-- `add(A, B)[i] = c_A[i] ⊕ c_B[i]` (40_gf.md R174). -/
@[simp] theorem polyCoef_add (a b : List Byte) (i : Nat) : polyCoef (polyAdd a b) i = polyCoef a i ^^^ polyCoef b i := by
  rw [polyAdd, polyCoef_trim, polyCoef_addRaw]

theorem length_add_le (a b : List Byte) : (polyAdd a b).length ≤ max a.length b.length :=
  (length_trim_le _).trans (length_addRaw a b).le

theorem polyCoef_map (g : Byte → Byte) (hg : g 0 = 0) (a : List Byte) (i : Nat) :
    polyCoef (a.map g) i = g (polyCoef a i) := by
  unfold polyCoef
  by_cases h : i < a.length
  · simp [h]
  · have h2 : a.length ≤ i := by omega
    rw [List.getD_eq_default _ _ (by simpa using h2), List.getD_eq_default _ _ h2, hg]

/-- `scale(A, s)[i] = c_A[i] ⊗ s` (40_gf.md R174). -/
@[simp] theorem polyCoef_scale (f : Field) (a : List Byte) (s : Byte) (i : Nat) :
    polyCoef (polyScale f a s) i = gfMul f (polyCoef a i) s := by
  rw [polyScale, polyCoef_trim, polyCoef_map (fun c => gfMul f c s) (gfMul_zero_left f s)]

theorem length_scale_le (f : Field) (a : List Byte) (s : Byte) : (polyScale f a s).length ≤ a.length :=
  (length_trim_le _).trans (by simp)

theorem polyCoef_shift (d : Nat) (a : List Byte) (i : Nat) :
    polyCoef (List.replicate d 0 ++ a) i = if d ≤ i then polyCoef a (i - d) else 0 := by
  unfold polyCoef
  by_cases h : d ≤ i
  · rw [List.getD_append_right _ _ _ _ (by simpa using h)]
    simp [h]
  · rw [List.getD_append _ _ _ _ (by simp; omega)]
    simp [h]

/-- `mono(d, c)`: the coefficient `c` at x^d and nothing else (40_gf.md R174). -/
@[simp] theorem polyCoef_mono (d : Nat) (c : Byte) (i : Nat) : polyCoef (polyMono d c) i = if i = d then c else 0 := by
  rw [polyMono, polyCoef_trim, polyCoef_shift]
  by_cases h : i = d
  · simp [h, polyCoef]
  · by_cases h2 : d ≤ i
    · have : i - d = (i - d - 1) + 1 := by omega
      rw [if_pos h2, this]
      simp [h, polyCoef]
    · simp [h, h2]

theorem length_mono_le (d : Nat) (c : Byte) : (polyMono d c).length ≤ d + 1 :=
  (length_trim_le _).trans (by simp)

/-- `mulmono(A, d, c)[i]` (40_gf.md R174). -/
@[simp] theorem polyCoef_mulmono (f : Field) (a : List Byte) (d : Nat) (c : Byte) (i : Nat) :
    polyCoef (polyMulmono f a d c) i = if d ≤ i then gfMul f (polyCoef a (i - d)) c else 0 := by
  rw [polyMulmono, polyCoef_trim, polyCoef_shift]
  by_cases h : d ≤ i
  · rw [if_pos h, if_pos h, polyCoef_map (fun x => gfMul f x c) (gfMul_zero_left f c)]
  · rw [if_neg h, if_neg h]

theorem length_mulmono_le (f : Field) (a : List Byte) (d : Nat) (c : Byte) :
    (polyMulmono f a d c).length ≤ d + a.length := (length_trim_le _).trans (by simp)

/-! ### Registers -/

/-- The coefficient of x^i in a register's value is its byte i (40_gf.md R170). -/
theorem polyCoef_polyOf (s : State) (r : PReg) (i : Nat) :
    polyCoef (s.polyOf r) i = if i < 256 then (s.poly r).byte i else 0 := by
  rw [State.polyOf, polyCoef_trim]
  unfold polyCoef
  by_cases h : i < 256
  · rw [Memory.getD_bytes _ _ _ h, if_pos h]
  · simp [h]

theorem length_polyOf_le (s : State) (r : PReg) : (s.polyOf r).length ≤ 256 :=
  (length_trim_le _).trans (by simp)

/-- What writing a polynomial leaves in the bytes of its register (40_gf.md R173). -/
theorem byte_putPoly (s : State) (r : PReg) (f : Field) (a : List Byte) (i : Nat) :
    ((s.putPoly r f a).poly r).byte i = polyCoef a i := by
  simp [polyCoef]

theorem wf_putPoly (a : List Byte) (h : a.length ≤ 256) : (Memory.ofBytes a).wf 256 = true := Memory.wf_ofBytes h

end Sys2Proof.Machine
end

