-- ==== Sys2Proof/Tests/Slice0.lean ====
section
/-!
SUPPORT. Tests of the model: ill-formed commands, words written out from the encodings, one step per command with results
from the rules' worked examples (the rule is named in each comment), and a witness for the hypotheses of every statement.
-/

namespace Sys2Proof.Tests

set_option Elab.async false

open Sys2Proof Sys2Proof.Machine

/-! ### Helpers -/

/-- A state with ARG0, ARG1, … as listed. -/
def withArgs (s : State) (xs : List Nat) : State :=
  { s with arg := Vector.ofFn fun i => BitVec.ofNat 32 (xs.getD i.val 0) }

/-- The reset state with ARG0, ARG1, … as listed. -/
def args (xs : List Nat) : State := withArgs State.reset xs

/-- A memory of bytes, the rest 0. -/
def mem (xs : List Nat) : Memory := Memory.ofBytes (xs.map (BitVec.ofNat 8))

/-- A state with the BitArray of size `n` in the bytes `xs`. -/
def rowState (n : Nat) (xs : List Nat) : State := { State.reset with rowSize := BitVec.ofNat 13 n, row := mem xs }

/-- A state with a matrix MAT0 of width `w` and height `h` in the bytes `xs`. -/
def matState (w h : Nat) (xs : List Nat) : State :=
  { State.reset with dim0 := ⟨BitVec.ofNat 16 w, BitVec.ofNat 16 h⟩, mat0 := mem xs }

/-- A property of the next state. -/
def after (r : Result) (p : State → Bool) : Bool :=
  match r with
  | .next t => p t
  | _ => false

/-- Completion with OK and a property of the next state. -/
def okAfter (r : Result) (p : State → Bool) : Bool := after r fun t => t.code == .ok && t.done && !t.busy && p t

/-- Completion with a failure. -/
def failsWith (r : Result) (c : Code) (k : Nat) : Bool :=
  after r fun t => t.code == c && t.check == BitVec.ofNat 8 k && t.err && t.done && !t.busy

/-! ### Well-formedness: an ill-formed command for each check -/

/-- P_DIV with equal destinations is refused (30_encoding.md R118). -/
theorem test_wf_pdiv : (Instr.pDiv .qr .p1 .p0 .p0 .p1).wf = false ∧ (Instr.pDiv .qr .p2 .p0 .p0 .p1).wf = true := by
  decide

/-- The check character is refused outside Code 39 (30_encoding.md R118). -/
theorem test_wf_decode : (Instr.odDecode true .itf).wf = false ∧ (Instr.odDecode true .code39).wf = true := by decide

/-! ### Decoding: words from the formats and opcode map of 30_encoding.md -/

theorem test_decode_gf :
    decode 0x00000000 = .ok .nop ∧
      decode 0x10000000 = .ok (.gfAdd .qr) ∧
      decode 0x11000100 = .ok (.gfMul .dm) ∧
      decode 0x12000000 = .ok (.gfDiv .qr) ∧
      decode 0x13000100 = .ok (.gfInv .dm) ∧
      decode 0x14000000 = .ok (.gfExp .qr) ∧
      decode 0x15000100 = .ok (.gfLog .dm) ∧
      decode 0x30000000 = .ok (.rsEncode .qr) ∧
      decode 0x31000100 = .ok (.rsSyndrome .dm) ∧
      decode 0x32000000 = .ok (.rsDecode .qr) := by
  decide +kernel

theorem test_decode_poly :
    decode 0x20000001 = .ok (.pMono .qr .p1) ∧
      decode 0x21000012 = .ok (.pAdd .qr .p1 .p0 .p2) ∧
      decode 0x2200011B = .ok (.pMul .dm .p1 .p2 .p3) ∧
      decode 0x23000001 = .ok (.pScale .qr .p0 .p1) ∧
      decode 0x2400010D = .ok (.pMulmono .dm .p3 .p1) ∧
      decode 0x250000D2 = .ok (.pDiv .qr .p3 .p1 .p0 .p2) ∧
      decode 0x2600010C = .ok (.pEval .dm .p3) := by
  decide +kernel

theorem test_decode_ba :
    decode 0x40000000 = .ok .baGet ∧
      decode 0x41000000 = .ok .baSet ∧
      decode 0x42000000 = .ok .baFlip ∧
      decode 0x43000000 = .ok .baClear ∧
      decode 0x44000000 = .ok .baSetrange ∧
      decode 0x45000000 = .ok .baIsrange ∧
      decode 0x46000000 = .ok .baNextset ∧
      decode 0x47000000 = .ok .baNextunset ∧
      decode 0x48000000 = .ok .baReverse ∧
      decode 0x49000000 = .ok .baInit := by
  decide +kernel

theorem test_decode_bm :
    decode 0x50000000 = .ok (.bmInit .m0) ∧
      decode 0x51000200 = .ok (.bmGet .m1) ∧
      decode 0x52000000 = .ok (.bmSet .m0) ∧
      decode 0x53000200 = .ok (.bmUnset .m1) ∧
      decode 0x54000000 = .ok (.bmFlip .m0) ∧
      decode 0x55000200 = .ok (.bmClear .m1) ∧
      decode 0x56000000 = .ok (.bmSetregion .m0) ∧
      decode 0x57000200 = .ok (.bmGetrow .m1) ∧
      decode 0x58000000 = .ok (.bmRot180 .m0) ∧
      decode 0x59000200 = .ok (.bmXor .m1) ∧
      decode 0x5A000000 = .ok (.bmCopy .m0) ∧
      decode 0x5B000200 = .ok (.bmTopleft .m1) ∧
      decode 0x5C000000 = .ok (.bmBotright .m0) := by
  decide +kernel

theorem test_decode_pt :
    decode 0x60000000 = .ok .ptS2q ∧
      decode 0x61000000 = .ok .ptQ2s ∧
      decode 0x62000000 = .ok .ptQ2q ∧
      decode 0x63000000 = .ok .ptAdj ∧
      decode 0x64000000 = .ok .ptTimes ∧
      decode 0x65000000 = .ok .ptCopy ∧
      decode 0x66000000 = .ok .ptXform ∧
      decode 0x67000200 = .ok (.gridSample .m1) := by
  decide +kernel

theorem test_decode_od :
    decode 0x70000000 = .ok .odRuns ∧
      decode 0x71000004 = .ok (.odPmatch .codabar) ∧
      decode 0x72000010 = .ok (.odDecode true .code39) ∧
      decode 0x72000003 = .ok (.odDecode false .itf) ∧
      decode 0x7300002D = .ok (.odMulti true 0b01101) := by
  decide +kernel

/-- The three refusals, at the edges of the unassigned ranges and of the reserved fields (30_encoding.md R118, R120). -/
theorem test_decode_refused :
    decode 0x0F000000 = .error .unassignedOpcode ∧ decode 0x74000000 = .error .unassignedOpcode ∧
      decode 0x00000001 = .error .mustBeZero ∧ decode 0x26000001 = .error .mustBeZero ∧
      decode 0x71000010 = .error .mustBeZero ∧ decode 0x71000007 = .error .reservedField ∧
      decode 0x72000011 = .error .reservedField ∧ decode 0x25000041 = .error .reservedField := by
  decide +kernel

theorem test_decode_table_word : decodeTableWord 32 0x44000000 = some .baSetrange := by decide +kernel

/-- A placed word is what the next step runs. -/
theorem test_fetch_word : okAfter (step (State.reset.withFetchWord 32 0)) (fun t => t.lastcmd == 0) = true := by
  decide +kernel

/-! ### One step per command -/

/-- 46_control.md R450: ERR stays. -/
theorem test_nop :
    okAfter (exec .nop { State.reset with err := true, code := .illegalCommand, done := true, check := 2 })
      (fun t => t.statusWord == 6 && t.check == 0) = true := by
  decide +kernel

/-- 40_gf.md R160. -/
theorem test_gf_add :
    okAfter (exec (.gfAdd .qr) (args [0x53, 0xCA])) (fun t => t.res[0] == 0x99) = true := by
  decide +kernel

/-- 40_gf.md R161, both fields. -/
theorem test_gf_mul :
    okAfter (exec (.gfMul .qr) (args [2, 0x80])) (fun t => t.res[0] == 0x1D) = true ∧
      okAfter (exec (.gfMul .dm) (args [2, 0x80])) (fun t => t.res[0] == 0x2D) = true := by
  decide +kernel

/-- 40_gf.md R162. -/
theorem test_gf_div :
    okAfter (exec (.gfDiv .qr) (args [0x53, 0xCA])) (fun t => t.res[0] == 0x6D) = true ∧
      okAfter (exec (.gfDiv .dm) (args [0x53, 0xCA])) (fun t => t.res[0] == 0xD2) = true ∧
      failsWith (exec (.gfDiv .qr) (args [1, 0])) .arithmetic 3 = true := by
  decide +kernel

/-- 40_gf.md R163. -/
theorem test_gf_inv :
    okAfter (exec (.gfInv .qr) (args [2])) (fun t => t.res[0] == 0x8E) = true ∧
      okAfter (exec (.gfInv .dm) (args [2])) (fun t => t.res[0] == 0x96) = true := by
  decide +kernel

/-- 40_gf.md R164, with the corner 255. -/
theorem test_gf_exp :
    okAfter (exec (.gfExp .dm) (args [8])) (fun t => t.res[0] == 0x2D) = true ∧
      okAfter (exec (.gfExp .qr) (args [255])) (fun t => t.res[0] == 1) = true := by
  decide +kernel

/-- 40_gf.md R165. -/
theorem test_gf_log :
    okAfter (exec (.gfLog .qr) (args [3])) (fun t => t.res[0] == 25) = true ∧
      okAfter (exec (.gfLog .dm) (args [3])) (fun t => t.res[0] == 240) = true ∧
      failsWith (exec (.gfLog .qr) (args [0])) .arithmetic 2 = true := by
  decide +kernel

/-- 40_gf.md R175. -/
theorem test_p_mono :
    okAfter (exec (.pMono .qr .p1) (args [3, 7])) (fun t => t.p1 == mem [0, 0, 0, 7] && t.readLoc .pdeg == 0x300) = true ∧
      failsWith (exec (.pMono .qr .p1) (args [0xFFFFFFFF, 7])) .arithmetic 2 = true := by
  decide +kernel

/-- 40_gf.md R176. -/
theorem test_p_add :
    okAfter (exec (.pAdd .qr .p1 .p0 .p2) { State.reset with p0 := mem [1, 2, 3], p1 := mem [5, 0, 7] })
      (fun t => t.p2 == mem [4, 2, 4]) = true := by
  decide +kernel

/-- 40_gf.md R177, into a source and with the tag. -/
theorem test_p_mul :
    okAfter (exec (.pMul .dm .p1 .p0 .p0) { State.reset with pfld := 3, p0 := mem [1, 2, 3], p1 := mem [5, 0, 7] })
      (fun t => t.p0 == mem [5, 0x0A, 8, 0x0E, 9] && t.pfld == 3) = true := by
  decide +kernel

/-- 40_gf.md R178. -/
theorem test_p_scale :
    okAfter (exec (.pScale .qr .p0 .p1) { args [0x80] with p0 := mem [1, 2, 3] })
      (fun t => t.p1 == mem [0x80, 0x1D, 0x9D]) = true := by
  decide +kernel

/-- 40_gf.md R179. -/
theorem test_p_mulmono :
    okAfter (exec (.pMulmono .qr .p0 .p1) { args [2, 3] with p0 := mem [1, 2, 3] })
      (fun t => t.p1 == mem [0, 0, 3, 6, 5]) = true := by
  decide +kernel

/-- 40_gf.md R180. -/
theorem test_p_div :
    okAfter (exec (.pDiv .qr .p3 .p1 .p0 .p2)
      { State.reset with p0 := mem [0x10, 0x20, 0x30, 0x40, 0x50], p1 := mem [3, 1] })
      (fun t => t.p2 == mem [0x3A, 0xFD, 0xB0, 0x50] && t.p3 == mem [0x5E]) = true := by
  decide +kernel

/-- 40_gf.md R181; a tag mismatch fails. -/
theorem test_p_eval :
    okAfter (exec (.pEval .qr .p0) { args [2] with p0 := mem [1, 2, 3] }) (fun t => t.res[0] == 9) = true ∧
      failsWith (exec (.pEval .dm .p0) (args [2])) .illegalArgument 1 = true := by
  decide +kernel

/-- The codeword of the example of 41_rs.md R203. -/
def codeword : List Nat :=
  [0x10, 0x20, 0x0C, 0x56, 0x61, 0x80, 0xEC, 0x11, 0xEC, 0x11, 0xEC, 0x11, 0xEC, 0x11, 0xEC, 0x11, 0xA5, 0x24, 0xD4, 0xC1,
    0xED, 0x36, 0xC7, 0x87, 0x2C, 0x55]

/-- The codeword with bytes 0 and 20 changed, as in the example of 41_rs.md R206. -/
def received : List Nat := (codeword.set 0 0x45).set 20 0xEC

/-- 41_rs.md R203. -/
theorem test_rs_encode :
    okAfter (exec (.rsEncode .qr) { args [26, 10] with cw := mem (codeword.take 16) })
      (fun t => t.cw == mem codeword && t.readLoc .gendeg == 0x0A) = true := by
  decide +kernel

/-- 41_rs.md R205. -/
theorem test_rs_syndrome :
    okAfter (exec (.rsSyndrome .qr) { args [26, 10] with cw := mem codeword })
      (fun t => t.res[0] == 1 && t.syn == Memory.zeros) = true := by
  decide +kernel

/-- 41_rs.md R206. -/
theorem test_rs_decode :
    okAfter (exec (.rsDecode .qr) { args [26, 10] with cw := mem received })
      (fun t => t.cw == mem codeword && t.res[0] == 2 && t.eloc == mem [20, 0] && t.emag == mem [1, 0x55]) = true := by
  decide +kernel

/-- 42_bitarray.md R255. -/
theorem test_ba_get :
    okAfter (exec .baGet (withArgs (rowState 10 [8]) [3])) (fun t => t.res[0] == 1) = true ∧
      failsWith (exec .baGet (withArgs (rowState 10 [8]) [10])) .illegalArgument 1 = true := by
  decide +kernel

/-- 42_bitarray.md R256. -/
theorem test_ba_set :
    okAfter (exec .baSet (withArgs (rowState 40 []) [33])) (fun t => t.row.word 1 == 2 && t.row.word 0 == 0) = true := by
  decide +kernel

/-- 42_bitarray.md R257. -/
theorem test_ba_flip :
    okAfter (exec .baFlip (withArgs (rowState 10 [2]) [0])) (fun t => t.row.word 0 == 3) = true := by
  decide +kernel

/-- 42_bitarray.md R258. -/
theorem test_ba_clear :
    okAfter (exec .baClear (rowState 40 [7, 9])) (fun t => t.row == Memory.zeros && t.rowSize == 40) = true := by
  decide +kernel

/-- 42_bitarray.md R259, across a word boundary. -/
theorem test_ba_setrange :
    okAfter (exec .baSetrange (withArgs (rowState 64 []) [30, 34]))
      (fun t => t.row.word 0 == 0xC0000000 && t.row.word 1 == 3) = true := by
  decide +kernel

/-- 42_bitarray.md R261. -/
theorem test_ba_isrange :
    okAfter (exec .baIsrange (withArgs (rowState 64 [0, 0, 0, 0xC0, 3]) [30, 34, 1])) (fun t => t.res[0] == 1) = true ∧
      okAfter (exec .baIsrange (withArgs (rowState 64 [0, 0, 0, 0xC0, 3]) [29, 34, 1])) (fun t => t.res[0] == 0) = true := by
  decide +kernel

/-- 42_bitarray.md R262. -/
theorem test_ba_nextset :
    okAfter (exec .baNextset (withArgs (rowState 64 [0, 0, 0, 0xC0, 3]) [0])) (fun t => t.res[0] == 30) = true ∧
      okAfter (exec .baNextset (withArgs (rowState 64 [0, 0, 0, 0xC0, 3]) [34])) (fun t => t.res[0] == 64) = true := by
  decide +kernel

/-- 42_bitarray.md R263. -/
theorem test_ba_nextunset :
    okAfter (exec .baNextunset (withArgs (rowState 64 [0, 0, 0, 0xC0, 3]) [30])) (fun t => t.res[0] == 34) = true := by
  decide +kernel

/-- 42_bitarray.md R264; the padding bit 12 becomes 0. -/
theorem test_ba_reverse :
    okAfter (exec .baReverse (rowState 10 [1, 0x10])) (fun t => t.row.word 0 == 0x200) = true := by
  decide +kernel

/-- 42_bitarray.md R260. -/
theorem test_ba_init :
    okAfter (exec .baInit (withArgs (rowState 7 [1]) [100])) (fun t => t.rowSize == 100 && t.row == Memory.zeros) = true ∧
      failsWith (exec .baInit (args [4097])) .illegalArgument 1 = true := by
  decide +kernel

/-- 43_bitmatrix.md R300, with the capacity corner 2048×1024 and one row past it. -/
theorem test_bm_init :
    okAfter (exec (.bmInit .m0) (args [40, 3])) (fun t => t.readLoc (.dim .m0) == 0x00030028 && t.mat0 == Memory.zeros) = true ∧
      okAfter (exec (.bmInit .m1) (args [2048, 1024])) (fun t => t.mat1 == Memory.zeros) = true ∧
      failsWith (exec (.bmInit .m0) (args [2048, 1025])) .illegalArgument 3 = true := by
  decide +kernel

/-- The 40×3 matrix after the example of 43_bitmatrix.md R306. -/
def region : State := matState 40 3 [0, 0, 0, 0, 0, 0, 0, 0, 0, 0, 0, 0xC0, 3, 0, 0, 0, 0, 0, 0, 0xC0, 3]

/-- 43_bitmatrix.md R301; x past the width fails. -/
theorem test_bm_get :
    okAfter (exec (.bmGet .m0) (withArgs region [33, 2])) (fun t => t.res[0] == 1) = true ∧
      failsWith (exec (.bmGet .m0) (withArgs region [40, 2])) .illegalArgument 2 = true := by
  decide +kernel

/-- 43_bitmatrix.md R302. -/
theorem test_bm_set :
    okAfter (exec (.bmSet .m0) (withArgs (matState 40 3 []) [33, 2])) (fun t => t.readLoc (locOf 0x40014) == 2) = true := by
  decide +kernel

/-- 43_bitmatrix.md R303. -/
theorem test_bm_unset :
    okAfter (exec (.bmUnset .m0) (withArgs region [33, 2])) (fun t => t.readLoc (locOf 0x40014) == 1) = true := by
  decide +kernel

/-- 43_bitmatrix.md R304. -/
theorem test_bm_flip :
    okAfter (exec (.bmFlip .m0) (withArgs (matState 40 3 []) [0, 0])) (fun t => t.mat0 == mem [1]) = true := by
  decide +kernel

/-- 43_bitmatrix.md R305; an uninitialised matrix fails. -/
theorem test_bm_clear :
    okAfter (exec (.bmClear .m0) region) (fun t => t.mat0 == Memory.zeros && t.dim0 == region.dim0) = true ∧
      failsWith (exec (.bmClear .m1) region) .illegalArgument 1 = true := by
  decide +kernel

/-- 43_bitmatrix.md R306; the sum does not wrap. -/
theorem test_bm_setregion :
    okAfter (exec (.bmSetregion .m0) (withArgs (matState 40 3 []) [30, 1, 4, 2])) (fun t => t.mat0 == region.mat0) = true ∧
      failsWith (exec (.bmSetregion .m0) (withArgs region [1, 0, 0x7FFFFFFF, 1])) .illegalArgument 4 = true := by
  decide +kernel

/-- 43_bitmatrix.md R307. -/
theorem test_bm_getrow :
    okAfter (exec (.bmGetrow .m0) (withArgs region [1]))
      (fun t => t.rowSize == 40 && t.row.word 0 == 0xC0000000 && t.row.word 1 == 3) = true := by
  decide +kernel

/-- 43_bitmatrix.md R308. -/
theorem test_bm_rot180 :
    okAfter (exec (.bmRot180 .m0) region) (fun t => t.mat0 == mem [0xC0, 3, 0, 0, 0, 0, 0, 0, 0xC0, 3]) = true := by
  decide +kernel

/-- 43_bitmatrix.md R309. -/
theorem test_bm_xor :
    okAfter (exec (.bmXor .m0) { matState 2 1 [1] with dim1 := ⟨2, 1⟩, mat1 := mem [3] })
      (fun t => t.mat0 == mem [2] && t.mat1 == mem [3]) = true ∧
      failsWith (exec (.bmXor .m0) { matState 2 1 [1] with dim1 := ⟨1, 2⟩ }) .illegalArgument 3 = true := by
  decide +kernel

/-- 43_bitmatrix.md R310. -/
theorem test_bm_copy :
    okAfter (exec (.bmCopy .m0) region) (fun t => t.mat1 == region.mat0 && t.dim1 == region.dim0) = true := by
  decide +kernel

/-- 43_bitmatrix.md R311. -/
theorem test_bm_topleft :
    okAfter (exec (.bmTopleft .m0) region) (fun t => t.res[0] == 30 && t.res[1] == 1 && t.res[2] == 1) = true ∧
      okAfter (exec (.bmTopleft .m0) (matState 40 3 [0, 0, 0, 0, 0, 1])) (fun t => t.res[0] == 0xFFFFFFFF && t.res[2] == 0) = true := by
  decide +kernel

/-- 43_bitmatrix.md R312. -/
theorem test_bm_botright :
    okAfter (exec (.bmBotright .m0) region) (fun t => t.res[0] == 33 && t.res[1] == 2 && t.res[2] == 1) = true := by
  decide +kernel

/-- 44_sampler.md R336, the affine example. -/
theorem test_pt_s2q :
    okAfter (exec .ptS2q { State.reset with f := #v[0x4024000000000000, 0x4034000000000000, 0x405B800000000000, 0x4034000000000000, 0x405B800000000000, 0x405E000000000000, 0x4024000000000000, 0x405E000000000000, 0x0000000000000000, 0x0000000000000000, 0x0000000000000000, 0x0000000000000000, 0x0000000000000000, 0x0000000000000000, 0x0000000000000000, 0x0000000000000000] })
      (fun t => t.ta == #v[0x4059000000000000, 0x0000000000000000, 0x4024000000000000, 0x0000000000000000, 0x4059000000000000, 0x4034000000000000, 0x0000000000000000, 0x0000000000000000, 0x3FF0000000000000]) = true := by
  decide +kernel

/-- 44_sampler.md R337. -/
theorem test_pt_q2s :
    okAfter (exec .ptQ2s { State.reset with f := #v[0x0000000000000000, 0x0000000000000000, 0x4059000000000000, 0x4024000000000000, 0x4056800000000000, 0x405B800000000000, 0xC014000000000000, 0x4057C00000000000, 0x0000000000000000, 0x0000000000000000, 0x0000000000000000, 0x0000000000000000, 0x0000000000000000, 0x0000000000000000, 0x0000000000000000, 0x0000000000000000] })
      (fun t => t.ta == #v[0x4058DB85F80A9C85, 0x4014EEC1A874B9B3, 0x8000000000000000, 0xC022DC2FC054E425, 0x4057933BB06A1D2E, 0x0000000000000000, 0x40186D4D8B57E502, 0xC010658CF01376A1, 0x40C268D3C2B929D6]) = true := by
  decide +kernel

/-- 44_sampler.md R338. -/
theorem test_pt_q2q :
    okAfter (exec .ptQ2q { State.reset with f := #v[0x400C000000000000, 0x400C000000000000, 0x4031800000000000, 0x400C000000000000, 0x4031800000000000, 0x4031800000000000, 0x400C000000000000, 0x4031800000000000, 0x4024000000000000, 0x4024000000000000, 0x4054000000000000, 0x4028000000000000, 0x4054800000000000, 0x4055400000000000, 0x4022000000000000, 0x4054C00000000000] })
      (fun t => t.ta == #v[0x408EAA1884AFF476, 0xC0332E95B4B6E0B4, 0xC095FD1EB851EB84, 0x403C3075B0196237, 0x408E71AF85B26822, 0xC09831999999999C, 0x3F90273AB320BD3A, 0xBFE26CBEF45157D5, 0x4068BEB851EB851F]) = true := by
  decide +kernel

/-- 44_sampler.md R339. -/
theorem test_pt_adj :
    okAfter (exec .ptAdj { State.reset with ta := #v[0x4040000000000000, 0x0000000000000000, 0x0000000000000000, 0x0000000000000000, 0x4040000000000000, 0x0000000000000000, 0x0000000000000000, 0x0000000000000000, 0x4030000000000000] })
      (fun t => t.ta == #v[0x4080000000000000, 0x0000000000000000, 0x0000000000000000, 0x0000000000000000, 0x4080000000000000, 0x0000000000000000, 0x0000000000000000, 0x0000000000000000, 0x4090000000000000]) = true := by
  decide +kernel

/-- 44_sampler.md R340. -/
theorem test_pt_times :
    okAfter (exec .ptTimes { State.reset with ta := #v[0x4040000000000000, 0x0000000000000000, 0x0000000000000000, 0x0000000000000000, 0x4040000000000000, 0x0000000000000000, 0x0000000000000000, 0x0000000000000000, 0x4030000000000000], tb := #v[0x4080000000000000, 0x0000000000000000, 0x0000000000000000, 0x0000000000000000, 0x4080000000000000, 0x0000000000000000, 0x0000000000000000, 0x0000000000000000, 0x4090000000000000] })
      (fun t => t.ta == #v[0x40D0000000000000, 0x0000000000000000, 0x0000000000000000, 0x0000000000000000, 0x40D0000000000000, 0x0000000000000000, 0x0000000000000000, 0x0000000000000000, 0x40D0000000000000]) = true := by
  decide +kernel

/-- 44_sampler.md R341: a NaN with a payload is copied bit for bit. -/
theorem test_pt_copy :
    okAfter (exec .ptCopy { State.reset with ta := Vector.replicate 9 0x7FF8000000000123 })
      (fun t => t.tb == Vector.replicate 9 0x7FF8000000000123) = true := by
  decide +kernel

/-- 44_sampler.md R342. -/
theorem test_pt_xform :
    okAfter (exec .ptXform { State.reset with ta := s2q #v[0x0000000000000000, 0x0000000000000000, 0x4059000000000000, 0x4024000000000000, 0x4056800000000000, 0x405B800000000000, 0xC014000000000000, 0x4057C00000000000], f := #v[0x3FE0000000000000, 0x3FE0000000000000, 0x0000000000000000, 0x0000000000000000, 0x0000000000000000, 0x0000000000000000, 0x0000000000000000, 0x0000000000000000, 0x0000000000000000, 0x0000000000000000, 0x0000000000000000, 0x0000000000000000, 0x0000000000000000, 0x0000000000000000, 0x0000000000000000, 0x0000000000000000] })
      (fun t => t.f[0] == 0x4046620000000000 && t.f[1] == 0x404B5B5555555556) = true := by
  decide +kernel

/-- 44_sampler.md R347: points 1, 3, 5, 7, the last nudged to 6. -/
theorem test_grid_sample :
    okAfter (exec (.gridSample .m0) { withArgs (matState 7 7 [85, 0, 0, 0, 42, 0, 0, 0, 85, 0, 0, 0, 42, 0, 0, 0, 85, 0, 0, 0, 42, 0, 0, 0, 85, 0, 0, 0]) [4, 4] with ta := #v[0x4040000000000000, 0x0000000000000000, 0x0000000000000000, 0x0000000000000000, 0x4040000000000000, 0x0000000000000000, 0x0000000000000000, 0x0000000000000000, 0x4030000000000000] })
      (fun t => t.mat1 == mem [7, 0, 0, 0, 7, 0, 0, 0, 7, 0, 0, 0, 8] && t.readLoc (.dim .m1) == 0x00040004) = true := by
  decide +kernel

/-- The Code 39 row `*A1*` of 45_matcher.md R397. -/
def row39 : State :=
  rowState 71 [0x00, 0xA4, 0xAD, 0x95, 0xB6, 0xD4, 0xD2, 0x16, 0x00]

/-- The Code 93 row of 45_matcher.md R397. -/
def row93 : State :=
  rowState 75 [0x00, 0xD4, 0x5B, 0x51, 0xA2, 0x46, 0xA2, 0x7A, 0x01, 0x00]

/-- The Code 128 row of 45_matcher.md R397. -/
def row128 : State :=
  rowState 77 [0x00, 0x2C, 0xA1, 0x18, 0x39, 0x0B, 0xD9, 0xB8, 0x06, 0x00]

/-- The ITF row 1234 of 45_matcher.md R397. -/
def rowItf : State :=
  rowState 56 [0x00, 0xD4, 0x52, 0xB3, 0xA5, 0x2C, 0x00]

/-- The Codabar row `A12B` of 45_matcher.md R397. -/
def rowCodabar : State :=
  rowState 61 [0x00, 0x34, 0xA9, 0xA6, 0xD2, 0x92, 0x06, 0x00]

/-- 45_matcher.md R390. -/
theorem test_od_runs :
    okAfter (exec .odRuns row39)
      (fun t => t.res[0] == 40 && t.res[1] == 10 && t.nruns == 40 &&
        (List.range 12).map (fun k => (t.run.half k).toNat) == [1, 2, 1, 1, 2, 1, 2, 1, 1, 1, 2, 1]) = true := by
  decide +kernel

/-- 45_matcher.md R391: `A` on runs 10 to 18. -/
theorem test_od_pmatch :
    okAfter (exec (.odPmatch .code39)
      { withArgs State.reset [10] with nruns := 40, run := Memory.zeros.writeHalves 10 [2, 1, 1, 1, 1, 2, 1, 1, 2] })
      (fun t => t.res[0] == 10 && t.res[1] == 0) = true := by
  decide +kernel

/-- 95_test_vectors.md OD-P7, from runs the host wrote; no row is named, and ROWSIZE is 0 (log 18). -/
theorem test_od_pmatch_host_runs :
    okAfter (exec (.odPmatch .code39)
      { State.reset with nruns := 9, run := Memory.zeros.writeHalves 0 [1, 3, 1, 1, 2, 1, 2, 1, 1] })
      (fun t => t.res[0] == 43 && t.res[1] == 32) = true := by
  decide +kernel

/-- 45_matcher.md R397: Code 39 without and with the check character. -/
theorem test_od_decode :
    okAfter (exec (.odDecode false .code39) row39)
      (fun t => t.odres == mem [43, 10, 1, 43] && t.res[0] == 4 && t.res[1] == 10 && t.res[2] == 22 && t.res[3] == 49 && t.res[4] == 61 && t.res[5] == 0) = true ∧
      failsWith (exec (.odDecode true .code39) row39) .checksum 10 = true := by
  decide +kernel

/-- 45_matcher.md R397: Code 93 and Code 128. -/
theorem test_od_decode_checksums :
    okAfter (exec (.odDecode false .code93) row93)
      (fun t => t.odres == mem [47, 10, 1, 21, 6, 47] && t.res[0] == 6 && t.res[1] == 10 && t.res[2] == 19 && t.res[3] == 55 && t.res[4] == 65 && t.res[5] == 1) = true ∧
      okAfter (exec (.odDecode false .code128) row128)
      (fun t => t.odres == mem [104, 33, 17, 68, 106] && t.res[0] == 5 && t.res[1] == 10 && t.res[2] == 21 && t.res[3] == 54 && t.res[4] == 67 && t.res[5] == 2) = true := by
  decide +kernel

/-- 45_matcher.md R398: the ITF row falls through to ITF; without ITF nothing decodes it. -/
theorem test_od_multi :
    okAfter (exec (.odMulti false 0b11111) rowItf) (fun t => t.res[0] == 4 && t.res[5] == 3 && t.odres == mem [1, 2, 3, 4]) = true ∧
      failsWith (exec (.odMulti false 0b00111) rowItf) .notFound 2 = true := by
  decide +kernel

/-! ### Witnesses: a state and operands that meet the hypotheses of each statement, clause by clause -/

theorem test_witness_EncodingIsBijection :
    (Instr.pDiv .qr .p3 .p1 .p0 .p2).wf = true ∧ decode 0x250000D2 = .ok (.pDiv .qr .p3 .p1 .p0 .p2) := by decide +kernel

theorem test_witness_DecodeChecksInOrder :
    ¬ assigned ((0x0F000000 : Word) >>> 24).toNat ∧
      (assigned ((0x00000001 : Word) >>> 24).toNat ∧
        (0x00000001 : Word) &&& ~~~(maskUsed ((0x00000001 : Word) >>> 24).toNat) ≠ 0) ∧
      (assigned ((0x72000011 : Word) >>> 24).toNat ∧
        (0x72000011 : Word) &&& ~~~(maskUsed ((0x72000011 : Word) >>> 24).toNat) = 0 ∧ reservedFields 0x72000011) ∧
      (assigned ((0x71000004 : Word) >>> 24).toNat ∧
        (0x71000004 : Word) &&& ~~~(maskUsed ((0x71000004 : Word) >>> 24).toNat) = 0 ∧ ¬ reservedFields 0x71000004) := by
  refine ⟨?_, ⟨?_, ?_⟩, ⟨?_, ?_, ?_⟩, ?_, ?_, ?_⟩ <;> first | decide +kernel | (delta assigned; decide +kernel) |
    (delta reservedFields; decide +kernel)

/-- The reset state with the words `es` at the port. -/
def atPort (es : List PortEvent) : State := { State.reset with port := es }

/-- The same state running BA_SETRANGE, one port event before its completion. -/
def busyAt (es : List PortEvent) : State := { atPort es with executor := .running 0x44000000 1 }

theorem test_witness_StepRunsDecoded :
    (State.reset.withFetchWord 32 0x44000000).executor = .running 0x44000000 0 ∧
      decode 0x44000000 = .ok .baSetrange := by decide +kernel

theorem test_witness_StepServesPort :
    ((atPort [.porRelease]).executor = .idle ∧ (atPort [.porRelease]).port = [.porRelease]) ∧
      ((busyAt [.porAssert]).executor = .running 0x44000000 (0 + 1) ∧ (busyAt [.porAssert]).port = [.porAssert]) ∧
      ((busyAt []).executor = .running 0x44000000 (0 + 1) ∧ (busyAt []).port = []) ∧
      ((atPort []).executor = .idle ∧ (atPort []).port = []) := by decide +kernel

/-- A good state about to run BA_CLEAR, and the state its step gives. -/
theorem test_witness_StepKeepsInv :
    (State.reset.withFetchWord 32 0x43000000).Inv ∧
      ∃ t, step (State.reset.withFetchWord 32 0x43000000) = .next t := by
  refine ⟨⟨fun id => ?_, by decide, fun m => by cases m <;> decide, fun f => ⟨0, by decide, ?_⟩, fun id k => ?_,
    fun h => ?_⟩, _, rfl⟩
  · cases id with
    | p r => cases r <;> decide +kernel
    | mat m => cases m <;> decide +kernel
    | _ => decide +kernel
  · cases f <;> (delta State.CacheHolds; decide +kernel)
  · cases id with
    | p r => cases r <;> simp [State.withFetchWord, State.reset, State.memory, State.poly]
    | mat m => cases m <;> (intro h; cases h; decide)
    | _ => intro h; cases h; decide
  · simp [State.withFetchWord, State.reset] at h

theorem test_witness_NopCompletes : (1 : Word) ≠ 0 ∧ (1 : Word) >>> 24 = 0 := by decide

theorem test_witness_IllegalWordCompletes :
    ∀ ve ∈ [((0x01000000 : Dword), DecodeError.unassignedOpcode), (0x40000001, .mustBeZero), (0x25000041, .reservedField)],
      (atPort [.write .w32 0x010 ve.1]).executor = .idle ∧ (atPort [.write .w32 0x010 ve.1]).porHeld = false ∧
        (atPort [.write .w32 0x010 ve.1]).port = .write .w32 0x010 ve.1 :: [] ∧
        (atPort [.write .w32 0x010 ve.1]).latencies.headD 0 = 0 ∧ decode (ve.1.setWidth 32) = .error ve.2 := by
  decide +kernel

/-- Both kinds of completion occur. -/
theorem test_witness_EveryCommandCompletes :
    after (exec .baClear State.reset) (fun t => t.code == .ok) = true ∧
      after (exec (.bmClear .m0) State.reset) (fun t => t.code != .ok) = true := by decide +kernel

theorem test_witness_FailuresAreListed :
    exec (.bmClear .m0) State.reset = .next (State.reset.complete .illegalArgument 1) ∧
      (State.reset.complete .illegalArgument 1).code ≠ .ok := ⟨rfl, by decide⟩

theorem test_witness_CommandFrames :
    exec (.bmClear .m0) State.reset = .next (State.reset.complete .illegalArgument 1) ∧
      MemId.mat .m1 ∉ outMems (.bmClear .m0) ∧ outRes (.bmClear .m0) ≤ (0 : Fin 8).val ∧
      MemId.p .p3 ∉ outMems (.bmClear .m0) ∧ (∀ m, Instr.bmClear .m0 ≠ .bmGetrow m) ∧
      (∀ m, Instr.bmClear .m0 ∉ [Instr.bmInit m, .bmCopy m.other, .gridSample m.other]) ∧
      (∀ f, Instr.bmClear .m0 ≠ .rsEncode f) := by
  refine ⟨rfl, by decide, by decide, by decide, by simp, by simp, by simp⟩

theorem test_witness_GfAddMulArePolynomial :
    255 < (args [256]).argU 0 ∧ ((args [255, 256]).argU 0 ≤ 255 ∧ 255 < (args [255, 256]).argU 1) ∧
      ((args [255, 255]).argU 0 ≤ 255 ∧ (args [255, 255]).argU 1 ≤ 255) := by decide +kernel

theorem test_witness_GfDivInvUndoProduct :
    255 < (args [256]).argU 0 ∧ ((args [255, 256]).argU 0 ≤ 255 ∧ 255 < (args [255, 256]).argU 1) ∧
      ((args [255, 0]).argU 0 ≤ 255 ∧ (args [255, 0]).argU 1 = 0) ∧
      ((args [0, 255]).argU 0 ≤ 255 ∧ 0 < (args [0, 255]).argU 1 ∧ (args [0, 255]).argU 1 ≤ 255) ∧
      (args [0]).argU 0 = 0 ∧ (0 < (args [255]).argU 0 ∧ (args [255]).argU 0 ≤ 255) := by decide +kernel

theorem test_witness_GfExpLogArePowers :
    255 < (args [256]).argU 0 ∧ (args [255]).argU 0 ≤ 255 ∧ (args [0]).argU 0 = 0 ∧
      (0 < (args [1]).argU 0 ∧ (args [1]).argU 0 ≤ 255) := by decide +kernel

theorem test_witness_FieldLaws : gfMul .qr 0 7 = 0 ∧ (255 : Byte) ≠ 0 := by decide +kernel

theorem test_witness_PMonoBuildsMonomial :
    255 < (args [0, 256]).argU 1 ∧
      ((args [0xFFFFFFFF, 255]).argU 1 ≤ 255 ∧ (args [0xFFFFFFFF, 255]).argS 0 < 0) ∧
      ((args [256, 255]).argU 1 ≤ 255 ∧ 255 < (args [256, 255]).argS 0) ∧
      ((args [255, 255]).argU 1 ≤ 255 ∧ 0 ≤ (args [255, 255]).argS 0 ∧ (args [255, 255]).argS 0 ≤ 255) ∧
      ((args [0, 0]).argU 1 ≤ 255 ∧ 0 ≤ (args [0, 0]).argS 0 ∧ (args [0, 0]).argS 0 ≤ 255) := by decide +kernel

/-- P0 of field 1, the others of field 0. -/
def mixed : State := { State.reset with pfld := 1 }

theorem test_witness_PAddAddsCoefficients :
    mixed.tag .p0 ≠ .qr ∧ (mixed.tag .p1 = .qr ∧ mixed.tag .p0 ≠ .qr) ∧ (mixed.tag .p1 = .qr ∧ mixed.tag .p2 = .qr) := by
  decide +kernel

/-- P0 = x^200, P1 = x^56 and P2 = 3·x^55. -/
def high : State :=
  { State.reset with
    p0 := Memory.zeros.write 200 1, p1 := Memory.zeros.write 56 1, p2 := Memory.zeros.write 55 3 }

theorem test_witness_PMulConvolves :
    (mixed.tag .p0 ≠ .qr ∧ (mixed.tag .p1 = .qr ∧ mixed.tag .p0 ≠ .qr)) ∧
      (high.tag .p0 = .qr ∧ high.tag .p1 = .qr ∧
        ∃ i j, i < 256 ∧ j < 256 ∧ high.coef .p0 i ≠ 0 ∧ high.coef .p1 j ≠ 0 ∧ 255 < i + j) ∧
      (high.tag .p0 = .qr ∧ high.tag .p2 = .qr ∧
        ∀ i j, i < 256 → j < 256 → high.coef .p0 i ≠ 0 → high.coef .p2 j ≠ 0 → i + j ≤ 255) := by
  have h0 : ∀ i, i < 256 → high.coef .p0 i ≠ 0 → i ≤ 200 := by decide +kernel
  have h2 : ∀ j, j < 256 → high.coef .p2 j ≠ 0 → j ≤ 55 := by decide +kernel
  refine ⟨by decide +kernel, ⟨by decide, by decide, 200, 56, by decide +kernel⟩, by decide, by decide,
    fun i j hi hj a b => ?_⟩
  have := h0 i hi a
  have := h2 j hj b
  omega

theorem test_witness_PScaleMulmonoShift :
    mixed.tag .p0 ≠ .qr ∧ ((args [256]).tag .p0 = .qr ∧ 255 < (args [256]).argU 0) ∧
      ((args [255]).tag .p0 = .qr ∧ (args [255]).argU 0 ≤ 255) ∧
      ((args [0, 256]).tag .p0 = .qr ∧ 255 < (args [0, 256]).argU 1) ∧
      ((args [0xFFFFFFFF, 255]).argU 1 ≤ 255 ∧ (args [0xFFFFFFFF, 255]).argS 0 < 0) ∧
      ((args [256, 255]).argU 1 ≤ 255 ∧ 255 < (args [256, 255]).argS 0) ∧
      ((withArgs high [56, 1]).tag .p0 = .qr ∧ (withArgs high [56, 1]).argU 1 ≤ 255 ∧
        0 ≤ (withArgs high [56, 1]).argS 0 ∧ (withArgs high [56, 1]).argS 0 ≤ 255 ∧ (withArgs high [56, 1]).argU 1 ≠ 0 ∧
        ∃ i, i < 256 ∧ (withArgs high [56, 1]).coef .p0 i ≠ 0 ∧ 255 < i + (withArgs high [56, 1]).argU 0) ∧
      ((withArgs high [55, 255]).tag .p0 = .qr ∧ (withArgs high [55, 255]).argU 1 ≤ 255 ∧
        0 ≤ (withArgs high [55, 255]).argS 0 ∧ (withArgs high [55, 255]).argS 0 ≤ 255 ∧
        ∀ i, i < 256 → (withArgs high [55, 255]).coef .p0 i ≠ 0 → i + (withArgs high [55, 255]).argU 0 ≤ 255) ∧
      ((withArgs high [255, 0]).argU 1 = 0 ∧ (withArgs high [255, 0]).argS 0 ≤ 255) := by
  refine ⟨by decide, by decide +kernel, by decide +kernel, by decide +kernel, by decide +kernel, by decide +kernel,
    ⟨by decide, by decide +kernel, by decide +kernel, by decide +kernel, by decide +kernel, 200, by decide +kernel⟩,
    by decide +kernel, by decide +kernel⟩

theorem test_witness_PDivDivides :
    mixed.tag .p0 ≠ .qr ∧ (mixed.tag .p1 = .qr ∧ mixed.tag .p0 ≠ .qr) ∧
      (high.tag .p0 = .qr ∧ high.tag .p3 = .qr ∧ ∀ i, i < 256 → high.coef .p3 i = 0) ∧
      (high.tag .p0 = .qr ∧ high.tag .p1 = .qr ∧ ∃ i, i < 256 ∧ high.coef .p1 i ≠ 0) := by
  refine ⟨by decide, by decide, by decide +kernel, by decide, by decide, 56, by decide +kernel⟩

theorem test_witness_PEvalSumsPowers :
    mixed.tag .p0 ≠ .qr ∧ ((args [256]).tag .p0 = .qr ∧ 255 < (args [256]).argU 0) ∧
      ((args [255]).tag .p0 = .qr ∧ (args [255]).argU 0 ≤ 255) := by decide +kernel

theorem test_witness_RsEncodeMakesCodeword :
    (0 < Config.cwMax ∧ (args [255, 254]).CacheHolds .qr 0 ∧ (args [255, 254]).CacheHolds .dm 0) ∧
      ((args [0]).argU 0 < 1 ∧ 255 < (args [256]).argU 0) ∧
      (1 ≤ (args [1, 0]).argU 0 ∧ (args [1, 0]).argU 0 ≤ 255 ∧ (args [1, 0]).argU 1 = 0) ∧
      (1 ≤ (args [255, 255]).argU 0 ∧ (args [255, 255]).argU 0 ≤ (args [255, 255]).argU 1) ∧
      ((args [255, 254]).argU 0 ≤ 255 ∧ 1 ≤ (args [255, 254]).argU 1 ∧
        (args [255, 254]).argU 1 < (args [255, 254]).argU 0) ∧
      ((args [2, 1]).argU 0 ≤ 255 ∧ 1 ≤ (args [2, 1]).argU 1 ∧ (args [2, 1]).argU 1 < (args [2, 1]).argU 0) := by
  delta State.CacheHolds
  decide +kernel

/-- The codeword of 41_rs.md R203 and its lengths. -/
def coded : State := { args [26, 10] with cw := mem codeword }

theorem test_witness_coded : IsCodeword .qr (coded.argU 0) (coded.argU 1) coded.cw := by
  delta IsCodeword
  decide +kernel

theorem test_witness_RsSyndromeComputes :
    ((args [0]).argU 0 < 1 ∧ 255 < (args [256]).argU 0) ∧
      (1 ≤ (args [255, 256]).argU 0 ∧ (args [255, 256]).argU 0 ≤ 255 ∧
        (args [255, 256]).argU 0 < (args [255, 256]).argU 1) ∧
      (1 ≤ (args [1, 0]).argU 0 ∧ (args [1, 0]).argU 1 ≤ (args [1, 0]).argU 0) ∧
      (1 ≤ coded.argU 0 ∧ coded.argU 0 ≤ 255 ∧ coded.argU 1 ≤ coded.argU 0) ∧
      ¬ (∀ i < 10, codeSyndrome .qr 26 (mem received) i = 0) := by decide +kernel

/-- A word of four bytes with `e` EC bytes. -/
def word4 (e : Nat) (xs : List Nat) : State := { args [4, e] with cw := mem xs }

/-- Refused lengths, a codeword, and a word that is none; then words whose decoding ends in each of the checks 4 to 7. -/
theorem test_witness_RsDecodeKeepsCodeword :
    ((args [0]).argU 0 < 1 ∧ 255 < (args [256]).argU 0) ∧
      (1 ≤ (args [255, 256]).argU 0 ∧ (args [255, 256]).argU 0 ≤ 255 ∧
        (args [255, 256]).argU 0 < (args [255, 256]).argU 1) ∧
      (1 ≤ coded.argU 0 ∧ coded.argU 0 ≤ 255 ∧ coded.argU 1 ≤ coded.argU 0 ∧
        IsCodeword .qr (coded.argU 0) (coded.argU 1) coded.cw) ∧
      ¬ (∀ i < 10, codeSyndrome .qr 26 (mem received) i = 0) ∧
      ∀ x ∈ [(2, [0, 0, 1, 1], 4), (4, [0, 1, 1, 2], 5), (2, [0, 0, 1, 3], 6), (2, [0, 0, 1, 2], 7)],
        failsWith (exec (.rsDecode .qr) (word4 x.1 x.2.1)) .checksum x.2.2 = true :=
  ⟨by decide +kernel, by decide +kernel, ⟨by decide +kernel, by decide +kernel, by decide +kernel, test_witness_coded⟩,
    by decide +kernel, by decide +kernel⟩

theorem test_witness_RsDecodeSuccessIsVerified :
    after (exec (.rsDecode .qr) { args [26, 10] with cw := mem received }) (fun t => t.code == .ok) = true := by
  decide +kernel

/-- Two of 26 bytes changed, five, as many as ten EC bytes allow, and none. -/
theorem test_witness_RsDecodeCorrectsErrors :
    1 ≤ coded.argU 0 ∧ coded.argU 0 ≤ 255 ∧ coded.argU 1 ≤ coded.argU 0 ∧
      IsCodeword .qr (coded.argU 0) (coded.argU 1) (mem codeword) ∧
      (2 = changedBytes (coded.argU 0) (mem received) (mem codeword) ∧ 2 ≤ coded.argU 1 / 2) ∧
      (5 = changedBytes (coded.argU 0) (mem ([0, 0, 0, 0, 0] ++ codeword.drop 5)) (mem codeword) ∧
        5 ≤ coded.argU 1 / 2) ∧
      (0 = changedBytes (coded.argU 0) coded.cw (mem codeword) ∧ 0 ≤ coded.argU 1 / 2) :=
  ⟨by decide +kernel, by decide +kernel, by decide +kernel, test_witness_coded, by decide +kernel, by decide +kernel,
    by decide +kernel⟩

/-- A BitArray of 10 bits, `1000000001`, with a padding bit set, and operands. -/
def ten (xs : List Nat) : State := withArgs (rowState 10 [1, 0x12]) xs

theorem test_witness_BaSingleBits :
    ((ten [0xFFFFFFFF]).argS 0 < 0 ∧ (ten [10]).size ≤ (ten [10]).argS 0) ∧
      (0 ≤ (ten [9]).argS 0 ∧ (ten [9]).argS 0 < (ten [9]).size) ∧
      (0 ≤ (ten [0]).argS 0 ∧ (ten [0]).argS 0 < (ten [0]).size) := by decide +kernel

theorem test_witness_BaRanges :
    ((ten [0xFFFFFFFF, 3]).argS 0 < 0 ∧ (ten [3, 2]).argS 1 < (ten [3, 2]).argS 0 ∧ (ten [0, 11]).size < (ten [0, 11]).argS 1) ∧
      (0 ≤ (ten [10, 10, 2]).argS 0 ∧ (ten [10, 10, 2]).argS 0 ≤ (ten [10, 10, 2]).argS 1 ∧
        (ten [10, 10, 2]).argS 1 ≤ (ten [10, 10, 2]).size ∧ 1 < (ten [10, 10, 2]).argU 2) ∧
      (0 ≤ (ten [1, 9, 0]).argS 0 ∧ (ten [1, 9, 0]).argS 0 ≤ (ten [1, 9, 0]).argS 1 ∧
        (ten [1, 9, 0]).argS 1 ≤ (ten [1, 9, 0]).size ∧ (ten [1, 9, 0]).argU 2 ≤ 1 ∧
        ∀ j, (ten [1, 9, 0]).argU 0 ≤ j → j < (ten [1, 9, 0]).argU 1 →
          ((ten [1, 9, 0]).row.bit j).toNat = (ten [1, 9, 0]).argU 2) ∧
      (0 ≤ (ten [0, 10, 1]).argS 0 ∧ (ten [0, 10, 1]).argS 0 ≤ (ten [0, 10, 1]).argS 1 ∧
        (ten [0, 10, 1]).argS 1 ≤ (ten [0, 10, 1]).size ∧ (ten [0, 10, 1]).argU 2 ≤ 1 ∧
        ∃ j, (ten [0, 10, 1]).argU 0 ≤ j ∧ j < (ten [0, 10, 1]).argU 1 ∧
          ((ten [0, 10, 1]).row.bit j).toNat ≠ (ten [0, 10, 1]).argU 2) := by
  refine ⟨by decide +kernel, by decide +kernel, by decide +kernel, by decide +kernel, by decide +kernel,
    by decide +kernel, by decide +kernel, 8, by decide +kernel⟩

theorem test_witness_BaScansFindFirst :
    (ten [0xFFFFFFFF]).argS 0 < 0 ∧ (0 ≤ (ten [9]).argS 0 ∧ (ten [9]).argU 0 < (ten [9]).size) ∧
      (0 ≤ (ten [10]).argS 0 ∧ (ten [10]).size ≤ (ten [10]).argU 0) := by decide +kernel

theorem test_witness_BaWholeArray :
    ((args [0x80000000]).argS 0 < 0 ∧ 4096 < (args [4097]).argS 0) ∧
      (0 ≤ (args [0]).argS 0 ∧ (args [0]).argS 0 ≤ 4096) ∧ (0 ≤ (args [4096]).argS 0 ∧ (args [4096]).argS 0 ≤ 4096) := by
  decide +kernel

theorem test_witness_RowPaddingIsNeverRead :
    (∀ j, j < (ten []).size → (mem [1, 2]).bit j = (ten []).row.bit j) ∧ (mem [1, 2]).bit 12 ≠ (ten []).row.bit 12 := by
  decide +kernel

theorem test_witness_BmChecksInitialised :
    (State.reset.width .m0 = 0 ∧ State.reset.height .m0 = 0) ∧ (matState 0 3 []).width .m0 = 0 ∧
      (matState 3 0 []).height .m0 = 0 := by decide +kernel

theorem test_witness_BmInitClear :
    ((args [0, 1]).argS 0 < 1 ∧ 65535 < (args [65536, 1]).argS 0) ∧
      (1 ≤ (args [65535, 0]).argS 0 ∧ (args [65535, 0]).argS 0 ≤ 65535 ∧ (args [65535, 0]).argS 1 < 1 ∧
        65535 < (args [1, 65536]).argS 1) ∧
      (1 ≤ (args [65535, 33]).argS 0 ∧ (args [65535, 33]).argS 0 ≤ 65535 ∧ 1 ≤ (args [65535, 33]).argS 1 ∧
        (args [65535, 33]).argS 1 ≤ 65535 ∧
        65536 < ((args [65535, 33]).argU 0 + 31) / 32 * (args [65535, 33]).argU 1) ∧
      (1 ≤ (args [65535, 32]).argS 0 ∧ (args [65535, 32]).argS 0 ≤ 65535 ∧ 1 ≤ (args [65535, 32]).argS 1 ∧
        (args [65535, 32]).argS 1 ≤ 65535 ∧
        ((args [65535, 32]).argU 0 + 31) / 32 * (args [65535, 32]).argU 1 ≤ 65536) ∧
      (1 ≤ region.width .m0 ∧ 1 ≤ region.height .m0) := by decide +kernel

theorem test_witness_BmSingleBits :
    (1 ≤ region.width .m0 ∧ 1 ≤ region.height .m0) ∧
      ((withArgs region [0xFFFFFFFF, 0]).argS 0 < 0 ∧
        (withArgs region [40, 0]).width .m0 ≤ (withArgs region [40, 0]).argS 0) ∧
      (0 ≤ (withArgs region [39, 3]).argS 0 ∧ (withArgs region [39, 3]).argS 0 < (withArgs region [39, 3]).width .m0 ∧
        (withArgs region [39, 3]).height .m0 ≤ (withArgs region [39, 3]).argS 1 ∧
        (withArgs region [0, 0xFFFFFFFF]).argS 1 < 0) ∧
      (0 ≤ (withArgs region [39, 2]).argS 0 ∧ (withArgs region [39, 2]).argS 0 < (withArgs region [39, 2]).width .m0 ∧
        0 ≤ (withArgs region [39, 2]).argS 1 ∧ (withArgs region [39, 2]).argS 1 < (withArgs region [39, 2]).height .m0) := by
  decide +kernel

theorem test_witness_BmSetregionFills :
    ((withArgs region [0xFFFFFFFF, 0, 1, 1]).argS 0 < 0 ∧ (withArgs region [0, 0xFFFFFFFF, 1, 1]).argS 1 < 0) ∧
      (0 ≤ (withArgs region [0, 0, 0, 1]).argS 0 ∧ 0 ≤ (withArgs region [0, 0, 0, 1]).argS 1 ∧
        (withArgs region [0, 0, 0, 1]).argS 2 < 1 ∧ (withArgs region [0, 0, 1, 0]).argS 3 < 1) ∧
      (0 ≤ (withArgs region [1, 0, 40, 1]).argS 0 ∧ 0 ≤ (withArgs region [1, 0, 40, 1]).argS 1 ∧
        1 ≤ (withArgs region [1, 0, 40, 1]).argS 2 ∧ 1 ≤ (withArgs region [1, 0, 40, 1]).argS 3 ∧
        ((withArgs region [1, 0, 40, 1]).width .m0 : Int) <
          (withArgs region [1, 0, 40, 1]).argS 0 + (withArgs region [1, 0, 40, 1]).argS 2 ∧
        ((withArgs region [0, 1, 1, 3]).height .m0 : Int) <
          (withArgs region [0, 1, 1, 3]).argS 1 + (withArgs region [0, 1, 1, 3]).argS 3) ∧
      (0 ≤ (withArgs region [0, 0, 40, 3]).argS 0 ∧ 0 ≤ (withArgs region [0, 0, 40, 3]).argS 1 ∧
        1 ≤ (withArgs region [0, 0, 40, 3]).argS 2 ∧ 1 ≤ (withArgs region [0, 0, 40, 3]).argS 3 ∧
        (withArgs region [0, 0, 40, 3]).argS 0 + (withArgs region [0, 0, 40, 3]).argS 2 ≤
          ((withArgs region [0, 0, 40, 3]).width .m0 : Int) ∧
        (withArgs region [0, 0, 40, 3]).argS 1 + (withArgs region [0, 0, 40, 3]).argS 3 ≤
          ((withArgs region [0, 0, 40, 3]).height .m0 : Int)) := by decide +kernel

theorem test_witness_BmGetrowCopiesRow :
    ((withArgs region [0xFFFFFFFF]).argS 0 < 0 ∧
        ((withArgs region [3]).height .m0 : Int) ≤ (withArgs region [3]).argS 0) ∧
      (1 ≤ (matState 4097 1 []).width .m0 ∧ 1 ≤ (matState 4097 1 []).height .m0 ∧ 0 ≤ (matState 4097 1 []).argS 0 ∧
        (matState 4097 1 []).argS 0 < ((matState 4097 1 []).height .m0 : Int) ∧ 4096 < (matState 4097 1 []).width .m0) ∧
      (0 ≤ (withArgs region [2]).argS 0 ∧ (withArgs region [2]).argS 0 < ((withArgs region [2]).height .m0 : Int) ∧
        (withArgs region [2]).width .m0 ≤ 4096) ∧
      (1 ≤ (matState 4096 1 []).width .m0 ∧ (matState 4096 1 []).width .m0 ≤ 4096) := by decide +kernel

theorem test_witness_BmRot180Rotates : 1 ≤ region.width .m0 ∧ 1 ≤ region.height .m0 := by decide +kernel

theorem test_witness_BmXorCopy :
    (1 ≤ region.width .m0 ∧ 1 ≤ region.height .m0 ∧ region.width Mat.m0.other = 0) ∧
      (1 ≤ ({ region with dim1 := ⟨40, 4⟩ } : State).width Mat.m0.other ∧
        1 ≤ ({ region with dim1 := ⟨40, 4⟩ } : State).height Mat.m0.other ∧
        (region.width .m0, region.height .m0) ≠
          (({ region with dim1 := ⟨40, 4⟩ } : State).width Mat.m0.other,
            ({ region with dim1 := ⟨40, 4⟩ } : State).height Mat.m0.other)) ∧
      (region.width .m0 = ({ region with dim1 := ⟨40, 3⟩ } : State).width Mat.m0.other ∧
        region.height .m0 = ({ region with dim1 := ⟨40, 3⟩ } : State).height Mat.m0.other) := by decide +kernel

/-- A 3×2 matrix with (2, 0) and (0, 1) set, and one with no bit set inside and a padding bit set. -/
def corner : State := matState 3 2 [4, 0, 0, 0, 1]

def blank : State := matState 3 2 [8]

theorem test_witness_BmBoundingBits :
    (1 ≤ corner.width .m0 ∧ 1 ≤ corner.height .m0) ∧
      (2 < corner.width .m0 ∧ 0 < corner.height .m0 ∧ corner.matBit .m0 2 0 = true ∧
        ∀ x' < 3, ∀ y' < 2, corner.matBit .m0 x' y' = true → 0 < y' ∨ (0 = y' ∧ 2 ≤ x')) ∧
      (0 < corner.width .m0 ∧ 1 < corner.height .m0 ∧ corner.matBit .m0 0 1 = true ∧
        ∀ x' < 3, ∀ y' < 2, corner.matBit .m0 x' y' = true → y' < 1 ∨ (y' = 1 ∧ x' ≤ 0)) ∧
      (1 ≤ blank.width .m0 ∧ 1 ≤ blank.height .m0 ∧
        ∀ x < blank.width .m0, ∀ y < blank.height .m0, blank.matBit .m0 x y = false) :=
  ⟨by decide +kernel, by decide +kernel, by decide +kernel, by decide +kernel⟩

theorem test_witness_BitPacking :
    (39 < region.width .m0 ∧ 2 < region.height .m0 ∧ (region.width .m0 + 31) / 32 * region.height .m0 ≤ 65536) ∧
      (31 < ({ region with dim1 := ⟨32, 65535⟩ } : State).width .m1 ∧
        65534 < ({ region with dim1 := ⟨32, 65535⟩ } : State).height .m1 ∧
        (({ region with dim1 := ⟨32, 65535⟩ } : State).width .m1 + 31) / 32 *
          ({ region with dim1 := ⟨32, 65535⟩ } : State).height .m1 ≤ 65536) := by decide +kernel

/-- 1.0, 3.0, the zeros, the largest finite value, and the integers at the ends of their range (44_sampler.md R330). -/
theorem test_witness_ArithmeticRoundsToNearest :
    (ieeeFinite 0x3FF0000000000000 = true ∧ ieeeFinite 0x4008000000000000 = true ∧ ieeeUnits 0x4008000000000000 ≠ 0) ∧
      (ieeeFinite 0x8000000000000000 = true ∧ ieeeUnits 0x8000000000000000 + ieeeUnits 0x8000000000000000 = 0 ∧
        ieeeUnits 0x3FF0000000000000 - ieeeUnits 0x3FF0000000000000 = 0) ∧
      (ieeeFinite 0x7FEFFFFFFFFFFFFF = true ∧ ieeeFinite (fAdd 0x7FEFFFFFFFFFFFFF 0x7FEFFFFFFFFFFFFF) = false ∧
        overflowUnits ≤ (ieeeUnits 0x7FEFFFFFFFFFFFFF + ieeeUnits 0x7FEFFFFFFFFFFFFF).natAbs) ∧
      2 ^ 53 - 1 < 2 ^ 53 := by decide +kernel

theorem test_witness_NanIsCanonical :
    fAdd ∈ [fAdd, fSub, fMul, fDiv] ∧ ieeeNaN (fDiv 0 0) = true ∧ ieeeNaN 0xFFF0000000000001 = true ∧
      ieeeFinite 0xFFEFFFFFFFFFFFFF = true ∧ ieeeFinite 0x8000000000000000 = true ∧ ieeeUnits 0x8000000000000000 = 0 :=
  ⟨by simp, by decide +kernel, by decide +kernel, by decide +kernel, by decide +kernel, by decide +kernel⟩

/-- A parallelogram, whose skews are zero, and a quadrilateral whose skews are not (44_sampler.md R334). -/
theorem test_witness_PtCommandsComplete :
    ruleAffine 0 0 0x3FF0000000000000 0 0x3FF0000000000000 0x3FF0000000000000 0 0x3FF0000000000000 ∧
      ¬ ruleAffine 0 0 0x3FF0000000000000 0 0x4000000000000000 0x3FF0000000000000 0 0x3FF0000000000000 := by
  delta ruleAffine
  decide +kernel

/-- The sampling example of 44_sampler.md R347: 7×7, 4 by 4 modules, its points inside the window. -/
def sampling : State :=
  { withArgs (matState 7 7 [85]) [4, 4] with
    ta := #v[0x4040000000000000, 0, 0, 0, 0x4040000000000000, 0, 0, 0, 0x4030000000000000] }

theorem test_witness_GridSampleSamples :
    sampling.gridArgsOk .m0 ∧
      ∀ mx < sampling.argU 0, ∀ my < sampling.argU 1, sampling.pointFails .m0 mx my = none := by
  delta State.gridArgsOk
  decide +kernel

/-- Five by five modules: the point of (4, 0), x = 9, is outside, and none before it is. -/
theorem test_witness_GridSampleFailures :
    (State.reset.width .m0 = 0 ∧ (matState 3 0 []).height .m0 = 0) ∧
      (1 ≤ sampling.width .m0 ∧ 1 ≤ sampling.height .m0 ∧ (withArgs sampling [0, 1]).argS 0 ≤ 0 ∧
        (withArgs sampling [1, 0xFFFFFFFF]).argS 1 ≤ 0) ∧
      (0 < (withArgs sampling [65536, 1]).argS 0 ∧ 0 < (withArgs sampling [65536, 1]).argS 1 ∧
        65535 < (withArgs sampling [65536, 1]).argS 0 ∧ 65535 < (withArgs sampling [1, 65536]).argS 1 ∧
        65536 < ((withArgs sampling [65535, 33]).argU 0 + 31) / 32 * (withArgs sampling [65535, 33]).argU 1) ∧
      ((withArgs sampling [5, 5]).gridArgsOk .m0 ∧ 4 < (withArgs sampling [5, 5]).argU 0 ∧
        0 < (withArgs sampling [5, 5]).argU 1 ∧ (withArgs sampling [5, 5]).pointFails .m0 4 0 = some 5 ∧
        ∀ mx' < 5, ∀ my' < 5, (my' < 0 ∨ (my' = 0 ∧ mx' < 4)) →
          (withArgs sampling [5, 5]).pointFails .m0 mx' my' = none) := by
  delta State.gridArgsOk
  decide +kernel

theorem test_witness_OdRunsExtractsRuns :
    (withArgs row39 [72]).size < (withArgs row39 [72]).argU 0 ∧ (withArgs row39 [71]).argU 0 ≤ (withArgs row39 [71]).size ∧
      row39.argU 0 ≤ row39.size := by decide +kernel

/-- Run lengths for `A` of Code 39 from run 0 on, and none (45_matcher.md R391). -/
def runsA (n : Nat) (ls : List Nat) : State :=
  { State.reset with nruns := BitVec.ofNat 13 n, run := Memory.zeros.writeHalves 0 (ls.map (BitVec.ofNat 16)) }

/-- The runs of one character, as the statement takes them. -/
def matchCounts (sym : Sym) (s : State) : List Nat :=
  (List.range (symRow sym).k).map fun i => (s.run.half (s.argU 0 + (if sym = .itf then 2 else 1) * i)).toNat

/-- `NRUNS` past its limit; one run short, for Code 39 and ITF; no match; and the match of `A`, and of the digit 1. -/
theorem test_witness_OdPmatchFindsBest :
    4096 < (runsA 4097 []).nruns.toNat ∧
      ((runsA 8 []).nruns.toNat ≤ 4096 ∧ (runsA 8 []).nruns.toNat < (runsA 8 []).argU 0 + (symRow .code39).k ∧
        (runsA 8 []).nruns.toNat < (runsA 8 []).argU 0 + 9) ∧
      ((runsA 9 []).nruns.toNat ≤ 4096 ∧ (runsA 9 []).argU 0 + (symRow .code39).k ≤ (runsA 9 []).nruns.toNat ∧
        NoBest .code39 (matchCounts .code39 (runsA 9 [])) (entriesOf .code39)) ∧
      ((runsA 9 [2, 1, 1, 1, 1, 2, 1, 1, 2]).argU 0 + (symRow .code39).k ≤
          (runsA 9 [2, 1, 1, 1, 1, 2, 1, 1, 2]).nruns.toNat ∧
        ∃ x, IsBest .code39 (matchCounts .code39 (runsA 9 [2, 1, 1, 1, 1, 2, 1, 1, 2])) (entriesOf .code39) 10 x) ∧
      ((runsA 9 [2, 9, 1, 9, 1, 9, 1, 9, 2]).argU 0 + 9 ≤ (runsA 9 [2, 9, 1, 9, 1, 9, 1, 9, 2]).nruns.toNat ∧
        ∃ x, IsBest .itf (matchCounts .itf (runsA 9 [2, 9, 1, 9, 1, 9, 1, 9, 2])) (entriesOf .itf) 1 x) :=
  ⟨by decide +kernel, by decide +kernel,
    ⟨by decide +kernel, by decide +kernel,
      noBest_of_best (by decide) (entriesOf_sorted _) (entriesOf_lt _) (by decide +kernel)⟩,
    ⟨by decide +kernel, isBest_of_best (by decide) (entriesOf_sorted _) (entriesOf_lt _) (by decide +kernel)⟩,
    by decide +kernel, isBest_of_best (by decide) (entriesOf_sorted _) (entriesOf_lt _) (by decide +kernel)⟩

/-! ### Rows whose runs the OD_DECODE witnesses name -/

/-- Runs of the given lengths from position `p` on. -/
def runsAt : Nat → List Nat → List Run
  | _, [] => []
  | p, l :: ls => ⟨p, l⟩ :: runsAt (p + l) ls

/-- A row of `n` bits, those of a number, least significant first. -/
def numberRow (n N : Nat) : State :=
  { State.reset with rowSize := BitVec.ofNat 13 n, row := Memory.ofBytes (bytesOfBits 512 N.testBit) }

/-- The bits of such a row. -/
def numberBit (N i : Nat) : Bool := decide (i < 8 * 512) && N.testBit i

theorem numberRow_runs (n N : Nat) :
    (numberRow n N).runsOf 0 =
      if (firstBit (numberBit N) true 0 (numberRow n N).size).getD (numberRow n N).size < (numberRow n N).size then
        runsFrom (numberBit N) ((firstBit (numberBit N) true 0 (numberRow n N).size).getD (numberRow n N).size) 1 true
          ((firstBit (numberBit N) true 0 (numberRow n N).size).getD (numberRow n N).size + 1)
          ((numberRow n N).size -
            ((firstBit (numberBit N) true 0 (numberRow n N).size).getD (numberRow n N).size + 1))
      else [] := by
  have h : (numberRow n N).row.bit = numberBit N := by
    funext i
    exact Memory.bit_ofBytes_bytesOfBits 512 N.testBit i
  unfold State.runsOf State.scan
  rw [h, Nat.sub_zero]

theorem drop_replicate_flatten {α : Type} (l : List α) (n m : Nat) :
    ((List.replicate n l).flatten).drop (l.length * m) = (List.replicate (n - m) l).flatten := by
  induction m generalizing n with
  | zero => simp
  | succ m ih =>
    cases n with
    | zero => simp
    | succ n =>
      rw [List.replicate_succ, List.flatten_cons, Nat.mul_succ, Nat.add_comm, List.drop_append]
      simp [ih]

theorem runsAt_len (p : Nat) (ls : List Nat) : (runsAt p ls).map Run.len = ls := by
  induction ls generalizing p with
  | nil => rfl
  | cons l ls ih => simp [runsAt, ih]

/-- The lengths of a character in runs that repeat a block after a prefix. -/
theorem runLens_block (pre l : List Nat) (n m k : Nat) (hm : m < n) (hk : k ≤ l.length) :
    runLens (runsAt 0 (pre ++ (List.replicate n l).flatten)) (pre.length + l.length * m) k = l.take k := by
  obtain ⟨d, hd⟩ : ∃ d, n - m = d + 1 := ⟨n - m - 1, by omega⟩
  rw [runLens, List.map_take, List.map_drop, runsAt_len, ← List.drop_drop, List.drop_left, drop_replicate_flatten, hd,
    List.replicate_succ, List.flatten_cons, List.take_append_of_le_length hk]

theorem runsAt_block_length (pre l : List Nat) (n : Nat) :
    (runsAt 0 (pre ++ (List.replicate n l).flatten)).length = pre.length + l.length * n := by
  rw [← List.length_map (f := Run.len), runsAt_len]
  simp [Nat.mul_comm]

/-- Start A of Codabar and 256 zeros, at the left edge of the row. -/
def longRow : State := numberRow 2571 (0b01001001101 + 2 ^ 11 * (0b0110010101 * ((2 ^ 2560 - 1) / (2 ^ 10 - 1))))

def longRuns : List Run := runsAt 0 ([1, 1, 2, 2, 1, 2, 1, 1] ++ (List.replicate 256 [1, 1, 1, 1, 1, 2, 2, 1]).flatten)

theorem longRow_runs : longRow.runsOf 0 = longRuns := by
  rw [longRow, numberRow_runs]
  decide +kernel

theorem longRow_isRuns : IsRuns longRow.row.bit longRow.size 0 longRuns := by
  rw [← longRow_runs]
  exact State.runsOf_isRuns longRow 0 (Nat.zero_le _)

theorem longRow_reads (m : Nat) (hm : m < 256) : Reads .codabar longRuns (charRun .codabar 0 m) (entriesOf .codabar) 0 := by
  have h : charRun .codabar 0 m = [1, 1, 2, 2, 1, 2, 1, 1].length + [1, 1, 1, 1, 1, 2, 2, 1].length * m := by
    simp [charRun, symRow]
    omega
  refine reads_of_bestAt (entriesOf_sorted _) (entriesOf_lt _) ?_
  rw [bestAt, if_neg, h, longRuns, runLens_block _ _ _ _ _ hm (by decide)]
  · decide +kernel
  · rw [h, longRuns, runsAt_block_length]
    simp [symK]
    omega

/-- The start pattern of ITF and 129 pairs 01, at the left edge of the row. -/
def longItf : State := numberRow 1810 (0b0101 + 2 ^ 4 * (0b00101101101001 * ((2 ^ 1806 - 1) / (2 ^ 14 - 1))))

def longItfRuns : List Run := runsAt 0 ([1, 1, 1, 1] ++ (List.replicate 129 [1, 2, 1, 1, 2, 1, 2, 1, 1, 2]).flatten)

theorem longItf_runs : longItf.runsOf 0 = longItfRuns := by
  rw [longItf, numberRow_runs]
  decide +kernel

theorem longItf_isRuns : IsRuns longItf.row.bit longItf.size 0 longItfRuns := by
  rw [← longItf_runs]
  exact State.runsOf_isRuns longItf 0 (Nat.zero_le _)

theorem longItf_pair (m : Nat) (hm : m < 129) :
    ItfPair longItfRuns (0 + 4 + 10 * m) (0, 1) ∧ ¬ ItfEndsAt longItf.row.bit longItf.size longItfRuns (0 + 4 + 10 * m) := by
  have h : 0 + 4 + 10 * m = [1, 1, 1, 1].length + [1, 2, 1, 1, 2, 1, 2, 1, 1, 2].length * m := by simp
  have hl : 0 + 4 + 10 * m + 10 ≤ longItfRuns.length := by
    rw [longItfRuns, runsAt_block_length]
    simp
    omega
  have h10 : runWidths longItfRuns (0 + 4 + 10 * m) 1 10 = [1, 2, 1, 1, 2, 1, 2, 1, 1, 2] := by
    rw [runWidths_eq _ _ _ hl, h, longItfRuns, runLens_block _ _ _ _ _ hm (by decide)]
    rfl
  have hg : ∀ i, i < 10 →
      (longItfRuns.getD (0 + 4 + 10 * m + 1 * i) ⟨0, 0⟩).len = [1, 2, 1, 1, 2, 1, 2, 1, 1, 2].getD i 0 := fun i hi => by
    have h1 : (runWidths longItfRuns (0 + 4 + 10 * m) 1 10)[i]? = [1, 2, 1, 1, 2, 1, 2, 1, 1, 2][i]? := by rw [h10]
    rw [runWidths, List.getElem?_map, List.getElem?_range hi] at h1
    rw [List.getD_eq_getElem?_getD (l := [1, 2, 1, 1, 2, 1, 2, 1, 1, 2]), ← h1]
    rfl
  have h5 : ∀ q, q < 2 → runWidths longItfRuns (0 + 4 + 10 * m + q) 2 5 =
      (List.range 5).map fun i => [1, 2, 1, 1, 2, 1, 2, 1, 1, 2].getD (q + 2 * i) 0 := fun q hq => by
    refine List.map_congr_left fun i hi => ?_
    rw [List.mem_range] at hi
    rw [← hg (q + 2 * i) (by omega), show 0 + 4 + 10 * m + q + 2 * i = 0 + 4 + 10 * m + 1 * (q + 2 * i) by omega]
  have h3 : runWidths longItfRuns (0 + 4 + 10 * m) 1 3 = [1, 2, 1] := by
    rw [runWidths_eq _ _ _ (by omega), h, longItfRuns, runLens_block _ _ _ _ _ hm (by decide)]
    rfl
  refine ⟨⟨hl, ?_, ?_⟩, ?_⟩
  · rw [show 0 + 4 + 10 * m = 0 + 4 + 10 * m + 0 from rfl, h5 0 (by decide)]
    exact isBest_of_best (by decide) (entriesOf_sorted _) (entriesOf_lt _) (by decide +kernel)
  · rw [h5 1 (by decide)]
    exact isBest_of_best (by decide) (entriesOf_sorted _) (entriesOf_lt _) (by decide +kernel)
  · rintro ⟨_, ⟨x, hx, _⟩, _⟩
    rw [h3] at hx
    have hn : variance [1, 2, 1] [2, 1, 1] 204 = none := by decide +kernel
    rw [hn] at hx
    cases hx

/-- A row of two runs, one black. -/
def shortRow : State := rowState 3 [1]

/-- The Code 39 row cut after its start character, and the row of `**` with nothing, or a bar, in its last margin. -/
def cut39 : State := rowState 23 [0x00, 0xA4, 0xAD, 0x95, 0xB6, 0xD4, 0xD2, 0x16, 0x00]

def empty39 : State := rowState 45 [0, 164, 173, 180, 5, 0]

def barred39 : State := rowState 46 [0, 164, 173, 180, 21, 0]

/-- The Code 93 row cut before its termination bar. -/
def cut93 : State := rowState 64 [0x00, 0xD4, 0x5B, 0x51, 0xA2, 0x46, 0xA2, 0x7A, 0x01, 0x00]

/-- The ITF row cut inside its first pair, and an ITF start followed by its end pattern. -/
def cutItf : State := rowState 16 [0x00, 0xD4, 0x52, 0xB3, 0xA5, 0x2C, 0x00]

def emptyItf : State := rowState 28 [0, 212, 2, 0]

/-- The runs of each of these rows are the ones that the rules define, and there are some. -/
theorem test_rows_isRuns :
    ∀ s ∈ [shortRow, row39, cut39, empty39, barred39, cut93, rowItf, cutItf, emptyItf],
      s.argU 0 ≤ s.size ∧ s.argU 0 = 0 ∧ IsRuns s.row.bit s.size 0 (s.runsOf 0) ∧ s.runsOf 0 ≠ [] := by
  intro s hs
  have h : s.argU 0 ≤ s.size ∧ s.argU 0 = 0 ∧ s.runsOf 0 ≠ [] := by
    revert s
    decide +kernel
  exact ⟨h.1, h.2.1, State.runsOf_isRuns s 0 (Nat.zero_le _), h.2.2⟩

/-- A start character at run 0, which is the first. -/
theorem firstStart_zero {s : State} {sym : Sym} {rs : List Run} {v : Nat} (hs : (symRow sym).start.Pairwise (· < ·))
    (he : ∀ v ∈ (symRow sym).start, v < symEntries sym) (h : (bestAt sym rs 0 (symRow sym).start).1 = some v)
    (hq : s.quietBefore sym (runStart rs 0) (runStop rs (0 + (symRow sym).k - 1) - runStart rs 0) = true) :
    FirstStart s.row.bit sym rs 0 v :=
  ⟨rfl, ⟨reads_of_bestAt hs he h, (State.quietBefore_iff ..).1 hq⟩, fun i hi => absurd hi (Nat.not_lt_zero i)⟩

/-- The ITF start pattern at run 0, which is the first. -/
theorem itfFirstStart_zero {s : State} {rs : List Run} (hl : 0 + 4 ≤ rs.length)
    (hv : ∃ x, variance (runWidths rs 0 1 4) [1, 1, 1, 1] 204 = some x ∧ x < 107)
    (hq : s.quietBefore .itf (runStart rs 0) (runStop rs (0 + 3) - runStart rs 0) = true) :
    ItfFirstStart s.row.bit rs 0 :=
  ⟨rfl, ⟨hl, hv, (State.quietBefore_iff ..).1 hq⟩, fun i hi => absurd hi (Nat.not_lt_zero i)⟩

/-- Data characters, from the matches at their runs. -/
theorem dataRead_of_bestAt {sym : Sym} {rs : List Run} {j : Nat} {ds : List Nat} (hl : 1 + ds.length ≤ Config.resMax)
    (h : ∀ m, m < ds.length → (bestAt sym rs (charRun sym j m) (entriesOf sym)).1 = some (ds.getD m 0) ∧
      ds.getD m 0 ∉ (symRow sym).stop) : DataRead sym rs j ds :=
  ⟨hl, fun m hm => ⟨reads_of_bestAt (entriesOf_sorted _) (entriesOf_lt _) (h m hm).1, (h m hm).2⟩⟩

theorem test_witness_OdDecodeReportsSymbol :
    (withArgs row39 [72]).size < (withArgs row39 [72]).argU 0 ∧
      ((withArgs row39 [61]).argU 0 ≤ (withArgs row39 [61]).size ∧
        ∀ j, (withArgs row39 [61]).argU 0 ≤ j → j < (withArgs row39 [61]).size → (withArgs row39 [61]).row.bit j = false) ∧
      decodeRow row39 .code39 (false && Sym.code39 == .code39) = .ok ⟨[43, 10, 1, 43], 10, 22, 49, 61⟩ := by
  refine ⟨by decide +kernel, by decide +kernel, by rfl⟩

/-- No start: check 3. -/
theorem test_witness_OdDecode_3 :
    (∀ i, i % 2 = 0 → ∀ u, ¬ StartsAt shortRow.row.bit .code39 (shortRow.runsOf 0) i u) ∧
      ∀ i, i % 2 = 0 → ¬ ItfStartsAt shortRow.row.bit (shortRow.runsOf 0) i := by
  have h : (shortRow.runsOf 0).length = 2 := by decide +kernel
  refine ⟨fun i _ u hs => ?_, fun i _ hs => ?_⟩
  · have := hs.1.1
    rw [h] at this
    simp [symRow] at this
  · have := hs.1
    omega

/-- A start character, then too few runs: check 4. -/
theorem test_witness_OdDecode_4 :
    FirstStart cut39.row.bit .code39 (cut39.runsOf 0) 0 43 ∧ DataRead .code39 (cut39.runsOf 0) 0 [] ∧
      ReadsNone .code39 (cut39.runsOf 0) (charRun .code39 0 0) (entriesOf .code39) :=
  ⟨firstStart_zero (by decide) (by decide) (by decide +kernel) (by decide +kernel),
    dataRead_of_bestAt (by decide) (fun _ h => absurd h (Nat.not_lt_zero _)), .inl (by decide +kernel)⟩

/-- 255 characters and one more: check 5. -/
theorem test_witness_OdDecode_5 :
    longRow.argU 0 = 0 ∧ longRow.argU 0 ≤ longRow.size ∧ longRuns ≠ [] ∧
      FirstStart longRow.row.bit .codabar longRuns 0 16 ∧ DataRead .codabar longRuns 0 (List.replicate 255 0) ∧
      1 + (List.replicate 255 0).length = Config.resMax ∧
      Reads .codabar longRuns (charRun .codabar 0 (List.replicate 255 0).length) (entriesOf .codabar) 0 := by
  refine ⟨by decide, by decide, fun h => by
      have := longRow_reads 0 (by decide)
      rw [h] at this
      exact absurd this.1 (by decide),
    firstStart_zero (by decide) (by decide) (by decide +kernel) (by decide +kernel), ⟨by decide +kernel, fun m hm => ?_⟩,
    by decide +kernel, ?_⟩
  · rw [List.length_replicate] at hm
    rw [List.getD_replicate]
    exacts [⟨longRow_reads m (by omega), by decide⟩, hm]
  · rw [List.length_replicate]
    exact longRow_reads 255 (by decide)

/-- A stop character at the end of the row: check 6. -/
theorem test_witness_OdDecode_6 :
    FirstStart cut93.row.bit .code93 (cut93.runsOf 0) 0 47 ∧ StopsAt .code93 (cut93.runsOf 0) 0 [10, 1, 21, 6] 30 47 ∧
      (symRow .code93).term = true ∧ (cut93.runsOf 0).length ≤ 30 + (symRow .code93).k :=
  ⟨firstStart_zero (by decide) (by decide) (by decide +kernel) (by decide +kernel),
    ⟨dataRead_of_bestAt (by decide) (by decide +kernel), by decide, by decide,
      reads_of_bestAt (entriesOf_sorted _) (entriesOf_lt _) (by decide +kernel), by decide⟩, by decide, by decide +kernel⟩

/-- A bar in the quiet zone after the stop character: check 7. -/
theorem test_witness_OdDecode_7 :
    FirstStart barred39.row.bit .code39 (barred39.runsOf 0) 0 43 ∧ StopsAt .code39 (barred39.runsOf 0) 0 [] 10 43 ∧
      lastOf .code39 10 < (barred39.runsOf 0).length ∧
      ¬ QuietRight barred39.row.bit barred39.size .code39 (runStop (barred39.runsOf 0) (lastOf .code39 10))
        (runStop (barred39.runsOf 0) (lastOf .code39 10) - runStart (barred39.runsOf 0) 10) :=
  ⟨firstStart_zero (by decide) (by decide) (by decide +kernel) (by decide +kernel),
    ⟨dataRead_of_bestAt (by decide) (fun _ h => absurd h (Nat.not_lt_zero _)), by decide, by decide,
      reads_of_bestAt (entriesOf_sorted _) (entriesOf_lt _) (by decide +kernel), by decide⟩, by decide +kernel,
    fun h => absurd ((State.quietAfter_iff barred39 .code39 _ _).2 h) (by decide +kernel)⟩

/-- No data: check 8; and values that fail checks 8 to 11 in each symbology (45_matcher.md R392 to R396). -/
theorem test_witness_OdDecode_8 :
    (FirstStart empty39.row.bit .code39 (empty39.runsOf 0) 0 43 ∧ StopsAt .code39 (empty39.runsOf 0) 0 [] 10 43 ∧
      lastOf .code39 10 < (empty39.runsOf 0).length ∧
      QuietRight empty39.row.bit empty39.size .code39 (runStop (empty39.runsOf 0) (lastOf .code39 10))
        (runStop (empty39.runsOf 0) (lastOf .code39 10) - runStart (empty39.runsOf 0) 10) ∧
      validityCheck .code39 false 43 [] = some (.notFound, 8)) ∧
      validityCheck .code39 true 43 [10, 1] = some (.checksum, 10) ∧
      validityCheck .code93 false 47 [10] = some (.notFound, 8) ∧
      validityCheck .code93 false 47 [10, 1, 22, 6] = some (.checksum, 10) ∧
      validityCheck .code93 false 47 [10, 1, 21, 7] = some (.checksum, 11) ∧
      validityCheck .code128 false 104 [] = some (.notFound, 8) ∧
      validityCheck .code128 false 104 [105, 68] = some (.format, 9) ∧
      validityCheck .code128 false 104 [33, 17, 69] = some (.checksum, 10) ∧
      validityCheck .codabar false 16 [] = some (.notFound, 8) :=
  ⟨⟨firstStart_zero (by decide) (by decide) (by decide +kernel) (by decide +kernel),
    ⟨dataRead_of_bestAt (by decide) (fun _ h => absurd h (Nat.not_lt_zero _)), by decide, by decide,
      reads_of_bestAt (entriesOf_sorted _) (entriesOf_lt _) (by decide +kernel), by decide⟩, by decide +kernel,
    (State.quietAfter_iff empty39 .code39 _ _).1 (by decide +kernel), by decide⟩, by decide, by decide, by decide,
    by decide, by decide, by decide, by decide, by decide⟩

/-- The row `*A1*` of 45_matcher.md R397. -/
theorem test_witness_OdDecode_ok :
    FirstStart row39.row.bit .code39 (row39.runsOf 0) 0 43 ∧ StopsAt .code39 (row39.runsOf 0) 0 [10, 1] 30 43 ∧
      lastOf .code39 30 < (row39.runsOf 0).length ∧
      QuietRight row39.row.bit row39.size .code39 (runStop (row39.runsOf 0) (lastOf .code39 30))
        (runStop (row39.runsOf 0) (lastOf .code39 30) - runStart (row39.runsOf 0) 30) ∧
      validityCheck .code39 false 43 [10, 1] = none :=
  ⟨firstStart_zero (by decide) (by decide) (by decide +kernel) (by decide +kernel),
    ⟨dataRead_of_bestAt (by decide) (by decide +kernel), by decide, by decide,
      reads_of_bestAt (entriesOf_sorted _) (entriesOf_lt _) (by decide +kernel), by decide⟩, by decide +kernel,
    (State.quietAfter_iff row39 .code39 _ _).1 (by decide +kernel), by decide⟩

/-- ITF: too few runs after the start pattern, and the end pattern at once: checks 4 and 8. -/
theorem test_witness_OdDecode_itf_4_8 :
    (ItfFirstStart cutItf.row.bit (cutItf.runsOf 0) 0 ∧ ItfDataRead cutItf.row.bit cutItf.size (cutItf.runsOf 0) 0 [] ∧
      ¬ ItfEndsAt cutItf.row.bit cutItf.size (cutItf.runsOf 0) 4 ∧ ItfNoPair (cutItf.runsOf 0) 4) ∧
      ItfFirstStart emptyItf.row.bit (emptyItf.runsOf 0) 0 ∧
      ItfDataRead emptyItf.row.bit emptyItf.size (emptyItf.runsOf 0) 0 [] ∧
      ItfEndsAt emptyItf.row.bit emptyItf.size (emptyItf.runsOf 0) 4 :=
  ⟨⟨itfFirstStart_zero (by decide +kernel) ⟨0, by decide +kernel⟩ (by decide +kernel),
      ⟨by decide, fun _ h => absurd h (Nat.not_lt_zero _)⟩,
      fun h => absurd h.1 (by decide +kernel), .inl (by decide +kernel)⟩,
    itfFirstStart_zero (by decide +kernel) ⟨0, by decide +kernel⟩ (by decide +kernel),
    ⟨by decide, fun _ h => absurd h (Nat.not_lt_zero _)⟩, by decide +kernel, ⟨0, by decide +kernel⟩,
    (State.quietAfter_iff emptyItf .itf _ _).1 (by decide +kernel)⟩

/-- ITF: 128 pairs and one more: check 5. -/
theorem test_witness_OdDecode_itf_5 :
    longItf.argU 0 = 0 ∧ longItf.argU 0 ≤ longItf.size ∧ longItfRuns ≠ [] ∧
      ItfFirstStart longItf.row.bit longItfRuns 0 ∧
      ItfDataRead longItf.row.bit longItf.size longItfRuns 0 (List.replicate 128 (0, 1)) ∧
      ¬ ItfEndsAt longItf.row.bit longItf.size longItfRuns (0 + 4 + 10 * (List.replicate 128 (0, 1)).length) ∧
      (∃ d, ItfPair longItfRuns (0 + 4 + 10 * (List.replicate 128 (0, 1)).length) d) ∧
      Config.resMax < 2 * (List.replicate 128 ((0, 1) : Nat × Nat)).length + 2 := by
  refine ⟨by decide, by decide, fun h => by
      have := (longItf_pair 0 (by decide)).1
      rw [h] at this
      exact absurd this.1 (by decide),
    itfFirstStart_zero (by decide +kernel) ⟨0, by decide +kernel⟩ (by decide +kernel), ⟨by decide +kernel, fun m hm => ?_⟩,
    ?_, ?_, by decide +kernel⟩
  · rw [List.length_replicate] at hm
    rw [List.getD_replicate]
    exacts [(longItf_pair m (by omega)).symm, hm]
  · rw [List.length_replicate]
    exact (longItf_pair 128 (by decide)).2
  · rw [List.length_replicate]
    exact ⟨_, (longItf_pair 128 (by decide)).1⟩

/-- The row 1234 of 45_matcher.md R397. -/
theorem test_witness_OdDecode_itf_ok :
    ItfFirstStart rowItf.row.bit (rowItf.runsOf 0) 0 ∧
      ItfDataRead rowItf.row.bit rowItf.size (rowItf.runsOf 0) 0 [(1, 2), (3, 4)] ∧
      ItfEndsAt rowItf.row.bit rowItf.size (rowItf.runsOf 0) 24 := by
  refine ⟨itfFirstStart_zero (by decide +kernel) ⟨0, by decide +kernel⟩ (by decide +kernel), ⟨by decide, fun m hm => ?_⟩,
    by decide +kernel, ⟨0, by decide +kernel⟩, (State.quietAfter_iff rowItf .itf _ _).1 (by decide +kernel)⟩
  have best : ∀ k d, (best .itf (runWidths (rowItf.runsOf 0) k 2 5) (entriesOf .itf)).1 = some d →
      ∃ x, IsBest .itf (runWidths (rowItf.runsOf 0) k 2 5) (entriesOf .itf) d x := fun k d h =>
    isBest_of_best (by simp [runWidths, symK]) (entriesOf_sorted _) (entriesOf_lt _) h
  have quiet : ∀ c, rowItf.quietAfter .itf (runStop (rowItf.runsOf 0) (c + 2))
      (runStop (rowItf.runsOf 0) (c + 2) - runStart (rowItf.runsOf 0) c) = false →
      ¬ ItfEndsAt rowItf.row.bit rowItf.size (rowItf.runsOf 0) c := fun c h h' => by
    rw [(State.quietAfter_iff rowItf .itf _ _).2 h'.2.2] at h
    cases h
  match m, hm with
  | 0, _ => exact ⟨quiet _ (by decide +kernel), by decide +kernel, best _ _ (by decide +kernel), best _ _ (by decide +kernel)⟩
  | 1, _ => exact ⟨quiet _ (by decide +kernel), by decide +kernel, best _ _ (by decide +kernel), best _ _ (by decide +kernel)⟩

theorem test_witness_OdMultiTriesInOrder :
    (withArgs row39 [72]).size < (withArgs row39 [72]).argU 0 ∧
      (row39.argU 0 ≤ row39.size ∧
        ∀ sym d, (0 : BitVec 5).getLsbD sym.num = true → decodeRow row39 sym (false && sym == .code39) ≠ .ok d) ∧
      ((1 : BitVec 5).getLsbD Sym.code39.num = true ∧
        decodeRow row39 .code39 (false && Sym.code39 == .code39) = .ok ⟨[43, 10, 1, 43], 10, 22, 49, 61⟩ ∧
        ∀ sym' d', sym'.num < Sym.code39.num → (1 : BitVec 5).getLsbD sym'.num = true →
          decodeRow row39 sym' (false && sym' == .code39) ≠ .ok d') := by
  refine ⟨by decide +kernel, ⟨by decide +kernel, fun sym d h => ?_⟩, by decide,
    test_witness_OdDecodeReportsSymbol.2.2, fun sym d h => ?_⟩
  · simp at h
  · cases sym <;> simp [Sym.num] at h

theorem test_witness_CmdWriteAcceptedOrDropped :
    ((atPort [.write .w32 0x010 0]).porHeld = false ∧
        (atPort [.write .w32 0x010 0]).port = .write .w32 0x010 0 :: [] ∧ (atPort [.write .w32 0x010 0]).executor = .idle) ∧
      ((busyAt [.write .w32 0x010 0]).porHeld = false ∧
        (busyAt [.write .w32 0x010 0]).port = .write .w32 0x010 0 :: [] ∧
        (busyAt [.write .w32 0x010 0]).executor = .running 0x44000000 (0 + 1)) := by decide +kernel

theorem test_witness_WritesDroppedOrIgnored :
    ((busyAt [.write .w32 0x1000 7]).porHeld = false ∧
        (busyAt [.write .w32 0x1000 7]).port = .write .w32 0x1000 7 :: [] ∧ 0x1000 < 0x100000 ∧ 0x1000 % 4 = 0 ∧
        0x1000 ∉ [0x008, 0x00C, 0x010] ∧ (busyAt [.write .w32 0x1000 7]).executor = .running 0x44000000 (0 + 1) ∧
        writableOffset 0x1000 = true) ∧
      ((atPort [.write .w32 0xFFFFC 7]).executor = .idle ∧ 0xFFFFC < 0x100000 ∧ 0xFFFFC % 4 = 0 ∧
        0xFFFFC ∉ [0x008, 0x00C, 0x010] ∧ writableOffset 0xFFFFC = false) ∧
      writableOffset 0x060 = false := by decide +kernel

theorem test_witness_IdleReadsAndWrites :
    ((atPort [.read .w32 0xBFFFC]).executor = .idle ∧ (atPort [.read .w32 0xBFFFC]).porHeld = false ∧
        0xBFFFC < 0x100000 ∧ 0xBFFFC % 4 = 0 ∧ (atPort [.read .w32 0xBFFFC]).port = .read .w32 0xBFFFC :: []) ∧
      ((atPort [.write .w32 0x7FFC 7]).executor = .idle ∧ (atPort [.write .w32 0x7FFC 7]).porHeld = false ∧
        0x7FFC < 0x100000 ∧ 0x7FFC % 4 = 0 ∧ (atPort [.write .w32 0x7FFC 7]).port = .write .w32 0x7FFC 7 :: [] ∧
        writableOffset 0x7FFC = true) := by decide +kernel

/-- BA_SETRANGE running: STATUS and PDEG are no outputs, ROW_MEM is one. -/
theorem test_witness_BusyReads :
    ∀ off ∈ [0x00C, 0x024, 0x21FC],
      (busyAt [.read .w32 off]).executor = .running 0x44000000 (0 + 1) ∧ decode 0x44000000 = .ok .baSetrange ∧
        (busyAt [.read .w32 off]).porHeld = false ∧ (busyAt [.read .w32 off]).port = .read .w32 off :: [] ∧
        off < 0x100000 ∧ off % 4 = 0 ∧ outputOffset .baSetrange off = decide (off = 0x21FC) := by decide +kernel

/-- A word that does not decode, running. -/
theorem test_witness_BusyReads_undecodable :
    ∀ off ∈ [0x018, 0x2000],
      ({ atPort [.read .w32 off] with executor := .running 0x01000000 1 } : State).executor = .running 0x01000000 (0 + 1) ∧
        decode 0x01000000 = .error .unassignedOpcode ∧ off < 0x100000 ∧ off % 4 = 0 := by decide +kernel

/-- A step whose answer on the bus is the word `v`. -/
def answers (r : Result) (v : Word) : Bool := after r fun t => t.bus == .data v

/-- 10_state.md R41, 70_reset_and_hazards.md R507: PDEG reads its current value while P_ADD, which writes P2, runs. -/
theorem test_busy_pdeg :
    answers (step { high with port := [.read .w32 0x024], executor := .running 0x21000012 1 }) 0x003738C8 = true := by
  decide +kernel

theorem test_witness_IllegalAccessIsBusError :
    ∀ wo ∈ [(Width.w8, 0x010), (.w16, 0x010), (.w64, 0xFFFF8), (.w32, 0xFFFFF)],
      ((atPort [.write wo.1 wo.2 1]).executor = .idle ∧ (atPort [.write wo.1 wo.2 1]).porHeld = false ∧
        wo.2 < 0x100000 ∧ (wo.1 ≠ .w32 ∨ wo.2 % 4 ≠ 0) ∧ (atPort [.write wo.1 wo.2 1]).port = .write wo.1 wo.2 1 :: [] ∧
        (atPort [.read wo.1 wo.2]).port = .read wo.1 wo.2 :: []) ∧
        (busyAt [.write wo.1 wo.2 1]).executor = .running 0x44000000 (0 + 1) ∧
        (busyAt [.write wo.1 wo.2 1]).porHeld = false ∧
        (busyAt [.write wo.1 wo.2 1]).port = .write wo.1 wo.2 1 :: [] ∧
        (busyAt [.read wo.1 wo.2]).port = .read wo.1 wo.2 :: [] := by decide +kernel

theorem test_witness_StatusAndCtrlWrites :
    ((atPort [.write .w32 0x00C 2]).porHeld = false ∧ (atPort [.write .w32 0x00C 2]).executor = .idle ∧
        (atPort [.write .w32 0x00C 2]).port = .write .w32 0x00C 2 :: []) ∧
      ((busyAt [.write .w32 0x008 3]).porHeld = false ∧
        (busyAt [.write .w32 0x008 3]).executor = .running 0x44000000 (0 + 1) ∧
        (busyAt [.write .w32 0x008 3]).port = .write .w32 0x008 3 :: [] ∧ (3 : Dword).getLsbD 2 = false) := by
  decide +kernel

theorem test_witness_SoftResetResets :
    ((atPort [.write .w32 0x008 4]).executor = .idle ∧ (atPort [.write .w32 0x008 4]).porHeld = false ∧
        (atPort [.write .w32 0x008 4]).port = .write .w32 0x008 4 :: [] ∧ (4 : Dword).getLsbD 2 = true) ∧
      ((busyAt [.write .w32 0x008 4]).executor = .running 0x44000000 (0 + 1) ∧
        (busyAt [.write .w32 0x008 4]).port = .write .w32 0x008 4 :: [] ∧
        decode 0x44000000 = .ok .baSetrange ∧ outputOffset .baSetrange (memoryBase .row) = true ∧
        outputOffset .baSetrange (memoryBase .cw) = false) := by decide +kernel

/-- The reset state with the power-on reset input asserted. -/
def heldAt (es : List PortEvent) : State := { atPort es with porHeld := true }

theorem test_witness_PowerOnReset :
    ((atPort [.porAssert]).executor = .idle ∧ (atPort [.porAssert]).port = .porAssert :: []) ∧
      ((busyAt [.porAssert]).executor = .running 0x44000000 (0 + 1) ∧ (busyAt [.porAssert]).port = .porAssert :: []) ∧
      (∀ r, MemId.cw ≠ .p r) ∧
      ((heldAt [.read .w32 0x100]).executor = .idle ∧ (heldAt [.read .w32 0x100]).porHeld = true ∧
        (heldAt [.read .w32 0x100]).port = .read .w32 0x100 :: [] ∧
        (heldAt [.write .w32 0xFFFFF 1]).port = .write .w32 0xFFFFF 1 :: [] ∧ 0xFFFFF < 0x100000 ∧
        (heldAt [.porRelease]).port = .porRelease :: []) := by
  refine ⟨by decide +kernel, by decide +kernel, by simp, by decide +kernel⟩

theorem test_witness_IrqIsLevel :
    ({ State.reset with done := true } : State).done = true ∧ ({ State.reset with wovr := true } : State).wovr = true := by
  decide

end Sys2Proof.Tests
end

section
/-!
SUPPORT. How long the polynomials, codewords, runs and decoded symbols of the commands are, which generators the cache
holds, and which bits of a matrix memory a command reaches: what keeps every command inside its memories.
-/

namespace Sys2Proof.Machine

/-! ### Lengths of polynomials -/

theorem polyTrim_polyTrim (a : List Byte) : polyTrim (polyTrim a) = polyTrim a := by
  induction a with
  | nil => rfl
  | cons c cs ih =>
    rw [polyTrim_cons]
    split
    · split
      · rfl
      · next hc => rw [polyTrim_cons, if_pos (show polyTrim [] = [] from rfl), if_neg hc]
    · next hcs => rw [polyTrim_cons, ih, if_neg hcs]

theorem polyIsZero_iff (a : List Byte) : polyIsZero a = true ↔ polyTrim a = [] := List.isEmpty_iff

theorem length_trim_le_deg (a : List Byte) : (polyTrim a).length ≤ polyDeg a + 1 := by
  unfold polyDeg
  omega

/-- A nonzero polynomial has a coefficient at its degree. -/
theorem deg_lt_length {a : List Byte} (h : polyIsZero a = false) : polyDeg a < a.length := by
  have hpos : 0 < (polyTrim a).length := List.length_pos_iff.mpr fun ha => by simp [(polyIsZero_iff a).mpr ha] at h
  have hle := length_trim_le a
  unfold polyDeg
  omega

theorem length_mulRaw_le (f : Field) (a b : List Byte) : (polyMulRaw f a b).length ≤ a.length + (b.length - 1) := by
  induction a with
  | nil => simp [polyMulRaw]
  | cons x a ih =>
    rw [polyMulRaw, length_addRaw]
    simp only [List.length_map, List.length_cons]
    omega

theorem length_mul_le (f : Field) (a b : List Byte) : (polyMul f a b).length ≤ a.length + (b.length - 1) :=
  (length_trim_le _).trans (length_mulRaw_le f a b)

theorem polyMulmono_zero (f : Field) (a : List Byte) (d : Nat) : polyMulmono f a d 0 = [] :=
  polyTrim_of_zero _ fun i => by
    rw [← polyCoef_trim, ← polyMulmono, polyCoef_mulmono, gfMul_zero_right, ite_self]

/-- Neither result of the division loop grows past a bound that holds for the dividend. -/
theorem length_divLoop_le (f : Field) {b : List Byte} (hb : b.length ≤ polyDeg b + 1) (inv : Byte) {n : Nat}
    (fuel : Nat) : ∀ q r : List Byte, q.length ≤ n → r.length ≤ n →
      (polyDivLoop f b inv fuel q r).1.length ≤ n ∧ (polyDivLoop f b inv fuel q r).2.length ≤ n := by
  induction fuel with
  | zero => exact fun q r hq hr => ⟨hq, hr⟩
  | succ fuel ih =>
    intro q r hq hr
    rw [polyDivLoop]
    split
    · next hgo =>
      have hdeg := deg_lt_length hgo.2
      refine ih _ _ ((length_add_le _ _).trans (max_le hq ((length_mono_le _ _).trans ?_)))
        ((length_add_le _ _).trans (max_le hr ((length_mulmono_le _ _ _ _).trans ?_))) <;> omega
    · exact ⟨hq, hr⟩

theorem length_divmod_le (f : Field) (a : List Byte) {b : List Byte} (hb : b.length ≤ polyDeg b + 1) :
    (polyDivmod f a b).1.length ≤ a.length ∧ (polyDivmod f a b).2.length ≤ a.length :=
  length_divLoop_le f hb _ _ _ _ (Nat.zero_le _) (length_trim_le a)

/-- The value of a register has no leading zero. -/
theorem length_polyOf_le_deg (s : State) (r : PReg) : (s.polyOf r).length ≤ polyDeg (s.polyOf r) + 1 := by
  have h := length_trim_le_deg (s.polyOf r)
  rwa [State.polyOf, polyTrim_polyTrim] at h

theorem polyOf_eq_nil {s : State} {r : PReg} (h : polyIsZero (s.polyOf r) = true) : s.polyOf r = [] := by
  rwa [polyIsZero_iff, State.polyOf, polyTrim_polyTrim] at h

theorem length_mul_polyOf_le (f : Field) {s : State} {ra rb : PReg}
    (h : ¬(polyIsZero (s.polyOf ra) = false ∧ polyIsZero (s.polyOf rb) = false ∧
      polyDeg (s.polyOf ra) + polyDeg (s.polyOf rb) > Config.polyMaxDeg)) :
    (polyMul f (s.polyOf ra) (s.polyOf rb)).length ≤ 256 := by
  have ha := length_polyOf_le s ra
  have hb := length_polyOf_le s rb
  have hda := length_polyOf_le_deg s ra
  have hdb := length_polyOf_le_deg s rb
  refine (length_mul_le _ _ _).trans ?_
  cases hza : polyIsZero (s.polyOf ra) with
  | true => rw [polyOf_eq_nil hza, List.length_nil]; omega
  | false =>
    cases hzb : polyIsZero (s.polyOf rb) with
    | true => rw [polyOf_eq_nil hzb, List.length_nil]; omega
    | false =>
      have hdeg : ¬polyDeg (s.polyOf ra) + polyDeg (s.polyOf rb) > 255 := fun hgt => h ⟨hza, hzb, hgt⟩
      omega

theorem length_mulmono_polyOf_le (f : Field) {s : State} {r : PReg} {d c : Nat} (hd : d ≤ 255)
    (h : ¬(c ≠ 0 ∧ polyIsZero (s.polyOf r) = false ∧ polyDeg (s.polyOf r) + d > Config.polyMaxDeg)) :
    (polyMulmono f (s.polyOf r) d (element c)).length ≤ 256 := by
  by_cases hc : c = 0
  · rw [hc, show element 0 = 0 from rfl, polyMulmono_zero]
    exact Nat.zero_le _
  refine (length_mulmono_le _ _ _ _).trans ?_
  cases hz : polyIsZero (s.polyOf r) with
  | true => rw [polyOf_eq_nil hz, List.length_nil]; omega
  | false =>
    have hlen := length_polyOf_le_deg s r
    have hdeg : ¬polyDeg (s.polyOf r) + d > 255 := fun hgt => h ⟨hc, hz, hgt⟩
    omega

/-! ### Lengths and the generator cache of Reed-Solomon -/

theorem extendCache_generators (f : Field) (d : Nat) :
    extendCache f ((List.range (d + 1)).map (generatorPoly f)) = (List.range (d + 2)).map (generatorPoly f) := by
  have hlast : ((List.range (d + 1)).map (generatorPoly f)).getD d [1] = generatorPoly f d := by simp
  rw [List.range_succ (n := d + 1), List.map_append, extendCache, List.length_map, List.length_range,
    Nat.add_sub_cancel, hlast]
  rfl

/-- Each pass of the cache's loop adds the generator of the next degree (41_rs.md R202). -/
theorem growCache_generators (f : Field) (n d : Nat) :
    growCache f n ((List.range (d + 1)).map (generatorPoly f)) = (List.range (d + n + 1)).map (generatorPoly f) := by
  induction n generalizing d with
  | zero => rfl
  | succ n ih => rw [growCache, extendCache_generators, ih, Nat.add_right_comm d 1 n, Nat.add_assoc d n 1]

theorem cacheFor_generators (f : Field) (e d : Nat) :
    cacheFor f e ((List.range (d + 1)).map (generatorPoly f)) =
      (List.range (d + (e - d) + 1)).map (generatorPoly f) := by
  rw [cacheFor, List.length_map, List.length_range, Nat.add_sub_cancel, growCache_generators]

theorem length_correct (bs : List Byte) (ps : List (Nat × Byte)) : (correct bs ps).length = bs.length := by
  induction ps generalizing bs with
  | nil => rfl
  | cons p ps ih => rw [correct, ih, List.length_set]

theorem length_findRoots_le (f : Field) (sigma : List Byte) (is : List Nat) (xs : List Byte) :
    (findRoots f sigma is xs).length ≤ xs.length + is.length := by
  induction is generalizing xs with
  | nil => simp [findRoots]
  | cons i is ih =>
    rw [findRoots, List.length_cons]
    split
    · split
      · refine (ih _).trans ?_
        simp only [List.length_append, List.length_singleton]
        omega
      · exact (ih _).trans (by omega)
    · omega

/-- The root search tries the 255 nonzero elements, so there are at most that many locations (41_rs.md R208). -/
theorem length_locate_le {f : Field} {sigma xs : List Byte} (h : locate f sigma = .ok xs) : xs.length ≤ 255 := by
  unfold locate at h
  split at h
  · cases h; simp
  · split at h
    · cases h
    · cases h; simpa using length_findRoots_le f sigma (List.range' 1 255) []

theorem length_findErrors_le {f : Field} {n twoS : Nat} {syn : List Byte} {errs : List (Nat × Byte)}
    (h : findErrors f n twoS syn = .ok errs) : errs.length ≤ 255 := by
  obtain ⟨so, -, h⟩ := bind_ok h
  obtain ⟨xs, hxs, h⟩ := bind_ok h
  obtain ⟨ps, -, h⟩ := bind_ok h
  cases h
  have hlen : (forney f so.2 xs).length = xs.length := by simp [forney]
  rw [List.length_zip, hlen]
  exact (min_le_right _ _).trans (length_locate_le hxs)

/-! ### Lengths of runs and of decoded symbols -/

theorem length_runsFrom_le (g : Nat → Bool) (n : Nat) :
    ∀ (p len : Nat) (b : Bool) (i : Nat), (runsFrom g p len b i n).length ≤ n + 1 := by
  induction n with
  | zero => exact fun _ _ _ _ => Nat.le_refl _
  | succ n ih =>
    intro p len b i
    rw [runsFrom]
    split
    · exact (ih _ _ _ _).trans (Nat.le_succ _)
    · exact Nat.succ_le_succ (ih _ _ _ _)

/-- A run takes up at least one bit of the row (45_matcher.md R381). -/
theorem State.length_runsOf_le (s : State) (start : Nat) : (s.runsOf start).length ≤ s.size := by
  unfold State.runsOf
  split
  · exact (length_runsFrom_le _ _ _ _ _ _).trans (by omega)
  · exact Nat.zero_le _

theorem charLoop_length {sym : Sym} {rs : List Run} {fuel c : Nat} {syms : List Nat} {out : Nat × List Nat}
    (hsyms : syms.length ≤ Config.resMax) (h : charLoop sym rs fuel c syms = .ok out) :
    out.2.length ≤ Config.resMax := by
  induction fuel generalizing c syms with
  | zero => cases h
  | succ fuel ih =>
    rw [charLoop] at h
    split at h
    · cases h
    · next v _ =>
      split at h
      · cases h
      · next hroom =>
        have hlen : (syms ++ [v]).length ≤ Config.resMax := by
          rw [List.length_append, List.length_singleton]; omega
        split at h
        · cases h; exact hlen
        · exact ih hlen h

theorem itfPairs_length {s : State} {rs : List Run} {fuel c : Nat} {syms : List Nat} {out : Nat × List Nat}
    (hsyms : syms.length ≤ Config.resMax) (h : itfPairs s rs fuel c syms = .ok out) :
    out.2.length ≤ Config.resMax := by
  induction fuel generalizing c syms with
  | zero => cases h
  | succ fuel ih =>
    rw [itfPairs] at h
    split at h
    · cases h; exact hsyms
    · split at h
      · cases h
      · split at h
        · next d1 d2 _ _ =>
          split at h
          · cases h
          · next hroom =>
            refine ih ?_ h
            rw [List.length_append]
            exact Nat.le_of_not_lt hroom
        · cases h

theorem decodeChars_length {s : State} {sym : Sym} {rs : List Run} {d : Decoded} (h : decodeChars s sym rs = .ok d) :
    d.syms.length ≤ Config.resMax := by
  obtain ⟨js, -, h⟩ := bind_ok h
  obtain ⟨cs, hcs, h⟩ := bind_ok h
  have hlen := charLoop_length (by simp [Config.resMax]) hcs
  unfold endChecks at h
  split at h
  · cases h
  · split at h
    · cases h
    · cases h; exact hlen

theorem decodeItf_length {s : State} {rs : List Run} {d : Decoded} (h : decodeItf s rs = .ok d) :
    d.syms.length ≤ Config.resMax := by
  obtain ⟨j, -, h⟩ := bind_ok h
  obtain ⟨cs, hcs, h⟩ := bind_ok h
  have hlen := itfPairs_length (Nat.zero_le _) hcs
  unfold itfFinish at h
  split at h
  · cases h
  · cases h; exact hlen

/-- Every procedure stops before OD_RES_MEM is full (45_matcher.md R388, R389). -/
theorem decodeRow_length {s : State} {sym : Sym} {chk : Bool} {d : Decoded} (h : decodeRow s sym chk = .ok d) :
    d.syms.length ≤ Config.resMax := by
  unfold decodeRow at h
  split at h
  · cases h
  · split at h
    · cases h
    · obtain ⟨d', hd, h⟩ := bind_ok h
      obtain ⟨_, -, h⟩ := bind_ok h
      cases h
      cases sym with
      | itf => exact decodeItf_length hd
      | code39 | code93 | code128 | codabar => exact decodeChars_length hd

/-! ### Bits inside a matrix -/

/-- A stretch of a row inside a matrix lies inside its region (20_memory.md R85). -/
theorem bitPlace_add_le {w h x y n : Nat} (hx : x + n ≤ w) (hy : y < h) :
    bitPlace w x y + n ≤ 32 * (rowWords w * h) := by
  have hrow : w ≤ 32 * rowWords w := by unfold rowWords; omega
  have hmul : rowWords w * (y + 1) ≤ rowWords w * h := Nat.mul_le_mul_left _ hy
  have hexp : rowWords w * (y + 1) = y * rowWords w + rowWords w := by ring
  unfold bitPlace
  omega

theorem length_regionBytes (w h : Nat) (g : Nat → Nat → Bool) : (regionBytes w h g).length = 4 * (rowWords w * h) :=
  length_bytesOfBits _ _

theorem fill_fillRows (w left width top n : Nat) (m : Memory) : (fillRows w left width top n m).fill = m.fill := by
  induction n with
  | zero => rfl
  | succ n ih => rw [fillRows, Memory.fill_setBits, ih]

theorem wf_fillRows {size w h left width top n : Nat} {m : Memory} (hm : m.wf size = true)
    (hsize : 4 * (rowWords w * h) ≤ size) (hx : left + width ≤ w) (hy : top + n ≤ h) :
    (fillRows w left width top n m).wf size = true := by
  induction n with
  | zero => exact hm
  | succ n ih =>
    have hplace := bitPlace_add_le hx (show top + n < h by omega)
    exact Memory.wf_setBits (ih (by omega)) (by omega) true

end Sys2Proof.Machine
end

section
/-!
SUPPORT. The updates of the state that keep the invariant of a good state, and what each of them needs for it.
-/

namespace Sys2Proof.Machine

/-! ### Updates of the state that keep the invariant -/

/-- What the invariant asks of one local memory when `n` draws were made: its canonical form, and no later draw. -/
structure MemId.Holds (id : MemId) (n : Nat) (m : Memory) : Prop where
  wf : m.wf id.size = true
  fill : ∀ k, m.fill = .drawn k → k < n

theorem MemId.Holds.zeros (id : MemId) (n : Nat) : id.Holds n Memory.zeros :=
  ⟨Memory.wf_zeros _, by simp⟩

theorem MemId.Holds.ofBytes {id : MemId} {n : Nat} {vs : List Byte} (h : vs.length ≤ id.size) :
    id.Holds n (Memory.ofBytes vs) :=
  ⟨Memory.wf_ofBytes h, by simp⟩

theorem MemId.Holds.of_fill_eq {id : MemId} {n : Nat} {m m' : Memory} (h : id.Holds n m) (hfill : m'.fill = m.fill)
    (hwf : m'.wf id.size = true) : id.Holds n m' :=
  ⟨hwf, fun k hk => h.fill k (hfill ▸ hk)⟩

theorem MemId.Holds.mono {id : MemId} {n n' : Nat} {m : Memory} (h : id.Holds n m) (hn : n ≤ n') : id.Holds n' m :=
  ⟨h.wf, fun k hk => (h.fill k hk).trans_le hn⟩

theorem MemId.Holds.overwrite {id : MemId} {n : Nat} {m : Memory} (h : id.Holds n m) {a : Nat} {vs : List Byte}
    (hvs : a + vs.length ≤ id.size) : id.Holds n (m.overwrite a vs) :=
  h.of_fill_eq (Memory.fill_overwrite m a vs) (Memory.wf_overwrite h.wf vs hvs)

theorem MemId.Holds.setBit {id : MemId} {n : Nat} {m : Memory} (h : id.Holds n m) {i : Nat} (hi : i < 8 * id.size)
    (b : Bool) : id.Holds n (m.setBit i b) :=
  h.of_fill_eq (Memory.fill_setBit m i b) (Memory.wf_setBit h.wf hi b)

theorem MemId.Holds.setBits {id : MemId} {n : Nat} {m : Memory} (h : id.Holds n m) {i k : Nat}
    (hk : i + k ≤ 8 * id.size) (b : Bool) : id.Holds n (m.setBits i k b) :=
  h.of_fill_eq (Memory.fill_setBits m i k b) (Memory.wf_setBits h.wf hk b)

theorem MemId.Holds.writeHalves {id : MemId} {n : Nat} {m : Memory} (h : id.Holds n m) {i : Nat}
    {vs : List (BitVec 16)} (hvs : 2 * i + 2 * vs.length ≤ id.size) : id.Holds n (m.writeHalves i vs) :=
  h.of_fill_eq (Memory.fill_writeHalves m i vs) (Memory.wf_writeHalves h.wf vs hvs)

theorem MemId.Holds.writeWord {id : MemId} {n : Nat} {m : Memory} (h : id.Holds n m) {i : Nat}
    (hi : 4 * i + 4 ≤ id.size) (v : Word) : id.Holds n (m.writeWord i v) :=
  h.of_fill_eq (Memory.fill_writeWord m i v) (Memory.wf_writeWord h.wf hi v)

theorem MemId.Holds.fresh (id : MemId) {n k : Nat} (hk : k < n) : id.Holds n (Memory.fresh k) :=
  ⟨Memory.wf_fresh _ _, fun _ h => Fill.drawn.inj h ▸ hk⟩

namespace State.Inv

variable {s : State}

theorem memory_holds (hs : s.Inv) (id : MemId) : id.Holds s.draws (s.memory id) := ⟨hs.memories id, hs.draws id⟩

theorem size_le (hs : s.Inv) : s.size ≤ 4096 := hs.rowSize

/-- The region of a matrix lies inside its memory (20_memory.md R85). -/
theorem region_le (hs : s.Inv) (m : Mat) : 4 * (rowWords (s.width m) * s.height m) ≤ (MemId.mat m).size :=
  Nat.mul_le_mul_left 4 (hs.matrices m)

theorem of_memory_holds {t : State} (hm : ∀ id : MemId, id.Holds t.draws (t.memory id)) (hrow : t.size ≤ Config.rowBits)
    (hmat : ∀ m, rowWords (t.width m) * t.height m ≤ Config.matWords)
    (hgen : ∀ f, ∃ d, d < Config.cwMax ∧ t.CacheHolds f d) (hheld : t.porHeld = true → t.executor = .idle) : t.Inv :=
  ⟨fun id => (hm id).wf, hrow, hmat, hgen, fun id => (hm id).fill, hheld⟩

/-- The invariant reads the memories, ROWSIZE, the dimensions, the caches, the draws, and whether something runs under
power-on reset, and nothing else. -/
theorem of_frame {t : State} (hs : s.Inv) (hmem : ∀ id, t.memory id = s.memory id) (hrow : t.rowSize = s.rowSize)
    (hdim : ∀ m, t.dim m = s.dim m) (hgen : ∀ f, t.gen f = s.gen f) (hdraws : s.draws ≤ t.draws)
    (hheld : t.porHeld = true → t.executor = .idle) : t.Inv := by
  refine of_memory_holds (fun id => ?_) ?_ (fun m => ?_) (fun f => ?_) hheld
  · rw [hmem]; exact (hs.memory_holds id).mono hdraws
  · unfold State.size
    rw [hrow]; exact hs.rowSize
  · unfold State.width State.height
    rw [hdim]; exact hs.matrices m
  · unfold State.CacheHolds
    rw [hgen]; exact hs.caches f

/-- Registers that the invariant does not read, and the executor where nothing runs afterwards or nothing is held. -/
theorem of_frame_rfl {t : State} (hs : s.Inv) (hheld : t.porHeld = true → t.executor = .idle)
    (hmem : t.memory = s.memory := by rfl) (hrow : t.rowSize = s.rowSize := by rfl)
    (hdim : t.dim = s.dim := by rfl) (hgen : t.gen = s.gen := by rfl)
    (hdraws : s.draws ≤ t.draws := by exact Nat.le_refl _) : t.Inv :=
  hs.of_frame (congrFun hmem) hrow (congrFun hdim) (congrFun hgen) hdraws hheld

theorem complete (hs : s.Inv) (c : Code) (k : Nat) : (s.complete c k).Inv := hs.of_frame_rfl fun _ => rfl

theorem setResNat (hs : s.Inv) (i : Fin 8) (n : Nat) : (s.setResNat i n).Inv := hs.of_frame_rfl hs.held

theorem setRes (hs : s.Inv) (i : Fin 8) (v : Word) : (s.setRes i v).Inv := hs.of_frame_rfl hs.held

theorem setTag (hs : s.Inv) (r : PReg) (f : Field) : (s.setTag r f).Inv := hs.of_frame_rfl hs.held

theorem withTa (hs : s.Inv) (t : Transform) : ({ s with ta := t } : State).Inv := hs.of_frame_rfl hs.held

theorem withTb (hs : s.Inv) (t : Transform) : ({ s with tb := t } : State).Inv := hs.of_frame_rfl hs.held

theorem withF (hs : s.Inv) (v : Vector Dword 16) : ({ s with f := v } : State).Inv := hs.of_frame_rfl hs.held

theorem withNruns (hs : s.Inv) (n : BitVec 13) : ({ s with nruns := n } : State).Inv := hs.of_frame_rfl hs.held

theorem setMemory (hs : s.Inv) (id : MemId) {m : Memory} (h : id.Holds s.draws m) : (s.setMemory id m).Inv := by
  have hdim : ∀ k, (s.setMemory id m).dim k = s.dim k := fun k => by cases k <;> simp [State.dim]
  have hgen : ∀ f, (s.setMemory id m).gen f = s.gen f := fun f => by cases f <;> simp [State.gen]
  refine of_memory_holds (fun jd => ?_) ?_ (fun k => ?_) (fun f => ?_) ?_
  · rw [State.draws_setMemory, State.memory_setMemory]
    split
    · next heq => exact heq ▸ h
    · exact hs.memory_holds jd
  · simpa [State.size] using hs.rowSize
  · simpa only [State.width, State.height, hdim] using hs.matrices k
  · simpa only [State.CacheHolds, hgen] using hs.caches f
  · simpa using hs.held

theorem withRowSize (hs : s.Inv) {n : Nat} (h : n ≤ Config.rowBits) :
    ({ s with rowSize := BitVec.ofNat 13 n } : State).Inv :=
  ⟨hs.memories, (Nat.mod_le _ _).trans h, hs.matrices, hs.caches, hs.draws, hs.held⟩

theorem setDim (hs : s.Inv) (m : Mat) {w h : Nat} (hfit : rowWords w * h ≤ Config.matWords) : (s.setDim m w h).Inv := by
  have hmem : ∀ id, (s.setDim m w h).memory id = s.memory id := State.memory_of_mems (by simp)
  have hgen : ∀ f, (s.setDim m w h).gen f = s.gen f := fun f => by cases f <;> simp [State.gen]
  refine of_memory_holds (fun id => ?_) ?_ (fun k => ?_) (fun f => ?_) ?_
  · simpa only [hmem, State.draws_setDim] using hs.memory_holds id
  · simpa [State.size] using hs.rowSize
  · unfold State.width State.height
    rw [State.dim_setDim]
    split
    · have hw : rowWords (w % 2 ^ 16) ≤ rowWords w :=
        Nat.div_le_div_right (Nat.add_le_add_right (Nat.mod_le _ _) _)
      exact (Nat.mul_le_mul hw (Nat.mod_le _ _)).trans hfit
    · exact hs.matrices k
  · simpa only [State.CacheHolds, hgen] using hs.caches f
  · simpa using hs.held

theorem setGen (hs : s.Inv) (f : Field) {d : Nat} (hd : d < Config.cwMax) :
    (s.setGen f ((List.range (d + 1)).map (generatorPoly f))).Inv := by
  have hmem : ∀ id, (s.setGen f ((List.range (d + 1)).map (generatorPoly f))).memory id = s.memory id :=
    State.memory_of_mems (by simp)
  have hdim : ∀ k, (s.setGen f ((List.range (d + 1)).map (generatorPoly f))).dim k = s.dim k := fun k => by
    cases k <;> simp [State.dim]
  refine of_memory_holds (fun id => ?_) ?_ (fun k => ?_) (fun g => ?_) ?_
  · simpa only [hmem, State.draws_setGen] using hs.memory_holds id
  · simpa [State.size] using hs.rowSize
  · simpa only [State.width, State.height, hdim] using hs.matrices k
  · by_cases hg : g = f
    · subst hg
      exact ⟨d, hd, by simp [State.CacheHolds]⟩
    · simpa [State.CacheHolds, hg] using hs.caches g
  · simpa using hs.held

theorem putPoly (hs : s.Inv) (r : PReg) (f : Field) {a : List Byte} (h : a.length ≤ 256) : (s.putPoly r f a).Inv :=
  (hs.setMemory (.p r) (.ofBytes h)).setTag r f

end State.Inv

end Sys2Proof.Machine
end

section
/-!
SUPPORT. Every command keeps the invariant: its body, past its numbered checks, writes only what fits.
-/

namespace Sys2Proof.Machine

/-! ### Command bodies -/

/-- Every state that a command's body ends with is good. -/
def EndsGood (r : Except Raise State) : Prop := ∀ u, r = .ok u → u.Inv

theorem finish_keeps_inv {s t : State} {r : Except Raise State} (hs : s.Inv) (hr : EndsGood r)
    (h : finish s r = .next t) : t.Inv := by
  rcases finish_cases h with ⟨u, hu, rfl⟩ | ⟨e, -, rfl⟩
  · exact (hr u hu).complete _ _
  · exact hs.complete _ _

namespace EndsGood

theorem ok {u : State} (h : u.Inv) : EndsGood (.ok u) := fun _ hu => Except.ok.inj hu ▸ h

theorem raise (c : Code) (k : Nat) : EndsGood (Machine.raise c k) := fun _ hu => nomatch hu

/-- A numbered check: what comes after it may use that it passed. -/
theorem check {p : Prop} [Decidable p] {c : Code} {k : Nat} {r : Except Raise State} (h : ¬p → EndsGood r) :
    EndsGood (if p then Machine.raise c k else r) := by
  split
  · exact raise c k
  · next hp => exact h hp

theorem bind {α : Type} {x : Except Raise α} {g : α → Except Raise State} (h : ∀ a, x = .ok a → EndsGood (g a)) :
    EndsGood (x.bind g) := fun u hu =>
  let ⟨a, ha, hg⟩ := bind_ok hu
  h a ha u hg

end EndsGood

theorem State.argS_of_nonneg {s : State} {i : Fin 8} (h : 0 ≤ s.argS i) : s.argS i = s.argU i := by
  unfold State.argS at h ⊢
  unfold State.argU
  rw [BitVec.toInt_eq_toNat_cond] at h ⊢
  split <;> omega

theorem State.argU_lt_of_inRange {s : State} {i : Fin 8} {n : Nat} (h : ¬inRange (s.argS i) n = false) :
    s.argU i < n := by
  simp only [inRange, Bool.not_eq_false, Bool.and_eq_true, decide_eq_true_eq] at h
  have := State.argS_of_nonneg h.1
  omega

/-- A range that passes its check lies inside the row (42_bitarray.md R251). -/
theorem State.argU_le_of_not_rangeBad {s : State} (h : ¬s.rangeBad = true) :
    s.argU 0 ≤ s.argU 1 ∧ s.argU 1 ≤ s.size := by
  simp only [State.rangeBad, Bool.or_eq_true, decide_eq_true_eq, not_or, Int.not_lt] at h
  obtain ⟨⟨h0, h01⟩, h1⟩ := h
  have e0 := State.argS_of_nonneg h0
  have e1 := State.argS_of_nonneg (h0.trans h01)
  omega

theorem length_syndromes (f : Field) (twoS : Nat) (bs : List Byte) : (syndromes f twoS bs).length = twoS := by
  simp [syndromes]

/-- A codeword length that passes its check fits in CW_MEM (41_rs.md R203). -/
theorem le_of_codeword_check {n : Nat} (h : ¬(n < 1 ∨ n > Config.cwMax)) : n ≤ 255 :=
  Nat.le_of_not_lt fun hn => h (.inr hn)

/-- The point of a BM command whose checks pass lies inside the matrix (43_bitmatrix.md R291). -/
theorem pointChecks_endsGood {s u : State} (m : Mat)
    (h : s.argU 0 < s.width m → s.argU 1 < s.height m → u.Inv) : EndsGood (pointChecks m s u) :=
  .check fun _ => .check fun hx => .check fun hy =>
    .ok (h (State.argU_lt_of_inRange hx) (State.argU_lt_of_inRange hy))

section

variable {s : State} (hs : s.Inv)
include hs

/-! ### GF and POLY commands -/

theorem gfAddBody_endsGood : EndsGood (gfAddBody s) := .check fun _ => .check fun _ => .ok (hs.setResNat _ _)

theorem gfMulBody_endsGood (f : Field) : EndsGood (gfMulBody f s) :=
  .check fun _ => .check fun _ => .ok (hs.setResNat _ _)

theorem gfDivBody_endsGood (f : Field) : EndsGood (gfDivBody f s) :=
  .check fun _ => .check fun _ => .check fun _ => .ok (hs.setResNat _ _)

theorem gfInvBody_endsGood (f : Field) : EndsGood (gfInvBody f s) :=
  .check fun _ => .check fun _ => .ok (hs.setResNat _ _)

theorem gfExpBody_endsGood (f : Field) : EndsGood (gfExpBody f s) := .check fun _ => .ok (hs.setResNat _ _)

theorem gfLogBody_endsGood (f : Field) : EndsGood (gfLogBody f s) :=
  .check fun _ => .check fun _ => .ok (hs.setResNat _ _)

theorem pMonoBody_endsGood (f : Field) (pd : PReg) : EndsGood (pMonoBody f pd s) :=
  .check fun _ => .check fun hneg => .check fun hle => .ok <| hs.putPoly _ _ <| (length_mono_le _ _).trans <| by
    have := State.argS_of_nonneg (Int.not_lt.mp hneg)
    omega

theorem pAddBody_endsGood (f : Field) (pb pa pd : PReg) : EndsGood (pAddBody f pb pa pd s) :=
  .check fun _ => .check fun _ => .ok <| hs.putPoly _ _ <|
    (length_add_le _ _).trans (max_le (length_polyOf_le s pa) (length_polyOf_le s pb))

theorem pMulBody_endsGood (f : Field) (pb pa pd : PReg) : EndsGood (pMulBody f pb pa pd s) :=
  .check fun _ => .check fun _ => .check fun hdeg => .ok (hs.putPoly _ _ (length_mul_polyOf_le f hdeg))

theorem pScaleBody_endsGood (f : Field) (pa pd : PReg) : EndsGood (pScaleBody f pa pd s) :=
  .check fun _ => .check fun _ => .ok (hs.putPoly _ _ ((length_scale_le _ _ _).trans (length_polyOf_le s pa)))

theorem pMulmonoBody_endsGood (f : Field) (pa pd : PReg) : EndsGood (pMulmonoBody f pa pd s) :=
  .check fun _ => .check fun _ => .check fun hneg => .check fun hle => .check fun hdeg =>
    .ok <| hs.putPoly _ _ <| length_mulmono_polyOf_le f
      (by have := State.argS_of_nonneg (Int.not_lt.mp hneg); omega) hdeg

theorem pDivBody_endsGood (f : Field) (pe pb pa pd : PReg) : EndsGood (pDivBody f pe pb pa pd s) :=
  .check fun _ => .check fun _ => .check fun _ => by
    obtain ⟨hq, hr⟩ := length_divmod_le f (s.polyOf pa) (length_polyOf_le_deg s pb)
    have ha := length_polyOf_le s pa
    exact .ok ((hs.putPoly pd f (hq.trans ha)).putPoly pe f (hr.trans ha))

theorem pEvalBody_endsGood (f : Field) (pa : PReg) : EndsGood (pEvalBody f pa s) :=
  .check fun _ => .check fun _ => .ok (hs.setResNat _ _)

/-! ### RS commands -/

theorem rsEncodeBody_endsGood (f : Field) : EndsGood (rsEncodeBody f s) :=
  .check fun hn => .check fun _ => .check fun he => .ok <| by
    have hlen := le_of_codeword_check hn
    obtain ⟨d, hd, hg⟩ := hs.caches f
    have hcw := (hs.memory_holds .cw).overwrite (a := s.argU 0 - s.argU 1) (vs := ecBytes f (s.argU 1)
      ((cacheFor f (s.argU 1) (s.gen f)).getD (s.argU 1) [1]) (s.cw.bytes (s.argU 0 - s.argU 1)))
      (by simp only [ecBytes, List.length_map, List.length_range, MemId.size]; omega)
    unfold State.CacheHolds at hg
    have hd' : d + (s.argU 1 - d) < Config.cwMax := by unfold Config.cwMax at hd ⊢; omega
    have hgen := hs.setGen f hd'
    rw [← cacheFor_generators, ← hg] at hgen
    exact hgen.setMemory .cw (State.draws_setGen s f _ ▸ hcw)

theorem rsSyndromeBody_endsGood (f : Field) : EndsGood (rsSyndromeBody f s) :=
  .check fun hn => .check fun he => .ok <| (hs.setMemory .syn (.ofBytes (by
    have hlen := le_of_codeword_check hn
    rw [length_syndromes, MemId.size]
    omega))).setResNat _ _

theorem rsCommitClean_inv {syn : List Byte} (hsyn : syn.length ≤ 256) : (rsCommitClean s syn).Inv :=
  (((hs.setMemory .syn (.ofBytes hsyn)).setMemory .eloc (.zeros _ _)).setMemory .emag
    (.zeros _ _)).setResNat _ _

theorem rsCommit_inv {syn bs : List Byte} {errs : List (Nat × Byte)} (hsyn : syn.length ≤ 256) (hbs : bs.length ≤ 256)
    (herrs : errs.length ≤ 255) : (rsCommit s syn bs errs).Inv := by
  have herrs' : errs.length ≤ 256 := herrs.trans (Nat.le_succ _)
  have hcw := hs.setMemory .cw ((hs.memory_holds .cw).overwrite (a := 0) (vs := bs) (by simpa [MemId.size] using hbs))
  have hsyn := hcw.setMemory .syn (.ofBytes hsyn)
  have heloc := hsyn.setMemory .eloc (.ofBytes (vs := errs.map fun e => BitVec.ofNat 8 e.1)
    (by simpa [MemId.size] using herrs'))
  have hemag := heloc.setMemory .emag (.ofBytes (vs := errs.map fun e => e.2)
    (by simpa [MemId.size] using herrs'))
  exact hemag.setResNat 0 errs.length

theorem rsDecodeBody_endsGood (f : Field) : EndsGood (rsDecodeBody f s) :=
  .check fun hn => .check fun he => by
    have hlen := le_of_codeword_check hn
    have hsyn : (syndromes f (s.argU 1) (s.cw.bytes (s.argU 0))).length ≤ 256 := by rw [length_syndromes]; omega
    split
    · exact .ok (rsCommitClean_inv hs hsyn)
    · refine .bind fun errs herrs => ?_
      unfold rsVerify
      split
      · refine .ok (rsCommit_inv hs hsyn ?_ (length_findErrors_le herrs))
        rw [length_correct, Memory.length_bytes]
        omega
      · exact .raise _ _

/-! ### BA commands -/

theorem setRowBit_inv {i : Nat} (hi : i < s.size) (b : Bool) : ({ s with row := s.row.setBit i b } : State).Inv :=
  hs.setMemory .row ((hs.memory_holds .row).setBit (hi.trans_le hs.size_le) b)

theorem baGetBody_endsGood : EndsGood (baGetBody s) := .check fun _ => .ok (hs.setResNat _ _)

theorem baSetBody_endsGood : EndsGood (baSetBody s) :=
  .check fun hi => .ok (setRowBit_inv hs (State.argU_lt_of_inRange hi) _)

theorem baFlipBody_endsGood : EndsGood (baFlipBody s) :=
  .check fun hi => .ok (setRowBit_inv hs (State.argU_lt_of_inRange hi) _)

theorem baSetrangeBody_endsGood : EndsGood (baSetrangeBody s) :=
  .check fun hrange => .ok <| by
    obtain ⟨h01, h1⟩ := State.argU_le_of_not_rangeBad hrange
    have hsize := hs.size_le
    have hbits : s.argU 0 + (s.argU 1 - s.argU 0) ≤ 8 * MemId.row.size := by rw [MemId.size]; omega
    exact hs.setMemory .row ((hs.memory_holds .row).setBits hbits true)

theorem baInitBody_endsGood : EndsGood (baInitBody s) :=
  .check fun hn => .ok <| by
    obtain ⟨h0, hmax⟩ := not_or.mp hn
    have harg := State.argS_of_nonneg (Int.not_lt.mp h0)
    exact (hs.withRowSize (by omega)).setMemory .row (.zeros _ _)

theorem baIsrangeBody_endsGood : EndsGood (baIsrangeBody s) :=
  .check fun _ => .check fun _ => .ok (hs.setResNat _ _)

theorem baNextsetBody_endsGood : EndsGood (baNextsetBody s) := .check fun _ => .ok (hs.setResNat _ _)

theorem baNextunsetBody_endsGood : EndsGood (baNextunsetBody s) := .check fun _ => .ok (hs.setResNat _ _)

theorem reversedRow_inv : ({ s with
    row := Memory.ofBytes (bytesOfBits ((s.size + 7) / 8) s.reversedBit) } : State).Inv :=
  hs.setMemory .row (.ofBytes (by
    have hsize := hs.size_le
    rw [length_bytesOfBits, MemId.size]
    omega))

/-! ### BM commands -/

theorem setMatBit_inv {m : Mat} {x y : Nat} (hx : x < s.width m) (hy : y < s.height m) (b : Bool) :
    (s.setMatBit m x y b).Inv := by
  have hplace := bitPlace_add_le (n := 1) hx hy
  have hregion := hs.region_le m
  exact hs.setMemory (.mat m) ((hs.memory_holds (.mat m)).setBit (by omega) b)

theorem overwriteRegion_inv (m : Mat) (g : Nat → Nat → Bool) :
    (s.setMat m ((s.mat m).overwrite 0 (regionBytes (s.width m) (s.height m) g))).Inv :=
  hs.setMemory (.mat m) ((hs.memory_holds (.mat m)).overwrite (by
    rw [length_regionBytes, Nat.zero_add]
    exact hs.region_le m))

theorem bmInitBody_endsGood (m : Mat) : EndsGood (bmInitBody m s) :=
  .check fun _ => .check fun _ => .check fun hfit => .ok <|
    (hs.setDim m (Nat.le_of_not_lt hfit)).setMemory (.mat m) (.zeros _ _)

theorem bmClearBody_endsGood (m : Mat) : EndsGood (bmClearBody m s) :=
  .check fun _ => .ok (hs.setMemory (.mat m) (.zeros _ _))

theorem bmSetregionBody_endsGood (m : Mat) : EndsGood (bmSetregionBody m s) :=
  .check fun _ => .check fun hpos => .check fun hdim => .check fun hin => .ok <| by
    obtain ⟨hx0, hy0⟩ := not_or.mp hpos
    obtain ⟨hw0, hh0⟩ := not_or.mp hdim
    have hx := State.argS_of_nonneg (Int.not_lt.mp hx0)
    have hy := State.argS_of_nonneg (Int.not_lt.mp hy0)
    have hw := State.argS_of_nonneg (s := s) (i := 2) (by omega)
    have hh := State.argS_of_nonneg (s := s) (i := 3) (by omega)
    exact hs.setMemory (.mat m) <| (hs.memory_holds (.mat m)).of_fill_eq (fill_fillRows _ _ _ _ _ _) <|
      wf_fillRows (hs.memories (.mat m)) (hs.region_le m) (by omega) (by omega)

theorem bmGetrowBody_endsGood (m : Mat) : EndsGood (bmGetrowBody m s) :=
  .check fun _ => .check fun _ => .check fun hw => .ok <| by
    have hw' : s.width m ≤ Config.rowBits := Nat.le_of_not_lt hw
    refine (hs.withRowSize hw').setMemory .row (.ofBytes ?_)
    unfold Config.rowBits at hw'
    rw [length_bytesOfBits, MemId.size]
    omega

theorem bmRot180Body_endsGood (m : Mat) : EndsGood (bmRot180Body m s) :=
  .check fun _ => .ok (overwriteRegion_inv hs m _)

theorem bmXorBody_endsGood (m : Mat) : EndsGood (bmXorBody m s) :=
  .check fun _ => .check fun _ => .check fun _ => .ok (overwriteRegion_inv hs m _)

theorem bmCopyBody_endsGood (m : Mat) : EndsGood (bmCopyBody m s) :=
  .check fun _ => .ok <|
    have hm := hs.memory_holds (.mat m)
    (hs.setMemory (.mat m.other) ⟨hm.wf, hm.fill⟩).setDim m.other (hs.matrices m)

theorem putPoint_inv (p : Option (Nat × Nat)) : (s.putPoint p).Inv :=
  match p with
  | some _ => ((hs.setResNat _ _).setResNat _ _).setResNat _ _
  | none => ((hs.setRes _ _).setRes _ _).setRes _ _

theorem bmTopleftBody_endsGood (m : Mat) : EndsGood (bmTopleftBody m s) := .check fun _ => .ok (putPoint_inv hs _)

theorem bmBotrightBody_endsGood (m : Mat) : EndsGood (bmBotrightBody m s) := .check fun _ => .ok (putPoint_inv hs _)

theorem gridSampleBody_endsGood (m : Mat) : EndsGood (gridSampleBody m s) :=
  .check fun _ => .check fun _ => .check fun hfit => .bind fun rows _ => .ok <| by
    have hfit' : rowWords (s.argU 0) * s.argU 1 ≤ Config.matWords :=
      Nat.le_of_not_lt fun h => hfit (.inr (.inr h))
    refine (hs.setDim m.other hfit').setMemory (.mat m.other) (.ofBytes ?_)
    rw [length_regionBytes]
    exact Nat.mul_le_mul_left 4 hfit'

/-! ### OD commands -/

theorem odRunsBody_endsGood : EndsGood (odRunsBody s) :=
  .check fun _ => .ok <| by
    have hruns := s.length_runsOf_le (s.argU 0)
    have hsize := hs.size_le
    have hfits : 2 * 0 + 2 * ((s.runsOf (s.argU 0)).map fun r : Run => BitVec.ofNat 16 r.len).length ≤
        MemId.run.size := by
      rw [List.length_map, MemId.size]
      omega
    have hrun := hs.setMemory .run ((hs.memory_holds .run).writeHalves hfits)
    exact ((hrun.withNruns _).setResNat _ _).setResNat _ _

theorem odPmatchBody_endsGood (sym : Sym) : EndsGood (odPmatchBody sym s) :=
  .check fun _ => .check fun _ => by
    rcases best sym (s.runCounts sym (s.argU 0)) (allEntries sym) with ⟨_ | v, x⟩
    · exact .raise _ _
    · exact .ok ((hs.setResNat _ _).setResNat _ _)

theorem odCommit_inv (sym : Sym) {d : Decoded} (hd : d.syms.length ≤ Config.resMax) : (odCommit s sym d).Inv := by
  have hres := hs.setMemory .odres (.ofBytes (vs := d.syms.map (BitVec.ofNat 8))
    (by rw [List.length_map]; exact hd))
  exact (((((hres.setResNat _ _).setResNat _ _).setResNat _ _).setResNat _ _).setResNat _ _).setResNat _ _

theorem odDecodeBody_endsGood (chk : Bool) (sym : Sym) : EndsGood (odDecodeBody chk sym s) :=
  .bind fun _ hd => .ok (odCommit_inv hs sym (decodeRow_length hd))

theorem multiTry_endsGood (chk : Bool) (en : BitVec 5) (syms : List Sym) : EndsGood (multiTry s chk en syms) := by
  induction syms with
  | nil => exact .raise _ _
  | cons sym rest ih =>
    rw [multiTry]
    split
    · split
      · next d hd => exact .ok (odCommit_inv hs sym (decodeRow_length hd))
      · exact ih
    · exact ih

theorem odMultiBody_endsGood (chk : Bool) (en : BitVec 5) : EndsGood (odMultiBody chk en s) :=
  .check fun _ => multiTry_endsGood hs chk en _

/-! ### Every command -/

theorem exec_keeps_inv {t : State} (i : Instr) (h : exec i s = .next t) : t.Inv :=
  match i with
  | .nop => finish_keeps_inv hs (.ok hs) h
  | .gfAdd _ => finish_keeps_inv hs (gfAddBody_endsGood hs) h
  | .gfMul f => finish_keeps_inv hs (gfMulBody_endsGood hs f) h
  | .gfDiv f => finish_keeps_inv hs (gfDivBody_endsGood hs f) h
  | .gfInv f => finish_keeps_inv hs (gfInvBody_endsGood hs f) h
  | .gfExp f => finish_keeps_inv hs (gfExpBody_endsGood hs f) h
  | .gfLog f => finish_keeps_inv hs (gfLogBody_endsGood hs f) h
  | .pMono f pd => finish_keeps_inv hs (pMonoBody_endsGood hs f pd) h
  | .pAdd f pb pa pd => finish_keeps_inv hs (pAddBody_endsGood hs f pb pa pd) h
  | .pMul f pb pa pd => finish_keeps_inv hs (pMulBody_endsGood hs f pb pa pd) h
  | .pScale f pa pd => finish_keeps_inv hs (pScaleBody_endsGood hs f pa pd) h
  | .pMulmono f pa pd => finish_keeps_inv hs (pMulmonoBody_endsGood hs f pa pd) h
  | .pDiv f pe pb pa pd => finish_keeps_inv hs (pDivBody_endsGood hs f pe pb pa pd) h
  | .pEval f pa => finish_keeps_inv hs (pEvalBody_endsGood hs f pa) h
  | .rsEncode f => finish_keeps_inv hs (rsEncodeBody_endsGood hs f) h
  | .rsSyndrome f => finish_keeps_inv hs (rsSyndromeBody_endsGood hs f) h
  | .rsDecode f => finish_keeps_inv hs (rsDecodeBody_endsGood hs f) h
  | .baGet => finish_keeps_inv hs (baGetBody_endsGood hs) h
  | .baSet => finish_keeps_inv hs (baSetBody_endsGood hs) h
  | .baFlip => finish_keeps_inv hs (baFlipBody_endsGood hs) h
  | .baClear => finish_keeps_inv hs (.ok (hs.setMemory .row (.zeros _ _))) h
  | .baSetrange => finish_keeps_inv hs (baSetrangeBody_endsGood hs) h
  | .baIsrange => finish_keeps_inv hs (baIsrangeBody_endsGood hs) h
  | .baNextset => finish_keeps_inv hs (baNextsetBody_endsGood hs) h
  | .baNextunset => finish_keeps_inv hs (baNextunsetBody_endsGood hs) h
  | .baReverse => finish_keeps_inv hs (.ok (reversedRow_inv hs)) h
  | .baInit => finish_keeps_inv hs (baInitBody_endsGood hs) h
  | .bmInit m => finish_keeps_inv hs (bmInitBody_endsGood hs m) h
  | .bmGet m => finish_keeps_inv hs (pointChecks_endsGood m fun _ _ => hs.setResNat _ _) h
  | .bmSet m => finish_keeps_inv hs (pointChecks_endsGood m fun hx hy => setMatBit_inv hs hx hy _) h
  | .bmUnset m => finish_keeps_inv hs (pointChecks_endsGood m fun hx hy => setMatBit_inv hs hx hy _) h
  | .bmFlip m => finish_keeps_inv hs (pointChecks_endsGood m fun hx hy => setMatBit_inv hs hx hy _) h
  | .bmClear m => finish_keeps_inv hs (bmClearBody_endsGood hs m) h
  | .bmSetregion m => finish_keeps_inv hs (bmSetregionBody_endsGood hs m) h
  | .bmGetrow m => finish_keeps_inv hs (bmGetrowBody_endsGood hs m) h
  | .bmRot180 m => finish_keeps_inv hs (bmRot180Body_endsGood hs m) h
  | .bmXor m => finish_keeps_inv hs (bmXorBody_endsGood hs m) h
  | .bmCopy m => finish_keeps_inv hs (bmCopyBody_endsGood hs m) h
  | .bmTopleft m => finish_keeps_inv hs (bmTopleftBody_endsGood hs m) h
  | .bmBotright m => finish_keeps_inv hs (bmBotrightBody_endsGood hs m) h
  | .ptS2q => finish_keeps_inv hs (.ok (hs.withTa _)) h
  | .ptQ2s => finish_keeps_inv hs (.ok (hs.withTa _)) h
  | .ptQ2q => finish_keeps_inv hs (.ok (hs.withTa _)) h
  | .ptAdj => finish_keeps_inv hs (.ok (hs.withTa _)) h
  | .ptTimes => finish_keeps_inv hs (.ok (hs.withTa _)) h
  | .ptCopy => finish_keeps_inv hs (.ok (hs.withTb _)) h
  | .ptXform => finish_keeps_inv hs (.ok (hs.withF _)) h
  | .gridSample m => finish_keeps_inv hs (gridSampleBody_endsGood hs m) h
  | .odRuns => finish_keeps_inv hs (odRunsBody_endsGood hs) h
  | .odPmatch sym => finish_keeps_inv hs (odPmatchBody_endsGood hs sym) h
  | .odDecode chk sym => finish_keeps_inv hs (odDecodeBody_endsGood hs chk sym) h
  | .odMulti chk en => finish_keeps_inv hs (odMultiBody_endsGood hs chk en) h

end

end Sys2Proof.Machine
end

section
/-!
The invariant of a good state is kept by every event at the port, and so by every step.
-/

namespace Sys2Proof.Machine

/-! ### The port -/

section

variable {s : State} (hs : s.Inv)
include hs

/-- One memory drawn anew, by a draw made now. -/
theorem drawMemory_inv (id : MemId) :
    ({ s.setMemory id (Memory.fresh s.draws) with draws := s.draws + 1 } : State).Inv := by
  have hmore : ({ s with draws := s.draws + 1 } : State).Inv :=
    hs.of_frame_rfl hs.held (hdraws := Nat.le_succ _)
  have hset := hmore.setMemory id (.fresh id (Nat.lt_succ_self s.draws))
  cases id with
  | p r => cases r <;> exact hset
  | mat m => cases m <;> exact hset
  | cw | syn | eloc | emag | row | odres | run => exact hset

theorem redraw_inv (ids : List MemId) : (redraw ids s).Inv := by
  induction ids generalizing s with
  | nil => exact hs
  | cons id ids ih => exact ih (drawMemory_inv hs id)

/-- The registers take their reset values, and the caches hold degree 0 (70_reset_and_hazards.md R501). -/
theorem resetRegisters_inv : s.resetRegisters.Inv :=
  ⟨hs.memories, Nat.zero_le _, fun m => by cases m <;> exact Nat.zero_le _,
    fun f => ⟨0, by decide, by cases f <;> rfl⟩, hs.draws, fun _ => rfl⟩

theorem softReset_inv : s.softReset.Inv := redraw_inv (resetRegisters_inv hs) _

theorem putMemWord_inv {id : MemId} {w : Nat} (hw : if id = .run then 2 * w + 2 ≤ id.size else 4 * w + 4 ≤ id.size)
    (v : Word) : (s.putMemWord id w v).Inv := by
  have hm := hs.memory_holds id
  cases id with
  | run => exact hs.setMemory _ (hm.writeHalves (by simpa using hw))
  | cw | syn | eloc | emag | row | odres | p | mat => exact hs.setMemory _ (hm.writeWord (by simpa using hw) v)

theorem setDouble_inv (file : DFile) (i : Nat) (v : Dword) : (s.setDouble file i v).Inv := by
  cases file <;> exact hs.of_frame_rfl hs.held

theorem storeLoc_inv (off : Nat) (v : Word) : (s.storeLoc (locOf off) v).Inv := by
  cases hl : locOf off with
  | mem id w => exact putMemWord_inv hs (locOf_mem_bound hl) v
  | dbl file i hi => exact setDouble_inv hs file i _
  | pfld | nruns | arg => exact hs.of_frame_rfl hs.held
  | _ => exact hs

/-- A write outside power-on reset; a command is accepted only then. -/
theorem hostWrite_inv (hpor : s.porHeld = false) (off : Nat) (v : Word) : (s.hostWrite (locOf off) v).Inv := by
  rcases s.hostWrite_cases (locOf off) v with ⟨-, h⟩ | ⟨-, h⟩ | ⟨-, h⟩ | ⟨-, -, h⟩ | ⟨-, -, h⟩ | ⟨-, -, -, -, h⟩
  · rw [h, State.writeCtrl]
    split
    · exact softReset_inv hs
    · exact hs.of_frame_rfl hs.held
  · rw [h]; exact hs.of_frame_rfl hs.held
  · rw [h, State.writeCmd]
    split
    · exact hs.of_frame_rfl hs.held
    · exact hs.of_frame_rfl fun hheld => by simp [hpor] at hheld
  · rw [h]; exact hs.of_frame_rfl hs.held
  · rw [h]; exact storeLoc_inv hs off v
  · rw [h]; exact hs

theorem writeAt_inv (width : Width) (off : Nat) (v : Dword) : (s.writeAt width off v).Inv := by
  unfold State.writeAt
  split
  · exact hs.of_frame_rfl hs.held
  · next hpor =>
    split
    · exact hs.of_frame_rfl hs.held
    · have hw := hostWrite_inv hs (by simpa using hpor) off (v.setWidth 32)
      exact hw.of_frame_rfl hw.held

theorem hostRead_inv (l : Loc) : (s.hostRead l).Inv := by
  unfold State.hostRead
  split
  · exact hs.of_frame_rfl hs.held (hdraws := Nat.le_succ _)
  · exact hs.of_frame_rfl hs.held

theorem readAt_inv (width : Width) (off : Nat) : (s.readAt width off).Inv := by
  unfold State.readAt
  split
  · exact hs.of_frame_rfl hs.held
  · split
    · exact hs.of_frame_rfl hs.held (hdraws := Nat.le_succ _)
    · exact hostRead_inv hs _

end

/-- Power-on reset leaves a good state whatever it found (70_reset_and_hazards.md R500). -/
theorem powerOn_inv (s : State) : ({ s.powerOn with porHeld := true } : State).Inv := by
  have hfresh : ∀ (id : MemId) (k : Nat), k < 9 → id.Holds (s.draws + 9) (Memory.fresh (s.draws + k)) :=
    fun id k hk => .fresh id (Nat.add_lt_add_left hk _)
  refine .of_memory_holds (fun id => ?_) (Nat.zero_le _) (fun m => by cases m <;> exact Nat.zero_le _)
    (fun f => ⟨0, by decide, by cases f <;> rfl⟩) (fun _ => rfl)
  cases id with
  | cw => exact hfresh _ 0 (by decide)
  | syn => exact hfresh _ 1 (by decide)
  | eloc => exact hfresh _ 2 (by decide)
  | emag => exact hfresh _ 3 (by decide)
  | p r => cases r <;> exact .zeros _ _
  | row => exact hfresh _ 4 (by decide)
  | odres => exact hfresh _ 5 (by decide)
  | run => exact hfresh _ 6 (by decide)
  | mat m =>
    cases m with
    | m0 => exact hfresh _ 7 (by decide)
    | m1 => exact hfresh _ 8 (by decide)

theorem event_keeps_inv {s t : State} (hs : s.Inv) {e : PortEvent} (h : s.event e = .next t) : t.Inv := by
  rcases s.event_cases e with ⟨width, off, -, -, he⟩ | ⟨width, off, v, -, -, he⟩ | ⟨-, he⟩ | ⟨-, he⟩ | he <;>
    rw [he] at h
  · cases h; exact readAt_inv hs width off
  · cases h; exact writeAt_inv hs width off v
  · cases h; exact powerOn_inv s
  · cases h; exact hs.of_frame_rfl nofun
  · cases h

theorem serve_keeps_inv {s t : State} (hs : s.Inv) (h : s.serve = .next t) : t.Inv := by
  rcases s.serve_cases with ⟨-, hserve⟩ | ⟨e, es, -, hserve⟩ <;> rw [hserve] at h
  · cases h; exact hs
  · have htaken : ({ s with port := es } : State).Inv := hs.of_frame_rfl hs.held
    exact event_keeps_inv htaken h

/-! ### The step -/

theorem runWord_keeps_inv {s t : State} (hs : s.Inv) {w : Word} (h : runWord w s = .next t) : t.Inv := by
  rcases runWord_cases w s with ⟨i, -, hrun⟩ | ⟨e, -, hrun⟩ <;> rw [hrun] at h
  · exact exec_keeps_inv hs i h
  · cases h; exact hs.complete _ _

/-- Settles O6: the step is the port's turn or the due command's completion, and each keeps the invariant. -/
theorem stepKeepsInv : Obligations.StepKeepsInv := by
  intro s t hs h
  rcases step_cases s with ⟨-, hstep⟩ | ⟨w, -, hstep⟩ | ⟨w, n, hrun, hstep⟩ <;> rw [hstep] at h
  · exact serve_keeps_inv hs h
  · exact runWord_keeps_inv hs h
  · have hnot : s.porHeld ≠ true := fun hpor => by simp [hs.held hpor] at hrun
    have hbusy : ({ s with executor := .running w n } : State).Inv := hs.of_frame_rfl fun hpor => absurd hpor hnot
    exact serve_keeps_inv hbusy h

end Sys2Proof.Machine
end

section
/-!
Host writes to STATUS and CTRL (10_state.md R34, R35; 70_reset_and_hazards.md R506).
-/

namespace Sys2Proof.Machine

/-- A step of an idle engine, or of one whose command is not due yet, is the port's turn (log 1, 2). -/
theorem step_eq_serve {s : State} {x : Executor}
    (h : (s.executor = .idle ∧ x = .idle) ∨ ∃ w n, s.executor = .running w (n + 1) ∧ x = .running w n) :
    step s = ({ s with executor := x } : State).serve := by
  unfold step State.turn
  rcases h with ⟨he, rfl⟩ | ⟨w, n, he, rfl⟩
  · rw [he]
    exact congrArg State.serve (by rw [← he])
  · rw [he]

/-- What the port's turn makes of an aligned 32-bit write outside power-on reset (20_memory.md R80). -/
theorem State.serve_write32 {s : State} {off : Nat} {v : Dword} {es : List PortEvent} (hpor : s.porHeld = false)
    (hport : s.port = .write .w32 off v :: es) (hoff : off < Config.windowBytes) (halign : off % 4 = 0) :
    s.serve = .next { ({ s with port := es } : State).hostWrite (locOf off) (v.setWidth 32) with bus := .written } := by
  simp [State.serve, hport, State.event, hoff, State.writeAt, hpor, legalAccess, halign]

/-- The step that takes an aligned 32-bit write, idle or busy. -/
theorem step_write32 {s : State} {x : Executor} {off : Nat} {v : Dword} {es : List PortEvent}
    (hx : (s.executor = .idle ∧ x = .idle) ∨ ∃ w n, s.executor = .running w (n + 1) ∧ x = .running w n)
    (hpor : s.porHeld = false) (hport : s.port = .write .w32 off v :: es) (hoff : off < Config.windowBytes)
    (halign : off % 4 = 0) :
    step s = .next { ({ s with executor := x, port := es } : State).hostWrite (locOf off) (v.setWidth 32) with
      bus := .written } := by
  rw [step_eq_serve hx]
  exact State.serve_write32 hpor hport hoff halign

/-- A 32-bit write takes the low half of the bus data. -/
theorem getLsbD_setWidth_word (v : Dword) {k : Nat} (hk : k < 32) :
    (v.setWidth 32).getLsbD k = v.getLsbD k := by
  rw [BitVec.getLsbD_setWidth, decide_eq_true hk, Bool.true_and]

/-- Settles O56: STATUS and CTRL are the two registers that a busy engine writes as an idle one does. -/
theorem statusAndCtrlWrites : Obligations.StatusAndCtrlWrites := by
  intro s v es hpor x hx
  constructor
  · intro hport
    have hloc : locOf 0x00C = .status := rfl
    rw [step_write32 hx hpor hport (by decide) (by decide), hloc]
    simp (disch := decide) only [State.hostWrite, State.clearStatus, getLsbD_setWidth_word]
  · intro hport hsrst
    have hloc : locOf 0x008 = .ctrl := rfl
    rw [step_write32 hx hpor hport (by decide) (by decide), hloc]
    simp (disch := decide) only [State.hostWrite, State.writeCtrl, getLsbD_setWidth_word, hsrst, Bool.false_eq_true,
      if_false]

end Sys2Proof.Machine
end

section
/-!
The numbers that the words of the register map are: little-endian bytes, packed bit fields and polynomial degrees
(20_memory.md R82 to R84, R86; 10_state.md R34 to R44).
-/

namespace Sys2Proof.Machine

/-! ### Packed fields -/

/-- Two fields put side by side, as a number. -/
theorem toNat_append_eq_add {n k : Nat} (x : BitVec n) (y : BitVec k) :
    (x ++ y).toNat = 2 ^ k * x.toNat + y.toNat := by
  rw [BitVec.toNat_append, ← Nat.shiftLeft_add_eq_or_of_lt y.isLt, Nat.shiftLeft_eq, Nat.mul_comm]

/-- A field above a number that ends below it. -/
theorem or_atBit {lo m : Nat} (hm : m < 2 ^ lo) (n : Nat) :
    BitVec.ofNat 32 m ||| atBit lo n = BitVec.ofNat 32 (m + 2 ^ lo * n) := by
  apply BitVec.eq_of_getLsbD_eq
  intro j hj
  rw [Nat.add_comm m, BitVec.getLsbD_or, atBit, BitVec.getLsbD_shiftLeft]
  simp only [BitVec.getLsbD_ofNat, hj, decide_true, Bool.true_and, Nat.testBit_two_pow_mul_add n hm j]
  by_cases hlo : j < lo
  · simp [hlo]
  · have hmj : m.testBit j = false :=
      Nat.testBit_lt_two_pow (hm.trans_le (Nat.pow_le_pow_right (by decide) (Nat.le_of_not_lt hlo)))
    have hsub : j - lo < 32 := by omega
    simp [hlo, hmj, hsub]

theorem atBit_zero (n : Nat) : atBit 0 n = BitVec.ofNat 32 n := BitVec.shiftLeft_zero _

theorem State.ctrlWord_eq (s : State) : s.ctrlWord = BitVec.ofNat 32 (s.ieDone.toNat + 2 * s.ieErr.toNat) := by
  have hdone := s.ieDone.toNat_lt
  rw [State.ctrlWord, atBit_zero, or_atBit (by omega), pow_one]

theorem State.statusWord_eq (s : State) : s.statusWord = BitVec.ofNat 32 s.statusValue := by
  have hbusy := s.busy.toNat_lt
  have hdone := s.done.toNat_lt
  have herr := s.err.toNat_lt
  have hcmdovr := s.cmdovr.toNat_lt
  have hwovr := s.wovr.toNat_lt
  rw [State.statusWord, atBit_zero, or_atBit (by omega), or_atBit (by omega), or_atBit (by omega),
    or_atBit (by omega), or_atBit (by omega)]
  rfl

theorem State.gendegWord_eq (s : State) :
    s.gendegWord = BitVec.ofNat 32 (s.genDeg .qr % 256 + 256 * (s.genDeg .dm % 256)) := by
  have hfield : ∀ n, (BitVec.ofNat 8 n).setWidth 32 = BitVec.ofNat 32 (n % 256) := fun n => by
    apply BitVec.eq_of_toNat_eq
    simp
  have hlow : s.genDeg .qr % 256 < 2 ^ 8 := Nat.mod_lt _ (by decide)
  rw [State.gendegWord, hfield, hfield]
  exact or_atBit hlow _

theorem State.dimWord_eq (s : State) (m : Mat) :
    (s.dim m).word = BitVec.ofNat 32 (s.width m + 2 ^ 16 * s.height m) := by
  have hw := (s.dim m).w.isLt
  have hh := (s.dim m).h.isLt
  apply BitVec.eq_of_toNat_eq
  rw [Dim.word, toNat_append_eq_add, BitVec.toNat_ofNat, State.width, State.height]
  omega

/-! ### Degrees -/

/-- A last coefficient is dropped where it is 0, and nothing is where it is not. -/
theorem polyTrim_append_singleton (cs : List Byte) (c : Byte) :
    polyTrim (cs ++ [c]) = if c = 0 then polyTrim cs else cs ++ [c] := by
  induction cs with
  | nil => rfl
  | cons d ds ih =>
    rw [List.cons_append, polyTrim_cons, ih]
    split
    · exact (polyTrim_cons d ds).symm
    · simp

theorem polyDeg_map_range (c : Nat → Byte) (n : Nat) : polyDeg ((List.range n).map c) = degreeBelow c n := by
  induction n with
  | zero => rfl
  | succ n ih =>
    rw [List.range_succ, List.map_append, List.map_singleton, polyDeg, polyTrim_append_singleton, degreeBelow]
    by_cases hc : c n = 0
    · rw [if_pos hc, if_neg (not_not_intro hc)]
      exact ih
    · rw [if_neg hc, if_pos hc]
      simp

theorem polyDeg_polyOf (s : State) (r : PReg) : polyDeg (s.polyOf r) = degreeBelow (s.poly r).byte 256 := by
  rw [polyDeg, State.polyOf, polyTrim_polyTrim]
  exact polyDeg_map_range _ _

theorem degreeBelow_le (c : Nat → Byte) (n : Nat) : degreeBelow c (n + 1) ≤ n := by
  induction n with
  | zero => rw [degreeBelow]; split <;> simp [degreeBelow]
  | succ n ih =>
    rw [degreeBelow]
    split
    · exact Nat.le_refl _
    · exact ih.trans (Nat.le_succ n)

theorem State.pdegWord_eq (s : State) : s.pdegWord = BitVec.ofNat 32 s.pdegValue := by
  have hdeg : ∀ r, degreeBelow (s.poly r).byte 256 < 256 := fun r => Nat.lt_succ_of_le (degreeBelow_le _ 255)
  have h0 := hdeg .p0
  have h1 := hdeg .p1
  have h2 := hdeg .p2
  rw [State.pdegWord, polyDeg_polyOf, polyDeg_polyOf, polyDeg_polyOf, polyDeg_polyOf, atBit_zero,
    or_atBit (by omega), or_atBit (by omega), or_atBit (by omega)]
  rfl

/-! ### Words of memories and halves of binary64 registers -/

theorem littleWord_four_mul (m : Memory) (w : Nat) : littleWord m (4 * w) = m.word w := by
  have h0 := (m.byte (4 * w)).isLt
  have h1 := (m.byte (4 * w + 1)).isLt
  have h2 := (m.byte (4 * w + 2)).isLt
  have h3 := (m.byte (4 * w + 3)).isLt
  apply BitVec.eq_of_toNat_eq
  rw [littleWord, BitVec.toNat_ofNat, Memory.word]
  simp only [toNat_append_eq_add]
  omega

/-- The byte at an address is its byte of the word there (20_memory.md R82). -/
theorem Memory.byte_eq_wordByte (m : Memory) (a : Nat) : m.byte a = wordByte (m.word (a / 4)) (a % 4) := by
  obtain ⟨h0, h1, h2, h3⟩ := wordByte_word m (a / 4)
  have hlt : a % 4 < 4 := Nat.mod_lt _ (by decide)
  conv_lhs => rw [← Nat.div_add_mod a 4]
  interval_cases a % 4
  · exact h0.symm
  · exact h1.symm
  · exact h2.symm
  · exact h3.symm

/-- Bit `i` of a memory is bit `i % 32` of its word `i / 32` (20_memory.md R84). -/
theorem Memory.bit_eq_getLsbD_word (m : Memory) (i : Nat) : m.bit i = (m.word (i / 32)).getLsbD (i % 32) := by
  have hword : i / 8 / 4 = i / 32 := Nat.div_div_eq_div_mul i 8 4
  have hplace : 8 * (i / 8 % 4) + i % 8 = i % 32 := by omega
  rw [Memory.bit, Memory.byte_eq_wordByte, wordByte, BitVec.getLsbD_extractLsb', hword, hplace,
    decide_eq_true (Nat.mod_lt i (by decide)), Bool.true_and]

/-- One half of a binary64 register, by the place of its word in the file (20_memory.md R83). -/
theorem doubleHalf_add {n : Nat} (file : Vector Dword n) {base : Nat} (hbase : base % 8 = 0) (w : Nat) :
    doubleHalf file base (base + 4 * w) = halfOf (file.getD (w / 2) 0) (w % 2 == 1) := by
  have hreg : (base + 4 * w - base) / 8 = w / 2 := by omega
  rw [doubleHalf, hreg, halfOf]
  by_cases hw : w % 2 = 1
  · have hhi : (base + 4 * w) % 8 = 4 := by omega
    rw [if_pos hhi, beq_iff_eq.mpr hw, if_pos rfl, BitVec.setWidth_ushiftRight_eq_extractLsb]
  · have hlo : (base + 4 * w) % 8 ≠ 4 := by omega
    rw [if_neg hlo, beq_eq_false_iff_ne.mpr hw, if_neg Bool.false_ne_true, BitVec.setWidth_ushiftRight_eq_extractLsb]

theorem halfOf_withHalf (d : Dword) (hi k : Bool) (v : Word) :
    halfOf (withHalf d hi v) k = if k = hi then v else halfOf d k := by
  cases hi with
  | false =>
    cases k with
    | false => exact BitVec.extractLsb'_append_eq_right (a := d.extractLsb' 32 32)
    | true => exact BitVec.extractLsb'_append_eq_left (b := v)
  | true =>
    cases k with
    | false => exact BitVec.extractLsb'_append_eq_right (a := v)
    | true => exact BitVec.extractLsb'_append_eq_left (b := d.extractLsb' 0 32)

end Sys2Proof.Machine
end

section
/-!
Where each location lies in the window, and what the window reads there (10_state.md R62; 20_memory.md R80 to R86).
-/

namespace Sys2Proof.Machine

/-! ### The map -/

/-- The offset of the first word of a local memory. -/
def MemId.base : MemId → Nat
  | .cw => 0x1000
  | .syn => 0x1100
  | .eloc => 0x1200
  | .emag => 0x1300
  | .p .p0 => 0x1400
  | .p .p1 => 0x1500
  | .p .p2 => 0x1600
  | .p .p3 => 0x1700
  | .row => 0x2000
  | .odres => 0x3000
  | .run => 0x4000
  | .mat .m0 => 0x40000
  | .mat .m1 => 0x80000

/-- The offset of the first half of a binary64 register file. -/
def DFile.base : DFile → Nat
  | .f => 0x100
  | .ta => 0x180
  | .tb => 0x200

/-- How many registers a binary64 file has. -/
def DFile.count : DFile → Nat
  | .f => 16
  | .ta => 9
  | .tb => 9

theorem arg_mem_spans : ⟨0x040, 0x20, fun w => .arg (Fin.ofNat 8 w)⟩ ∈ spans := by simp [spans]

theorem res_mem_spans : ⟨0x060, 0x20, fun w => .res (Fin.ofNat 8 w)⟩ ∈ spans := by simp [spans]

theorem file_mem_spans (file : DFile) :
    ⟨file.base, 8 * file.count, fun w => .dbl file (w / 2) (w % 2 == 1)⟩ ∈ spans := by
  cases file <;> simp [spans, DFile.base, DFile.count]

/-- Each memory but RUN_MEM has as many bytes in the window as it holds. -/
theorem memory_mem_spans {id : MemId} (hid : id ≠ .run) : ⟨id.base, id.size, .mem id⟩ ∈ spans := by
  cases id with
  | run => exact absurd rfl hid
  | p r => cases r <;> simp [spans, MemId.base, MemId.size]
  | mat m => cases m <;> simp [spans, MemId.base, MemId.size]
  | cw | syn | eloc | emag | row | odres => simp [spans, MemId.base, MemId.size]

/-- RUN_MEM has a word of the window for each 16-bit entry (20_memory.md R86). -/
theorem run_mem_spans : ⟨0x4000, 0x4000, .mem .run⟩ ∈ spans := by simp [spans]

/-- The arrays of the map lie apart. -/
theorem spans_apart {p q : Span} (hp : p ∈ spans) (hq : q ∈ spans) {a : Nat} (hpa : p.base ≤ a ∧ a < p.base + p.bytes)
    (hqa : q.base ≤ a ∧ a < q.base + q.bytes) : p = q := by
  have hsorted : spans.Pairwise fun p q => p.base + p.bytes ≤ q.base := by decide
  obtain ⟨i, hi, rfl⟩ := List.getElem_of_mem hp
  obtain ⟨j, hj, rfl⟩ := List.getElem_of_mem hq
  rcases Nat.lt_trichotomy i j with hij | rfl | hij
  · have := List.pairwise_iff_getElem.mp hsorted i j hi hj hij
    omega
  · rfl
  · have := List.pairwise_iff_getElem.mp hsorted j i hj hi hij
    omega

/-- An offset in an array is the array's word there. -/
theorem locOf_of_span {sp : Span} (hsp : sp ∈ spans) {a : Nat} (ha : sp.base ≤ a ∧ a < sp.base + sp.bytes) :
    locOf a = sp.loc ((a - sp.base) / 4) := by
  rcases locOf_cases a with ⟨l, hl, -⟩ | ⟨q, hq, hlo, hhi, he⟩ | ⟨-, hout, -⟩
  · have hregs : ∀ c ∈ ctrlRegs, c.1 < 0x40 := by decide
    have hspans : ∀ sp ∈ spans, 0x40 ≤ sp.base := by decide
    have hreg : a < 0x40 := hregs _ hl
    have hspan := hspans sp hsp
    omega
  · rw [he, spans_apart hq hsp ⟨hlo, hhi⟩ ha]
  · exact absurd ha (hout sp hsp)

theorem base_mod_four {sp : Span} (hsp : sp ∈ spans) : sp.base % 4 = 0 := by
  have h : ∀ sp ∈ spans, sp.base % 4 = 0 := by decide
  exact h sp hsp

/-- The `w`-th word of an array. -/
theorem locOf_base_add {sp : Span} (hsp : sp ∈ spans) {w : Nat} (hw : 4 * w < sp.bytes) :
    locOf (sp.base + 4 * w) = sp.loc w := by
  have hindex : (sp.base + 4 * w - sp.base) / 4 = w := by omega
  rw [locOf_of_span hsp (by omega), hindex]

/-! ### What the window reads -/

theorem getD_eq_getElem?_getD {α : Type} {n : Nat} (v : Vector α n) (i : Nat) (d : α) : v.getD i d = v[i]?.getD d := by
  obtain ⟨a, rfl⟩ := v
  simp

theorem getD_eq_getElem_ofNat (v : Vector Word 8) {w : Nat} (hw : w < 8) : v.getD w 0 = v[Fin.ofNat 8 w] := by
  simp [getD_eq_getElem?_getD, hw, Nat.mod_eq_of_lt]

theorem State.memWord_of_ne_run (s : State) {id : MemId} (hid : id ≠ .run) (w : Nat) :
    s.memWord id w = (s.memory id).word w := by
  cases id with
  | run => exact absurd rfl hid
  | cw | syn | eloc | emag | p | row | odres | mat => rfl

section

variable {s : State} {a : Nat}

theorem argReg_eq_readLoc (h : 0x040 ≤ a ∧ a < 0x060) : s.arg.getD ((a - 0x040) / 4) 0 = s.readLoc (locOf a) := by
  rw [locOf_of_span arg_mem_spans h]
  exact getD_eq_getElem_ofNat s.arg (by omega)

theorem resReg_eq_readLoc (h : 0x060 ≤ a ∧ a < 0x080) : s.res.getD ((a - 0x060) / 4) 0 = s.readLoc (locOf a) := by
  rw [locOf_of_span res_mem_spans h]
  exact getD_eq_getElem_ofNat s.res (by omega)

theorem runHalf_eq_readLoc (h : 0x4000 ≤ a ∧ a < 0x8000) :
    (s.run.half ((a - 0x4000) / 4)).setWidth 32 = s.readLoc (locOf a) := by
  rw [locOf_of_span run_mem_spans h]
  rfl

variable (ha : a % 4 = 0)
include ha

theorem doubleHalf_eq_readLoc (file : DFile) {n : Nat} {regs : Vector Dword n}
    (hregs : ∀ i, s.double file i = regs.getD i 0) (h : file.base ≤ a ∧ a < file.base + 8 * file.count) :
    doubleHalf regs file.base a = s.readLoc (locOf a) := by
  have hbase : file.base % 8 = 0 := by cases file <;> rfl
  obtain ⟨w, rfl⟩ : ∃ w, a = file.base + 4 * w := ⟨(a - file.base) / 4, by omega⟩
  rw [locOf_base_add (file_mem_spans file) (Nat.lt_of_add_lt_add_left h.2), doubleHalf_add _ hbase, ← hregs]
  rfl

theorem littleWord_eq_readLoc (id : MemId) (hid : id ≠ .run) (h : id.base ≤ a ∧ a < id.base + id.size) :
    littleWord (s.memory id) (a - id.base) = s.readLoc (locOf a) := by
  have hsp := memory_mem_spans hid
  have hbase : id.base % 4 = 0 := base_mod_four hsp
  obtain ⟨w, rfl⟩ : ∃ w, a = id.base + 4 * w := ⟨(a - id.base) / 4, by omega⟩
  rw [locOf_base_add hsp (Nat.lt_of_add_lt_add_left h.2), Nat.add_sub_cancel_left, littleWord_four_mul]
  exact (s.memWord_of_ne_run hid w).symm

end

/-- What the map gives for an offset is what the model reads from what lies there: each branch of the map is one register
or one array, and an offset in none of them is CMD, which reads 0, or empty. -/
theorem State.windowRead_eq_readLoc (s : State) {a : Nat} (ha : a % 4 = 0) : s.windowRead a = s.readLoc (locOf a) := by
  unfold State.windowRead
  refine ite_eq_iff'.mpr ⟨fun h => by subst h; rfl, fun _ => ?_⟩
  refine ite_eq_iff'.mpr ⟨fun h => by subst h; rfl, fun _ => ?_⟩
  refine ite_eq_iff'.mpr ⟨fun h => by subst h; exact s.ctrlWord_eq.symm, fun _ => ?_⟩
  refine ite_eq_iff'.mpr ⟨fun h => by subst h; exact s.statusWord_eq.symm, fun _ => ?_⟩
  refine ite_eq_iff'.mpr ⟨fun h => by subst h; rfl, fun _ => ?_⟩
  refine ite_eq_iff'.mpr ⟨fun h => by subst h; rfl, fun _ => ?_⟩
  refine ite_eq_iff'.mpr ⟨fun h => by subst h; exact s.gendegWord_eq.symm, fun _ => ?_⟩
  refine ite_eq_iff'.mpr ⟨fun h => by subst h; rfl, fun _ => ?_⟩
  refine ite_eq_iff'.mpr ⟨fun h => by subst h; exact s.pdegWord_eq.symm, fun _ => ?_⟩
  refine ite_eq_iff'.mpr ⟨fun h => by subst h; rfl, fun _ => ?_⟩
  refine ite_eq_iff'.mpr ⟨fun h => by subst h; rfl, fun _ => ?_⟩
  refine ite_eq_iff'.mpr ⟨fun h => by subst h; exact (s.dimWord_eq _).symm, fun _ => ?_⟩
  refine ite_eq_iff'.mpr ⟨fun h => by subst h; exact (s.dimWord_eq _).symm, fun _ => ?_⟩
  refine ite_eq_iff'.mpr ⟨argReg_eq_readLoc, fun harg => ?_⟩
  refine ite_eq_iff'.mpr ⟨resReg_eq_readLoc, fun hres => ?_⟩
  refine ite_eq_iff'.mpr ⟨doubleHalf_eq_readLoc ha .f fun _ => rfl, fun hf => ?_⟩
  refine ite_eq_iff'.mpr ⟨doubleHalf_eq_readLoc ha .ta fun _ => rfl, fun hta => ?_⟩
  refine ite_eq_iff'.mpr ⟨doubleHalf_eq_readLoc ha .tb fun _ => rfl, fun htb => ?_⟩
  refine ite_eq_iff'.mpr ⟨littleWord_eq_readLoc ha .cw (by decide), fun hcw => ?_⟩
  refine ite_eq_iff'.mpr ⟨littleWord_eq_readLoc ha .syn (by decide), fun hsyn => ?_⟩
  refine ite_eq_iff'.mpr ⟨littleWord_eq_readLoc ha .eloc (by decide), fun heloc => ?_⟩
  refine ite_eq_iff'.mpr ⟨littleWord_eq_readLoc ha .emag (by decide), fun hemag => ?_⟩
  refine ite_eq_iff'.mpr ⟨littleWord_eq_readLoc ha (.p .p0) (by decide), fun hp0 => ?_⟩
  refine ite_eq_iff'.mpr ⟨littleWord_eq_readLoc ha (.p .p1) (by decide), fun hp1 => ?_⟩
  refine ite_eq_iff'.mpr ⟨littleWord_eq_readLoc ha (.p .p2) (by decide), fun hp2 => ?_⟩
  refine ite_eq_iff'.mpr ⟨littleWord_eq_readLoc ha (.p .p3) (by decide), fun hp3 => ?_⟩
  refine ite_eq_iff'.mpr ⟨littleWord_eq_readLoc ha .row (by decide), fun hrow => ?_⟩
  refine ite_eq_iff'.mpr ⟨littleWord_eq_readLoc ha .odres (by decide), fun hodres => ?_⟩
  refine ite_eq_iff'.mpr ⟨runHalf_eq_readLoc, fun hrun => ?_⟩
  refine ite_eq_iff'.mpr ⟨littleWord_eq_readLoc ha (.mat .m0) (by decide), fun hmat0 => ?_⟩
  refine ite_eq_iff'.mpr ⟨littleWord_eq_readLoc ha (.mat .m1) (by decide), fun hmat1 => ?_⟩
  rcases locOf_cases a with ⟨l, hl, he⟩ | ⟨sp, hsp, hlo, hhi, -⟩ | ⟨-, -, he⟩
  · have hreg := List.mem_map_of_mem (f := Prod.fst) hl
    obtain rfl : a = 0x010 := by
      simp only [ctrlRegs, List.map_cons, List.map_nil, List.mem_cons, List.not_mem_nil, or_false] at hreg
      omega
    rfl
  · have hin : sp.base ≤ a ∧ a < sp.base + sp.bytes := ⟨hlo, hhi⟩
    simp only [spans, List.mem_cons, List.not_mem_nil, or_false] at hsp
    rcases hsp with rfl | rfl | rfl | rfl | rfl | rfl | rfl | rfl | rfl | rfl | rfl | rfl | rfl | rfl | rfl | rfl |
      rfl | rfl
    exacts [absurd hin harg, absurd hin hres, absurd hin hf, absurd hin hta, absurd hin htb, absurd hin hcw,
      absurd hin hsyn, absurd hin heloc, absurd hin hemag, absurd hin hp0, absurd hin hp1, absurd hin hp2,
      absurd hin hp3, absurd hin hrow, absurd hin hodres, absurd hin hrun, absurd hin hmat0, absurd hin hmat1]
  · rw [he]
    rfl

end Sys2Proof.Machine
end

section
/-!
Where each location lies, so that no two words of the window are one location, and which locations a host write is stored
in (10_state.md R62; 20_memory.md R81).
-/

namespace Sys2Proof.Machine

/-! ### Where each location lies -/

/-- The offset of a location in the window; 0 for no location. -/
def Loc.offset : Loc → Nat
  | .ident => 0x000
  | .version => 0x004
  | .ctrl => 0x008
  | .status => 0x00C
  | .cmd => 0x010
  | .lastcmd => 0x014
  | .errinfo => 0x018
  | .gendeg => 0x01C
  | .pfld => 0x020
  | .pdeg => 0x024
  | .rowsize => 0x028
  | .nruns => 0x02C
  | .dim .m0 => 0x030
  | .dim .m1 => 0x034
  | .arg i => 0x040 + 4 * i
  | .res i => 0x060 + 4 * i
  | .dbl file i hi => file.base + 8 * i + 4 * hi.toNat
  | .mem id w => id.base + 4 * w
  | .unmapped => 0

/-- Every array holds its words in the order of the window. -/
theorem offset_span_loc {sp : Span} (hsp : sp ∈ spans) {w : Nat} (hw : 4 * w < sp.bytes) :
    (sp.loc w).offset = sp.base + 4 * w := by
  have hdbl : ∀ base, base + 8 * (w / 2) + 4 * (w % 2 == 1).toNat = base + 4 * w := fun base => by
    rcases Nat.mod_two_eq_zero_or_one w with h | h <;> simp [h] <;> omega
  have hfin : w < 8 → (Fin.ofNat 8 w).val = w := Nat.mod_eq_of_lt
  simp only [spans, List.mem_cons, List.not_mem_nil, or_false] at hsp
  rcases hsp with rfl | rfl | rfl | rfl | rfl | rfl | rfl | rfl | rfl | rfl | rfl | rfl | rfl | rfl | rfl | rfl |
    rfl | rfl
  · exact congrArg (0x040 + 4 * ·) (hfin (Nat.lt_of_mul_lt_mul_left (a := 4) hw))
  · exact congrArg (0x060 + 4 * ·) (hfin (Nat.lt_of_mul_lt_mul_left (a := 4) hw))
  · exact hdbl _
  · exact hdbl _
  · exact hdbl _
  all_goals rfl

theorem offset_locOf {a : Nat} (ha : a % 4 = 0) : (locOf a).offset = a ∨ locOf a = .unmapped := by
  rcases locOf_cases a with ⟨l, hl, he⟩ | ⟨sp, hsp, hlo, hhi, he⟩ | ⟨-, -, he⟩
  · have hregs : ∀ c ∈ ctrlRegs, c.2.offset = c.1 := by decide
    rw [he]
    exact .inl (hregs _ hl)
  · have hbase := base_mod_four hsp
    rw [he, offset_span_loc hsp (by omega)]
    exact .inl (by omega)
  · exact .inr he

/-- No two words of the window are one location. -/
theorem locOf_injective {a b : Nat} (ha : a % 4 = 0) (hb : b % 4 = 0) (h : locOf a = locOf b)
    (hmapped : locOf b ≠ .unmapped) : a = b := by
  have hoa := (offset_locOf ha).resolve_right (h ▸ hmapped)
  have hob := (offset_locOf hb).resolve_right hmapped
  rw [← hoa, h, hob]

/-! ### Which locations a write is stored in -/

theorem writableOffset_iff (a : Nat) : writableOffset a = true ↔
    a = 0x020 ∨ a = 0x02C ∨ (0x040 ≤ a ∧ a < 0x060) ∨ (0x100 ≤ a ∧ a < 0x1C8) ∨ (0x200 ≤ a ∧ a < 0x248) ∨
      (0x1000 ≤ a ∧ a < 0x1100) ∨ (0x1400 ≤ a ∧ a < 0x1800) ∨ (0x2000 ≤ a ∧ a < 0x2200) ∨
      (0x4000 ≤ a ∧ a < 0x8000) ∨ (0x40000 ≤ a ∧ a < 0xC0000) := by
  simp [writableOffset, or_assoc]

/-- The map's read-write offsets are those of the locations that store a write (10_state.md R62). -/
theorem stores_locOf (a : Nat) : (locOf a).stores = writableOffset a := by
  rcases locOf_cases a with ⟨l, hl, he⟩ | ⟨sp, hsp, hlo, hhi, he⟩ | ⟨hregs, hout, he⟩ <;> rw [he]
  · have hregs : ∀ c ∈ ctrlRegs, c.2.stores = writableOffset c.1 := by decide
    exact hregs _ hl
  · simp only [spans, List.mem_cons, List.not_mem_nil, or_false] at hsp
    rw [Bool.eq_iff_iff, writableOffset_iff]
    rcases hsp with rfl | rfl | rfl | rfl | rfl | rfl | rfl | rfl | rfl | rfl | rfl | rfl | rfl | rfl | rfl | rfl |
      rfl | rfl <;> simp only [Loc.stores, MemId.writable, Bool.false_eq_true, true_iff, false_iff] at hlo hhi ⊢ <;>
      omega
  · simp only [spans, List.forall_mem_cons] at hout
    refine (Bool.eq_false_iff.mpr fun hw => ?_).symm
    rcases (writableOffset_iff a).mp hw with rfl | rfl | hw | hw | hw | hw | hw | hw | hw | hw
    · cases hregs
    · cases hregs
    all_goals omega

end Sys2Proof.Machine
end

section
/-!
What a stored word leaves in the window: its location reads the bits it keeps, every other location but PDEG reads as
before (20_memory.md R81 to R83, R86, R88; 10_state.md R40, R41, R43, R55).
-/

namespace Sys2Proof.Machine

/-! ### The bits a location keeps -/

/-- The bits of a stored word that its location keeps. -/
def Loc.kept : Loc → Word → Word
  | .pfld, v => v &&& 0xF
  | .nruns, v => v &&& 0x1FFF
  | .mem .run _, v => v &&& 0xFFFF
  | _, v => v

theorem kept_locOf {a : Nat} (ha : a % 4 = 0) (v : Word) : (locOf a).kept v = keptBits a v := by
  unfold keptBits
  refine (ite_eq_iff'.mpr ⟨fun h => by subst h; rfl, fun hpfld => ?_⟩).symm
  refine ite_eq_iff'.mpr ⟨fun h => by subst h; rfl, fun hnruns => ?_⟩
  refine ite_eq_iff'.mpr ⟨fun h => by rw [locOf_of_span run_mem_spans h]; rfl, fun hrun => ?_⟩
  have hoff := offset_locOf ha
  cases hl : locOf a with
  | pfld => exact absurd (by simpa [hl, Loc.offset, eq_comm] using hoff) hpfld
  | nruns => exact absurd (by simpa [hl, Loc.offset, eq_comm] using hoff) hnruns
  | mem id w =>
    cases id with
    | run =>
      have hw : 2 * w + 2 ≤ 8192 := locOf_mem_bound hl
      have ha : 0x4000 + 4 * w = a := by simpa [hl, Loc.offset, MemId.base] using hoff
      omega
    | cw | syn | eloc | emag | p | row | odres | mat => rfl
  | _ => rfl

/-- Only RUN_MEM has words that keep fewer than 32 bits (10_state.md R55). -/
theorem kept_mem_of_ne_run {id : MemId} (hid : id ≠ .run) (w : Nat) (v : Word) : (Loc.mem id w).kept v = v := by
  cases id with
  | run => exact absurd rfl hid
  | cw | syn | eloc | emag | p | row | odres | mat => rfl

/-- The low bits of a word, as the register that has no others reads. -/
theorem setWidth_extractLsb'_zero (v : Word) (n : Nat) :
    (v.extractLsb' 0 n).setWidth 32 = v &&& BitVec.ofNat 32 (2 ^ n - 1) := by
  apply BitVec.eq_of_getLsbD_eq
  intro j hj
  rw [BitVec.getLsbD_setWidth, BitVec.getLsbD_extractLsb', BitVec.getLsbD_and, BitVec.getLsbD_ofNat,
    Nat.testBit_two_pow_sub_one, Nat.zero_add, decide_eq_true hj, Bool.true_and, Bool.true_and, Bool.and_comm]

/-! ### Binary64 registers -/

theorem getD_setIfInBounds {α : Type} {n : Nat} (v : Vector α n) {i : Nat} (hi : i < n) (x : α) (j : Nat) (d : α) :
    (v.setIfInBounds i x).getD j d = if j = i then x else v.getD j d := by
  simp only [getD_eq_getElem?_getD, Vector.getElem?_setIfInBounds, if_pos hi, eq_comm (a := i)]
  split <;> rfl

theorem State.double_setDouble (s : State) (file : DFile) {i : Nat} (hi : i < file.count) (v : Dword) (j : Nat) :
    (s.setDouble file i v).double file j = if j = i then v else s.double file j := by
  cases file with
  | f => exact getD_setIfInBounds s.f hi v j 0
  | ta => exact getD_setIfInBounds s.ta hi v j 0
  | tb => exact getD_setIfInBounds s.tb hi v j 0

theorem State.double_setDouble_of_ne (s : State) {file other : DFile} (h : other ≠ file) (i : Nat) (v : Dword)
    (j : Nat) :
    (s.setDouble file i v).double other j = s.double other j := by
  cases file with
  | f =>
    cases other with
    | f => exact absurd rfl h
    | ta | tb => rfl
  | ta =>
    cases other with
    | ta => exact absurd rfl h
    | f | tb => rfl
  | tb =>
    cases other with
    | tb => exact absurd rfl h
    | f | ta => rfl

theorem State.memory_setDouble (s : State) (file : DFile) (i : Nat) (v : Dword) (id : MemId) :
    (s.setDouble file i v).memory id = s.memory id :=
  State.memory_of_mems (by simp) id

/-- An offset of a binary64 file names a register of it. -/
theorem locOf_dbl_bound {a i : Nat} {file : DFile} {hi : Bool} (h : locOf a = .dbl file i hi) : i < file.count := by
  rcases locOf_cases a with ⟨l, hl, he⟩ | ⟨sp, hsp, hlo, hhi, he⟩ | ⟨-, -, he⟩ <;> rw [h] at he
  · subst he
    simp [ctrlRegs] at hl
  · simp only [spans, List.mem_cons, List.not_mem_nil, or_false] at hsp
    rcases hsp with rfl | rfl | rfl | rfl | rfl | rfl | rfl | rfl | rfl | rfl | rfl | rfl | rfl | rfl | rfl | rfl |
      rfl | rfl <;> cases he <;> simp only [DFile.count] at hlo hhi ⊢ <;> omega
  · cases he

/-! ### Local memories -/

theorem State.memWord_congr {s t : State} {id : MemId} (h : t.memory id = s.memory id) (w : Nat) :
    t.memWord id w = s.memWord id w := by
  by_cases hid : id = .run
  · subst hid
    exact congrArg (fun m : Memory => (m.half w).setWidth 32) h
  · rw [State.memWord_of_ne_run t hid, State.memWord_of_ne_run s hid, h]

theorem State.putMemWord_of_ne_run (s : State) {id : MemId} (hid : id ≠ .run) (w : Nat) (v : Word) :
    s.putMemWord id w v = s.setMemory id ((s.memory id).writeWord w v) := by
  cases id with
  | run => exact absurd rfl hid
  | cw | syn | eloc | emag | p | row | odres | mat => rfl

/-- A host write of a word writes one memory. -/
theorem State.putMemWord_eq_setMemory (s : State) (id : MemId) (w : Nat) (v : Word) :
    ∃ m, s.putMemWord id w v = s.setMemory id m := by
  by_cases hid : id = .run
  · subst hid
    exact ⟨_, rfl⟩
  · exact ⟨_, s.putMemWord_of_ne_run hid w v⟩

/-- A word of a memory reads back the bits it keeps, and no other word of it changes (20_memory.md R82, R86). -/
theorem State.memWord_putMemWord (s : State) (id : MemId) (w : Nat) (v : Word) (u : Nat) :
    (s.putMemWord id w v).memWord id u = if u = w then (Loc.mem id w).kept v else s.memWord id u := by
  by_cases hid : id = .run
  · subst hid
    have hentry : (w ≤ u ∧ u < w + 1) ↔ u = w := by omega
    have hread : (s.putMemWord .run w v).memWord .run u =
        ((s.run.writeHalves w [v.extractLsb' 0 16]).half u).setWidth 32 := rfl
    rw [hread, Memory.half_writeHalves, List.length_singleton]
    simp only [hentry]
    split
    · next h =>
      subst h
      rw [Nat.sub_self]
      exact setWidth_extractLsb'_zero v 16
    · rfl
  · rw [s.putMemWord_of_ne_run hid, State.memWord_of_ne_run _ hid, State.memory_setMemory, if_pos rfl,
      Memory.word_writeWord, kept_mem_of_ne_run hid, State.memWord_of_ne_run s hid]

theorem State.memWord_putMemWord_of_ne (s : State) {id jd : MemId} (h : jd ≠ id) (w : Nat) (v : Word) (u : Nat) :
    (s.putMemWord id w v).memWord jd u = s.memWord jd u := by
  obtain ⟨m, hm⟩ := s.putMemWord_eq_setMemory id w v
  exact State.memWord_congr (by rw [hm, State.memory_setMemory, if_neg h]) u

/-! ### Reading after a write -/

/-- The location of a stored word reads the bits it keeps. -/
theorem readLoc_storeLoc_same (s : State) {a : Nat} (v : Word) (hstores : (locOf a).stores = true) :
    (s.storeLoc (locOf a) v).readLoc (locOf a) = (locOf a).kept v := by
  cases hl : locOf a with
  | pfld => exact setWidth_extractLsb'_zero v 4
  | nruns => exact setWidth_extractLsb'_zero v 13
  | arg i => simp [State.storeLoc, State.readLoc, Loc.kept]
  | dbl file i hi =>
    have hread := s.double_setDouble file (locOf_dbl_bound hl) (withHalf (s.double file i) hi v) i
    simp [State.storeLoc, State.readLoc, Loc.kept, hread, halfOf_withHalf]
  | mem id w => exact (s.memWord_putMemWord id w v w).trans (if_pos rfl)
  | _ => simp [hl, Loc.stores] at hstores

/-- Only the words of memories and PDEG read from the local memories. -/
theorem readLoc_setMemory_of_register (s : State) (id : MemId) (m : Memory) {l : Loc} (hpdeg : l ≠ .pdeg)
    (hmem : ∀ jd w, l ≠ .mem jd w) : (s.setMemory id m).readLoc l = s.readLoc l := by
  cases l with
  | pdeg => exact absurd rfl hpdeg
  | mem jd w => exact absurd rfl (hmem jd w)
  | dim k => cases k <;> simp [State.readLoc, State.dim]
  | dbl file i hi => cases file <;> simp [State.readLoc, State.double]
  | ctrl => simp [State.readLoc, State.ctrlWord]
  | status => simp [State.readLoc, State.statusWord, State.busy]
  | gendeg => simp [State.readLoc, State.gendegWord, State.genDeg, State.gen]
  | _ => simp [State.readLoc]

/-- Half `hi` of register `i` written, every other half of a binary64 register is kept (20_memory.md R83). -/
theorem halfOf_double_putHalf_of_ne (s : State) {file other : DFile} {i j : Nat} {hi k : Bool} (hbound : i < file.count)
    (hne : ¬(other = file ∧ j = i ∧ k = hi)) (v : Word) :
    halfOf ((s.setDouble file i (withHalf (s.double file i) hi v)).double other j) k = halfOf (s.double other j) k := by
  by_cases hfile : other = file
  · subst hfile
    rw [s.double_setDouble other hbound]
    split
    · next hj =>
      subst hj
      rw [halfOf_withHalf, if_neg fun hk => hne ⟨rfl, rfl, hk⟩]
    · rfl
  · rw [s.double_setDouble_of_ne hfile]

/-- Every other location but PDEG, which is computed from the Pk memories, reads as before. -/
theorem readLoc_storeLoc_of_ne (s : State) {a : Nat} (v : Word) {l : Loc} (hne : l ≠ locOf a) (hpdeg : l ≠ .pdeg) :
    (s.storeLoc (locOf a) v).readLoc l = s.readLoc l := by
  cases hl : locOf a with
  | pfld =>
    cases l with
    | pfld => exact absurd hl.symm hne
    | _ => rfl
  | nruns =>
    cases l with
    | nruns => exact absurd hl.symm hne
    | _ => rfl
  | arg i =>
    cases l with
    | arg j =>
      have hij : i ≠ j := fun h => hne (by rw [hl, h])
      simp [State.storeLoc, State.readLoc, Vector.getElem_set_ne, Fin.val_ne_of_ne hij]
    | _ => rfl
  | dbl file i hi =>
    cases l with
    | dbl other j k =>
      refine halfOf_double_putHalf_of_ne s (locOf_dbl_bound hl) (fun h => hne ?_) v
      obtain ⟨rfl, rfl, rfl⟩ := h
      exact hl.symm
    | mem id w => exact State.memWord_congr (s.memory_setDouble file i _ id) w
    | _ => cases file <;> rfl
  | mem id w =>
    by_cases hword : ∃ jd u, l = .mem jd u
    · obtain ⟨jd, u, rfl⟩ := hword
      by_cases hid : jd = id
      · subst hid
        have huw : u ≠ w := fun h => hne (by rw [hl, h])
        exact (s.memWord_putMemWord jd w v u).trans (if_neg huw)
      · exact s.memWord_putMemWord_of_ne hid w v u
    · obtain ⟨m, hm⟩ := s.putMemWord_eq_setMemory id w v
      have hreg := readLoc_setMemory_of_register s id m hpdeg fun jd u h => hword ⟨jd, u, h⟩
      exact (congrArg (State.readLoc · l) hm).trans hreg
  | _ => rfl

/-! ### The window after a write -/

/-- A write at a read-write offset: the offset reads the bits it keeps. -/
theorem windowRead_storeLoc_same (s : State) {a : Nat} (ha : a % 4 = 0) (v : Word) (hw : writableOffset a = true) :
    (s.storeLoc (locOf a) v).windowRead a = keptBits a v := by
  rw [State.windowRead_eq_readLoc _ ha, readLoc_storeLoc_same s v ((stores_locOf a).trans hw), kept_locOf ha]

/-- A write at a read-write offset: every other offset but PDEG reads as before. -/
theorem windowRead_storeLoc_of_ne (s : State) {a b : Nat} (ha : a % 4 = 0) (hb : b % 4 = 0) (hne : b ≠ a)
    (hpdeg : b ≠ 0x024) (v : Word) (hw : writableOffset a = true) :
    (s.storeLoc (locOf a) v).windowRead b = s.windowRead b := by
  have hmapped : locOf a ≠ .unmapped := fun h => by simp [← stores_locOf, h, Loc.stores] at hw
  have hloc : locOf b ≠ locOf a := fun h => hne (locOf_injective hb ha h hmapped)
  have hnotPdeg : locOf b ≠ .pdeg := fun h => hpdeg (locOf_injective hb rfl h nofun)
  rw [State.windowRead_eq_readLoc _ hb, State.windowRead_eq_readLoc _ hb, readLoc_storeLoc_of_ne s v hloc hnotPdeg]

@[simp] theorem State.executor_storeLoc (s : State) (l : Loc) (v : Word) : (s.storeLoc l v).executor = s.executor := by
  cases l with
  | mem id w =>
    obtain ⟨m, hm⟩ := s.putMemWord_eq_setMemory id w v
    simp [State.storeLoc, hm]
  | dbl file i hi => simp [State.storeLoc]
  | _ => rfl

@[simp] theorem State.port_storeLoc (s : State) (l : Loc) (v : Word) : (s.storeLoc l v).port = s.port := by
  cases l with
  | mem id w =>
    obtain ⟨m, hm⟩ := s.putMemWord_eq_setMemory id w v
    simp [State.storeLoc, hm]
  | dbl file i hi => simp [State.storeLoc]
  | _ => rfl

end Sys2Proof.Machine
end

section
/-!
The memory window as the host sees it: the packing of bit memories, the accesses of an idle engine, and the bus errors
(20_memory.md).
-/

namespace Sys2Proof.Machine

/-! ### Bit packing (20_memory.md R84, R85) -/

/-- Bit `i` of a byte memory is bit `i % 32` of its window word `i / 32`. -/
theorem bit_eq_windowRead (s : State) {id : MemId} (hid : id ≠ .run) {i : Nat} (hi : i < 8 * id.size) :
    (s.memory id).bit i = (s.windowRead (id.base + 4 * (i / 32))).getLsbD (i % 32) := by
  have hsp := memory_mem_spans hid
  have hbase : id.base % 4 = 0 := base_mod_four hsp
  have hword : 4 * (i / 32) < id.size := by omega
  have hread : s.windowRead (id.base + 4 * (i / 32)) = (s.memory id).word (i / 32) := by
    rw [State.windowRead_eq_readLoc s (by omega), locOf_base_add hsp hword]
    exact s.memWord_of_ne_run hid _
  rw [hread, Memory.bit_eq_getLsbD_word]

/-- Bit (x, y) of a matrix that fits its memory. -/
theorem matBit_eq_windowRead (s : State) (m : Mat) {x y : Nat} (hx : x < s.width m) (hy : y < s.height m)
    (hfit : rowWords (s.width m) * s.height m ≤ 65536) :
    s.matBit m x y =
      (s.windowRead ((MemId.mat m).base + 4 * (y * rowWords (s.width m) + x / 32))).getLsbD (x % 32) := by
  have hplace := bitPlace_add_le (n := 1) hx hy
  have hword : bitPlace (s.width m) x y / 32 = y * rowWords (s.width m) + x / 32 := by
    rw [bitPlace, Nat.mul_add_div (by decide)]
  have hbit : bitPlace (s.width m) x y % 32 = x % 32 := Nat.mul_add_mod ..
  rw [← hword, ← hbit]
  refine bit_eq_windowRead s (id := .mat m) nofun ?_
  rw [MemId.size]
  omega

/-- Settles O41: a memory's bits are the bits of its window words, and a matrix that fits has its bits in its memory. -/
theorem bitPacking : Obligations.BitPacking :=
  ⟨fun s _ hi => bit_eq_windowRead s (id := .row) nofun hi, fun s _ _ => matBit_eq_windowRead s .m0,
    fun s _ _ => matBit_eq_windowRead s .m1⟩

/-! ### Accesses of an idle engine (20_memory.md R80 to R86, R88) -/

/-- The step that takes an aligned 32-bit read, idle or busy. -/
theorem step_read32 {s : State} {x : Executor} {off : Nat} {es : List PortEvent}
    (hx : (s.executor = .idle ∧ x = .idle) ∨ ∃ w n, s.executor = .running w (n + 1) ∧ x = .running w n)
    (hpor : s.porHeld = false) (hport : s.port = .read .w32 off :: es) (hoff : off < Config.windowBytes)
    (halign : off % 4 = 0) :
    step s = .next (({ s with executor := x, port := es } : State).hostRead (locOf off)) := by
  rw [step_eq_serve hx]
  simp [State.serve, hport, State.event, hoff, State.readAt, hpor, legalAccess, halign]

/-- An idle engine stores a write at a location that keeps one. -/
theorem hostWrite_of_stores {s : State} {l : Loc} (hidle : s.executor = .idle) (hl : l.stores = true) (v : Word) :
    s.hostWrite l v = s.storeLoc l v := by
  have hbusy : s.busy = false := by rw [State.busy, hidle]
  rcases s.hostWrite_cases l v with ⟨rfl, -⟩ | ⟨rfl, -⟩ | ⟨rfl, -⟩ | ⟨-, h, -⟩ | ⟨-, -, h⟩ | ⟨-, -, -, h, -⟩
  · cases hl
  · cases hl
  · cases hl
  · rw [hbusy] at h
    cases h
  · exact h
  · rw [hl] at h
    cases h

/-- An idle engine reads what lies at the location. -/
theorem hostRead_of_idle {s : State} (hidle : s.executor = .idle) (l : Loc) :
    s.hostRead l = { s with bus := .data (s.readLoc l) } := by
  have hout : s.runningOutput l = false := by rw [State.runningOutput, hidle]
  rw [State.hostRead, hout, if_neg Bool.false_ne_true]

/-- Settles O53: a read answers with what the offset's location holds, and a write changes that one location. -/
theorem idleReadsAndWrites : Obligations.IdleReadsAndWrites := by
  intro s off es hidle hpor hoff halign
  constructor
  · intro hport
    have hread := hostRead_of_idle (s := { s with port := es }) hidle (locOf off)
    rw [step_read32 (.inl ⟨hidle, hidle⟩) hpor hport hoff halign, hread, ← State.windowRead_eq_readLoc _ halign]
    rfl
  · intro v hport hw
    have hstep := step_write32 (.inl ⟨hidle, hidle⟩) hpor hport hoff halign
    rw [hostWrite_of_stores (s := { s with port := es }) hidle ((stores_locOf off).trans hw)] at hstep
    refine ⟨_, hstep, windowRead_storeLoc_same _ halign _ hw, fun a ha hne hpdeg => ?_, ?_, ?_, rfl⟩
    · exact windowRead_storeLoc_of_ne _ halign ha hne hpdeg _ hw
    · exact (State.executor_storeLoc _ _ _).trans hidle
    · exact State.port_storeLoc _ _ _

/-! ### Bus errors (20_memory.md R87) -/

theorem legalAccess_eq_false {width : Width} {off : Nat} (h : width ≠ .w32 ∨ off % 4 ≠ 0) :
    legalAccess width off = false := by
  rcases h with h | h
  · rw [legalAccess, beq_eq_false_iff_ne.mpr h, Bool.false_and]
  · rw [legalAccess, beq_eq_false_iff_ne.mpr h, Bool.and_false]

/-- Settles O55: the port answers an illegal access before it looks at what lies at the offset. -/
theorem illegalAccessIsBusError : Obligations.IllegalAccessIsBusError := by
  intro s width off es x hx hpor hoff hillegal
  have hlegal := legalAccess_eq_false hillegal
  have hwindow : off < Config.windowBytes := hoff
  rw [step_eq_serve hx]
  constructor
  · intro v hport
    simp [State.serve, hport, State.event, hwindow, State.writeAt, hpor, hlegal]
  · intro hport
    exact ⟨Config.drawnError s.draws, by simp [State.serve, hport, State.event, hwindow, State.readAt, hpor, hlegal]⟩

end Sys2Proof.Machine
end

section
/-!
The fields of a command word (30_encoding.md R110 to R116): what a format's fields read back, and that the fields of a word
put together again are the bits that the format uses.
-/

namespace Sys2Proof

/-! ### The numbers of the fields -/

@[simp] theorem Field.ofBit_bit (f : Field) : Field.ofBit f.bit = f := by cases f <;> rfl

@[simp] theorem Field.bit_ofBit (b : Bool) : (Field.ofBit b).bit = b := by cases b <;> rfl

@[simp] theorem Mat.ofBit_bit (m : Mat) : Mat.ofBit m.bit = m := by cases m <;> rfl

@[simp] theorem Mat.bit_ofBit (b : Bool) : (Mat.ofBit b).bit = b := by cases b <;> rfl

theorem PReg.num_lt (p : PReg) : p.num < 2 ^ 2 := by cases p <;> decide

theorem PReg.testBit_num (p : PReg) {k : Nat} (h : 2 ≤ k) : p.num.testBit k = false :=
  Nat.testBit_lt_two_pow (p.num_lt.trans_le (Nat.pow_le_pow_right (by decide) h))

@[simp] theorem PReg.ofBits_num (p : PReg) : PReg.ofBits (BitVec.ofNat 2 p.num) = p := by cases p <;> rfl

@[simp] theorem PReg.num_ofBits (b : BitVec 2) : (PReg.ofBits b).num = b.toNat := by decide +revert

theorem PReg.ofBits_inj (a b : BitVec 2) : PReg.ofBits a = PReg.ofBits b ↔ a = b := by decide +revert

theorem Sym.num_lt (s : Sym) : s.num < 2 ^ 3 := by cases s <;> decide

@[simp] theorem Sym.ofBits_num (s : Sym) : Sym.ofBits (BitVec.ofNat 3 s.num) = some s := by cases s <;> rfl

theorem Sym.num_of_ofBits {b : BitVec 3} {s : Sym} (h : Sym.ofBits b = some s) : s.num = b.toNat := by
  cases s <;> decide +revert

theorem Sym.ofBits_eq_none_iff (b : BitVec 3) : Sym.ofBits b = none ↔ 5 ≤ b.toNat := by decide +revert

theorem Sym.num_eq_zero_iff (s : Sym) : s.num = 0 ↔ s = .code39 := by cases s <;> decide

/-! ### One field put in a word -/

theorem getLsbD_atBit (lo v k : Nat) :
    (atBit lo v).getLsbD k = (decide (k < 32) && decide (lo ≤ k) && v.testBit (k - lo)) := by
  rw [atBit, BitVec.getLsbD_shiftLeft, BitVec.getLsbD_ofNat, Bool.eq_iff_iff]
  simp
  omega

@[simp] theorem getElem_atBit (lo v : Nat) {k : Nat} (hk : k < 32) :
    (atBit lo v)[k] = (decide (lo ≤ k) && v.testBit (k - lo)) := by
  rw [← BitVec.getLsbD_eq_getElem, getLsbD_atBit, decide_eq_true hk, Bool.true_and]

/-- A field read where it was put. -/
theorem extractLsb'_atBit_same {lo n : Nat} (h : lo + n ≤ 32) (v : Nat) :
    (atBit lo v).extractLsb' lo n = BitVec.ofNat n v := by
  refine BitVec.eq_of_getLsbD_eq fun k hk => ?_
  have hk32 : lo + k < 32 := by omega
  simp only [BitVec.getLsbD_extractLsb', BitVec.getLsbD_ofNat, getLsbD_atBit, hk, hk32, Nat.le_add_right,
    Nat.add_sub_cancel_left, decide_true, Bool.true_and]

/-- A field read below the bits of another one. -/
theorem extractLsb'_atBit_above {lo n lo' : Nat} (h : lo + n ≤ lo') (v : Nat) :
    (atBit lo' v).extractLsb' lo n = 0 := by
  refine BitVec.eq_of_getLsbD_eq fun k hk => ?_
  have hlo : ¬ lo' ≤ lo + k := by omega
  simp only [BitVec.getLsbD_extractLsb', getLsbD_atBit, hlo, decide_false, Bool.and_false, Bool.false_and,
    BitVec.ofNat_eq_ofNat, BitVec.getLsbD_zero]

/-- A field read above the `m` bits of another one. -/
theorem extractLsb'_atBit_below {lo n lo' v m : Nat} (hv : v < 2 ^ m) (h : lo' + m ≤ lo) :
    (atBit lo' v).extractLsb' lo n = 0 := by
  refine BitVec.eq_of_getLsbD_eq fun k hk => ?_
  have hhigh : v.testBit (lo + k - lo') = false :=
    Nat.testBit_lt_two_pow (hv.trans_le (Nat.pow_le_pow_right (by decide) (by omega)))
  simp only [BitVec.getLsbD_extractLsb', getLsbD_atBit, hhigh, Bool.and_false, BitVec.ofNat_eq_ofNat,
    BitVec.getLsbD_zero]

/-- The field of a word, put back where it was read, is the word's bits there. -/
theorem atBit_extractLsb' (w : Word) (lo n : Nat) :
    atBit lo (w.extractLsb' lo n).toNat = w &&& atBit lo (2 ^ n - 1) := by
  refine BitVec.eq_of_getLsbD_eq fun k hk => ?_
  by_cases hlo : lo ≤ k
  · simp only [BitVec.getLsbD_and, getLsbD_atBit, BitVec.testBit_toNat, BitVec.getLsbD_extractLsb',
      Nat.testBit_two_pow_sub_one, Nat.add_sub_cancel' hlo, hk, hlo, decide_true, Bool.true_and, Bool.and_comm]
  · simp only [BitVec.getLsbD_and, getLsbD_atBit, hlo, decide_false, Bool.and_false, Bool.false_and]

theorem atBit_getLsbD (w : Word) (k : Nat) : atBit k (w.getLsbD k).toNat = w &&& atBit k 1 := by
  rw [BitVec.getLsbD, Nat.toNat_testBit, ← Nat.shiftRight_eq_div_pow]
  exact atBit_extractLsb' w k 1

/-! ### The fields that a format's word reads back -/

section
variable (opc : Nat) (f : Field) (pe pb pa pd : PReg) (m : Mat) (sym : Sym) (chk : Bool) (en : BitVec 5)

theorem extractLsb'_fBits {lo n : Nat} (h : lo + n ≤ 8 ∨ 9 ≤ lo) : (fBits f).extractLsb' lo n = 0 :=
  h.elim (extractLsb'_atBit_above · _) (extractLsb'_atBit_below (m := 1) f.bit.toNat_lt ·)

@[simp] theorem opcField_wordG : opcField (wordG opc f) = BitVec.ofNat 8 opc := by
  simp [opcField, wordG, BitVec.extractLsb'_or, extractLsb'_atBit_same, extractLsb'_fBits]

@[simp] theorem fField_wordG : fField (wordG opc f) = f := by
  simp [fField, wordG, fBits, Nat.testBit_bool_toNat, -Nat.testBit_zero]

@[simp] theorem opcField_wordM : opcField (wordM opc m) = BitVec.ofNat 8 opc := by
  simp [opcField, wordM, mBits, BitVec.extractLsb'_or, extractLsb'_atBit_same,
    extractLsb'_atBit_below (m := 1) m.bit.toNat_lt]

@[simp] theorem mField_wordM : mField (wordM opc m) = m := by
  simp [mField, wordM, mBits, Nat.testBit_bool_toNat, -Nat.testBit_zero]

@[simp] theorem opcField_wordP : opcField (wordP opc f pe pb pa pd) = BitVec.ofNat 8 opc := by
  simp [opcField, wordP, BitVec.extractLsb'_or, extractLsb'_atBit_same, extractLsb'_fBits,
    extractLsb'_atBit_below (PReg.num_lt _)]

@[simp] theorem fField_wordP : fField (wordP opc f pe pb pa pd) = f := by
  simp [fField, wordP, fBits, PReg.testBit_num, Nat.testBit_bool_toNat, -Nat.testBit_zero]

@[simp] theorem peField_wordP : peField (wordP opc f pe pb pa pd) = pe := by
  simp [peField, wordP, BitVec.extractLsb'_or, extractLsb'_atBit_same, extractLsb'_atBit_above, extractLsb'_fBits,
    extractLsb'_atBit_below (PReg.num_lt _)]

@[simp] theorem pbField_wordP : pbField (wordP opc f pe pb pa pd) = pb := by
  simp [pbField, wordP, BitVec.extractLsb'_or, extractLsb'_atBit_same, extractLsb'_atBit_above, extractLsb'_fBits,
    extractLsb'_atBit_below (PReg.num_lt _)]

@[simp] theorem paField_wordP : paField (wordP opc f pe pb pa pd) = pa := by
  simp [paField, wordP, BitVec.extractLsb'_or, extractLsb'_atBit_same, extractLsb'_atBit_above, extractLsb'_fBits,
    extractLsb'_atBit_below (PReg.num_lt _)]

@[simp] theorem pdField_wordP : pdField (wordP opc f pe pb pa pd) = pd := by
  simp [pdField, wordP, BitVec.extractLsb'_or, extractLsb'_atBit_same, extractLsb'_atBit_above, extractLsb'_fBits]

@[simp] theorem opcField_wordS : opcField (wordS opc chk sym) = BitVec.ofNat 8 opc := by
  simp [opcField, wordS, BitVec.extractLsb'_or, extractLsb'_atBit_same, extractLsb'_atBit_below (m := 1) chk.toNat_lt,
    extractLsb'_atBit_below sym.num_lt]

@[simp] theorem symField_wordS : symField (wordS opc chk sym) = some sym := by
  simp [symField, wordS, BitVec.extractLsb'_or, extractLsb'_atBit_same, extractLsb'_atBit_above]

@[simp] theorem chkBit_wordS : (wordS opc chk sym)[4] = chk := by
  have hsym : sym.num.testBit 4 = false := Nat.testBit_lt_two_pow (sym.num_lt.trans_le (by decide))
  simp [wordS, hsym, Nat.testBit_bool_toNat, -Nat.testBit_zero]

@[simp] theorem opcField_wordX : opcField (wordX opc chk en) = BitVec.ofNat 8 opc := by
  simp [opcField, wordX, BitVec.extractLsb'_or, extractLsb'_atBit_same, extractLsb'_atBit_below (m := 1) chk.toNat_lt,
    extractLsb'_atBit_below en.isLt]

@[simp] theorem chkBit_wordX : (wordX opc chk en)[5] = chk := by
  simp [wordX, Nat.testBit_lt_two_pow en.isLt, Nat.testBit_bool_toNat, -Nat.testBit_zero]

@[simp] theorem enField_wordX : (wordX opc chk en).extractLsb' 0 5 = en := by
  simp [wordX, BitVec.extractLsb'_or, extractLsb'_atBit_same, extractLsb'_atBit_above]

end

end Sys2Proof
end

section
/-!
Decoding and encoding are inverse to each other (30_encoding.md R110 to R122).
-/

namespace Sys2Proof

/-! ### Decoding by rows of the opcode map -/

theorem decode_of_unassigned {w : Word} (h : opRow (opcField w) = none) : decode w = .error .unassignedOpcode := by
  simp only [decode, h]

theorem decode_of_mask {w : Word} {r : OpRow} (h : opRow (opcField w) = some r) (hmask : w &&& ~~~r.used ≠ 0) :
    decode w = .error .mustBeZero := by
  simp only [decode, h, if_pos hmask]

theorem decode_of_build {w : Word} {r : OpRow} (h : opRow (opcField w) = some r) (hmask : w &&& ~~~r.used = 0) :
    decode w = (r.build w).elim (.error .reservedField) .ok := by
  simp only [decode, h, if_neg (not_not_intro hmask)]
  cases r.build w <;> rfl

/-- A word that decodes has a row, passes the row's mask, and is the command that the row reads. -/
theorem row_of_decode {w : Word} {i : Instr} (h : decode w = .ok i) :
    ∃ r, opRow (opcField w) = some r ∧ w &&& ~~~r.used = 0 ∧ r.build w = some i := by
  cases hrow : opRow (opcField w) with
  | none => rw [decode_of_unassigned hrow] at h; cases h
  | some r =>
    by_cases hmask : w &&& ~~~r.used = 0
    · rw [decode_of_build hrow hmask] at h
      cases hbuild : r.build w with
      | none => rw [hbuild] at h; cases h
      | some j => rw [hbuild] at h; cases h; exact ⟨r, rfl, hmask, hbuild⟩
    · rw [decode_of_mask hrow hmask] at h; cases h

theorem opRow_eq_some {o : BitVec 8} {r : OpRow} (h : opRow o = some r) : r ∈ opRows ∧ o = r.opc :=
  ⟨List.mem_of_find?_eq_some h, (beq_iff_eq.mp (List.find?_some (p := fun r : OpRow => r.opc == o) h)).symm⟩

/-! ### From a command to its word and back -/

theorem decode_encode_of_row {i : Instr} {o : BitVec 8} {r : OpRow} (hs : Laws.Encoding.Statement i)
    (hopc : opcField (encode i) = o) (hrow : opRow o = some r) (hbuild : r.build (encode i) = some i) :
    decode (encode i) = .ok i := by
  obtain ⟨r', hr', hmask⟩ := hs
  obtain rfl : r' = r := Option.some.inj (hr'.symm.trans (hopc ▸ hrow))
  rw [decode_of_build hr' hmask, hbuild, Option.elim_some]

/-- A command of format G. -/
theorem decode_encode_formatG (c : Field → Instr) {f : Field} {opc : Nat} {o : BitVec 8}
    (hs : Laws.Encoding.Statement (c f)) (hword : encode (c f) = wordG opc f)
    (hrow : opRow (BitVec.ofNat 8 opc) = some ⟨o, 0xFF000100, fun w => some (c (fField w))⟩) :
    decode (encode (c f)) = .ok (c f) :=
  decode_encode_of_row hs (hword ▸ opcField_wordG opc f) hrow (by simp [hword])

/-- A command of format M. -/
theorem decode_encode_formatM (c : Mat → Instr) {m : Mat} {opc : Nat} {o : BitVec 8}
    (hs : Laws.Encoding.Statement (c m)) (hword : encode (c m) = wordM opc m)
    (hrow : opRow (BitVec.ofNat 8 opc) = some ⟨o, 0xFF000200, fun w => some (c (mField w))⟩) :
    decode (encode (c m)) = .ok (c m) :=
  decode_encode_of_row hs (hword ▸ opcField_wordM opc m) hrow (by simp [hword])

theorem decode_encode {i : Instr} (hwf : i.wf = true) : decode (encode i) = .ok i := by
  cases i with
  | nop => rfl
  | gfAdd f => exact decode_encode_formatG .gfAdd (Laws.Encoding.gfAdd f) rfl rfl
  | gfMul f => exact decode_encode_formatG .gfMul (Laws.Encoding.gfMul f) rfl rfl
  | gfDiv f => exact decode_encode_formatG .gfDiv (Laws.Encoding.gfDiv f) rfl rfl
  | gfInv f => exact decode_encode_formatG .gfInv (Laws.Encoding.gfInv f) rfl rfl
  | gfExp f => exact decode_encode_formatG .gfExp (Laws.Encoding.gfExp f) rfl rfl
  | gfLog f => exact decode_encode_formatG .gfLog (Laws.Encoding.gfLog f) rfl rfl
  | pMono f pd =>
    exact decode_encode_of_row (Laws.Encoding.pMono f pd) (opcField_wordP ..) rfl (by simp [encode])
  | pAdd f pb pa pd =>
    exact decode_encode_of_row (Laws.Encoding.pAdd f pb pa pd) (opcField_wordP ..) rfl (by simp [encode])
  | pMul f pb pa pd =>
    exact decode_encode_of_row (Laws.Encoding.pMul f pb pa pd) (opcField_wordP ..) rfl (by simp [encode])
  | pScale f pa pd =>
    exact decode_encode_of_row (Laws.Encoding.pScale f pa pd) (opcField_wordP ..) rfl (by simp [encode])
  | pMulmono f pa pd =>
    exact decode_encode_of_row (Laws.Encoding.pMulmono f pa pd) (opcField_wordP ..) rfl (by simp [encode])
  | pDiv f pe pb pa pd =>
    have hne : pd ≠ pe := fun h => by simp [Instr.wf, h] at hwf
    exact decode_encode_of_row (Laws.Encoding.pDiv f pe pb pa pd) (opcField_wordP ..) rfl (by simp [encode, hne])
  | pEval f pa =>
    exact decode_encode_of_row (Laws.Encoding.pEval f pa) (opcField_wordP ..) rfl (by simp [encode])
  | rsEncode f => exact decode_encode_formatG .rsEncode (Laws.Encoding.rsEncode f) rfl rfl
  | rsSyndrome f => exact decode_encode_formatG .rsSyndrome (Laws.Encoding.rsSyndrome f) rfl rfl
  | rsDecode f => exact decode_encode_formatG .rsDecode (Laws.Encoding.rsDecode f) rfl rfl
  | baGet => rfl
  | baSet => rfl
  | baFlip => rfl
  | baClear => rfl
  | baSetrange => rfl
  | baIsrange => rfl
  | baNextset => rfl
  | baNextunset => rfl
  | baReverse => rfl
  | baInit => rfl
  | bmInit m => exact decode_encode_formatM .bmInit (Laws.Encoding.bmInit m) rfl rfl
  | bmGet m => exact decode_encode_formatM .bmGet (Laws.Encoding.bmGet m) rfl rfl
  | bmSet m => exact decode_encode_formatM .bmSet (Laws.Encoding.bmSet m) rfl rfl
  | bmUnset m => exact decode_encode_formatM .bmUnset (Laws.Encoding.bmUnset m) rfl rfl
  | bmFlip m => exact decode_encode_formatM .bmFlip (Laws.Encoding.bmFlip m) rfl rfl
  | bmClear m => exact decode_encode_formatM .bmClear (Laws.Encoding.bmClear m) rfl rfl
  | bmSetregion m => exact decode_encode_formatM .bmSetregion (Laws.Encoding.bmSetregion m) rfl rfl
  | bmGetrow m => exact decode_encode_formatM .bmGetrow (Laws.Encoding.bmGetrow m) rfl rfl
  | bmRot180 m => exact decode_encode_formatM .bmRot180 (Laws.Encoding.bmRot180 m) rfl rfl
  | bmXor m => exact decode_encode_formatM .bmXor (Laws.Encoding.bmXor m) rfl rfl
  | bmCopy m => exact decode_encode_formatM .bmCopy (Laws.Encoding.bmCopy m) rfl rfl
  | bmTopleft m => exact decode_encode_formatM .bmTopleft (Laws.Encoding.bmTopleft m) rfl rfl
  | bmBotright m => exact decode_encode_formatM .bmBotright (Laws.Encoding.bmBotright m) rfl rfl
  | ptS2q => rfl
  | ptQ2s => rfl
  | ptQ2q => rfl
  | ptAdj => rfl
  | ptTimes => rfl
  | ptCopy => rfl
  | ptXform => rfl
  | gridSample m => exact decode_encode_formatM .gridSample (Laws.Encoding.gridSample m) rfl rfl
  | odRuns => rfl
  | odPmatch sym =>
    exact decode_encode_of_row (Laws.Encoding.odPmatch sym) (opcField_wordS ..) rfl (by simp [encode])
  | odDecode chk sym =>
    have hchk : chk = true → sym = .code39 := fun h => by simpa [Instr.wf, h] using hwf
    exact decode_encode_of_row (Laws.Encoding.odDecode chk sym) (opcField_wordS ..) rfl (by simpa [encode] using hchk)
  | odMulti chk en =>
    exact decode_encode_of_row (Laws.Encoding.odMulti chk en) (opcField_wordX ..) rfl (by simp [encode])

/-! ### From a word to its command and back: each field, put back, is the bits it was read from -/

theorem atBit_opcField (w : Word) : atBit 24 (opcField w).toNat = w &&& 0xFF000000 := atBit_extractLsb' w 24 8

theorem fBits_fField (w : Word) : fBits (fField w) = w &&& 0x100 := by
  rw [fBits, fField, Field.bit_ofBit]
  exact atBit_getLsbD w 8

theorem mBits_mField (w : Word) : mBits (mField w) = w &&& 0x200 := by
  rw [mBits, mField, Mat.bit_ofBit]
  exact atBit_getLsbD w 9

theorem atBit_peField (w : Word) : atBit 6 (peField w).num = w &&& 0xC0 := by
  rw [peField, PReg.num_ofBits]
  exact atBit_extractLsb' w 6 2

theorem atBit_pbField (w : Word) : atBit 4 (pbField w).num = w &&& 0x30 := by
  rw [pbField, PReg.num_ofBits]
  exact atBit_extractLsb' w 4 2

theorem atBit_paField (w : Word) : atBit 2 (paField w).num = w &&& 0x0C := by
  rw [paField, PReg.num_ofBits]
  exact atBit_extractLsb' w 2 2

theorem atBit_pdField (w : Word) : atBit 0 (pdField w).num = w &&& 0x03 := by
  rw [pdField, PReg.num_ofBits]
  exact atBit_extractLsb' w 0 2

theorem atBit_symField {w : Word} {sym : Sym} (h : symField w = some sym) : atBit 0 sym.num = w &&& 0x07 := by
  rw [Sym.num_of_ofBits h]
  exact atBit_extractLsb' w 0 3

/-- A row of the map reads from a word the well-formed command whose word has the bits that the row uses. -/
def OpRow.Sound (r : OpRow) : Prop :=
  ∀ (w : Word) (i : Instr), opcField w = r.opc → r.build w = some i → encode i = w &&& r.used ∧ i.wf = true

section
variable {opc : BitVec 8}

theorem sound_formatN {i : Instr} (hword : encode i = wordN opc.toNat) (hwf : i.wf = true) :
    OpRow.Sound ⟨opc, 0xFF000000, fun _ => some i⟩ := by
  rintro w _ rfl ⟨rfl⟩
  exact ⟨hword.trans (atBit_opcField w), hwf⟩

theorem sound_formatG (c : Field → Instr) (hword : ∀ f, encode (c f) = wordG opc.toNat f := by intro f; rfl)
    (hwf : ∀ f, (c f).wf = true := by intro f; rfl) : OpRow.Sound ⟨opc, 0xFF000100, fun w => some (c (fField w))⟩ := by
  rintro w _ rfl ⟨rfl⟩
  refine ⟨?_, hwf _⟩
  rw [hword, wordG, atBit_opcField, fBits_fField, ← BitVec.and_or_distrib_left]
  rfl

theorem sound_formatM (c : Mat → Instr) (hword : ∀ m, encode (c m) = wordM opc.toNat m := by intro m; rfl)
    (hwf : ∀ m, (c m).wf = true := by intro m; rfl) : OpRow.Sound ⟨opc, 0xFF000200, fun w => some (c (mField w))⟩ := by
  rintro w _ rfl ⟨rfl⟩
  refine ⟨?_, hwf _⟩
  rw [hword, wordM, atBit_opcField, mBits_mField, ← BitVec.and_or_distrib_left]
  rfl

end

/-- A register that a command does not use is P0 in its word, and none of the word's bits (30_encoding.md R122). -/
theorem atBit_p0 (w : Word) (lo : Nat) : atBit lo PReg.p0.num = w &&& 0 := by simp [atBit, PReg.num]

section
variable {w : Word} {opc : BitVec 8} (hopc : opcField w = opc)
include hopc

/-- The word of format P, from the bits of `w` that each register is. -/
theorem wordP_eq_and {pe pb pa pd : PReg} {me mb ma md m : Word} (hpe : atBit 6 pe.num = w &&& me)
    (hpb : atBit 4 pb.num = w &&& mb) (hpa : atBit 2 pa.num = w &&& ma) (hpd : atBit 0 pd.num = w &&& md)
    (hm : 0xFF000000 ||| 0x100 ||| me ||| mb ||| ma ||| md = m) :
    wordP opc.toNat (fField w) pe pb pa pd = w &&& m := by
  rw [← hopc, wordP, atBit_opcField, fBits_fField, hpe, hpb, hpa, hpd, ← hm]
  simp only [BitVec.and_or_distrib_left]

/-- The word of format S, from the bits of `w` that CHK is. -/
theorem wordS_eq_and {chk : Bool} {sym : Sym} {mc m : Word} (hchk : atBit 4 chk.toNat = w &&& mc)
    (hsym : symField w = some sym) (hm : 0xFF000000 ||| mc ||| 0x07 = m) : wordS opc.toNat chk sym = w &&& m := by
  rw [← hopc, wordS, atBit_opcField, hchk, atBit_symField hsym, ← hm]
  simp only [BitVec.and_or_distrib_left]

theorem wordX_eq_and : wordX opc.toNat (w.getLsbD 5) (w.extractLsb' 0 5) = w &&& 0xFF00003F := by
  have hmask : (0xFF00003F : Word) = 0xFF000000 ||| 0x20 ||| 0x1F := rfl
  rw [← hopc, wordX, atBit_opcField, atBit_getLsbD, atBit_extractLsb', hmask]
  simp only [BitVec.and_or_distrib_left]
  rfl

end

/-! ### Every row of the opcode map -/

theorem gfRsRows_sound : ∀ r ∈ gfRsRows, r.Sound := by
  simp only [gfRsRows, List.forall_mem_cons]
  exact ⟨sound_formatN rfl rfl, sound_formatG .gfAdd, sound_formatG .gfMul, sound_formatG .gfDiv, sound_formatG .gfInv,
    sound_formatG .gfExp, sound_formatG .gfLog, sound_formatG .rsEncode, sound_formatG .rsSyndrome,
    sound_formatG .rsDecode, List.forall_mem_nil _⟩

theorem polyRows_sound : ∀ r ∈ polyRows, r.Sound := by
  simp only [polyRows, List.forall_mem_cons]
  refine ⟨?pMono, ?pAdd, ?pMul, ?pScale, ?pMulmono, ?pDiv, ?pEval, List.forall_mem_nil _⟩
  case pDiv =>
    intro w i hopc hi
    obtain ⟨hne, hi⟩ := Option.ite_none_left_eq_some.mp hi
    cases hi
    exact ⟨wordP_eq_and hopc (atBit_peField w) (atBit_pbField w) (atBit_paField w) (atBit_pdField w) rfl,
      bne_iff_ne.mpr (Ne.symm hne)⟩
  all_goals rintro w _ hopc ⟨rfl⟩
  case pMono => exact ⟨wordP_eq_and hopc (atBit_p0 w 6) (atBit_p0 w 4) (atBit_p0 w 2) (atBit_pdField w) rfl, rfl⟩
  case pAdd => exact ⟨wordP_eq_and hopc (atBit_p0 w 6) (atBit_pbField w) (atBit_paField w) (atBit_pdField w) rfl, rfl⟩
  case pMul => exact ⟨wordP_eq_and hopc (atBit_p0 w 6) (atBit_pbField w) (atBit_paField w) (atBit_pdField w) rfl, rfl⟩
  case pScale => exact ⟨wordP_eq_and hopc (atBit_p0 w 6) (atBit_p0 w 4) (atBit_paField w) (atBit_pdField w) rfl, rfl⟩
  case pMulmono => exact ⟨wordP_eq_and hopc (atBit_p0 w 6) (atBit_p0 w 4) (atBit_paField w) (atBit_pdField w) rfl, rfl⟩
  case pEval => exact ⟨wordP_eq_and hopc (atBit_p0 w 6) (atBit_p0 w 4) (atBit_paField w) (atBit_p0 w 0) rfl, rfl⟩

theorem baRows_sound : ∀ r ∈ baRows, r.Sound := by
  simp only [baRows, List.forall_mem_cons]
  exact ⟨sound_formatN rfl rfl, sound_formatN rfl rfl, sound_formatN rfl rfl, sound_formatN rfl rfl,
    sound_formatN rfl rfl, sound_formatN rfl rfl, sound_formatN rfl rfl, sound_formatN rfl rfl, sound_formatN rfl rfl,
    sound_formatN rfl rfl, List.forall_mem_nil _⟩

theorem bmRows_sound : ∀ r ∈ bmRows, r.Sound := by
  simp only [bmRows, List.forall_mem_cons]
  exact ⟨sound_formatM .bmInit, sound_formatM .bmGet, sound_formatM .bmSet, sound_formatM .bmUnset,
    sound_formatM .bmFlip, sound_formatM .bmClear, sound_formatM .bmSetregion, sound_formatM .bmGetrow,
    sound_formatM .bmRot180, sound_formatM .bmXor, sound_formatM .bmCopy, sound_formatM .bmTopleft,
    sound_formatM .bmBotright, List.forall_mem_nil _⟩

theorem ptRows_sound : ∀ r ∈ ptRows, r.Sound := by
  simp only [ptRows, List.forall_mem_cons]
  exact ⟨sound_formatN rfl rfl, sound_formatN rfl rfl, sound_formatN rfl rfl, sound_formatN rfl rfl,
    sound_formatN rfl rfl, sound_formatN rfl rfl, sound_formatN rfl rfl, sound_formatM .gridSample,
    List.forall_mem_nil _⟩

theorem odRows_sound : ∀ r ∈ odRows, r.Sound := by
  simp only [odRows, List.forall_mem_cons]
  refine ⟨sound_formatN rfl rfl, ?odPmatch, ?odDecode, ?odMulti, List.forall_mem_nil _⟩
  case odPmatch =>
    intro w i hopc hi
    obtain ⟨sym, hsym, rfl⟩ := Option.map_eq_some_iff.mp hi
    exact ⟨wordS_eq_and hopc (mc := 0) (by simp [atBit]) hsym rfl, rfl⟩
  case odDecode =>
    intro w i hopc hi
    dsimp only at hi
    split at hi
    · cases hi
    · next sym hsym =>
      obtain ⟨hchk, hi⟩ := Option.ite_none_left_eq_some.mp hi
      cases hi
      refine ⟨wordS_eq_and hopc (atBit_getLsbD w 4) hsym rfl, ?_⟩
      simpa [Instr.wf, imp_iff_not_or] using hchk
  case odMulti =>
    intro w i hopc hi
    obtain rfl := Option.some.inj hi
    exact ⟨wordX_eq_and (opc := 0x73) hopc, rfl⟩

theorem opRows_sound : ∀ r ∈ opRows, r.Sound := by
  simp only [opRows, List.forall_mem_append]
  exact ⟨⟨⟨⟨⟨gfRsRows_sound, polyRows_sound⟩, baRows_sound⟩, bmRows_sound⟩, ptRows_sound⟩, odRows_sound⟩

/-- A word that passes a mask has no other bits. -/
theorem and_eq_self_of_and_not {w m : Word} (h : w &&& ~~~m = 0) : w &&& m = w := by
  have hsplit : w &&& m ||| w &&& ~~~m = w := by
    rw [← BitVec.and_or_distrib_left, BitVec.or_not_self, BitVec.and_allOnes]
  rw [h] at hsplit
  simpa using hsplit

theorem encode_of_decode {w : Word} {i : Instr} (h : decode w = .ok i) : encode i = w ∧ i.wf = true := by
  obtain ⟨r, hrow, hmask, hbuild⟩ := row_of_decode h
  obtain ⟨hmem, hopc⟩ := opRow_eq_some hrow
  obtain ⟨hword, hwf⟩ := opRows_sound r hmem w i hopc hbuild
  exact ⟨hword.trans (and_eq_self_of_and_not hmask), hwf⟩

/-- Settles O1: each command's word reads its own fields back, and each row of the map reads the command of a word's bits. -/
theorem encodingIsBijection : Obligations.EncodingIsBijection :=
  ⟨fun _ => decode_encode, fun _ _ => encode_of_decode⟩

end Sys2Proof
end

section
/-!
The decode checks (30_encoding.md R118, with the tables of R120 and R122), and the step that runs a decoded word.
-/

namespace Sys2Proof.Machine

/-! ### The opcode map against the tables of R120 and R122 -/

theorem toNat_opcField (w : Word) : (opcField w).toNat = (w >>> 24).toNat := by
  have h : w.toNat >>> 24 < 2 ^ 8 := by
    rw [Nat.shiftRight_eq_div_pow]
    have := w.isLt
    omega
  rw [opcField, BitVec.extractLsb'_toNat, BitVec.toNat_ushiftRight, Nat.mod_eq_of_lt h]

theorem opRow_eq_none_iff (o : BitVec 8) : opRow o = none ↔ ¬ assigned o.toNat := by
  rw [← Option.isNone_iff_eq_none]
  unfold assigned
  decide +kernel +revert

theorem used_eq_maskUsed {o : BitVec 8} {r : OpRow} (h : opRow o = some r) : r.used = maskUsed o.toNat := by
  have htable : ∀ r ∈ opRows, r.used = maskUsed r.opc.toNat := by decide +kernel
  obtain ⟨hmem, rfl⟩ := opRow_eq_some h
  exact htable r hmem

/-! ### The reserved field values of R118 -/

theorem toNat_symBits (w : Word) : (w.extractLsb' 0 3).toNat = (w &&& 7).toNat := by
  rw [BitVec.extractLsb'_toNat, BitVec.toNat_and, Nat.shiftRight_zero]
  exact (Nat.and_two_pow_sub_one_eq_mod w.toNat 3).symm

theorem symField_eq_none_iff (w : Word) : symField w = none ↔ 5 ≤ (w &&& 7).toNat := by
  rw [symField, Sym.ofBits_eq_none_iff, toNat_symBits]

theorem num_of_symField {w : Word} {sym : Sym} (h : symField w = some sym) : sym.num = (w &&& 7).toNat := by
  rw [Sym.num_of_ofBits h, toNat_symBits]

theorem pdField_eq_peField_iff (w : Word) :
    pdField w = peField w ↔ w.getLsbD 0 = w.getLsbD 6 ∧ w.getLsbD 1 = w.getLsbD 7 := by
  rw [pdField, peField, PReg.ofBits_inj, BitVec.eq_of_getLsbD_eq_iff]
  simp only [BitVec.getLsbD_extractLsb']
  constructor
  · intro h
    exact ⟨by simpa using h 0 (by decide), by simpa using h 1 (by decide)⟩
  · rintro ⟨h0, h1⟩ (_ | _ | k) hk
    · simpa using h0
    · simpa using h1
    · omega

/-- The reserved values, from the fields as the decoder reads them. -/
theorem reservedFields_iff (w : Word) :
    reservedFields w ↔ ((opcField w = 0x71 ∨ opcField w = 0x72) ∧ symField w = none) ∨
      (opcField w = 0x72 ∧ w.getLsbD 4 = true ∧ (w &&& 7).toNat ≠ 0) ∨ (opcField w = 0x25 ∧ pdField w = peField w) := by
  have hopc : ∀ o : BitVec 8, opcField w = o ↔ (w >>> 24).toNat = o.toNat := fun o => by
    rw [← toNat_opcField, BitVec.toNat_inj]
  simp only [reservedFields, hopc, symField_eq_none_iff, pdField_eq_peField_iff]
  rfl

/-- Only P_DIV, OD_PMATCH and OD_DECODE have reserved field values. -/
theorem build_ne_none_of_mem {r : OpRow} (hmem : r ∈ opRows) (hopc : ¬ (r.opc = 0x25 ∨ r.opc = 0x71 ∨ r.opc = 0x72))
    (w : Word) : r.build w ≠ none := by
  have htable : ∀ r ∈ opRows, (r.opc = 0x25 ∨ r.opc = 0x71 ∨ r.opc = 0x72) ∨ ∀ w, r.build w ≠ none := by
    simp [opRows, gfRsRows, polyRows, baRows, bmRows, ptRows, odRows]
  exact (htable r hmem).resolve_left hopc w

theorem build_eq_none_iff {w : Word} {r : OpRow} (hrow : opRow (opcField w) = some r) :
    r.build w = none ↔ reservedFields w := by
  rw [reservedFields_iff]
  by_cases hopc : opcField w = 0x25 ∨ opcField w = 0x71 ∨ opcField w = 0x72
  · rcases hopc with h | h | h <;> rw [h] at hrow ⊢ <;> obtain rfl := Option.some.inj hrow
    · simp
    · simp
    · cases hsym : symField w with
      | none => simp [hsym]
      | some sym =>
        rw [← num_of_symField hsym, ne_eq, Sym.num_eq_zero_iff]
        simp [hsym]
  · have hbuild : r.build w ≠ none := by
      obtain ⟨hmem, hr⟩ := opRow_eq_some hrow
      exact build_ne_none_of_mem hmem (hr ▸ hopc) w
    exact iff_of_false hbuild fun hreserved => hopc (by tauto)

/-- Settles O2: the map and the masks are those of R120 and R122, and a row reads no command from a reserved value only. -/
theorem decodeChecksInOrder : Obligations.DecodeChecksInOrder := by
  intro w
  rw [← toNat_opcField]
  cases hrow : opRow (opcField w) with
  | none =>
    have hno := (opRow_eq_none_iff _).mp hrow
    exact ⟨fun _ => decode_of_unassigned hrow, fun h => absurd h hno, fun h => absurd h hno, fun h => absurd h hno⟩
  | some r =>
    have hyes : assigned (opcField w).toNat := by
      by_contra hno
      simp [(opRow_eq_none_iff _).mpr hno] at hrow
    rw [← used_eq_maskUsed hrow, ← build_eq_none_iff hrow]
    refine ⟨fun h => absurd hyes h, fun _ hmask => decode_of_mask hrow hmask, fun _ hmask hnone => ?_,
      fun _ hmask hsome => ?_⟩
    · rw [decode_of_build hrow hmask, hnone, Option.elim_none]
    · obtain ⟨i, hi⟩ := Option.ne_none_iff_exists'.mp hsome
      exact ⟨i, by rw [decode_of_build hrow hmask, hi, Option.elim_some]⟩

/-- Settles O3: the decoder evaluated on each word. -/
theorem specWordsDecode : Obligations.SpecWordsDecode := by
  unfold Obligations.SpecWordsDecode
  decide

/-- Settles O4: the turn of an engine whose word is due is that word's run. -/
theorem stepRunsDecoded : Obligations.StepRunsDecoded := by
  intro s w i hrun hdecode
  rw [step, State.turn, hrun]
  simp only [runWord, hdecode]

end Sys2Proof.Machine
end

section
/-!
The product of a field, as polynomials over GF(2) (40_gf.md R152) and by the tables (R153): the first is linear, the
powers of 2 under it are the exp table, and so the two are one product, which obeys the field laws.
-/

namespace Sys2Proof.Machine

/-! ### Sums of field elements -/

theorem xorSum_congr {n : Nat} {g h : Nat → Byte} (hgh : ∀ i < n, g i = h i) : xorSum n g = xorSum n h := by
  induction n with
  | zero => rfl
  | succ n ih => rw [xorSum, xorSum, ih fun i hi => hgh i (by omega), hgh n (by omega)]

theorem xorSum_eq_zero {n : Nat} {g : Nat → Byte} (hg : ∀ i < n, g i = 0) : xorSum n g = 0 := by
  induction n with
  | zero => rfl
  | succ n ih => rw [xorSum, ih fun i hi => hg i (by omega), hg n (by omega)]; rfl

theorem xorSum_xor (n : Nat) (g h : Nat → Byte) :
    xorSum n (fun i => g i ^^^ h i) = xorSum n g ^^^ xorSum n h := by
  induction n with
  | zero => exact BitVec.xor_self.symm
  | succ n ih => rw [xorSum, ih, xorSum, xorSum]; ac_rfl

theorem xorSum_succ_left (n : Nat) (g : Nat → Byte) :
    xorSum (n + 1) g = g 0 ^^^ xorSum n fun i => g (i + 1) := by
  induction n with
  | zero => exact BitVec.xor_comm _ _
  | succ n ih => rw [xorSum, ih, xorSum, BitVec.xor_assoc]

theorem xorSum_single (n d : Nat) (g : Nat → Byte) :
    (xorSum n fun i => if i = d then g i else 0) = if d < n then g d else 0 := by
  induction n with
  | zero => rfl
  | succ n ih =>
    rw [xorSum, ih]
    rcases Nat.lt_trichotomy d n with h | rfl | h
    · simp [h, h.ne', Nat.lt_succ_of_lt h]
    · simp
    · simp [h.ne, h.not_gt, Nat.not_lt.mpr (Nat.succ_le_of_lt h)]

/-- A byte is the sum of its bits. -/
theorem eq_xorSum_bits (a : Byte) : a = xorSum 8 fun k => if a.getLsbD k then (1 : Byte) <<< k else 0 := by
  decide +kernel +revert

/-- What holds of each bit and of every sum holds of every byte. -/
theorem byte_induction {P : Byte → Prop} (hxor : ∀ a b, P a → P b → P (a ^^^ b)) (hbit : ∀ k < 8, P ((1 : Byte) <<< k))
    (a : Byte) : P a := by
  have hzero : P 0 := hxor _ _ (hbit 0 (by decide)) (hbit 0 (by decide))
  have hsum : ∀ n ≤ 8, P (xorSum n fun k => if a.getLsbD k then (1 : Byte) <<< k else 0) := by
    intro n hn
    induction n with
    | zero => exact hzero
    | succ n ih =>
      refine hxor _ _ (ih (by omega)) ?_
      dsimp only
      split
      · exact hbit n hn
      · exact hzero
  rw [eq_xorSum_bits a]
  exact hsum 8 (Nat.le_refl 8)

/-! ### The polynomial product is linear -/

/-- A term that is added where a bit is set is added for a sum of two bits where it is for one of them. -/
theorem ite_xor_distrib {n : Nat} (b b' : Bool) (v v' t : BitVec n) :
    (if (b ^^ b') = true then v ^^^ v' ^^^ t else v ^^^ v') =
      (if b = true then v ^^^ t else v) ^^^ if b' = true then v' ^^^ t else v' := by
  cases b <;> cases b'
  · rfl
  · exact BitVec.xor_assoc v v' t
  · rw [Bool.xor_false, if_pos rfl, if_pos rfl, if_neg Bool.false_ne_true]; ac_rfl
  · calc v ^^^ v'
      _ = v ^^^ v' ^^^ (t ^^^ t) := by rw [BitVec.xor_self, BitVec.xor_zero]
      _ = v ^^^ t ^^^ (v' ^^^ t) := by ac_rfl

/-- One pass of `carryless`: the term of bit `i` of `b` is added. -/
def addTerm (a b : Byte) (v : BitVec 16) (i : Nat) : BitVec 16 :=
  if b.getLsbD i then v ^^^ (a.setWidth 16 <<< i) else v

theorem foldl_addTerm_xor_left (a a' b : Byte) (is : List Nat) (v v' : BitVec 16) :
    is.foldl (addTerm (a ^^^ a') b) (v ^^^ v') = is.foldl (addTerm a b) v ^^^ is.foldl (addTerm a' b) v' := by
  induction is generalizing v v' with
  | nil => rfl
  | cons i is ih =>
    have hterm : addTerm (a ^^^ a') b (v ^^^ v') i = addTerm a b v i ^^^ addTerm a' b v' i := by
      unfold addTerm
      split
      · rw [BitVec.setWidth_xor, BitVec.shiftLeft_xor_distrib]; ac_rfl
      · rfl
    rw [List.foldl_cons, hterm, ih, List.foldl_cons, List.foldl_cons]

theorem foldl_addTerm_xor_right (a b b' : Byte) (is : List Nat) (v v' : BitVec 16) :
    is.foldl (addTerm a (b ^^^ b')) (v ^^^ v') = is.foldl (addTerm a b) v ^^^ is.foldl (addTerm a b') v' := by
  induction is generalizing v v' with
  | nil => rfl
  | cons i is ih =>
    have hterm : addTerm a (b ^^^ b') (v ^^^ v') i = addTerm a b v i ^^^ addTerm a b' v' i := by
      rw [addTerm, BitVec.getLsbD_xor]
      exact ite_xor_distrib _ _ _ _ _
    rw [List.foldl_cons, hterm, ih, List.foldl_cons, List.foldl_cons]

theorem reduce_xor (f : Field) (n : Nat) (v w : BitVec 16) : reduce f n (v ^^^ w) = reduce f n v ^^^ reduce f n w := by
  induction n generalizing v w with
  | zero => rfl
  | succ n ih => rw [reduce, reduce, reduce, ← ih, BitVec.getLsbD_xor, ite_xor_distrib]

theorem carryless_xor_left (a a' b : Byte) : carryless (a ^^^ a') b = carryless a b ^^^ carryless a' b :=
  foldl_addTerm_xor_left a a' b _ 0 0

theorem carryless_xor_right (a b b' : Byte) : carryless a (b ^^^ b') = carryless a b ^^^ carryless a b' :=
  foldl_addTerm_xor_right a b b' _ 0 0

theorem fieldProduct_xor_left (f : Field) (a a' b : Byte) :
    fieldProduct f (a ^^^ a') b = fieldProduct f a b ^^^ fieldProduct f a' b := by
  rw [fieldProduct, carryless_xor_left, reduce_xor, BitVec.setWidth_xor]
  rfl

theorem fieldProduct_xor_right (f : Field) (a b b' : Byte) :
    fieldProduct f a (b ^^^ b') = fieldProduct f a b ^^^ fieldProduct f a b' := by
  rw [fieldProduct, carryless_xor_right, reduce_xor, BitVec.setWidth_xor]
  rfl

theorem fieldProduct_zero_left (f : Field) (b : Byte) : fieldProduct f 0 b = 0 := by
  have h := fieldProduct_xor_left f 0 0 b
  rwa [BitVec.xor_self, BitVec.xor_self] at h

theorem fieldProduct_zero_right (f : Field) (a : Byte) : fieldProduct f a 0 = 0 := by
  have h := fieldProduct_xor_right f a 0 0
  rwa [BitVec.xor_self, BitVec.xor_self] at h

theorem fieldProduct_one_left (f : Field) (b : Byte) : fieldProduct f 1 b = b := by
  induction b using byte_induction with
  | hxor b b' hb hb' => rw [fieldProduct_xor_right, hb, hb']
  | hbit j hj => revert j hj; cases f <;> decide +kernel

/-- Multiplying by the generating element first or last is the same; both sides are linear, so the bits decide it. -/
theorem fieldProduct_two_assoc (f : Field) (a b : Byte) :
    fieldProduct f (fieldProduct f 2 a) b = fieldProduct f 2 (fieldProduct f a b) := by
  induction a using byte_induction with
  | hxor a a' ha ha' =>
    rw [fieldProduct_xor_right, fieldProduct_xor_left, ha, ha', fieldProduct_xor_left f a, fieldProduct_xor_right]
  | hbit i hi =>
    induction b using byte_induction with
    | hxor b b' hb hb' =>
      rw [fieldProduct_xor_right, hb, hb', fieldProduct_xor_right f ((1 : Byte) <<< i), fieldProduct_xor_right]
    | hbit j hj => revert i hi j hj; cases f <;> decide +kernel

/-! ### Powers of the generating element -/

theorem fieldPower_two_add (f : Field) (i j : Nat) :
    fieldPower f 2 (i + j) = fieldProduct f (fieldPower f 2 i) (fieldPower f 2 j) := by
  induction i with
  | zero => rw [Nat.zero_add]; exact (fieldProduct_one_left f _).symm
  | succ i ih => rw [Nat.succ_add, fieldPower, ih, fieldPower, fieldProduct_two_assoc]

/-- Each entry of the exp table is twice the one before (40_gf.md R151). -/
theorem gfExp_succ (f : Field) : ∀ i < 255, gfExp f (i + 1) = fieldProduct f 2 (gfExp f i) := by
  cases f <;> decide +kernel

theorem gfExp_zero (f : Field) : gfExp f 0 = 1 := by cases f <;> decide

theorem gfExp_255 (f : Field) : gfExp f 255 = 1 := by cases f <;> decide +kernel

/-- The exp table holds the powers of 2 (40_gf.md R151). -/
theorem gfExp_eq_fieldPower (f : Field) {i : Nat} (hi : i ≤ 255) : gfExp f i = fieldPower f 2 i := by
  induction i with
  | zero => exact gfExp_zero f
  | succ i ih => rw [gfExp_succ f i hi, ih (by omega), fieldPower]

theorem fieldPower_two_255 (f : Field) : fieldPower f 2 255 = 1 := by
  rw [← gfExp_eq_fieldPower f (Nat.le_refl 255), gfExp_255]

theorem fieldPower_two_mod (f : Field) (n : Nat) : fieldPower f 2 (n % 255) = fieldPower f 2 n := by
  induction n using Nat.strong_induction_on with
  | _ n ih =>
    by_cases hn : n < 255
    · rw [Nat.mod_eq_of_lt hn]
    · rw [Nat.mod_eq_sub_mod (Nat.le_of_not_lt hn), ih _ (by omega)]
      conv_rhs => rw [← Nat.add_sub_cancel' (Nat.le_of_not_lt hn), fieldPower_two_add, fieldPower_two_255,
        fieldProduct_one_left]

/-- A nonzero element is the power of 2 that its logarithm says (40_gf.md R151). -/
theorem fieldPower_gfLog (f : Field) {a : Byte} (ha : a ≠ 0) : fieldPower f 2 (gfLog f a) = a := by
  rw [← gfExp_eq_fieldPower f ((gfLog_le f a).trans (by decide)), gfExp_gfLog f a ha]

/-! ### The product by the tables -/

/-- The product by the tables is the polynomial product (40_gf.md R153). -/
theorem gfMul_eq_fieldProduct (f : Field) (a b : Byte) : gfMul f a b = fieldProduct f a b := by
  by_cases ha : a = 0
  · rw [ha, gfMul_zero_left, fieldProduct_zero_left]
  by_cases hb : b = 0
  · rw [hb, gfMul_zero_right, fieldProduct_zero_right]
  have hlt := Nat.mod_lt (gfLog f a + gfLog f b) (show 0 < 255 by decide)
  rw [gfMul_eq_exp f ha hb, gfExp_eq_fieldPower f hlt.le, fieldPower_two_mod, fieldPower_two_add,
    fieldPower_gfLog f ha, fieldPower_gfLog f hb]

theorem gfMul_comm (f : Field) (a b : Byte) : gfMul f a b = gfMul f b a := by
  simp only [gfMul, or_comm, Nat.add_comm]

theorem gfMul_xor_right (f : Field) (a b c : Byte) : gfMul f a (b ^^^ c) = gfMul f a b ^^^ gfMul f a c := by
  simp only [gfMul_eq_fieldProduct, fieldProduct_xor_right]

theorem gfMul_xor_left (f : Field) (a b c : Byte) : gfMul f (a ^^^ b) c = gfMul f a c ^^^ gfMul f b c := by
  simp only [gfMul_eq_fieldProduct, fieldProduct_xor_left]

theorem gfMul_one_left (f : Field) (a : Byte) : gfMul f 1 a = a := by
  rw [gfMul_eq_fieldProduct, fieldProduct_one_left]

theorem gfMul_one_right (f : Field) (a : Byte) : gfMul f a 1 = a := by rw [gfMul_comm, gfMul_one_left]

theorem gfMul_ne_zero (f : Field) {a b : Byte} (ha : a ≠ 0) (hb : b ≠ 0) : gfMul f a b ≠ 0 := by
  rw [gfMul_eq_exp f ha hb]
  exact gfExp_ne_zero f _ (Nat.mod_lt _ (by decide)).le

/-- The product of nonzero elements, by their logarithms. -/
theorem gfLog_gfMul (f : Field) {a b : Byte} (ha : a ≠ 0) (hb : b ≠ 0) :
    gfLog f (gfMul f a b) = (gfLog f a + gfLog f b) % 255 := by
  rw [gfMul_eq_exp f ha hb, gfLog_gfExp f _ (Nat.le_of_lt_succ (Nat.mod_lt _ (by decide)))]

theorem gfMul_assoc (f : Field) (a b c : Byte) : gfMul f (gfMul f a b) c = gfMul f a (gfMul f b c) := by
  by_cases ha : a = 0
  · simp only [ha, gfMul_zero_left]
  by_cases hb : b = 0
  · simp only [hb, gfMul_zero_left, gfMul_zero_right]
  by_cases hc : c = 0
  · simp only [hc, gfMul_zero_right]
  rw [gfMul_eq_exp f (gfMul_ne_zero f ha hb) hc, gfMul_eq_exp f ha (gfMul_ne_zero f hb hc), gfLog_gfMul f ha hb,
    gfLog_gfMul f hb hc, Nat.mod_add_mod, Nat.add_mod_mod, Nat.add_assoc]

/-- The inverse undoes the product (40_gf.md R154). -/
theorem gfMul_gfInv (f : Field) {a : Byte} (ha : a ≠ 0) : gfMul f a (gfInv f a) = 1 := by
  have hlog := gfLog_le f a
  calc gfMul f a (gfInv f a)
    _ = fieldProduct f (fieldPower f 2 (gfLog f a)) (fieldPower f 2 (255 - gfLog f a)) := by
      rw [gfMul_eq_fieldProduct, fieldPower_gfLog f ha, gfInv, gfExp_eq_fieldPower f (Nat.sub_le _ _)]
    _ = 1 := by rw [← fieldPower_two_add, Nat.add_sub_cancel' (by omega), fieldPower_two_255]

/-- Settles O16: the polynomial product is linear, and the one by the tables, which is the same, adds logarithms. -/
theorem fieldLaws : Obligations.FieldLaws := by
  intro f a b c
  refine ⟨gfMul_comm f a b, gfMul_assoc f a b c, gfMul_xor_right f a b c, gfMul_one_left f a, fun h => ?_,
    gfMul_gfInv f, BitVec.xor_self, BitVec.xor_zero⟩
  by_contra hab
  obtain ⟨ha, hb⟩ := not_or.mp hab
  exact gfMul_ne_zero f ha hb h

end Sys2Proof.Machine
end

section
/-!
The scalar GF commands (40_gf.md R160 to R165): their numbered checks, and their results as field elements.
-/

namespace Sys2Proof.Machine

/-! ### Numbered checks -/

/-- A command whose next check fails completes with that check's failure. -/
theorem finish_of_check {s : State} {p : Prop} [Decidable p] {c : Code} {k : Nat} {r : Except Raise State} (h : p) :
    finish s (if p then raise c k else r) = .next (s.complete c k) := by rw [if_pos h, finish_raise]

/-- A command whose next check passes completes as the rest of its body says. -/
theorem finish_of_not_check {s : State} {p : Prop} [Decidable p] {c : Code} {k : Nat} {r : Except Raise State}
    (h : ¬p) : finish s (if p then raise c k else r) = finish s r := by rw [if_neg h]

/-! ### Operands and results as field elements -/

/-- The element of an operand is its low byte (40_gf.md R157). -/
theorem element_argU (s : State) (i : Fin 8) : element (s.argU i) = s.argByte i := BitVec.ofNat_toNat _ _

/-- An element is written to a result register with zeros above it. -/
theorem State.setResNat_toNat (s : State) (i : Fin 8) (a : Byte) :
    s.setResNat i a.toNat = s.setRes i (a.setWidth 32) := by
  rw [State.setResNat, BitVec.ofNat_toNat]

/-- An operand in 0..255 is its element, with zeros above it. -/
theorem setWidth_argByte {s : State} {i : Fin 8} (h : s.argU i ≤ 255) : (s.argByte i).setWidth 32 = s.arg[i] := by
  apply BitVec.eq_of_toNat_eq
  rw [State.argByte, BitVec.toNat_setWidth, BitVec.toNat_setWidth]
  rw [State.argU] at h
  omega

theorem argByte_ne_zero {s : State} {i : Fin 8} (hpos : 0 < s.argU i) (h : s.argU i ≤ 255) : s.argByte i ≠ 0 := by
  intro h0
  have hword := setWidth_argByte h
  rw [h0] at hword
  rw [State.argU, ← hword] at hpos
  exact absurd hpos (by decide)

/-! ### The commands -/

/-- Settles O13: GF_ADD by the operands' widths, GF_MUL by the product by the tables being the polynomial one. -/
theorem gfAddMulArePolynomial : Obligations.GfAddMulArePolynomial := by
  intro f s
  refine ⟨fun h0 => ⟨finish_of_check h0, finish_of_check h0⟩, fun h0 h1 => ⟨?_, ?_⟩, fun h0 h1 => ⟨?_, ?_⟩⟩
  · exact (finish_of_not_check h0.not_gt).trans (finish_of_check h1)
  · exact (finish_of_not_check h0.not_gt).trans (finish_of_check h1)
  · have hsum : (gfAdd (s.argByte 0) (s.argByte 1)).setWidth 32 = s.arg[0] ^^^ s.arg[1] := by
      rw [gfAdd, BitVec.setWidth_xor, setWidth_argByte h0, setWidth_argByte h1]
      rfl
    rw [← hsum, ← State.setResNat_toNat, ← element_argU, ← element_argU]
    exact (finish_of_not_check h0.not_gt).trans (finish_of_not_check h1.not_gt)
  · rw [← gfMul_eq_fieldProduct, ← State.setResNat_toNat, ← element_argU, ← element_argU]
    exact (finish_of_not_check h0.not_gt).trans (finish_of_not_check h1.not_gt)

/-- Settles O14: the results are the products with the inverse, which the product undoes. -/
theorem gfDivInvUndoProduct : Obligations.GfDivInvUndoProduct := by
  intro f s
  refine ⟨fun h0 => ⟨finish_of_check h0, finish_of_check h0⟩, fun h0 h1 => ?_, fun h0 h1 => ?_, fun h0 hpos h1 => ?_,
    fun h0 => ?_, fun hpos h0 => ?_⟩
  · exact (finish_of_not_check h0.not_gt).trans (finish_of_check h1)
  · have hle : ¬s.argU 1 > 255 := by omega
    exact (finish_of_not_check h0.not_gt).trans ((finish_of_not_check hle).trans (finish_of_check h1))
  · refine ⟨gfMul f (s.argByte 0) (gfInv f (s.argByte 1)), ?_, ?_⟩
    · rw [← gfMul_eq_fieldProduct, gfMul_assoc, gfMul_comm f (gfInv f _), gfMul_gfInv f (argByte_ne_zero hpos h1),
        gfMul_one_right]
    · rw [← State.setResNat_toNat, ← element_argU, ← element_argU]
      exact (finish_of_not_check h0.not_gt).trans
        ((finish_of_not_check h1.not_gt).trans (finish_of_not_check hpos.ne'))
  · have hle : ¬s.argU 0 > 255 := by omega
    exact (finish_of_not_check hle).trans (finish_of_check h0)
  · refine ⟨gfInv f (s.argByte 0), ?_, ?_⟩
    · rw [← gfMul_eq_fieldProduct, gfMul_comm, gfMul_gfInv f (argByte_ne_zero hpos h0)]
    · rw [← State.setResNat_toNat, ← element_argU]
      exact (finish_of_not_check h0.not_gt).trans (finish_of_not_check hpos.ne')

/-- Settles O15: the exp table holds the powers of 2, and an element is the power that its logarithm says. -/
theorem gfExpLogArePowers : Obligations.GfExpLogArePowers := by
  intro f s
  refine ⟨fun h0 => ⟨finish_of_check h0, finish_of_check h0⟩, fun h0 => ?_, fun h0 => ?_, fun hpos h0 => ?_⟩
  · rw [← gfExp_eq_fieldPower f h0, ← State.setResNat_toNat]
    exact finish_of_not_check h0.not_gt
  · have hle : ¬s.argU 0 > 255 := by omega
    exact (finish_of_not_check hle).trans (finish_of_check h0)
  · refine ⟨gfLog f (s.argByte 0), gfLog_le f _, fieldPower_gfLog f (argByte_ne_zero hpos h0), ?_⟩
    rw [← element_argU]
    exact (finish_of_not_check h0.not_gt).trans (finish_of_not_check hpos.ne')

end Sys2Proof.Machine
end

section
/-!
Polynomials by their coefficients: degrees and the zero polynomial (40_gf.md R171), the product as a convolution and the
value at a point (R174).
-/

namespace Sys2Proof.Machine

/-! ### Degrees -/

/-- A polynomial that is not zero has a nonzero leading coefficient (40_gf.md R171). -/
theorem polyLead_ne_zero {a : List Byte} (h : polyIsZero a = false) : polyLead a ≠ 0 := by
  induction a using List.reverseRecOn with
  | nil => exact absurd h (by decide)
  | append_singleton cs c ih =>
    have htrim := polyTrim_append_singleton cs c
    by_cases hc : c = 0
    · rw [if_pos hc] at htrim
      have hcoef : ∀ i, polyCoef (cs ++ [c]) i = polyCoef cs i := fun i => by
        rw [← polyCoef_trim, htrim, polyCoef_trim]
      rw [polyLead, hcoef, polyDeg, htrim]
      exact ih (by rwa [polyIsZero, htrim] at h)
    · rw [if_neg hc] at htrim
      rw [polyLead, polyDeg, htrim, polyCoef]
      simpa using hc

/-- No coefficient above the degree is nonzero (40_gf.md R171). -/
theorem le_polyDeg_of_ne_zero {a : List Byte} {i : Nat} (h : polyCoef a i ≠ 0) : i ≤ polyDeg a := by
  rw [← polyCoef_trim] at h
  by_contra hi
  rw [polyDeg] at hi
  exact h (List.getD_eq_default _ _ (by omega))

/-- A coefficient past a polynomial's length is 0. -/
theorem polyCoef_of_length_le {a : List Byte} {i : Nat} (h : a.length ≤ i) : polyCoef a i = 0 :=
  List.getD_eq_default _ _ h

theorem polyCoef_of_polyDeg_lt {a : List Byte} {i : Nat} (h : polyDeg a < i) : polyCoef a i = 0 := by
  by_contra hi
  exact h.not_ge (le_polyDeg_of_ne_zero hi)

theorem polyIsZero_eq_false_iff (a : List Byte) : polyIsZero a = false ↔ ∃ i, polyCoef a i ≠ 0 := by
  constructor
  · exact fun h => ⟨_, polyLead_ne_zero h⟩
  · rintro ⟨i, hi⟩
    rw [← Bool.not_eq_true, polyIsZero_iff]
    intro htrim
    rw [← polyCoef_trim, htrim] at hi
    exact hi rfl

/-! ### The product -/

theorem gfMul_xorSum (f : Field) (a : Byte) (n : Nat) (g : Nat → Byte) :
    gfMul f a (xorSum n g) = xorSum n fun i => gfMul f a (g i) := by
  induction n with
  | zero => exact gfMul_zero_right f a
  | succ n ih => rw [xorSum, gfMul_xor_right, ih, xorSum]

theorem Coefs.product_xor_left (f : Field) (a a' b : Coefs) (k : Nat) :
    Coefs.product f (fun i => a i ^^^ a' i) b k = Coefs.product f a b k ^^^ Coefs.product f a' b k := by
  rw [Coefs.product, Coefs.product, Coefs.product, ← xorSum_xor]
  exact xorSum_congr fun i _ => gfMul_xor_left f _ _ _

/-- The product with a monomial moves the coefficients up by its degree (40_gf.md R174). -/
theorem Coefs.product_monomial (f : Field) (d : Nat) (c : Byte) (b : Coefs) (k : Nat) :
    Coefs.product f (fun i => if i = d then c else 0) b k = if d ≤ k then gfMul f c (b (k - d)) else 0 := by
  have hterm : ∀ i < k + 1, gfMul f (if i = d then c else 0) (b (k - i)) =
      if i = d then gfMul f c (b (k - i)) else 0 := fun i _ => by split <;> simp only [gfMul_zero_left]
  rw [Coefs.product, xorSum_congr hterm, xorSum_single k.succ d fun i => gfMul f c (b (k - i))]
  simp only [Nat.lt_succ_iff]

/-- The coefficients of the product are the convolution sums (40_gf.md R174). -/
theorem polyCoef_mul (f : Field) (a b : List Byte) (k : Nat) :
    polyCoef (polyMul f a b) k = Coefs.product f (polyCoef a) (polyCoef b) k := by
  rw [polyMul, polyCoef_trim]
  induction a generalizing k with
  | nil => exact (xorSum_eq_zero fun i _ => gfMul_zero_left f _).symm
  | cons x a ih =>
    rw [polyMulRaw, polyCoef_addRaw, polyCoef_map _ (gfMul_zero_right f x), Coefs.product, xorSum_succ_left]
    congr 1
    cases k with
    | zero => rfl
    | succ k =>
      rw [polyCoef_cons_succ, ih]
      exact xorSum_congr fun i _ => by rw [polyCoef_cons_succ, Nat.succ_sub_succ]

/-! ### The value at a point -/

/-- The Horner form is the sum of the coefficients times the powers of the point (40_gf.md R174). -/
theorem polyEval_eq_xorSum (f : Field) (a : Byte) (cs : List Byte) {n : Nat} (hn : cs.length ≤ n) :
    polyEval f cs a = xorSum n fun i => gfMul f (polyCoef cs i) (gfPow f a i) := by
  induction cs generalizing n with
  | nil => exact (xorSum_eq_zero fun i _ => gfMul_zero_left f _).symm
  | cons c cs ih =>
    obtain ⟨m, rfl⟩ : ∃ m, n = m + 1 := ⟨n - 1, by rw [List.length_cons] at hn; omega⟩
    have hterm : ∀ i < m, gfMul f (polyCoef (c :: cs) (i + 1)) (gfPow f a (i + 1)) =
        gfMul f a (gfMul f (polyCoef cs i) (gfPow f a i)) := fun i _ => by
      rw [polyCoef_cons_succ, gfPow, ← gfMul_assoc, gfMul_comm f _ a, gfMul_assoc]
    rw [polyEval, ih (Nat.le_of_succ_le_succ hn), gfMul_xorSum, xorSum_succ_left, xorSum_congr hterm,
      polyCoef_cons_zero, gfPow, gfMul_one_right]
    exact BitVec.xor_comm _ _

/-! ### Registers -/

/-- A register's coefficient inside the register, as the statements name it. -/
theorem polyCoef_polyOf_eq_coef (s : State) (r : PReg) {i : Nat} (hi : i < 256) :
    polyCoef (s.polyOf r) i = s.coef r i := by rw [polyCoef_polyOf, if_pos hi, State.coef]

theorem polyCoef_polyOf_ne_zero {s : State} {r : PReg} {i : Nat} :
    polyCoef (s.polyOf r) i ≠ 0 ↔ i < 256 ∧ s.coef r i ≠ 0 := by
  rw [polyCoef_polyOf]
  split
  · next hi => simp only [hi, true_and, State.coef]
  · next hi => simp only [hi, false_and, ne_eq, not_true]

theorem polyDeg_polyOf_le (s : State) (r : PReg) : polyDeg (s.polyOf r) ≤ 255 := by
  have h := length_trim_le (s.polyOf r)
  have h' := length_polyOf_le s r
  rw [polyDeg]
  omega

/-- A register that is not zero has a nonzero coefficient at its degree. -/
theorem coef_polyDeg_ne_zero {s : State} {r : PReg} (h : polyIsZero (s.polyOf r) = false) :
    s.coef r (polyDeg (s.polyOf r)) ≠ 0 := (polyCoef_polyOf_ne_zero.mp (polyLead_ne_zero h)).2

theorem le_polyDeg_polyOf {s : State} {r : PReg} {i : Nat} (hi : i < 256) (h : s.coef r i ≠ 0) :
    i ≤ polyDeg (s.polyOf r) := le_polyDeg_of_ne_zero (polyCoef_polyOf_ne_zero.mpr ⟨hi, h⟩)

theorem polyIsZero_polyOf_eq_false_iff (s : State) (r : PReg) :
    polyIsZero (s.polyOf r) = false ↔ ∃ i < 256, s.coef r i ≠ 0 := by
  rw [polyIsZero_eq_false_iff]
  exact exists_congr fun i => polyCoef_polyOf_ne_zero

end Sys2Proof.Machine
end

section
/-!
The POLY commands but P_DIV (40_gf.md R172 to R179, R181): their numbered checks, and their results coefficient by
coefficient.
-/

namespace Sys2Proof.Machine

/-! ### Checks and writes that the commands share -/

/-- The two tag checks of a command with two sources pass (40_gf.md R172). -/
theorem finish_of_tags {s : State} {f : Field} {pa pb : PReg} {r : Except Raise State} (ha : s.tag pa = f)
    (hb : s.tag pb = f) :
    finish s (if s.tag pa ≠ f then raise .illegalArgument 1 else if s.tag pb ≠ f then raise .illegalArgument 2 else r) =
      finish s r := (finish_of_not_check (not_not_intro ha)).trans (finish_of_not_check (not_not_intro hb))

/-- What a memory written with a polynomial holds (40_gf.md R173). -/
theorem byte_ofBytes_eq_polyCoef (a : List Byte) (k : Nat) : (Memory.ofBytes a).byte k = polyCoef a k :=
  Memory.byte_ofBytes a k

/-- Coefficients 0 to 255 of a polynomial that fits a register are all there is of it. -/
theorem polyCoef_eq_ite {a : List Byte} (h : a.length ≤ 256) (k : Nat) :
    polyCoef a k = if k < 256 then polyCoef a k else 0 := by
  split
  · rfl
  · next hk => exact polyCoef_of_length_le (h.trans (Nat.le_of_not_lt hk))

/-- Check 3 of P_MUL: two nonzero coefficients meet above degree 255 (40_gf.md R177). -/
theorem degree_sum_above_iff (s : State) (pa pb : PReg) :
    (polyIsZero (s.polyOf pa) = false ∧ polyIsZero (s.polyOf pb) = false ∧
        polyDeg (s.polyOf pa) + polyDeg (s.polyOf pb) > Config.polyMaxDeg) ↔
      ∃ i j, i < 256 ∧ j < 256 ∧ s.coef pa i ≠ 0 ∧ s.coef pb j ≠ 0 ∧ 255 < i + j := by
  constructor
  · rintro ⟨hza, hzb, hdeg⟩
    exact ⟨_, _, Nat.lt_succ_of_le (polyDeg_polyOf_le s pa), Nat.lt_succ_of_le (polyDeg_polyOf_le s pb),
      coef_polyDeg_ne_zero hza, coef_polyDeg_ne_zero hzb, hdeg⟩
  · rintro ⟨i, j, hi, hj, hai, hbj, hij⟩
    have hia := le_polyDeg_polyOf hi hai
    have hjb := le_polyDeg_polyOf hj hbj
    exact ⟨(polyIsZero_polyOf_eq_false_iff s pa).mpr ⟨i, hi, hai⟩,
      (polyIsZero_polyOf_eq_false_iff s pb).mpr ⟨j, hj, hbj⟩, hij.trans_le (Nat.add_le_add hia hjb)⟩

/-- Check 5 of P_MULMONO: a nonzero coefficient is moved above degree 255 (40_gf.md R179). -/
theorem degree_shift_above_iff (s : State) (pa : PReg) (d c : Nat) :
    (c ≠ 0 ∧ polyIsZero (s.polyOf pa) = false ∧ polyDeg (s.polyOf pa) + d > Config.polyMaxDeg) ↔
      c ≠ 0 ∧ ∃ i, i < 256 ∧ s.coef pa i ≠ 0 ∧ 255 < i + d := by
  refine and_congr_right fun _ => ⟨?_, ?_⟩
  · rintro ⟨hz, hdeg⟩
    exact ⟨_, Nat.lt_succ_of_le (polyDeg_polyOf_le s pa), coef_polyDeg_ne_zero hz, hdeg⟩
  · rintro ⟨i, hi, hai, hid⟩
    exact ⟨(polyIsZero_polyOf_eq_false_iff s pa).mpr ⟨i, hi, hai⟩,
      hid.trans_le (Nat.add_le_add_right (le_polyDeg_polyOf hi hai) d)⟩

/-! ### The commands -/

/-- Settles O17: the coefficients of the monomial. -/
theorem pMonoBuildsMonomial : Obligations.PMonoBuildsMonomial := by
  intro f pd s
  refine ⟨fun h1 => finish_of_check h1, fun h1 hneg => ?_, fun h1 hbig => ?_, fun h1 hpos hle =>
    ⟨Memory.ofBytes (polyMono (s.argU 0) (s.argByte 1)), fun k => ?_, ?_⟩⟩
  · exact (finish_of_not_check h1.not_gt).trans (finish_of_check hneg)
  · have hpos : ¬s.argS 0 < 0 := by omega
    exact (finish_of_not_check h1.not_gt).trans ((finish_of_not_check hpos).trans (finish_of_check hbig))
  · rw [byte_ofBytes_eq_polyCoef, polyCoef_mono]
  · rw [← element_argU]
    exact (finish_of_not_check h1.not_gt).trans
      ((finish_of_not_check hpos.not_gt).trans (finish_of_not_check hle.not_gt))

/-- Settles O18: the coefficients of the sum of two registers. -/
theorem pAddAddsCoefficients : Obligations.PAddAddsCoefficients := by
  intro f pb pa pd s
  refine ⟨fun ha => finish_of_check ha, fun ha hb => ?_, fun ha hb =>
    ⟨Memory.ofBytes (polyAdd (s.polyOf pa) (s.polyOf pb)), fun k => ?_, finish_of_tags ha hb⟩⟩
  · exact (finish_of_not_check (not_not_intro ha)).trans (finish_of_check hb)
  · have hlen := (length_add_le _ _).trans (max_le (length_polyOf_le s pa) (length_polyOf_le s pb))
    rw [byte_ofBytes_eq_polyCoef, polyCoef_eq_ite hlen]
    refine ite_congr rfl (fun hk => ?_) fun _ => rfl
    rw [polyCoef_add, polyCoef_polyOf_eq_coef s pa hk, polyCoef_polyOf_eq_coef s pb hk]

/-- Settles O19: check 3 looks at the degrees, and the product of two registers is the convolution. -/
theorem pMulConvolves : Obligations.PMulConvolves := by
  intro f pb pa pd s
  refine ⟨fun ha => finish_of_check ha, fun ha hb => ?_, fun ha hb hmeet => ?_, fun ha hb hfit => ?_⟩
  · exact (finish_of_not_check (not_not_intro ha)).trans (finish_of_check hb)
  · exact (finish_of_tags ha hb).trans (finish_of_check ((degree_sum_above_iff s pa pb).mpr hmeet))
  · have hcheck := mt (degree_sum_above_iff s pa pb).mp fun ⟨i, j, hi, hj, hai, hbj, hij⟩ =>
      hij.not_ge (hfit i j hi hj hai hbj)
    refine ⟨Memory.ofBytes (polyMul f (s.polyOf pa) (s.polyOf pb)), fun k => ?_,
      (finish_of_tags ha hb).trans (finish_of_not_check hcheck)⟩
    rw [byte_ofBytes_eq_polyCoef, polyCoef_eq_ite (length_mul_polyOf_le f hcheck)]
    refine ite_congr rfl (fun hk => ?_) fun _ => rfl
    rw [polyCoef_mul]
    exact xorSum_congr fun j hj => by
      rw [polyCoef_polyOf_eq_coef s pa (by omega), polyCoef_polyOf_eq_coef s pb (by omega)]

theorem byte_scale_polyOf (f : Field) (s : State) (pa : PReg) (c : Byte) (k : Nat) :
    (Memory.ofBytes (polyScale f (s.polyOf pa) c)).byte k = if k < 256 then gfMul f (s.coef pa k) c else 0 := by
  rw [byte_ofBytes_eq_polyCoef, polyCoef_eq_ite ((length_scale_le f _ _).trans (length_polyOf_le s pa))]
  refine ite_congr rfl (fun hk => ?_) fun _ => rfl
  rw [polyCoef_scale, polyCoef_polyOf_eq_coef s pa hk]

theorem byte_mulmono_polyOf (f : Field) (s : State) (pa : PReg) (d : Nat) (c : Byte) (k : Nat)
    (hlen : (polyMulmono f (s.polyOf pa) d c).length ≤ 256) :
    (Memory.ofBytes (polyMulmono f (s.polyOf pa) d c)).byte k =
      if k < 256 ∧ d ≤ k then gfMul f (s.coef pa (k - d)) c else 0 := by
  rw [byte_ofBytes_eq_polyCoef, polyCoef_eq_ite hlen, ite_and]
  refine ite_congr rfl (fun hk => ?_) fun _ => rfl
  rw [polyCoef_mulmono, polyCoef_polyOf_eq_coef s pa (by omega)]

/-- Settles O20: check 5 looks at the degree, and both results are the register's coefficients times the scalar. -/
theorem pScaleMulmonoShift : Obligations.PScaleMulmonoShift := by
  intro f pa pd s
  refine ⟨fun ha => finish_of_check ha, fun ha h0 => ?_, fun ha h0 =>
    ⟨_, byte_scale_polyOf f s pa (s.argByte 0), ?_⟩, fun ha => finish_of_check ha, fun ha h1 => ?_,
    fun ha h1 hneg => ?_, fun ha h1 hbig => ?_, fun ha h1 hpos hle habove => ?_, fun ha h1 hpos hle hfit => ?_⟩
  · exact (finish_of_not_check (not_not_intro ha)).trans (finish_of_check h0)
  · rw [← element_argU]
    exact (finish_of_not_check (not_not_intro ha)).trans (finish_of_not_check h0.not_gt)
  · exact (finish_of_not_check (not_not_intro ha)).trans (finish_of_check h1)
  · exact (finish_of_not_check (not_not_intro ha)).trans
      ((finish_of_not_check h1.not_gt).trans (finish_of_check hneg))
  · have hpos : ¬s.argS 0 < 0 := by omega
    exact (finish_of_not_check (not_not_intro ha)).trans
      ((finish_of_not_check h1.not_gt).trans ((finish_of_not_check hpos).trans (finish_of_check hbig)))
  · exact (finish_of_not_check (not_not_intro ha)).trans
      ((finish_of_not_check h1.not_gt).trans ((finish_of_not_check hpos.not_gt).trans
        ((finish_of_not_check hle.not_gt).trans
          (finish_of_check ((degree_shift_above_iff s pa _ _).mpr habove)))))
  · have hcheck := mt (degree_shift_above_iff s pa (s.argU 0) (s.argU 1)).mp fun ⟨hc, i, hi, hai, hid⟩ =>
      hfit.elim hc fun hfit => hid.not_ge (hfit i hi hai)
    have hlen := length_mulmono_polyOf_le f (by have := State.argS_of_nonneg hpos; omega) hcheck
    rw [element_argU] at hlen
    refine ⟨_, fun k => byte_mulmono_polyOf f s pa _ _ k hlen, ?_⟩
    rw [← element_argU]
    exact (finish_of_not_check (not_not_intro ha)).trans
      ((finish_of_not_check h1.not_gt).trans ((finish_of_not_check hpos.not_gt).trans
        ((finish_of_not_check hle.not_gt).trans (finish_of_not_check hcheck))))

/-- Settles O22: the Horner form of a register is the sum of its coefficients times the powers. -/
theorem pEvalSumsPowers : Obligations.PEvalSumsPowers := by
  intro f pa s
  refine ⟨fun ha => finish_of_check ha, fun ha h0 => ?_, fun ha h0 => ?_⟩
  · exact (finish_of_not_check (not_not_intro ha)).trans (finish_of_check h0)
  · have hterm : ∀ i < 256, gfMul f (s.coef pa i) (gfPow f (s.argByte 0) i) =
        gfMul f (polyCoef (s.polyOf pa) i) (gfPow f (s.argByte 0) i) := fun i hi => by
      rw [polyCoef_polyOf_eq_coef s pa hi]
    rw [xorSum_congr hterm, ← polyEval_eq_xorSum f _ _ (length_polyOf_le s pa), ← State.setResNat_toNat, ← element_argU]
    exact (finish_of_not_check (not_not_intro ha)).trans (finish_of_not_check h0.not_gt)

end Sys2Proof.Machine
end

section
/-!
P_DIV (40_gf.md R180): each pass of the division loop keeps the dividend as quotient times divisor plus remainder, and
drops the leading term of the remainder (R174).
-/

namespace Sys2Proof.Machine

/-- The factor of a pass turns the divisor's leading coefficient into the remainder's. -/
theorem gfMul_gfMul_gfInv (f : Field) (x : Byte) {y : Byte} (hy : y ≠ 0) : gfMul f y (gfMul f x (gfInv f y)) = x := by
  rw [gfMul_comm f x, ← gfMul_assoc, gfMul_gfInv f hy, gfMul_one_left]

/-- A pass clears the remainder's coefficients from its degree up. -/
theorem polyCoef_pass_of_polyDeg_le (f : Field) {b r : List Byte} (hb : polyIsZero b = false)
    (hdeg : polyDeg b ≤ polyDeg r) {i : Nat} (hi : polyDeg r ≤ i) :
    polyCoef (polyAdd r (polyMulmono f b (polyDeg r - polyDeg b) (gfMul f (polyLead r) (gfInv f (polyLead b))))) i =
      0 := by
  rw [polyCoef_add, polyCoef_mulmono, if_pos (by omega)]
  rcases hi.eq_or_lt with rfl | hlt
  · rw [Nat.sub_sub_self hdeg]
    change polyLead r ^^^ gfMul f (polyLead b) _ = 0
    rw [gfMul_gfMul_gfInv f _ (polyLead_ne_zero hb)]
    exact BitVec.xor_self
  · rw [polyCoef_of_polyDeg_lt hlt, polyCoef_of_polyDeg_lt (i := i - _) (by omega), gfMul_zero_left]
    rfl

/-- A polynomial is a quotient times the divisor plus a remainder, and no coefficient of the quotient meets the
divisor's leading one at `n` or above. -/
structure IsDivision (f : Field) (a b : List Byte) (n : Nat) (q r : List Byte) : Prop where
  dividend : ∀ k, polyCoef a k = Coefs.product f (polyCoef q) (polyCoef b) k ^^^ polyCoef r k
  quotient : ∀ i, polyCoef q i ≠ 0 → i + polyDeg b < n

theorem isDivision_nil (f : Field) (a b : List Byte) (n : Nat) : IsDivision f a b n [] (polyTrim a) where
  dividend k := by
    have hzero : Coefs.product f (polyCoef []) (polyCoef b) k = 0 := xorSum_eq_zero fun i _ => gfMul_zero_left f _
    rw [polyCoef_trim, hzero]
    exact BitVec.zero_xor.symm
  quotient i hi := absurd (polyCoef_nil i) hi

/-- Adding a monomial to the quotient and its multiple of the divisor to the remainder keeps the dividend. -/
theorem IsDivision.add_monomial {f : Field} {a b q r : List Byte} {n : Nat} (h : IsDivision f a b n q r) {d : Nat}
    (hd : d + polyDeg b < n) (c : Byte) :
    IsDivision f a b n (polyAdd q (polyMono d c)) (polyAdd r (polyMulmono f b d c)) where
  dividend k := by
    have hquot : polyCoef (polyAdd q (polyMono d c)) = fun i => polyCoef q i ^^^ if i = d then c else 0 := by
      funext i
      rw [polyCoef_add, polyCoef_mono]
    rw [hquot, Coefs.product_xor_left, Coefs.product_monomial, polyCoef_add, polyCoef_mulmono, gfMul_comm f c,
      h.dividend k]
    generalize (if d ≤ k then gfMul f (polyCoef b (k - d)) c else 0) = t
    calc Coefs.product f (polyCoef q) (polyCoef b) k ^^^ polyCoef r k
      _ = Coefs.product f (polyCoef q) (polyCoef b) k ^^^ polyCoef r k ^^^ (t ^^^ t) := by
        rw [BitVec.xor_self, BitVec.xor_zero]
      _ = _ := by ac_rfl
  quotient i hi := by
    by_cases hid : i = d
    · exact hid ▸ hd
    · refine h.quotient i fun hq => hi ?_
      rw [polyCoef_add, polyCoef_mono, hq, if_neg hid]
      rfl

/-- The loop ends with a division whose remainder is zero or of lower degree than the divisor, where the remainder it
starts from has no more coefficients than there are passes (40_gf.md R174). -/
theorem polyDivLoop_isDivision {f : Field} {a b : List Byte} (hb : polyIsZero b = false) {n : Nat} (fuel : Nat)
    (hfuel : fuel ≤ n) (q r : List Byte) (h : IsDivision f a b n q r) (hr : ∀ i, fuel ≤ i → polyCoef r i = 0) :
    IsDivision f a b n (polyDivLoop f b (gfInv f (polyLead b)) fuel q r).1
        (polyDivLoop f b (gfInv f (polyLead b)) fuel q r).2 ∧
      ∀ i, polyCoef (polyDivLoop f b (gfInv f (polyLead b)) fuel q r).2 i ≠ 0 → i < polyDeg b := by
  induction fuel generalizing q r with
  | zero => exact ⟨h, fun i hi => absurd (hr i (Nat.zero_le i)) hi⟩
  | succ fuel ih =>
    rw [polyDivLoop]
    split
    · next hgo =>
      obtain ⟨hdeg, hzero⟩ := hgo
      have hlt : polyDeg r < fuel + 1 := by
        by_contra hge
        exact polyLead_ne_zero hzero (hr _ (Nat.le_of_not_lt hge))
      exact ih (by omega) _ _ (h.add_monomial (by omega) _) fun i hi =>
        polyCoef_pass_of_polyDeg_le f hb hdeg (by omega)
    · next hstop =>
      refine ⟨h, fun i (hi : polyCoef r i ≠ 0) => ?_⟩
      have hle := le_polyDeg_of_ne_zero hi
      have hzero := (polyIsZero_eq_false_iff r).mpr ⟨i, hi⟩
      by_contra hge
      exact hstop ⟨by omega, hzero⟩

theorem polyDivmod_isDivision (f : Field) (a : List Byte) {b : List Byte} (hb : polyIsZero b = false) :
    IsDivision f a b a.length (polyDivmod f a b).1 (polyDivmod f a b).2 ∧
      ∀ i, polyCoef (polyDivmod f a b).2 i ≠ 0 → i < polyDeg b :=
  polyDivLoop_isDivision hb a.length (Nat.le_refl _) _ _ (isDivision_nil f a b _) fun _ hi =>
    polyCoef_of_length_le ((length_trim_le a).trans hi)

/-- Settles O21: the results of the division loop on two registers. -/
theorem pDivDivides : Obligations.PDivDivides := by
  intro f pe pb pa pd s
  refine ⟨fun ha => finish_of_check ha, fun ha hb => ?_, fun ha hb hall => ?_, fun ha hb hsome => ?_⟩
  · exact (finish_of_not_check (not_not_intro ha)).trans (finish_of_check hb)
  · have hzero : polyIsZero (s.polyOf pb) = true := by
      rw [← Bool.not_eq_false, polyIsZero_polyOf_eq_false_iff]
      exact fun ⟨i, hi, hne⟩ => hne (hall i hi)
    exact (finish_of_tags ha hb).trans (finish_of_check hzero)
  · have hzero := (polyIsZero_polyOf_eq_false_iff s pb).mpr hsome
    have hlen := length_polyOf_le s pa
    obtain ⟨⟨hdividend, hquotient⟩, hrem⟩ := polyDivmod_isDivision f (s.polyOf pa) hzero
    refine ⟨Memory.ofBytes (polyDivmod f (s.polyOf pa) (s.polyOf pb)).1,
      Memory.ofBytes (polyDivmod f (s.polyOf pa) (s.polyOf pb)).2, fun k hk => ?_, fun i j _ hj hq hbj => ?_,
      fun i hr => ?_, fun i hi => ?_,
      (finish_of_tags ha hb).trans (finish_of_not_check (Bool.eq_false_iff.mp hzero))⟩
    · rw [← polyCoef_polyOf_eq_coef s pa hk, hdividend, byte_ofBytes_eq_polyCoef]
      refine congrArg (· ^^^ _) (xorSum_congr fun j hj => ?_)
      rw [byte_ofBytes_eq_polyCoef, polyCoef_polyOf_eq_coef s pb (by omega)]
    · rw [byte_ofBytes_eq_polyCoef] at hq
      have hdegq := hquotient i hq
      have hdegb := le_polyDeg_polyOf hj hbj
      omega
    · rw [byte_ofBytes_eq_polyCoef] at hr
      exact ⟨_, hrem i hr, Nat.lt_succ_of_le (polyDeg_polyOf_le s pb), coef_polyDeg_ne_zero hzero⟩
    · rw [byte_ofBytes_eq_polyCoef]
      by_contra hq
      have hdegq := hquotient i hq
      omega

end Sys2Proof.Machine
end

section
/-!
Syndromes (41_rs.md R200, R204): the engine's are those of the statements, they are all 0 exactly on a codeword, and
what RS_SYNDROME makes of them (R205).
-/

namespace Sys2Proof.Machine

theorem gfPow_eq_fieldPower (f : Field) (a : Byte) (n : Nat) : gfPow f a n = fieldPower f a n := by
  induction n with
  | zero => rfl
  | succ n ih => rw [gfPow, fieldPower, ih, gfMul_eq_fieldProduct]

/-- The exp table holds the powers of the generating element (40_gf.md R151). -/
theorem gfExp_eq_gfPow (f : Field) {i : Nat} (hi : i ≤ 255) : gfExp f i = gfPow f 2 i := by
  rw [gfExp_eq_fieldPower f hi, gfPow_eq_fieldPower]

theorem genBase_le_one (f : Field) : genBase f ≤ 1 := by cases f <;> decide

theorem xorSum_reverse (n : Nat) (g : Nat → Byte) : xorSum n (fun i => g (n - 1 - i)) = xorSum n g := by
  induction n with
  | zero => rfl
  | succ n ih =>
    rw [xorSum_succ_left, xorSum, ← ih, BitVec.xor_comm]
    refine congrArg₂ _ (xorSum_congr fun i hi => congrArg g ?_) rfl
    omega

/-- The first byte of a word is the coefficient of the highest degree (41_rs.md R200). -/
theorem polyCoef_wordPoly (bs : List Byte) {i : Nat} (hi : i < bs.length) :
    polyCoef (wordPoly bs) i = bs.getD (bs.length - 1 - i) 0 := by
  rw [wordPoly, polyCoef_trim, polyCoef, List.getD_eq_getElem _ _ (by simpa using hi),
    List.getD_eq_getElem _ _ (by omega), List.getElem_reverse]

theorem length_wordPoly_le (bs : List Byte) : (wordPoly bs).length ≤ bs.length :=
  (length_trim_le _).trans (List.length_reverse ..).le

/-- The value of a word at the point of a syndrome is that syndrome of any memory that holds the word. -/
theorem polyEval_wordPoly (f : Field) {bs : List Byte} {v : Memory} (hv : ∀ j < bs.length, bs.getD j 0 = v.byte j)
    {i : Nat} (hi : i + genBase f ≤ 255) :
    polyEval f (wordPoly bs) (gfExp f (i + genBase f)) = codeSyndrome f bs.length v i := by
  rw [polyEval_eq_xorSum f _ _ (length_wordPoly_le bs), ← xorSum_reverse, codeSyndrome]
  refine xorSum_congr fun j hj => ?_
  rw [polyCoef_wordPoly bs (by omega), hv _ (by omega), gfExp_eq_gfPow f hi, Nat.sub_sub_self (by omega)]

theorem syndromes_eq_map (f : Field) {twoS : Nat} (htwo : twoS ≤ 255) {bs : List Byte} {v : Memory}
    (hv : ∀ j < bs.length, bs.getD j 0 = v.byte j) :
    syndromes f twoS bs = (List.range twoS).map (codeSyndrome f bs.length v) := by
  have hbase := genBase_le_one f
  exact List.map_congr_left fun i hi => polyEval_wordPoly f hv (by have := List.mem_range.mp hi; omega)

theorem syndromes_bytes (f : Field) {twoS : Nat} (htwo : twoS ≤ 255) (n : Nat) (cw : Memory) :
    syndromes f twoS (cw.bytes n) = (List.range twoS).map (codeSyndrome f n cw) := by
  have h := syndromes_eq_map f htwo (bs := cw.bytes n) (v := cw) fun j hj =>
    cw.getD_bytes n j (by rwa [Memory.length_bytes] at hj)
  rwa [Memory.length_bytes] at h

theorem polyCoef_map_range (g : Nat → Byte) (n k : Nat) :
    polyCoef ((List.range n).map g) k = if k < n then g k else 0 := by
  unfold polyCoef
  split
  · next hk => simp [hk]
  · next hk => exact List.getD_eq_default _ _ (by simpa using hk)

/-- The degree is that of any list with the same coefficients. -/
theorem polyDeg_congr {a b : List Byte} (h : ∀ i, polyCoef a i = polyCoef b i) : polyDeg a = polyDeg b := by
  have hle : ∀ {a b : List Byte}, (∀ i, polyCoef a i = polyCoef b i) → polyDeg a ≤ polyDeg b := fun {a b} h => by
    by_cases hz : polyIsZero a = true
    · rw [polyDeg, (polyIsZero_iff a).mp hz]
      exact Nat.zero_le _
    · exact le_polyDeg_of_ne_zero (h _ ▸ polyLead_ne_zero (Bool.eq_false_iff.mpr hz))
  exact (hle h).antisymm (hle fun i => (h i).symm)

/-- The degree of the statements is the engine's (40_gf.md R171). -/
theorem degree_eq_polyDeg {c : Coefs} (hc : c.Short) {a : List Byte} (ha : ∀ i, polyCoef a i = c i) :
    c.degree = polyDeg a := by
  rw [Coefs.degree, ← polyDeg_map_range]
  refine polyDeg_congr fun i => ?_
  rw [polyCoef_map_range, ha]
  split
  · rfl
  · next hi => exact (hc i (Nat.le_of_not_lt hi)).symm

theorem polyCoef_syndromes (f : Field) {twoS : Nat} (htwo : twoS ≤ 255) (n : Nat) (cw : Memory) (k : Nat) :
    polyCoef (syndromes f twoS (cw.bytes n)) k = syndromeCoefs f n twoS cw k := by
  rw [syndromes_bytes f htwo, polyCoef_map_range, syndromeCoefs]

/-- The syndromes are all 0 exactly on a codeword (41_rs.md R204). -/
theorem allZero_map_codeSyndrome_iff (f : Field) (n twoS : Nat) (v : Memory) :
    allZero ((List.range twoS).map (codeSyndrome f n v)) = true ↔ IsCodeword f n twoS v := by
  simp [allZero, IsCodeword]

theorem allZero_syndromes_iff (f : Field) {twoS : Nat} (htwo : twoS ≤ 255) (n : Nat) (cw : Memory) :
    allZero (syndromes f twoS (cw.bytes n)) = true ↔ IsCodeword f n twoS cw := by
  rw [syndromes_bytes f htwo, allZero_map_codeSyndrome_iff]

/-- Whether a word is a codeword depends on its own bytes alone (41_rs.md R200). -/
theorem codeSyndrome_congr (f : Field) {n : Nat} {v w : Memory} (h : ∀ j < n, v.byte j = w.byte j) (i : Nat) :
    codeSyndrome f n v i = codeSyndrome f n w i := xorSum_congr fun j hj => by rw [h j hj]

theorem IsCodeword.congr {f : Field} {n twoS : Nat} {v w : Memory} (hv : IsCodeword f n twoS v)
    (h : ∀ j < n, v.byte j = w.byte j) : IsCodeword f n twoS w := fun i hi =>
  (codeSyndrome_congr f h i).symm.trans (hv i hi)

/-! ### The command -/

/-- A codeword length in 1 to 255 passes check 1 (41_rs.md R203, R205, R206). -/
theorem not_codeword_check {n : Nat} (h1 : 1 ≤ n) (hn : n ≤ 255) : ¬(n < 1 ∨ n > Config.cwMax) := fun h =>
  h.elim h1.not_gt hn.not_gt

/-- The two length checks of RS_SYNDROME and RS_DECODE pass (41_rs.md R205, R206). -/
theorem finish_of_lengths {s : State} {r : Except Raise State} (h1 : 1 ≤ s.argU 0) (hn : s.argU 0 ≤ 255)
    (htwo : s.argU 1 ≤ s.argU 0) :
    finish s (if s.argU 0 < 1 ∨ s.argU 0 > Config.cwMax then raise .illegalArgument 1
      else if s.argU 1 > s.argU 0 then raise .illegalArgument 2 else r) = finish s r :=
  (finish_of_not_check (not_codeword_check h1 hn)).trans (finish_of_not_check htwo.not_gt)

/-- Settles O24: the engine's syndromes are those of the word. -/
theorem rsSyndromeComputes : Obligations.RsSyndromeComputes := by
  intro f s
  refine ⟨fun hn => finish_of_check hn, fun h1 hn htwo => ?_, fun h1 hn htwo => ?_⟩
  · exact (finish_of_not_check (not_codeword_check h1 hn)).trans (finish_of_check htwo)
  · have hzero := allZero_syndromes_iff f (htwo.trans hn) (s.argU 0) s.cw
    refine ⟨_, _, fun k => ?_, fun hcode => ?_, fun hcode => ?_, finish_of_lengths h1 hn htwo⟩
    · rw [byte_ofBytes_eq_polyCoef, polyCoef_syndromes f (htwo.trans hn), syndromeCoefs]
    · rw [hzero.mpr hcode]
      rfl
    · rw [Bool.eq_false_iff.mpr (mt hzero.mp hcode)]
      rfl

end Sys2Proof.Machine
end

section
/-!
The theory of Reed-Solomon decoding over any field, apart from the engine: error locator and evaluator, their key
equation with the syndromes, and that the Euclidean algorithm finds both up to a constant (41_rs.md R207, R209, R213).
-/

namespace ReedSolomon

open Polynomial

variable {K : Type} [Field K]

/-! ### Locator and evaluator -/

/-- The polynomial whose roots are the inverses of the locations `x i`, with constant term 1. -/
noncomputable def locator (s : Finset ℕ) (x : ℕ → K) : K[X] := ∏ i ∈ s, (1 - C (x i) * X)

/-- The polynomial that holds the error values `z i` at the roots of the locator. -/
noncomputable def evaluator (s : Finset ℕ) (x z : ℕ → K) : K[X] := ∑ i ∈ s, C (z i) * locator (s.erase i) x

/-- The first `n` power sums of the locations, weighted by the error values, as a polynomial. -/
noncomputable def syndromePoly (s : Finset ℕ) (x z : ℕ → K) (n : ℕ) : K[X] :=
  ∑ k ∈ Finset.range n, C (∑ i ∈ s, z i * x i ^ k) * X ^ k

variable (s : Finset ℕ) (x z : ℕ → K)

theorem eval_locator (a : K) : (locator s x).eval a = ∏ i ∈ s, (1 - x i * a) := by
  simp [locator, eval_prod]

theorem coeff_zero_locator : (locator s x).coeff 0 = 1 := by
  rw [coeff_zero_eq_eval_zero, eval_locator]
  simp

theorem locator_ne_zero : locator s x ≠ 0 := fun h => by
  have h1 := coeff_zero_locator s x
  rw [h, coeff_zero] at h1
  exact zero_ne_one h1

theorem natDegree_locator_le : (locator s x).natDegree ≤ s.card := by
  refine (natDegree_prod_le _ _).trans ((Finset.sum_le_card_nsmul s _ 1 fun i _ => ?_).trans (by simp))
  compute_degree

theorem locator_eq_mul_erase {i : ℕ} (hi : i ∈ s) : locator s x = (1 - C (x i) * X) * locator (s.erase i) x :=
  (Finset.mul_prod_erase s _ hi).symm

theorem natDegree_locator (hx : ∀ i ∈ s, x i ≠ 0) : (locator s x).natDegree = s.card := by
  have hlin : ∀ i ∈ s, (1 - C (x i) * X : K[X]).natDegree = 1 := fun i hi => by
    have hne := hx i hi
    compute_degree!
  have hne : ∀ i ∈ s, (1 - C (x i) * X : K[X]) ≠ 0 := fun i hi h0 => by
    have h1 := hlin i hi
    rw [h0, natDegree_zero] at h1
    exact zero_ne_one h1
  rw [locator, natDegree_prod s _ hne, Finset.sum_congr rfl hlin]
  simp

theorem natDegree_evaluator_lt (hs : s.Nonempty) : (evaluator s x z).natDegree < s.card := by
  refine Nat.lt_of_le_pred hs.card_pos (natDegree_sum_le_of_forall_le s _ fun i hi => ?_)
  rw [← Nat.sub_one, ← Finset.card_erase_of_mem hi]
  exact (natDegree_C_mul_le _ _).trans (natDegree_locator_le _ x)

/-- At the root of a location, all terms of the evaluator but its own vanish. -/
theorem eval_evaluator {i : ℕ} (hi : i ∈ s) (hxi : x i ≠ 0) :
    (evaluator s x z).eval (x i)⁻¹ = z i * ∏ j ∈ s.erase i, (1 - x j * (x i)⁻¹) := by
  rw [evaluator, eval_finsetSum, Finset.sum_eq_single_of_mem i hi]
  · rw [eval_mul, eval_C, eval_locator]
  · intro j hj hji
    rw [eval_mul, eval_locator, Finset.prod_eq_zero (Finset.mem_erase.mpr ⟨hji.symm, hi⟩), mul_zero]
    rw [mul_inv_cancel₀ hxi, sub_self]

theorem eval_evaluator_ne_zero (hx : ∀ i ∈ s, x i ≠ 0) (hinj : Set.InjOn x s) (hz : ∀ i ∈ s, z i ≠ 0) {i : ℕ}
    (hi : i ∈ s) : (evaluator s x z).eval (x i)⁻¹ ≠ 0 := by
  rw [eval_evaluator s x z hi (hx i hi)]
  refine mul_ne_zero (hz i hi) (Finset.prod_ne_zero_iff.mpr fun j hj h => ?_)
  obtain ⟨hji, hj⟩ := Finset.mem_erase.mp hj
  have hratio : x j * (x i)⁻¹ = 1 := (sub_eq_zero.mp h).symm
  exact hji (hinj hj hi ((mul_inv_eq_one₀ (hx i hi)).mp hratio))

theorem isCoprime_locator_evaluator (hx : ∀ i ∈ s, x i ≠ 0) (hinj : Set.InjOn x s) (hz : ∀ i ∈ s, z i ≠ 0) :
    IsCoprime (locator s x) (evaluator s x z) := by
  refine IsCoprime.prod_left fun i hi => ?_
  have hlin : (1 - C (x i) * X : K[X]).degree = 1 := by
    have hne := hx i hi
    compute_degree!
  refine (irreducible_of_degree_eq_one hlin).coprime_iff_not_dvd.mpr fun hdvd => ?_
  refine eval_evaluator_ne_zero s x z hx hinj hz hi (eval_eq_zero_of_dvd_of_eval_eq_zero hdvd ?_)
  simp [mul_inv_cancel₀ (hx i hi)]

/-! ### The key equation -/

theorem syndromePoly_eq_sum_geom (n : ℕ) :
    syndromePoly s x z n = ∑ i ∈ s, C (z i) * ∑ k ∈ Finset.range n, (C (x i) * X) ^ k := by
  simp only [syndromePoly, map_sum, map_mul, map_pow, Finset.sum_mul, Finset.mul_sum]
  rw [Finset.sum_comm]
  exact Finset.sum_congr rfl fun i _ => Finset.sum_congr rfl fun k _ => by ring

/-- Locator times syndromes is the evaluator up to a multiple of x^n (41_rs.md R207). -/
theorem exists_key_equation (n : ℕ) :
    ∃ v, locator s x * syndromePoly s x z n = evaluator s x z + X ^ n * v := by
  refine ⟨-∑ i ∈ s, C (z i) * C (x i) ^ n * locator (s.erase i) x, ?_⟩
  rw [syndromePoly_eq_sum_geom, evaluator, Finset.mul_sum, mul_neg, ← sub_eq_add_neg, Finset.mul_sum,
    ← Finset.sum_sub_distrib]
  refine Finset.sum_congr rfl fun i hi => ?_
  have hgeom := mul_neg_geom_sum (C (x i) * X) n
  rw [locator_eq_mul_erase s x hi]
  linear_combination C (z i) * locator (s.erase i) x * hgeom

/-- So few locations have some syndrome that is not 0. -/
theorem syndromePoly_ne_zero (hs : s.Nonempty) (hx : ∀ i ∈ s, x i ≠ 0) (hinj : Set.InjOn x s)
    (hz : ∀ i ∈ s, z i ≠ 0) {n : ℕ} (hn : s.card ≤ n) : syndromePoly s x z n ≠ 0 := by
  intro h0
  obtain ⟨v, hkey⟩ := exists_key_equation s x z n
  rw [h0, mul_zero] at hkey
  have hzero : evaluator s x z = 0 := by
    refine eq_zero_of_dvd_of_natDegree_lt (p := X ^ n) ⟨-v, by linear_combination -hkey⟩ ?_
    rw [natDegree_X_pow]
    exact (natDegree_evaluator_lt s x z hs).trans_le hn
  obtain ⟨i, hi⟩ := hs
  exact eval_evaluator_ne_zero s x z hx hinj hz hi (by rw [hzero, eval_zero])

/-! ### The Euclidean algorithm on x^n and the syndromes -/

/-- What holds before every pass: `tLast` and `t` give `rLast` and `r` as multiples of `S` modulo x^n, and the degrees
of `t` and `rLast` make up n. -/
structure EuclidInvariant (n : ℕ) (S rLast r tLast t : K[X]) : Prop where
  cofactors : ∃ uLast u, tLast * S = rLast + X ^ n * uLast ∧ t * S = r + X ^ n * u ∧ t * uLast + tLast * u = 1
  degree_r : r.degree < rLast.degree
  degree_t : tLast.degree < t.degree
  natDegree_add : t.natDegree + rLast.natDegree = n
  natDegree_rLast : n ≤ 2 * rLast.natDegree

/-- What the algorithm ends with. -/
structure EuclidResult (n : ℕ) (S r t : K[X]) : Prop where
  cofactor : ∃ u, t * S = r + X ^ n * u ∧ IsCoprime t u
  natDegree_r : 2 * r.natDegree < n
  natDegree_t : 2 * t.natDegree ≤ n

theorem euclidInvariant_start (h2 : (2 : K) = 0) {n : ℕ} {S : K[X]} (hS : S.degree < n) :
    EuclidInvariant n S (X ^ n) S 0 1 where
  cofactors := ⟨1, 0, by
    have h2' : (2 : K[X]) = 0 := by rw [← C_ofNat, h2, C_0]
    linear_combination -X ^ n * h2', by ring, by ring⟩
  degree_r := by rwa [degree_X_pow]
  degree_t := by simp
  natDegree_add := by simp
  natDegree_rLast := by rw [natDegree_X_pow]; omega

theorem EuclidInvariant.natDegree_r_le {n : ℕ} {S rLast r tLast t : K[X]} (h : EuclidInvariant n S rLast r tLast t) :
    r.natDegree ≤ n :=
  (natDegree_le_natDegree h.degree_r.le).trans (Nat.le.intro ((Nat.add_comm _ _).trans h.natDegree_add))

/-- A pass keeps the invariant (41_rs.md R207); its sums are differences, since 2 = 0. -/
theorem EuclidInvariant.pass (h2 : (2 : K) = 0) {n : ℕ} {S rLast r tLast t q r' : K[X]}
    (h : EuclidInvariant n S rLast r tLast t) (hgo : n ≤ 2 * r.natDegree) (hdiv : rLast = q * r + r')
    (hr' : r'.degree < r.degree) : EuclidInvariant n S r r' t (q * t + tLast) := by
  have h2' : (2 : K[X]) = 0 := by rw [← C_ofNat, h2, C_0]
  obtain ⟨⟨uLast, u, hLast, hu, hdet⟩, hr, ht, hadd, -⟩ := h
  have hr0 : r ≠ 0 := ne_zero_of_degree_gt hr'
  have ht0 : t ≠ 0 := ne_zero_of_degree_gt ht
  have hq0 : q ≠ 0 := by
    rintro rfl
    rw [hdiv, zero_mul, zero_add] at hr
    exact hr.not_gt hr'
  have hle : ∀ p : K[X], p.degree ≤ (q * p).degree := fun p => mul_comm p q ▸ degree_le_mul_left p hq0
  have hqr : rLast.natDegree = q.natDegree + r.natDegree := by
    rw [hdiv, natDegree_add_eq_left_of_degree_lt (hr'.trans_le (hle r)), natDegree_mul hq0 hr0]
  have hqt : (q * t + tLast).natDegree = q.natDegree + t.natDegree := by
    rw [natDegree_add_eq_left_of_degree_lt (ht.trans_le (hle t)), natDegree_mul hq0 ht0]
  have hlt := natDegree_lt_natDegree hr0 hr
  refine ⟨⟨u, q * u + uLast, hu, ?_, ?_⟩, hr', degree_lt_degree (by omega), by omega, hgo⟩
  · linear_combination hLast + q * hu + hdiv + q * r * h2'
  · linear_combination hdet + q * t * u * h2'

theorem EuclidInvariant.stop {n : ℕ} {S rLast r tLast t : K[X]} (h : EuclidInvariant n S rLast r tLast t)
    (hstop : 2 * r.natDegree < n) : EuclidResult n S r t where
  cofactor :=
    let ⟨uLast, u, _, hu, hdet⟩ := h.cofactors
    ⟨u, hu, uLast, tLast, by linear_combination hdet⟩
  natDegree_r := hstop
  natDegree_t := by
    have hadd := h.natDegree_add
    have hLast := h.natDegree_rLast
    omega

/-- What the algorithm ends with, for the syndromes of at most n / 2 locations: a multiple of locator and evaluator
(41_rs.md R213). -/
theorem EuclidResult.eq_const_mul {s : Finset ℕ} {x z : ℕ → K} (hs : s.Nonempty) (hx : ∀ i ∈ s, x i ≠ 0)
    (hinj : Set.InjOn x s) (hz : ∀ i ∈ s, z i ≠ 0) {n : ℕ} (hn : 2 * s.card ≤ n) {r t : K[X]}
    (h : EuclidResult n (syndromePoly s x z n) r t) :
    ∃ c : K, c ≠ 0 ∧ t = C c * locator s x ∧ r = C c * evaluator s x z := by
  obtain ⟨⟨u, hu, htu⟩, hr, ht⟩ := h
  obtain ⟨v, hkey⟩ := exists_key_equation s x z n
  have hΩ := natDegree_evaluator_lt s x z hs
  have hΛ := natDegree_locator_le s x
  have hdiff : t * evaluator s x z - locator s x * r = X ^ n * (locator s x * u - t * v) := by
    linear_combination locator s x * hu - t * hkey
  have hcross : t * evaluator s x z - locator s x * r = 0 := by
    refine eq_zero_of_dvd_of_natDegree_lt ⟨_, hdiff⟩ ?_
    have hsub := natDegree_sub_le (t * evaluator s x z) (locator s x * r)
    have hmul := natDegree_mul_le (p := t) (q := evaluator s x z)
    have hmul' := natDegree_mul_le (p := locator s x) (q := r)
    rw [natDegree_X_pow]
    omega
  have hcof : locator s x * u = t * v := by
    rw [hcross, eq_comm, mul_eq_zero] at hdiff
    exact sub_eq_zero.mp (hdiff.resolve_left (pow_ne_zero n X_ne_zero))
  have hdvd : t ∣ locator s x := htu.dvd_of_dvd_mul_right ⟨v, hcof⟩
  have hdvd' : locator s x ∣ t :=
    (isCoprime_locator_evaluator s x z hx hinj hz).dvd_of_dvd_mul_right ⟨r, sub_eq_zero.mp hcross⟩
  obtain ⟨w, hw⟩ := associated_of_dvd_dvd hdvd' hdvd
  obtain ⟨c, hc, hwc⟩ := isUnit_iff.mp w.isUnit
  have ht' : t = C c * locator s x := by rw [← hw, ← hwc, mul_comm]
  refine ⟨c, hc.ne_zero, ht', mul_left_cancel₀ (locator_ne_zero s x) ?_⟩
  rw [ht'] at hcross
  linear_combination -hcross

end ReedSolomon
end

section
/-!
The engine's field and its polynomials as those of the library: sums, products, powers and inverses of bytes, and the
coefficients, degree and value of a polynomial (40_gf.md R150 to R154, R171, R174).
-/

namespace ReedSolomon

open Polynomial Sys2Proof.Machine

/-! ### The field -/

/-- The bytes as elements of a field of the engine, apart from the arithmetic that bytes have modulo 256. -/
def Element (_f : Sys2Proof.Field) : Type := Sys2Proof.Byte

/-- The inverse, 0 for 0. -/
def inverseOrZero (f : Sys2Proof.Field) (a : Sys2Proof.Byte) : Sys2Proof.Byte := if a = 0 then 0 else gfInv f a

/-- The engine's field (40_gf.md R150 to R154). -/
noncomputable abbrev elementField (f : Sys2Proof.Field) : Field (Element f) :=
  letI : Add (Element f) := ⟨gfAdd⟩
  letI : Mul (Element f) := ⟨gfMul f⟩
  letI : Neg (Element f) := ⟨id⟩
  letI : Inv (Element f) := ⟨inverseOrZero f⟩
  letI : Zero (Element f) := ⟨(0 : Sys2Proof.Byte)⟩
  letI : One (Element f) := ⟨(1 : Sys2Proof.Byte)⟩
  Field.ofMinimalAxioms (Element f) BitVec.xor_assoc (fun a => BitVec.zero_xor)
    (fun a => BitVec.xor_self) (gfMul_assoc f) (gfMul_comm f) (gfMul_one_left f)
    (fun a ha => (congrArg (gfMul f a) (if_neg ha)).trans (gfMul_gfInv f ha))
    (show inverseOrZero f 0 = 0 from if_pos rfl) (gfMul_xor_right f)
    ⟨(0 : Sys2Proof.Byte), (1 : Sys2Proof.Byte), (by decide : (0 : Sys2Proof.Byte) ≠ 1)⟩

/-- A field whose sums and products are those of the engine's field. -/
structure IsModel (f : Sys2Proof.Field) {K : Type} [Field K] (φ : Sys2Proof.Byte ≃ K) : Prop where
  map_xor : ∀ a b, φ (a ^^^ b) = φ a + φ b
  map_mul : ∀ a b, φ (gfMul f a b) = φ a * φ b

theorem exists_isModel (f : Sys2Proof.Field) :
    ∃ (K : Type) (_ : Field K) (φ : Sys2Proof.Byte ≃ K), IsModel f φ :=
  letI := elementField f
  ⟨Element f, elementField f, Equiv.refl _, ⟨fun _ _ => rfl, fun _ _ => rfl⟩⟩

namespace IsModel

variable {f : Sys2Proof.Field} {K : Type} [Field K] {φ : Sys2Proof.Byte ≃ K} (h : IsModel f φ)
include h

theorem map_zero : φ 0 = 0 := by
  have h0 := h.map_xor 0 0
  rw [BitVec.xor_self] at h0
  exact left_eq_add.mp h0

theorem map_eq_zero {a : Sys2Proof.Byte} : φ a = 0 ↔ a = 0 := by rw [← h.map_zero, φ.apply_eq_iff_eq]

theorem two_eq_zero : (2 : K) = 0 := by
  obtain ⟨a, ha⟩ := φ.surjective 1
  have h1 := h.map_xor a a
  rw [BitVec.xor_self, ha] at h1
  rw [← one_add_one_eq_two, ← h1]
  exact h.map_zero

theorem neg_eq (a : K) : -a = a := by linear_combination -a * h.two_eq_zero

theorem map_one : φ 1 = 1 := by
  obtain ⟨a, ha⟩ := φ.surjective 1
  have h1 := h.map_mul 1 a
  rw [gfMul_one_left, ha, mul_one] at h1
  exact h1.symm

theorem map_pow (a : Sys2Proof.Byte) (n : ℕ) : φ (gfPow f a n) = φ a ^ n := by
  induction n with
  | zero => rw [gfPow, h.map_one, pow_zero]
  | succ n ih => rw [gfPow, h.map_mul, ih, pow_succ']

theorem map_inv {a : Sys2Proof.Byte} (ha : a ≠ 0) : φ (gfInv f a) = (φ a)⁻¹ := by
  refine eq_inv_of_mul_eq_one_right ?_
  rw [← h.map_mul, gfMul_gfInv f ha, h.map_one]

theorem map_xorSum (n : ℕ) (g : ℕ → Sys2Proof.Byte) : φ (xorSum n g) = ∑ i ∈ Finset.range n, φ (g i) := by
  induction n with
  | zero => exact h.map_zero
  | succ n ih => rw [xorSum, h.map_xor, ih, Finset.sum_range_succ]

end IsModel

/-! ### Polynomials -/

/-- Coefficients of the engine are those of a polynomial over the field. -/
def IsPoly {K : Type} [Field K] (φ : Sys2Proof.Byte ≃ K) (c : Coefs) (p : K[X]) : Prop := ∀ k, p.coeff k = φ (c k)

variable {f : Sys2Proof.Field} {K : Type} [Field K] {φ : Sys2Proof.Byte ≃ K}

theorem IsPoly.unique {c : Coefs} {p q : K[X]} (hp : IsPoly φ c p) (hq : IsPoly φ c q) : p = q :=
  Polynomial.ext fun k => (hp k).trans (hq k).symm

section

variable (h : IsModel f φ)
include h

theorem IsModel.exists_isPoly {c : Coefs} (hc : c.Short) : ∃ p : K[X], IsPoly φ c p ∧ p.natDegree < 256 := by
  have hp : IsPoly φ c (∑ k ∈ Finset.range 256, monomial k (φ (c k))) := fun k => by
    rw [finsetSum_coeff]
    simp only [coeff_monomial, Finset.sum_ite_eq', Finset.mem_range]
    split
    · rfl
    · next hk => rw [hc k (Nat.le_of_not_lt hk), h.map_zero]
  refine ⟨_, hp, Nat.lt_succ_of_le (natDegree_le_iff_coeff_eq_zero.mpr fun k hk => ?_)⟩
  rw [hp k, hc k hk, h.map_zero]

namespace IsPoly

theorem zero : IsPoly φ (fun _ => 0) (0 : K[X]) := fun k => by rw [coeff_zero, h.map_zero]

theorem powerCoefs (d : ℕ) : IsPoly φ (powerCoefs d) (X ^ d : K[X]) := fun k => by
  rw [coeff_X_pow, Sys2Proof.Machine.powerCoefs]
  split
  · exact h.map_one.symm
  · exact h.map_zero.symm

variable {c d : Coefs} {p q : K[X]}

theorem coeff_eq_zero (hp : IsPoly φ c p) {k : ℕ} : p.coeff k = 0 ↔ c k = 0 := by rw [hp k, h.map_eq_zero]

theorem polyDeg_eq {a : List Sys2Proof.Byte} (hp : IsPoly φ (polyCoef a) p) : polyDeg a = p.natDegree := by
  apply le_antisymm
  · by_cases hz : polyIsZero a = true
    · rw [polyDeg, (polyIsZero_iff a).mp hz]
      exact Nat.zero_le _
    · exact le_natDegree_of_ne_zero (mt (hp.coeff_eq_zero h).mp (polyLead_ne_zero (Bool.eq_false_iff.mpr hz)))
  · by_cases hp0 : p = 0
    · rw [hp0, natDegree_zero]
      exact Nat.zero_le _
    · exact le_polyDeg_of_ne_zero (mt (hp.coeff_eq_zero h).mpr (mt leadingCoeff_eq_zero.mp hp0))

variable (hp : IsPoly φ c p) (hq : IsPoly φ d q)
include hp

theorem eq_zero_iff : p = 0 ↔ ∀ k, c k = 0 := by
  simp only [Polynomial.ext_iff, coeff_zero, hp.coeff_eq_zero h]

theorem scale (a : Sys2Proof.Byte) : IsPoly φ (c.scale f a) (C (φ a) * p) := fun k => by
  rw [coeff_C_mul, hp k, Coefs.scale, h.map_mul, mul_comm]

theorem short (hdeg : p.natDegree < 256) : c.Short := fun _ hk =>
  (hp.coeff_eq_zero h).mp (coeff_eq_zero_of_natDegree_lt (hdeg.trans_le hk))

theorem degree_eq (hdeg : p.natDegree < 256) : c.degree = p.natDegree := by
  have hlist : ∀ i, polyCoef ((List.range 256).map c) i = c i := fun i => by
    rw [polyCoef_map_range]
    split
    · rfl
    · next hi => exact (hp.short h hdeg i (Nat.le_of_not_lt hi)).symm
  rw [degree_eq_polyDeg (hp.short h hdeg) hlist, IsPoly.polyDeg_eq h fun i => (hp i).trans (congrArg φ (hlist i).symm)]

theorem eval_eq (hdeg : p.natDegree < 256) (a : Sys2Proof.Byte) : φ (c.eval f a) = p.eval (φ a) := by
  rw [Coefs.eval, h.map_xorSum, eval_eq_sum_range' hdeg]
  exact Finset.sum_congr rfl fun k _ => by rw [h.map_mul, h.map_pow, hp k]

include hq

theorem xor : IsPoly φ (fun k => c k ^^^ d k) (p + q) := fun k => by
  rw [coeff_add, hp k, hq k, h.map_xor]

theorem product : IsPoly φ (Coefs.product f c d) (p * q) := fun k => by
  rw [coeff_mul, Finset.Nat.sum_antidiagonal_eq_sum_range_succ fun i j => p.coeff i * q.coeff j, Coefs.product,
    h.map_xorSum]
  exact Finset.sum_congr rfl fun i _ => by rw [h.map_mul, hp i, hq (k - i)]

end IsPoly

end

end ReedSolomon
end

section
/-!
RS_ENCODE (41_rs.md R200 to R204): the generator is the product of its factors, so its multiples are codewords, and data
with the remainder after it is such a multiple.
-/

namespace ReedSolomon

open Polynomial Sys2Proof.Machine

variable {f : Sys2Proof.Field} {K : Type} [Field K] {φ : Sys2Proof.Byte ≃ K}

/-- The point of syndrome number `i` (41_rs.md R204). -/
def point (f : Sys2Proof.Field) (i : ℕ) : Sys2Proof.Byte := gfPow f 2 (i + genBase f)

/-- The generator of degree `d` (41_rs.md R201). -/
noncomputable def generator (f : Sys2Proof.Field) (φ : Sys2Proof.Byte ≃ K) (d : ℕ) : K[X] :=
  ∏ i ∈ Finset.range d, (X + C (φ (point f i)))

theorem monic_generator (d : ℕ) : (generator f φ d).Monic := monic_prod_of_monic _ _ fun _ _ => monic_X_add_C _

theorem natDegree_generator (d : ℕ) : (generator f φ d).natDegree = d := by
  rw [generator, natDegree_prod_of_monic _ _ fun _ _ => monic_X_add_C _]
  simp

section

variable (h : IsModel f φ)
include h

theorem IsModel.eval_generator {d i : ℕ} (hi : i < d) : (generator f φ d).eval (φ (point f i)) = 0 := by
  rw [generator, eval_prod]
  refine Finset.prod_eq_zero (Finset.mem_range.mpr hi) ?_
  rw [eval_add, eval_X, eval_C, ← two_mul, h.two_eq_zero, zero_mul]

theorem IsModel.isPoly_genFactor {d : ℕ} (hd : d + genBase f ≤ 255) :
    IsPoly φ (polyCoef (genFactor f d)) (X + C (φ (point f d))) := by
  intro k
  rw [genFactor, polyCoef_add, polyCoef_mono, polyCoef_mono, gfExp_eq_gfPow f hd, h.map_xor, coeff_add, coeff_X,
    coeff_C, apply_ite φ, apply_ite φ, h.map_one, h.map_zero]
  simp only [eq_comm (a := k), point]

theorem IsModel.isPoly_generatorPoly {d : ℕ} (hd : d ≤ 255) :
    IsPoly φ (polyCoef (generatorPoly f d)) (generator f φ d) := by
  induction d with
  | zero =>
    have h1 : polyCoef (generatorPoly f 0) = powerCoefs 0 := by
      funext k
      cases k <;> rfl
    rw [h1]
    exact IsPoly.powerCoefs h 0
  | succ d ih =>
    have hbase := genBase_le_one f
    have hmul := IsPoly.product h (ih (by omega)) (h.isPoly_genFactor (d := d) (by omega))
    rw [generator, Finset.prod_range_succ]
    exact fun k => (hmul k).trans (by rw [generatorPoly, polyCoef_mul])

end

end ReedSolomon

namespace Sys2Proof.Machine

theorem polyDeg_generatorPoly (f : Field) {e : Nat} (he : e ≤ 255) : polyDeg (generatorPoly f e) = e := by
  obtain ⟨K, _, φ, hφ⟩ := ReedSolomon.exists_isModel f
  rw [(hφ.isPoly_generatorPoly he).polyDeg_eq hφ, ReedSolomon.natDegree_generator]

theorem polyIsZero_generatorPoly (f : Field) {e : Nat} (he : e ≤ 255) : polyIsZero (generatorPoly f e) = false := by
  obtain ⟨K, _, φ, hφ⟩ := ReedSolomon.exists_isModel f
  have hp := hφ.isPoly_generatorPoly he
  rw [polyIsZero_eq_false_iff]
  by_contra hall
  exact (ReedSolomon.monic_generator e).ne_zero ((hp.eq_zero_iff hφ).mpr (not_exists_not.mp hall))

/-- A multiple of the generator is a codeword (41_rs.md R204). -/
theorem isCodeword_of_product (f : Field) {n e : Nat} (hn : n ≤ 255) (he : e ≤ n) {q : Coefs} (hq : q.Short)
    {v : Memory} (hlow : ∀ m < n, v.byte (n - 1 - m) = Coefs.product f q (polyCoef (generatorPoly f e)) m)
    (hhigh : ∀ m, n ≤ m → Coefs.product f q (polyCoef (generatorPoly f e)) m = 0) : IsCodeword f n e v := by
  obtain ⟨K, _, φ, hφ⟩ := ReedSolomon.exists_isModel f
  obtain ⟨Q, hQ, -⟩ := hφ.exists_isPoly hq
  have hQG := hQ.product hφ (hφ.isPoly_generatorPoly (he.trans hn))
  intro i hi
  have hdeg : (Q * ReedSolomon.generator f φ e).natDegree < n :=
    Nat.lt_of_le_pred (by omega) (Polynomial.natDegree_le_iff_coeff_eq_zero.mpr fun m hm =>
      (hQG.coeff_eq_zero hφ).mpr (hhigh m (by simpa using Nat.le_of_pred_lt hm)))
  have heval : φ (codeSyndrome f n v i) = (Q * ReedSolomon.generator f φ e).eval (φ (ReedSolomon.point f i)) := by
    rw [codeSyndrome, ← xorSum_reverse, hφ.map_xorSum, Polynomial.eval_eq_sum_range' hdeg]
    refine Finset.sum_congr rfl fun m hm => ?_
    have hm := Finset.mem_range.mp hm
    rw [hφ.map_mul, hφ.map_pow, hQG m, hlow m hm, Nat.sub_sub_self (by omega)]
    rfl
  rw [← hφ.map_eq_zero, heval, Polynomial.eval_mul, hφ.eval_generator hi, mul_zero]

/-- The data moved up by the number of EC bytes (41_rs.md R203). -/
theorem polyCoef_mulmono_wordPoly (f : Field) {n e : Nat} (he : e < n) (cw : Memory) (m : Nat) :
    polyCoef (polyMulmono f (wordPoly (cw.bytes (n - e))) e 1) m =
      if e ≤ m ∧ m < n then cw.byte (n - 1 - m) else 0 := by
  have hlen := cw.length_bytes (n - e)
  rw [polyCoef_mulmono, ite_and]
  refine ite_congr rfl (fun hem => ?_) fun _ => rfl
  rw [gfMul_one_right]
  split
  · rw [polyCoef_wordPoly _ (by omega), hlen, Memory.getD_bytes _ _ _ (by omega)]
    congr 1
    omega
  · exact polyCoef_of_length_le ((length_wordPoly_le _).trans (by omega))

theorem getD_ecBytes (f : Field) (e : Nat) (g data : List Byte) {j : Nat} (hj : j < e) :
    (ecBytes f e g data).getD j 0 = polyCoef (polyDivmod f (polyMulmono f (wordPoly data) e 1) g).2 (e - 1 - j) := by
  rw [ecBytes]
  exact (polyCoef_map_range _ e j).trans (if_pos hj)

/-- An encoded word is the moved data plus the remainder (41_rs.md R203). -/
theorem byte_encoded (f : Field) {n e : Nat} (he : e < n) (cw : Memory) (g : List Byte) {m : Nat} (hm : m < n)
    (hrem : ∀ i, polyCoef (polyDivmod f (polyMulmono f (wordPoly (cw.bytes (n - e))) e 1) g).2 i ≠ 0 → i < e) :
    (cw.overwrite (n - e) (ecBytes f e g (cw.bytes (n - e)))).byte (n - 1 - m) =
      polyCoef (polyMulmono f (wordPoly (cw.bytes (n - e))) e 1) m ^^^
        polyCoef (polyDivmod f (polyMulmono f (wordPoly (cw.bytes (n - e))) e 1) g).2 m := by
  have hlen : (ecBytes f e g (cw.bytes (n - e))).length = e := by simp [ecBytes]
  rw [Memory.byte_overwrite, hlen, polyCoef_mulmono_wordPoly f he]
  by_cases hem : e ≤ m
  · rw [if_neg (by omega), if_pos ⟨hem, hm⟩, not_ne_iff.mp (mt (hrem m) hem.not_gt)]
    exact BitVec.xor_zero.symm
  · rw [if_pos (by omega), if_neg (by omega), getD_ecBytes f e g _ (by omega)]
    refine .trans (congrArg _ ?_) BitVec.zero_xor.symm
    omega

theorem IsDivision.product_eq {f : Field} {a b q r : List Byte} {n : Nat} (h : IsDivision f a b n q r) (k : Nat) :
    Coefs.product f (polyCoef q) (polyCoef b) k = polyCoef a k ^^^ polyCoef r k := by
  rw [h.dividend k, BitVec.xor_assoc, BitVec.xor_self, BitVec.xor_zero]

/-- The remainder after the data makes a multiple of the generator (41_rs.md R203). -/
theorem isCodeword_encoded (f : Field) {n e : Nat} (hn : n ≤ 255) (he : e < n) (cw : Memory) :
    IsCodeword f n e (cw.overwrite (n - e) (ecBytes f e (generatorPoly f e) (cw.bytes (n - e)))) := by
  have hg := polyIsZero_generatorPoly f (he.le.trans hn)
  obtain ⟨hdiv, hrem⟩ := polyDivmod_isDivision f (polyMulmono f (wordPoly (cw.bytes (n - e))) e 1) hg
  rw [polyDeg_generatorPoly f (he.le.trans hn)] at hrem
  refine isCodeword_of_product f hn he.le (fun i hi => not_ne_iff.mp fun hq => ?_)
    (fun m hm => (byte_encoded f he cw _ hm hrem).trans (hdiv.product_eq m).symm)
    fun m hm => (hdiv.product_eq m).trans ?_
  · have hdeg := hdiv.quotient i hq
    have hlen := (length_mulmono_le f (wordPoly (cw.bytes (n - e))) e 1).trans
      (Nat.add_le_add_left (length_wordPoly_le _) e)
    rw [Memory.length_bytes] at hlen
    omega
  · rw [polyCoef_mulmono_wordPoly f he, if_neg (by omega), not_ne_iff.mp (mt (hrem m) (by omega))]
    rfl

/-- A cache that holds the generators up to degree `d` holds them up to `e` too once degree `e` was requested
(41_rs.md R202). -/
theorem cacheFor_of_cacheHolds {s : State} {f : Field} {d : Nat} (h : s.CacheHolds f d) (e : Nat) :
    cacheFor f e (s.gen f) = (List.range (max d e + 1)).map (generatorPoly f) := by
  rw [State.CacheHolds] at h
  rw [h, cacheFor_generators]
  congr 2
  omega

/-- Settles O23: what the command writes is a multiple of the generator it takes from the cache. -/
theorem rsEncodeMakesCodeword : Obligations.RsEncodeMakesCodeword := by
  intro f s d _ hcache
  refine ⟨fun hn => finish_of_check hn, fun h1 hn h0 => ?_, fun h1 hn he => ?_, fun hn h1 he => ?_⟩
  · exact (finish_of_not_check (not_codeword_check h1 hn)).trans (finish_of_check h0)
  · have h0 : ¬s.argU 1 = 0 := by omega
    exact (finish_of_not_check (not_codeword_check h1 hn)).trans
      ((finish_of_not_check h0).trans (finish_of_check he))
  · have hgen : ((List.range (max d (s.argU 1) + 1)).map (generatorPoly f)).getD (s.argU 1) [1] =
        generatorPoly f (s.argU 1) := by simp
    refine ⟨_, isCodeword_encoded f hn he s.cw, fun j hj => ?_, ?_⟩
    · rw [Memory.byte_overwrite, if_neg]
      simp only [ecBytes, List.length_map, List.length_range]
      omega
    · have hrun : exec (.rsEncode f) s = _ :=
        (finish_of_not_check (not_codeword_check (by omega) hn)).trans
          ((finish_of_not_check (Nat.ne_zero_of_lt h1)).trans (finish_of_not_check he.not_ge))
      rw [hrun, cacheFor_of_cacheHolds hcache, hgen]
      rfl

end Sys2Proof.Machine
end

section
/-!
The Euclidean algorithm of RS_DECODE (41_rs.md R207): the engine's loop ends and runs the passes of the statements, and
what it ends with is short enough for a codeword's memory.
-/

namespace Sys2Proof.Machine

/-! ### The engine's loop -/

/-- No pass of the division leaves a leading zero (40_gf.md R171, R174). -/
theorem polyTrim_polyDivLoop (f : Field) (b : List Byte) (inv : Byte) (n : Nat) (q : List Byte) {r : List Byte}
    (hr : polyTrim r = r) : polyTrim (polyDivLoop f b inv n q r).2 = (polyDivLoop f b inv n q r).2 := by
  induction n generalizing q r with
  | zero => exact hr
  | succ n ih =>
    rw [polyDivLoop]
    split
    · exact ih _ (polyTrim_polyTrim _)
    · exact hr

theorem polyTrim_polyDivmod (f : Field) (a b : List Byte) :
    polyTrim (polyDivmod f a b).2 = (polyDivmod f a b).2 := polyTrim_polyDivLoop f b _ _ _ (polyTrim_polyTrim a)

theorem length_le_of_trim {a : List Byte} (h : polyTrim a = a) : a.length ≤ polyDeg a + 1 := by
  have hlen := length_trim_le_deg a
  rwa [h] at hlen

theorem short_of_length_le {a : List Byte} (h : a.length ≤ 256) : Coefs.Short (polyCoef a) := fun _ hk =>
  polyCoef_of_length_le (h.trans hk)

theorem degree_polyCoef {a : List Byte} (h : a.length ≤ 256) : Coefs.degree (polyCoef a) = polyDeg a :=
  degree_eq_polyDeg (short_of_length_le h) fun _ => rfl

/-- A remainder has a lower degree than a divisor that is not constant (40_gf.md R174). -/
theorem polyDeg_remainder_lt (f : Field) (a : List Byte) {b : List Byte} (hb : polyIsZero b = false)
    (hdeg : 1 ≤ polyDeg b) : polyDeg (polyDivmod f a b).2 < polyDeg b := by
  by_cases hz : polyIsZero (polyDivmod f a b).2 = true
  · rw [polyDeg, (polyIsZero_iff _).mp hz]
    exact hdeg
  · exact (polyDivmod_isDivision f a hb).2 _ (polyLead_ne_zero (Bool.eq_false_iff.mpr hz))

theorem polyIsZero_of_polyDeg_pos {a : List Byte} (h : 1 ≤ polyDeg a) : polyIsZero a = false := by
  rw [← Bool.not_eq_true, polyIsZero_iff]
  intro hz
  rw [polyDeg, hz] at h
  exact absurd h (by decide)

/-- Each pass lowers the degree of the remainder, so the loop ends by its own condition; check 3 is not met, since the
degree of a divisor is at least 1 (41_rs.md R207). -/
theorem exists_euclidLoop_eq (f : Field) {twoS : Nat} (htwo : 1 ≤ twoS) (fuel : Nat) (hfuel : fuel ≤ 256)
    (rLast r tLast t : List Byte) (hLast : rLast.length ≤ 256) (hr : polyTrim r = r) (hdeg : polyDeg r < fuel) :
    ∃ rEnd tEnd, euclidLoop f twoS fuel rLast r tLast t = .ok (rEnd, tEnd) ∧
      Euclid f twoS (polyCoef rLast) (polyCoef r) (polyCoef tLast) (polyCoef t) (polyCoef rEnd) (polyCoef tEnd) := by
  induction fuel generalizing rLast r tLast t with
  | zero => exact absurd hdeg (Nat.not_lt_zero _)
  | succ fuel ih =>
    have hlen : r.length ≤ 256 := (length_le_of_trim hr).trans (by omega)
    have hdegree := degree_polyCoef hlen
    rw [euclidLoop]
    by_cases hgo : 2 * polyDeg r ≥ twoS
    · have hpos : 1 ≤ polyDeg r := by omega
      have hzero := polyIsZero_of_polyDeg_pos hpos
      obtain ⟨hdiv, hrem⟩ := polyDivmod_isDivision f rLast hzero
      have hlt := polyDeg_remainder_lt f rLast hzero hpos
      have htrim := polyTrim_polyDivmod f rLast r
      have hlen' : (polyDivmod f rLast r).2.length ≤ 256 := (length_le_of_trim htrim).trans (by omega)
      obtain ⟨rEnd, tEnd, hrun, hpasses⟩ := ih (by omega) r (polyDivmod f rLast r).2 t
        (polyAdd (polyMul f (polyDivmod f rLast r).1 t) tLast) hlen htrim (by omega)
      refine ⟨rEnd, tEnd, ?_, .pass _ _ _ _ _ _ _ _ _ (hdegree ▸ hgo) ((polyIsZero_eq_false_iff r).mp hzero)
        (fun i hi => not_ne_iff.mp fun hq => ?_) (short_of_length_le hlen') hdiv.dividend (.inr ?_) (fun k => ?_)
        hpasses⟩
      · rw [if_pos hgo, hzero]
        exact hrun
      · have hquot := hdiv.quotient i hq
        omega
      · rwa [hdegree, degree_polyCoef hlen']
      · rw [polyCoef_add, polyCoef_mul]
    · exact ⟨r, t, if_neg hgo, .stop _ _ _ _ (by omega)⟩

/-- The algorithm on x^twoS and the syndromes, up to the scaling of its end (41_rs.md R206, R207). -/
theorem exists_euclid_eq (f : Field) {twoS : Nat} (h1 : 1 ≤ twoS) (htwo : twoS ≤ 255) (n : Nat) (cw : Memory) :
    ∃ rEnd tEnd,
      euclid f (polyMono twoS 1) (polyTrim (syndromes f twoS (cw.bytes n))) twoS = euclidScale f (rEnd, tEnd) ∧
      Euclid f twoS (powerCoefs twoS) (syndromeCoefs f n twoS cw) (fun _ => 0) (powerCoefs 0) (polyCoef rEnd)
        (polyCoef tEnd) := by
  have hmono : twoS ≤ polyDeg (polyMono twoS 1) := le_polyDeg_of_ne_zero (by rw [polyCoef_mono, if_pos rfl]; decide)
  have hsyn : polyDeg (polyTrim (syndromes f twoS (cw.bytes n))) < twoS := by
    have hlen := length_trim_le (syndromes f twoS (cw.bytes n))
    rw [length_syndromes] at hlen
    rw [polyDeg, polyTrim_polyTrim]
    omega
  obtain ⟨rEnd, tEnd, hrun, hpasses⟩ := exists_euclidLoop_eq f h1 (twoS + 1) (by omega) (polyMono twoS 1)
    (polyTrim (syndromes f twoS (cw.bytes n))) [] (polyMono 0 1) ((length_mono_le _ _).trans (by omega))
    (polyTrim_polyTrim _) (by omega)
  have hpower : ∀ d, polyCoef (polyMono d 1) = powerCoefs d := fun d => funext fun k => polyCoef_mono d 1 k
  have hcoefs : polyCoef (polyTrim (syndromes f twoS (cw.bytes n))) = syndromeCoefs f n twoS cw := funext fun k => by
    rw [polyCoef_trim, polyCoef_syndromes f htwo]
  rw [hpower, hpower, hcoefs] at hpasses
  refine ⟨rEnd, tEnd, ?_, hpasses⟩
  rw [euclid, if_neg (by omega), hrun]
  rfl

end Sys2Proof.Machine

namespace ReedSolomon

open Polynomial Sys2Proof.Machine

variable {f : Sys2Proof.Field} {K : Type} [Field K] {φ : Sys2Proof.Byte ≃ K} (h : IsModel f φ)
include h

/-! ### The passes as polynomials -/

/-- The passes of the statements keep the invariant of the algorithm. -/
theorem IsModel.euclidResult_of_invariant {n : ℕ} (hn : n ≤ 255) {S : K[X]} {rLast r tLast t rEnd tEnd : Coefs}
    (hpasses : Euclid f n rLast r tLast t rEnd tEnd) {RLast R TLast T : K[X]} (hrLast : IsPoly φ rLast RLast)
    (hr : IsPoly φ r R) (htLast : IsPoly φ tLast TLast) (ht : IsPoly φ t T)
    (hinv : EuclidInvariant n S RLast R TLast T) :
    ∃ REnd TEnd : K[X], IsPoly φ rEnd REnd ∧ IsPoly φ tEnd TEnd ∧ EuclidResult n S REnd TEnd := by
  have hRdeg : R.natDegree < 256 := Nat.lt_succ_of_le (hinv.natDegree_r_le.trans hn)
  induction hpasses generalizing RLast R TLast T with
  | stop rLast r tLast t hstop =>
    rw [hr.degree_eq h hRdeg] at hstop
    exact ⟨R, T, hr, ht, hinv.stop hstop⟩
  | pass rLast r tLast t q r' t' rEnd tEnd hgo hne hq hr' hdiv hdeg ht' _ ih =>
    obtain ⟨Q, hQ, -⟩ := h.exists_isPoly hq
    obtain ⟨R', hR', hR'deg⟩ := h.exists_isPoly hr'
    rw [hr.degree_eq h hRdeg] at hgo
    have hR0 : R ≠ 0 := mt (hr.eq_zero_iff h).mp (not_forall.mpr hne)
    have hlt : R'.degree < R.degree := by
      rcases hdeg with hzero | hlt
      · rw [(hR'.eq_zero_iff h).mpr hzero]
        exact bot_lt_iff_ne_bot.mpr (degree_ne_bot.mpr hR0)
      · rw [hR'.degree_eq h hR'deg, hr.degree_eq h hRdeg] at hlt
        exact degree_lt_degree hlt
    have hdivision : RLast = Q * R + R' :=
      hrLast.unique fun k => ((hQ.product h hr).xor h hR' k).trans (congrArg φ (hdiv k).symm)
    exact ih hr hR' ht (fun k => ((hQ.product h ht).xor h htLast k).trans (congrArg φ (ht' k).symm))
      (hinv.pass h.two_eq_zero hgo hdivision hlt) hR'deg

theorem IsModel.exists_euclidResult {n : ℕ} (hn : n ≤ 255) {S : K[X]} {c rEnd tEnd : Coefs}
    (hc : ∀ k, n ≤ k → c k = 0) (hS : IsPoly φ c S)
    (hpasses : Euclid f n (powerCoefs n) c (fun _ => 0) (powerCoefs 0) rEnd tEnd) :
    ∃ R T : K[X], IsPoly φ rEnd R ∧ IsPoly φ tEnd T ∧ EuclidResult n S R T := by
  have hdeg : S.degree < n := (degree_lt_iff_coeff_zero S n).mpr fun k hk => (hS.coeff_eq_zero h).mpr (hc k hk)
  have hone : IsPoly φ (powerCoefs 0) (1 : K[X]) := pow_zero (X : K[X]) ▸ IsPoly.powerCoefs h 0
  exact h.euclidResult_of_invariant hn hpasses (IsPoly.powerCoefs h n) hS (IsPoly.zero h) hone
    (euclidInvariant_start h.two_eq_zero hdeg)

end ReedSolomon

namespace Sys2Proof.Machine

/-- The locator and the remainder that the algorithm ends with have at most half as many coefficients as a memory. -/
theorem Euclid.short {f : Field} {n twoS : Nat} (htwo : twoS ≤ 255) {cw : Memory} {rEnd tEnd : Coefs}
    (h : Euclid f twoS (powerCoefs twoS) (syndromeCoefs f n twoS cw) (fun _ => 0) (powerCoefs 0) rEnd tEnd) :
    rEnd.Short ∧ tEnd.Short := by
  obtain ⟨K, _, φ, hφ⟩ := ReedSolomon.exists_isModel f
  have hzero : ∀ k, twoS ≤ k → syndromeCoefs f n twoS cw k = 0 := fun k hk => if_neg hk.not_gt
  obtain ⟨S, hS, -⟩ := hφ.exists_isPoly (c := syndromeCoefs f n twoS cw) fun k hk => hzero k (by omega)
  obtain ⟨R, T, hR, hT, hres⟩ := hφ.exists_euclidResult htwo hzero hS h
  have hr := hres.natDegree_r
  have ht := hres.natDegree_t
  exact ⟨hR.short hφ (by omega), hT.short hφ (by omega)⟩

end Sys2Proof.Machine
end

section
/-!
The error locations and magnitudes of RS_DECODE (41_rs.md R208 to R210): the engine's search finds the locations of the
statements, its formula gives their magnitudes, and each location is a byte position by its logarithm.
-/

namespace Sys2Proof.Machine

/-! ### The roots of a locator -/

theorem mem_rootsOf {f : Field} {c : Coefs} {a : Byte} : a ∈ rootsOf f c ↔ a ≠ 0 ∧ c.eval f a = 0 := by
  have hmem : a ∈ (List.range' 1 255).map (BitVec.ofNat 8) ↔ a ≠ 0 := by
    rw [List.mem_map]
    constructor
    · rintro ⟨i, hi, rfl⟩ h0
      have hi := List.mem_range'_1.mp hi
      have hnat := congrArg BitVec.toNat h0
      rw [BitVec.toNat_ofNat, Nat.mod_eq_of_lt (by omega)] at hnat
      exact absurd hnat (by simp; omega)
    · intro ha
      refine ⟨a.toNat, List.mem_range'_1.mpr ⟨?_, by have := a.isLt; omega⟩, BitVec.ofNat_toNat _ _⟩
      exact Nat.one_le_iff_ne_zero.mpr fun h0 => ha (BitVec.eq_of_toNat_eq h0)
  rw [rootsOf, List.mem_filter, hmem, beq_iff_eq]

theorem nodup_rootsOf (f : Field) (c : Coefs) : (rootsOf f c).Nodup := by
  refine .filter _ (List.Nodup.map_on (fun i hi j hj hij => ?_) List.nodup_range')
  have hi := List.mem_range'_1.mp hi
  have hj := List.mem_range'_1.mp hj
  have hnat := congrArg BitVec.toNat hij
  rwa [BitVec.toNat_ofNat, BitVec.toNat_ofNat, Nat.mod_eq_of_lt (by omega), Nat.mod_eq_of_lt (by omega)] at hnat

theorem length_rootsOf_le (f : Field) (c : Coefs) : (rootsOf f c).length ≤ 255 :=
  (List.length_filter_le _ _).trans (by simp)

/-- A polynomial that is not zero has no more roots than its degree. -/
theorem length_rootsOf_le_degree (f : Field) {c : Coefs} (hc : c.Short) (h0 : c 0 ≠ 0) :
    (rootsOf f c).length ≤ c.degree := by
  obtain ⟨K, _, φ, hφ⟩ := ReedSolomon.exists_isModel f
  obtain ⟨p, hp, hdeg⟩ := hφ.exists_isPoly hc
  have hp0 : p ≠ 0 := mt (hp.eq_zero_iff hφ).mp (not_forall.mpr ⟨0, h0⟩)
  have hroots : (((rootsOf f c).toFinset).map φ.toEmbedding).val ⊆ p.roots := fun x hx => by
    obtain ⟨a, ha, rfl⟩ := Finset.mem_map.mp (Finset.mem_def.mpr hx)
    have ha := (mem_rootsOf.mp (List.mem_toFinset.mp ha)).2
    rw [Polynomial.mem_roots hp0]
    exact (hp.eval_eq hφ hdeg a).symm.trans (hφ.map_eq_zero.mpr ha)
  have hcard := Polynomial.card_le_degree_of_subset_roots hroots
  rwa [Finset.card_map, List.toFinset_card_of_nodup (nodup_rootsOf f c), ← hp.degree_eq hφ hdeg] at hcard

/-- The search takes the roots in order until there are as many as the degree (41_rs.md R208). -/
theorem findRoots_eq_append_take (f : Field) (sigma : List Byte) (is : List Nat) (xs : List Byte) :
    findRoots f sigma is xs = xs ++ (((is.map (BitVec.ofNat 8)).filter fun a => polyEval f sigma a == 0).map
      (gfInv f)).take (polyDeg sigma - xs.length) := by
  induction is generalizing xs with
  | nil => simp [findRoots]
  | cons i is ih =>
    rw [findRoots, List.map_cons, List.filter_cons]
    split
    · next hlt =>
      by_cases hroot : polyEval f sigma (BitVec.ofNat 8 i) = 0
      · have hsub : polyDeg sigma - xs.length = polyDeg sigma - (xs.length + 1) + 1 := by omega
        rw [element, if_pos hroot, if_pos (beq_iff_eq.mpr hroot), ih, hsub, List.map_cons, List.take_succ_cons,
          List.length_append, List.append_assoc]
        rfl
      · rw [element, if_neg hroot, if_neg (mt beq_iff_eq.mp hroot), ih]
    · next hge => rw [Nat.sub_eq_zero_of_le (Nat.le_of_not_lt hge), List.take_zero, List.append_nil]

theorem polyEval_eq_eval (f : Field) {a : List Byte} (ha : a.length ≤ 256) (x : Byte) :
    polyEval f a x = Coefs.eval f (polyCoef a) x := polyEval_eq_xorSum f x a ha

/-- The search finds every root, since there are no more than the degree (41_rs.md R208). -/
theorem findRoots_eq_map_rootsOf (f : Field) {sigma : List Byte} (hlen : sigma.length ≤ 256)
    (h0 : polyCoef sigma 0 ≠ 0) :
    findRoots f sigma (List.range' 1 255) [] = (rootsOf f (polyCoef sigma)).map (gfInv f) := by
  have hle := length_rootsOf_le_degree f (short_of_length_le hlen) h0
  rw [degree_polyCoef hlen] at hle
  simp only [findRoots_eq_append_take, polyEval_eq_eval f hlen, List.nil_append]
  exact List.take_of_length_le (by rwa [List.length_map])

/-- Check 5, then the locations of the statements (41_rs.md R208). -/
theorem locate_eq (f : Field) {sigma : List Byte} (hlen : sigma.length ≤ 256) (h0 : polyCoef sigma 0 ≠ 0) :
    locate f sigma = if (locations f (polyCoef sigma)).length ≠ Coefs.degree (polyCoef sigma) then raise .checksum 5
      else .ok (locations f (polyCoef sigma)) := by
  rw [locate, locations, degree_polyCoef hlen, findRoots_eq_map_rootsOf f hlen h0]
  split
  · next hdeg => rw [List.length_singleton, hdeg, if_neg (not_not_intro rfl)]
  · rfl

theorem gfInv_ne_zero (f : Field) (a : Byte) : gfInv f a ≠ 0 := gfExp_ne_zero f _ (Nat.sub_le _ _)

theorem gfInv_gfInv (f : Field) {a : Byte} (ha : a ≠ 0) : gfInv f (gfInv f a) = a := by
  have h := gfMul_gfInv f (gfInv_ne_zero f a)
  calc gfInv f (gfInv f a)
    _ = gfMul f (gfMul f a (gfInv f a)) (gfInv f (gfInv f a)) := by rw [gfMul_gfInv f ha, gfMul_one_left]
    _ = a := by rw [gfMul_assoc, h, gfMul_one_right]

theorem length_locations_le (f : Field) (sigma : Coefs) : (locations f sigma).length ≤ 255 := by
  rw [locations]
  split
  · exact Nat.one_le_ofNat
  · rw [List.length_map]
    exact length_rootsOf_le f sigma

theorem eval_of_degree_one (f : Field) {c : Coefs} (hc : c.Short) (hdeg : c.degree = 1) :
    c 1 ≠ 0 ∧ ∀ a, c.eval f a = c 0 ^^^ gfMul f (c 1) a := by
  obtain ⟨K, _, φ, hφ⟩ := ReedSolomon.exists_isModel f
  obtain ⟨p, hp, hlt⟩ := hφ.exists_isPoly hc
  have hp1 : p.natDegree = 1 := (hp.degree_eq hφ hlt).symm.trans hdeg
  refine ⟨mt (hp.coeff_eq_zero hφ).mpr ?_, fun a => φ.injective ?_⟩
  · rw [← hp1]
    exact Polynomial.leadingCoeff_ne_zero.mpr (Polynomial.ne_zero_of_natDegree_gt (n := 0) (by omega))
  · rw [hp.eval_eq hφ hlt, Polynomial.eval_eq_sum_range, hp1, Finset.sum_range_succ, Finset.sum_range_one, pow_zero,
      mul_one, pow_one, hφ.map_xor, hφ.map_mul, hp 0, hp 1]

/-- The locations are the inverses of the roots, also where the locator is linear (41_rs.md R208). -/
theorem mem_locations {f : Field} {sigma : Coefs} (hshort : sigma.Short) (h0 : sigma 0 = 1) {a : Byte} :
    a ∈ locations f sigma ↔ a ≠ 0 ∧ sigma.eval f (gfInv f a) = 0 := by
  rw [locations]
  split
  · next hdeg =>
    obtain ⟨h1, heval⟩ := eval_of_degree_one f hshort hdeg
    have hxor : ∀ b : Byte, 1 ^^^ b = 0 ↔ 1 = b := fun _ => BitVec.xor_eq_zero_iff
    rw [List.mem_singleton, heval, h0, hxor]
    constructor
    · rintro rfl
      exact ⟨h1, (gfMul_gfInv f h1).symm⟩
    · rintro ⟨ha, hroot⟩
      rw [← gfMul_one_left f a, hroot, gfMul_assoc, gfMul_comm f _ a, gfMul_gfInv f ha, gfMul_one_right]
  · rw [List.mem_map]
    constructor
    · rintro ⟨b, hb, rfl⟩
      obtain ⟨hb0, hroot⟩ := mem_rootsOf.mp hb
      exact ⟨gfInv_ne_zero f b, by rwa [gfInv_gfInv f hb0]⟩
    · exact fun ⟨ha, hroot⟩ => ⟨gfInv f a, mem_rootsOf.mpr ⟨gfInv_ne_zero f a, hroot⟩, gfInv_gfInv f ha⟩

theorem ne_zero_of_mem_locations {f : Field} {sigma : Coefs} (hshort : sigma.Short) (h0 : sigma 0 = 1) :
    ∀ x ∈ locations f sigma, x ≠ 0 := fun _ hx => ((mem_locations hshort h0).mp hx).1

theorem nodup_locations (f : Field) (sigma : Coefs) : (locations f sigma).Nodup := by
  rw [locations]
  split
  · exact List.nodup_singleton _
  · refine (nodup_rootsOf f sigma).map_on fun a ha b hb hab => ?_
    rw [← gfInv_gfInv f (mem_rootsOf.mp ha).1, hab, gfInv_gfInv f (mem_rootsOf.mp hb).1]

/-! ### Magnitudes -/

theorem forneyDen_eq_otherFactors (f : Field) (xs : List Byte) (k : Nat) :
    forneyDen f xs k (gfInv f (xs.getD k 0)) = otherFactors f xs k := by
  rw [forneyDen, otherFactors, List.foldl_filter]
  congr 1
  funext den j
  by_cases hjk : j = k <;> simp [hjk, gfAdd]

theorem forneyAt_eq_magnitude (f : Field) {omega : List Byte} (hlen : omega.length ≤ 256) (xs : List Byte) (k : Nat) :
    forneyAt f omega xs k = magnitude f (polyCoef omega) xs k := by
  unfold magnitude
  rw [forneyAt, forneyDen_eq_otherFactors, polyEval_eq_eval f hlen]
  cases f
  · exact (if_neg (by decide)).trans (gfMul_one_right .qr _).symm
  · exact if_pos (by decide)

/-- The magnitudes of the statements (41_rs.md R209). -/
theorem forney_eq_map_magnitude (f : Field) {omega : List Byte} (hlen : omega.length ≤ 256) (xs : List Byte) :
    forney f omega xs = (List.range xs.length).map (magnitude f (polyCoef omega) xs) :=
  List.map_congr_left fun k _ => forneyAt_eq_magnitude f hlen xs k

/-! ### Positions -/

/-- A location points to the byte that its logarithm says (41_rs.md R210). -/
theorem pointsTo_iff {f : Field} {n : Nat} (hn : n ≤ 255) {x : Byte} (hx : x ≠ 0) (p : Nat) :
    PointsTo f n x p ↔ gfLog f x < n ∧ p = n - 1 - gfLog f x := by
  have hlog := gfLog_le f x
  constructor
  · rintro ⟨hp, hpow⟩
    rw [← gfExp_eq_gfPow f (by omega)] at hpow
    rw [← hpow, gfLog_gfExp f _ (by omega)]
    omega
  · rintro ⟨hlt, rfl⟩
    refine ⟨by omega, ?_⟩
    rw [Nat.sub_sub_self (by omega), ← gfExp_eq_gfPow f (by omega), gfExp_gfLog f x hx]

/-- Check 6, where a location points outside the codeword (41_rs.md R210). -/
theorem positions_eq_raise {f : Field} {n : Nat} (h1 : 1 ≤ n) (hn : n ≤ 255) {xs : List Byte} (hxs : ∀ x ∈ xs, x ≠ 0)
    (hout : ∃ x ∈ xs, ∀ p, ¬PointsTo f n x p) : positions f n xs = raise .checksum 6 := by
  obtain ⟨x, hx, hnone⟩ := hout
  refine if_neg fun hall => ?_
  have hle := of_decide_eq_true (List.all_eq_true.mp hall x hx)
  exact hnone _ ((pointsTo_iff hn (hxs x hx) _).mpr ⟨by omega, rfl⟩)

/-- The positions that the locations point to (41_rs.md R210). -/
theorem positions_eq_ok {f : Field} {n : Nat} (hn : n ≤ 255) {xs : List Byte} (hxs : ∀ x ∈ xs, x ≠ 0)
    {ps : List Nat} (hlen : ps.length = xs.length)
    (hps : ∀ k, k < ps.length → PointsTo f n (xs.getD k 0) (ps.getD k 0)) : positions f n xs = .ok ps := by
  have hlog : ∀ k (hk : k < xs.length), gfLog f xs[k] < n ∧ ps[k] = n - 1 - gfLog f xs[k] := fun k hk => by
    have hpoint := hps k (hlen ▸ hk)
    rw [List.getD_eq_getElem _ _ hk, List.getD_eq_getElem _ _ (hlen ▸ hk)] at hpoint
    exact (pointsTo_iff hn (hxs _ (List.getElem_mem hk)) _).mp hpoint
  have hmap : xs.map (fun x => n - 1 - gfLog f x) = ps :=
    List.ext_getElem (by rw [List.length_map, hlen]) fun k hk _ => by
      rw [List.getElem_map, (hlog k (by simpa using hk)).2]
  rw [positions, if_pos, hmap]
  refine List.all_eq_true.mpr fun x hx => decide_eq_true ?_
  obtain ⟨k, hk, rfl⟩ := List.mem_iff_getElem.mp hx
  have := (hlog k hk).1
  omega

/-! ### Corrections -/

/-- Each byte gets the magnitudes of the positions that are its own (41_rs.md R206). -/
theorem getD_correct (bs : List Byte) (ps : List Nat) (ys : List Byte) (hlen : ys.length = ps.length) {j : Nat}
    (hj : j < bs.length) :
    (correct bs (ps.zip ys)).getD j 0 =
      bs.getD j 0 ^^^ xorSum ps.length fun k => if ps.getD k 0 = j then ys.getD k 0 else 0 := by
  induction ps generalizing bs ys with
  | nil => exact BitVec.xor_zero.symm
  | cons p ps ih =>
    obtain ⟨y, ys, rfl⟩ := List.exists_cons_of_length_eq_add_one hlen
    rw [List.zip_cons_cons, correct, ih _ ys (by simpa using hlen) (by rwa [List.length_set]), List.length_cons,
      xorSum_succ_left, ← BitVec.xor_assoc]
    congr 1
    simp only [List.getD_cons_zero]
    by_cases hp : p = j
    · subst hp
      rw [if_pos rfl, List.getD_eq_getElem _ _ (by rwa [List.length_set]), List.getElem_set_self]
      rfl
    · rw [if_neg hp, List.getD_eq_getElem _ _ (by rwa [List.length_set]), List.getElem_set_ne hp,
        List.getD_eq_getElem _ _ hj]
      exact BitVec.xor_zero.symm

end Sys2Proof.Machine
end

section
/-!
RS_DECODE (41_rs.md R206 to R212): its outcome on every word, check by check, and what a success leaves.
-/

namespace Sys2Proof.Machine

/-- Positions with the magnitude `g k` at number `k`, as the commit takes them (41_rs.md R206, R212). -/
def corrections (ps : List Nat) (g : Nat → Byte) : List (Nat × Byte) := ps.zip ((List.range ps.length).map g)

theorem length_corrections (ps : List Nat) (g : Nat → Byte) : (corrections ps g).length = ps.length := by
  simp [corrections]

/-! ### Checks 5 and 6 -/

section

variable {f : Field} {n twoS : Nat} {syn : List Byte} {so : List Byte × List Byte}
  (heuclid : euclid f (polyMono twoS 1) (polyTrim syn) twoS = .ok so) (hlen : so.1.length ≤ 256)
  (h0 : polyCoef so.1 0 = 1)
include heuclid hlen h0

theorem findErrors_eq_raise_five
    (hroots : (locations f (polyCoef so.1)).length ≠ Coefs.degree (polyCoef so.1)) :
    findErrors f n twoS syn = raise .checksum 5 := by
  rw [findErrors, heuclid, Except.bind, locate_eq f hlen (h0.trans_ne (by decide)), if_pos hroots]
  rfl

variable (hroots : (locations f (polyCoef so.1)).length = Coefs.degree (polyCoef so.1))
include hroots

theorem findErrors_eq_positions : findErrors f n twoS syn =
    (positions f n (locations f (polyCoef so.1))).bind fun ps =>
      .ok (ps.zip (forney f so.2 (locations f (polyCoef so.1)))) := by
  rw [findErrors, heuclid, Except.bind, locate_eq f hlen (h0.trans_ne (by decide)), if_neg (not_not_intro hroots)]
  rfl

theorem findErrors_eq_raise_six (h1 : 1 ≤ n) (hn : n ≤ 255)
    (hout : ∃ x ∈ locations f (polyCoef so.1), ∀ p, ¬PointsTo f n x p) :
    findErrors f n twoS syn = raise .checksum 6 := by
  rw [findErrors_eq_positions heuclid hlen h0 hroots,
    positions_eq_raise h1 hn (ne_zero_of_mem_locations (short_of_length_le hlen) h0) hout]
  rfl

theorem findErrors_eq_ok (hn : n ≤ 255) (homega : so.2.length ≤ 256) {ps : List Nat}
    (hps : ps.length = (locations f (polyCoef so.1)).length)
    (hpoints : ∀ k, k < ps.length → PointsTo f n ((locations f (polyCoef so.1)).getD k 0) (ps.getD k 0)) :
    findErrors f n twoS syn = .ok (corrections ps (magnitude f (polyCoef so.2)
      (locations f (polyCoef so.1)))) := by
  rw [findErrors_eq_positions heuclid hlen h0 hroots,
    positions_eq_ok hn (ne_zero_of_mem_locations (short_of_length_le hlen) h0) hps hpoints,
    forney_eq_map_magnitude f homega, corrections, hps]
  rfl

end

/-! ### The commit -/

theorem cellsFrom_zeros {vs : List Byte} (h : ∀ v ∈ vs, v = 0) (a : Nat) : cellsFrom .zero a vs = [] := by
  induction vs generalizing a with
  | nil => rfl
  | cons v vs ih =>
    obtain ⟨hv, hvs⟩ := List.forall_mem_cons.mp h
    rw [cellsFrom, hv]
    exact ih hvs (a + 1)

/-- A memory written whole with zeros is the memory of zeros. -/
theorem ofBytes_eq_zeros {vs : List Byte} (h : allZero vs = true) : Memory.ofBytes vs = Memory.zeros :=
  congrArg (Memory.mk .zero) (cellsFrom_zeros (fun v hv => beq_iff_eq.mp (List.all_eq_true.mp h v hv)) 0)

theorem byte_ofBytes_positions (ps : List Nat) (g : Nat → Byte) (k : Nat) :
    (Memory.ofBytes ((corrections ps g).map fun e => BitVec.ofNat 8 e.1)).byte k =
      if k < ps.length then BitVec.ofNat 8 (ps.getD k 0) else 0 := by
  have hmap : (corrections ps g).map (fun e => BitVec.ofNat 8 e.1) = ps.map (BitVec.ofNat 8) := by
    conv_rhs => rw [← List.map_fst_zip (l₁ := ps) (l₂ := (List.range ps.length).map g) (by simp), List.map_map]
    rfl
  rw [hmap, Memory.byte_ofBytes]
  split
  · next hk => simp [hk]
  · next hk => exact List.getD_eq_default _ _ (by simpa using hk)

theorem byte_ofBytes_magnitudes (ps : List Nat) (g : Nat → Byte) (k : Nat) :
    (Memory.ofBytes ((corrections ps g).map fun e => e.2)).byte k = if k < ps.length then g k else 0 := by
  have hmap : (corrections ps g).map (fun e => e.2) = (List.range ps.length).map g := List.map_snd_zip (by simp)
  rw [hmap, byte_ofBytes_eq_polyCoef, polyCoef_map_range]

theorem getD_correct_bytes {n : Nat} (cw : Memory) (ps : List Nat) (g : Nat → Byte) {j : Nat} (hj : j < n) :
    (correct (cw.bytes n) (corrections ps g)).getD j 0 =
      cw.byte j ^^^ xorSum ps.length fun k => if ps.getD k 0 = j then g k else 0 := by
  rw [corrections, getD_correct _ _ _ (by simp) (by rwa [Memory.length_bytes]), Memory.getD_bytes _ _ _ hj]
  refine congrArg _ (xorSum_congr fun k hk => ite_congr rfl (fun _ => ?_) fun _ => rfl)
  exact (polyCoef_map_range g ps.length k).trans (if_pos hk)

/-- The corrected bytes over those of the memory. -/
theorem byte_overwrite_correct {n : Nat} (cw : Memory) {ps : List Nat} (hps : ∀ k < ps.length, ps.getD k 0 < n)
    (g : Nat → Byte) (j : Nat) :
    (cw.overwrite 0 (correct (cw.bytes n) (corrections ps g))).byte j =
      cw.byte j ^^^ xorSum ps.length fun k => if ps.getD k 0 = j then g k else 0 := by
  rw [Memory.byte_overwrite, length_correct, Memory.length_bytes]
  by_cases hj : j < n
  · rw [if_pos ⟨Nat.zero_le j, by omega⟩, Nat.sub_zero, getD_correct_bytes cw ps g hj]
  · rw [if_neg (by omega), xorSum_eq_zero fun k hk => if_neg fun h : ps.getD k 0 = j => hj (h ▸ hps k hk)]
    exact BitVec.xor_zero.symm

theorem length_le_of_trim_of_short {a : List Byte} (ht : polyTrim a = a) (ha : Coefs.Short (polyCoef a)) :
    a.length ≤ 256 := by
  refine (length_le_of_trim ht).trans (Nat.succ_le_succ ?_)
  by_cases hz : polyIsZero a = true
  · rw [polyDeg, (polyIsZero_iff a).mp hz]
    exact Nat.zero_le _
  · by_contra hdeg
    exact polyLead_ne_zero (Bool.eq_false_iff.mpr hz) (ha _ (Nat.lt_of_not_le hdeg))

theorem polyCoef_scale_eq (f : Field) (a : List Byte) (c : Byte) :
    polyCoef (polyScale f a c) = Coefs.scale f (polyCoef a) c := funext fun k => polyCoef_scale f a c k

theorem length_scale_le_of_short (f : Field) {a : List Byte} (ha : Coefs.Short (polyCoef a)) (c : Byte) :
    (polyScale f a c).length ≤ 256 :=
  length_le_of_trim_of_short (polyTrim_polyTrim _) fun k hk => by rw [polyCoef_scale, ha k hk, gfMul_zero_left]

/-! ### The outcome on every word -/

theorem exec_rsDecode_of_not_isCodeword (f : Field) {s : State} (h1 : 1 ≤ s.argU 0) (hn : s.argU 0 ≤ 255)
    (htwo : s.argU 1 ≤ s.argU 0) (hcode : ¬IsCodeword f (s.argU 0) (s.argU 1) s.cw) :
    exec (.rsDecode f) s = finish s
      ((findErrors f (s.argU 0) (s.argU 1) (syndromes f (s.argU 1) (s.cw.bytes (s.argU 0)))).bind fun errs =>
        rsVerify f s (s.argU 1) (syndromes f (s.argU 1) (s.cw.bytes (s.argU 0))) (s.cw.bytes (s.argU 0)) errs) := by
  refine (finish_of_lengths h1 hn htwo).trans (congrArg _ (if_neg ?_))
  rwa [allZero_syndromes_iff f (htwo.trans hn)]

section

variable (f : Field) (s : State) {n twoS : Nat} (htwo : twoS ≤ 255) {ps : List Nat} {g : Nat → Byte} {v : Memory}
  (hv : ∀ j, v.byte j = s.cw.byte j ^^^ xorSum ps.length fun k => if ps.getD k 0 = j then g k else 0)
include htwo hv

/-- Check 7 looks at the corrected word (41_rs.md R211). -/
theorem allZero_syndromes_correct_iff :
    allZero (syndromes f twoS (correct (s.cw.bytes n) (corrections ps g))) = true ↔ IsCodeword f n twoS v := by
  have hlen : (correct (s.cw.bytes n) (corrections ps g)).length = n := by rw [length_correct, Memory.length_bytes]
  rw [syndromes_eq_map f htwo (v := v) fun j hj => ?_, hlen, allZero_map_codeSyndrome_iff]
  rw [getD_correct_bytes s.cw ps g (hlen ▸ hj), hv j]

theorem finish_rsVerify_of_not_isCodeword (hbad : ¬IsCodeword f n twoS v) (syn : List Byte) :
    finish s (rsVerify f s twoS syn (s.cw.bytes n) (corrections ps g)) = .next (s.complete .checksum 7) :=
  congrArg (finish s) (if_neg (mt (allZero_syndromes_correct_iff f s htwo hv).mp hbad))

/-- The commit writes the corrected word with its positions and magnitudes (41_rs.md R212). -/
theorem finish_rsVerify_of_isCodeword (hgood : IsCodeword f n twoS v) (hps : ∀ k < ps.length, ps.getD k 0 < n) :
    ∃ cw syn loc mag : Memory,
      (∀ j, cw.byte j = v.byte j) ∧ (∀ k, syn.byte k = syndromeCoefs f n twoS s.cw k) ∧
      (∀ k, loc.byte k = if k < ps.length then BitVec.ofNat 8 (ps.getD k 0) else 0) ∧
      (∀ k, mag.byte k = if k < ps.length then g k else 0) ∧
      finish s (rsVerify f s twoS (syndromes f twoS (s.cw.bytes n)) (s.cw.bytes n) (corrections ps g)) =
        .next (({ s with cw := cw, syn := syn, eloc := loc, emag := mag }.setResNat 0 ps.length).complete .ok 0) := by
  refine ⟨_, Memory.ofBytes (syndromes f twoS (s.cw.bytes n)), _, _,
    fun j => (byte_overwrite_correct s.cw hps g j).trans (hv j).symm, fun k => ?_, byte_ofBytes_positions ps g,
    byte_ofBytes_magnitudes ps g,
    (congrArg (finish s) (if_pos ((allZero_syndromes_correct_iff f s htwo hv).mpr hgood))).trans ?_⟩
  · rw [byte_ofBytes_eq_polyCoef, polyCoef_syndromes f htwo]
  · rw [rsCommit, length_corrections]
    rfl

end

/-- Settles O25: the engine's loop runs the passes, and each part of the body gives its check or its result. -/
theorem rsDecodeKeepsCodeword : Obligations.RsDecodeKeepsCodeword := by
  intro f s
  refine ⟨fun hn => finish_of_check hn, fun h1 hn htwo => ?_, fun h1 hn htwo hcode => ?_, fun h1 hn htwo hcode => ?_⟩
  · exact (finish_of_not_check (not_codeword_check h1 hn)).trans (finish_of_check htwo)
  · have hzero := (allZero_syndromes_iff f (htwo.trans hn) (s.argU 0) s.cw).mpr hcode
    refine (finish_of_lengths h1 hn htwo).trans ?_
    rw [if_pos hzero, rsCommitClean, ofBytes_eq_zeros hzero]
    rfl
  · have hpos : 1 ≤ s.argU 1 := Nat.one_le_iff_ne_zero.mpr fun h0 =>
      hcode fun i hi => absurd hi (h0 ▸ Nat.not_lt_zero i)
    have hrun := exec_rsDecode_of_not_isCodeword f h1 hn htwo hcode
    obtain ⟨rEnd, tEnd, heuclid, hpasses⟩ := exists_euclid_eq f hpos (htwo.trans hn) (s.argU 0) s.cw
    obtain ⟨hr, ht⟩ := hpasses.short (htwo.trans hn)
    refine ⟨_, _, hpasses, fun h0 => ?_, fun h0 sigma omega hsigma homega => ?_⟩
    · have hfail := heuclid.trans (if_pos h0)
      rw [hrun, findErrors, hfail]
      rfl
    · have hok := heuclid.trans (if_neg h0)
      have hlen := length_scale_le_of_short f ht (gfInv f (polyCoef tEnd 0))
      have hlen' := length_scale_le_of_short f hr (gfInv f (polyCoef tEnd 0))
      have hone : polyCoef (polyScale f tEnd (gfInv f (polyCoef tEnd 0))) 0 = 1 := by
        rw [polyCoef_scale, gfMul_gfInv f h0]
      rw [← polyCoef_scale_eq] at hsigma homega
      subst hsigma homega
      refine ⟨fun hroots => ?_, fun hroots hout => ?_, fun hroots ps hps hpoints v hv => ?_⟩
      · rw [hrun, findErrors_eq_raise_five hok hlen hone hroots]
        rfl
      · rw [hrun, findErrors_eq_raise_six hok hlen hone hroots h1 hn hout]
        rfl
      · rw [hrun, findErrors_eq_ok hok hlen hone hroots hn hlen' hps hpoints]
        exact ⟨fun hbad => finish_rsVerify_of_not_isCodeword f s (htwo.trans hn) hv hbad _, fun hgood =>
          finish_rsVerify_of_isCodeword f s (htwo.trans hn) hv hgood fun k hk => (hpoints k hk).1⟩

end Sys2Proof.Machine
end

section
/-!
What a success of RS_DECODE leaves (41_rs.md R206, R211, R212), from its outcome on every word.
-/

namespace Sys2Proof.Machine

/-- A memory can be given any bytes at its first addresses. -/
theorem exists_byte_eq (m : Memory) (n : Nat) (g : Nat → Byte) :
    ∃ v : Memory, ∀ j, v.byte j = if j < n then g j else m.byte j := by
  refine ⟨m.overwrite 0 ((List.range n).map g), fun j => ?_⟩
  have hget := polyCoef_map_range g n j
  rw [polyCoef] at hget
  rw [Memory.byte_overwrite, List.length_map, List.length_range, Nat.sub_zero, hget]
  by_cases hj : j < n <;> simp [hj]

/-- Where every location points to a byte, the positions are a list of their own (41_rs.md R210). -/
theorem exists_positions {f : Field} {n : Nat} {xs : List Byte} (h : ∀ x ∈ xs, ∃ p, PointsTo f n x p) :
    ∃ ps : List Nat, ps.length = xs.length ∧ ∀ k, k < ps.length → PointsTo f n (xs.getD k 0) (ps.getD k 0) := by
  induction xs with
  | nil => exact ⟨[], rfl, fun k hk => absurd hk (Nat.not_lt_zero k)⟩
  | cons x xs ih =>
    obtain ⟨⟨p, hp⟩, hxs⟩ := List.forall_mem_cons.mp h
    obtain ⟨ps, hlen, hps⟩ := ih hxs
    refine ⟨p :: ps, congrArg (· + 1) hlen, fun k hk => ?_⟩
    cases k with
    | zero => exact hp
    | succ k => exact hps k (Nat.lt_of_succ_lt_succ hk)

/-- The corrected word of the statements (41_rs.md R206). -/
theorem exists_corrected (cw : Memory) {n : Nat} {ps : List Nat} (hps : ∀ k < ps.length, ps.getD k 0 < n)
    (g : Nat → Byte) :
    ∃ v : Memory, ∀ j, v.byte j = cw.byte j ^^^ xorSum ps.length fun k => if ps.getD k 0 = j then g k else 0 :=
  ⟨_, byte_overwrite_correct cw hps g⟩

/-- A position inside a codeword fits in its byte of ELOC (41_rs.md R212). -/
theorem toNat_byte_position {n : Nat} (hn : n ≤ 255) {ps : List Nat} (hps : ∀ k < ps.length, ps.getD k 0 < n)
    {loc : Memory} (hloc : ∀ k, loc.byte k = if k < ps.length then BitVec.ofNat 8 (ps.getD k 0) else 0) :
    ∀ k < ps.length, (loc.byte k).toNat = ps.getD k 0 := fun k hk => by
  have hp := hps k hk
  rw [hloc, if_pos hk, BitVec.toNat_ofNat, Nat.mod_eq_of_lt (by omega)]

/-- A completion with another code is no success. -/
theorem not_ok_of_next_complete {s t : State} {r : Result} {c : Code} {k : Nat} (hr : r = .next t)
    (hfail : r = .next (s.complete c k)) (hc : c ≠ .ok) : t.code ≠ .ok := by
  cases hr.symm.trans hfail
  exact hc

/-- A success of RS_DECODE had lengths that pass their checks (41_rs.md R206). -/
theorem lengths_of_rsDecode_ok {f : Field} {s t : State} (hrun : exec (.rsDecode f) s = .next t) (hok : t.code = .ok) :
    1 ≤ s.argU 0 ∧ s.argU 0 ≤ 255 ∧ s.argU 1 ≤ s.argU 0 := by
  obtain ⟨hlen, htwo, -, -⟩ := rsDecodeKeepsCodeword f s
  have hn : ¬(s.argU 0 < 1 ∨ 255 < s.argU 0) := fun h =>
    not_ok_of_next_complete hrun (hlen h) (by decide) hok
  have h1 : 1 ≤ s.argU 0 := by omega
  have hle : s.argU 0 ≤ 255 := by omega
  exact ⟨h1, hle, Nat.le_of_not_lt fun h => not_ok_of_next_complete hrun (htwo h1 hle h) (by decide) hok⟩

/-- A success on a word that is no codeword passed checks 4 to 7, so it is the commit of a corrected word
(41_rs.md R206, R212). -/
theorem commit_of_rsDecode_ok {f : Field} {s t : State} (hrun : exec (.rsDecode f) s = .next t) (hok : t.code = .ok)
    (hcode : ¬IsCodeword f (s.argU 0) (s.argU 1) s.cw) :
    ∃ (ps : List Nat) (g : Nat → Byte) (v cw syn loc mag : Memory),
      ps.length ≤ 255 ∧ (∀ k < ps.length, ps.getD k 0 < s.argU 0) ∧
      (∀ j, v.byte j = s.cw.byte j ^^^ xorSum ps.length fun k => if ps.getD k 0 = j then g k else 0) ∧
      IsCodeword f (s.argU 0) (s.argU 1) v ∧
      (∀ j, cw.byte j = v.byte j) ∧ (∀ k, syn.byte k = syndromeCoefs f (s.argU 0) (s.argU 1) s.cw k) ∧
      (∀ k, loc.byte k = if k < ps.length then BitVec.ofNat 8 (ps.getD k 0) else 0) ∧
      (∀ k, mag.byte k = if k < ps.length then g k else 0) ∧
      t = ({ s with cw := cw, syn := syn, eloc := loc, emag := mag }.setResNat 0 ps.length).complete .ok 0 := by
  obtain ⟨h1, hn, htwo⟩ := lengths_of_rsDecode_ok hrun hok
  obtain ⟨-, -, -, hword⟩ := rsDecodeKeepsCodeword f s
  obtain ⟨rEnd, tEnd, -, hfour, hrest⟩ := hword h1 hn htwo hcode
  have h0 : tEnd 0 ≠ 0 := fun h => not_ok_of_next_complete hrun (hfour h) (by decide) hok
  obtain ⟨hfive, hsix, hseven⟩ := hrest h0 _ _ rfl rfl
  have hroots := not_ne_iff.mp fun h => not_ok_of_next_complete hrun (hfive h) (by decide) hok
  have hpoints : ∀ x ∈ locations f (tEnd.scale f (gfInv f (tEnd 0))), ∃ p, PointsTo f (s.argU 0) x p := by
    by_contra hout
    push Not at hout
    exact not_ok_of_next_complete hrun (hsix hroots hout) (by decide) hok
  obtain ⟨ps, hps, hps'⟩ := exists_positions hpoints
  have hlt : ∀ k < ps.length, ps.getD k 0 < s.argU 0 := fun k hk => (hps' k hk).1
  obtain ⟨v, hv⟩ := exists_corrected s.cw hlt (magnitude f (rEnd.scale f (gfInv f (tEnd 0)))
    (locations f (tEnd.scale f (gfInv f (tEnd 0)))))
  obtain ⟨hbad, hgood⟩ := hseven hroots ps hps hps' v hv
  have hcodev := not_not.mp fun h => not_ok_of_next_complete hrun (hbad h) (by decide) hok
  obtain ⟨cw, syn, loc, mag, hcw, hsyn, hloc, hmag, hcommit⟩ := hgood hcodev
  exact ⟨ps, _, v, cw, syn, loc, mag, hps ▸ length_locations_le f _, hlt, hv, hcodev, hcw, hsyn, hloc, hmag,
    Host.Outcome.next.inj (hrun.symm.trans hcommit)⟩

/-- Settles O26: a success is the commit of no correction on a codeword, or of a corrected word that passed check 7. -/
theorem rsDecodeSuccessIsVerified : Obligations.RsDecodeSuccessIsVerified := by
  intro f s t hrun hok
  obtain ⟨h1, hn, htwo⟩ := lengths_of_rsDecode_ok hrun hok
  by_cases hcode : IsCodeword f (s.argU 0) (s.argU 1) s.cw
  · obtain ⟨-, -, hclean, -⟩ := rsDecodeKeepsCodeword f s
    cases hrun.symm.trans (hclean h1 hn htwo hcode)
    refine ⟨0, Nat.zero_le _, hcode, fun j _ => rfl, fun j _ => BitVec.xor_zero.symm, fun k => ?_,
      fun k hk => absurd hk (Nat.not_lt_zero k), fun k _ => ⟨rfl, rfl⟩, rfl⟩
    split
    · next hk => exact (hcode k hk).symm
    · rfl
  · obtain ⟨ps, g, v, cw, syn, loc, mag, hlen, hlt, hv, hcodev, hcw, hsyn, hloc, hmag, rfl⟩ :=
      commit_of_rsDecode_ok hrun hok hcode
    have hpos := toNat_byte_position hn hlt hloc
    have hword : ∀ j, cw.byte j =
        s.cw.byte j ^^^ xorSum ps.length fun k => if (loc.byte k).toNat = j then mag.byte k else 0 := fun j => by
      rw [hcw, hv]
      exact congrArg _ (xorSum_congr fun k hk => by rw [hpos k hk, hmag, if_pos hk])
    refine ⟨ps.length, hlen, hcodev.congr fun j _ => (hcw j).symm, fun j hj => (hword j).trans ?_, fun j _ => hword j,
      hsyn, fun k hk => (hpos k hk).trans_lt (hlt k hk), fun k hk => ?_, rfl⟩
    · rw [xorSum_eq_zero fun k hk => if_neg fun h : (loc.byte k).toNat = j => ?_]
      · exact BitVec.xor_zero
      · have hp := hlt k hk
        rw [← hpos k hk, h] at hp
        omega
    · exact ⟨(hloc k).trans (if_neg hk.not_gt), (hmag k).trans (if_neg hk.not_gt)⟩

end Sys2Proof.Machine
end

section
/-!
The correction guarantee of RS_DECODE (41_rs.md R213): with at most half as many bytes changed as there are EC bytes,
the Euclidean algorithm ends with the locator and the evaluator of the changes, whose roots and values are the changes.
-/

namespace ReedSolomon

open Polynomial Sys2Proof.Machine

/-! ### The changed bytes -/

/-- The positions of the bytes that differ. -/
def changes (n : ℕ) (a b : Memory) : Finset ℕ := ((List.range n).filter fun j => a.byte j != b.byte j).toFinset

theorem mem_changes {n : ℕ} {a b : Memory} {j : ℕ} : j ∈ changes n a b ↔ j < n ∧ a.byte j ≠ b.byte j := by
  rw [changes, List.mem_toFinset, List.mem_filter, List.mem_range, bne_iff_ne]

theorem card_changes (n : ℕ) (a b : Memory) : (changes n a b).card = changedBytes n a b :=
  List.toFinset_card_of_nodup (List.nodup_range.filter _)

theorem changes_nonempty {f : Sys2Proof.Field} {n twoS : ℕ} {cw c : Memory} (hc : IsCodeword f n twoS c)
    (hcode : ¬IsCodeword f n twoS cw) : (changes n cw c).Nonempty := by
  refine Finset.nonempty_iff_ne_empty.mpr fun h => hcode (hc.congr fun j hj => ?_)
  by_contra hne
  exact Finset.notMem_empty j (h ▸ mem_changes.mpr ⟨hj, Ne.symm hne⟩)

variable {f : Sys2Proof.Field} {K : Type} [Field K] {φ : Sys2Proof.Byte ≃ K}

/-- The location of byte `j` of a codeword of length `n` (41_rs.md R210). -/
def location (φ : Sys2Proof.Byte ≃ K) (n j : ℕ) : K := φ 2 ^ (n - 1 - j)

/-- What the change of byte `j` adds to the syndromes, but for the powers of its location (41_rs.md R204). -/
def errorValue (f : Sys2Proof.Field) (φ : Sys2Proof.Byte ≃ K) (n : ℕ) (cw c : Memory) (j : ℕ) : K :=
  φ (cw.byte j ^^^ c.byte j) * location φ n j ^ genBase f

theorem gfPow_two_injective {i j : ℕ} (hi : i < 255) (hj : j < 255) (hij : gfPow f 2 i = gfPow f 2 j) : i = j := by
  rw [← gfExp_eq_gfPow f hi.le, ← gfExp_eq_gfPow f hj.le] at hij
  rw [← gfLog_gfExp f i (by omega), hij, gfLog_gfExp f j (by omega)]

theorem xor_ne_zero {a b : Sys2Proof.Byte} (h : a ≠ b) : a ^^^ b ≠ 0 := fun h0 => h (BitVec.xor_eq_zero_iff.mp h0)

section

variable (h : IsModel f φ)
include h

theorem IsModel.location_eq_iff {n j : ℕ} {a : Sys2Proof.Byte} : location φ n j = φ a ↔ gfPow f 2 (n - 1 - j) = a := by
  rw [location, ← h.map_pow, φ.apply_eq_iff_eq]

theorem IsModel.location_ne_zero {n j : ℕ} : location φ n j ≠ 0 := pow_ne_zero _ (mt h.map_eq_zero.mp (by decide))

theorem IsModel.location_injOn {n : ℕ} (hn : n ≤ 255) (cw c : Memory) :
    Set.InjOn (location φ n) (changes n cw c) := fun i hi j hj hij => by
  have hi := (mem_changes.mp (Finset.mem_coe.mp hi)).1
  have hj := (mem_changes.mp (Finset.mem_coe.mp hj)).1
  have hpow : gfPow f 2 (n - 1 - i) = gfPow f 2 (n - 1 - j) := φ.injective (by rwa [h.map_pow, h.map_pow])
  have hexp : n - 1 - i = n - 1 - j := gfPow_two_injective (f := f) (by omega) (by omega) hpow
  omega

theorem IsModel.errorValue_ne_zero {n : ℕ} {cw c : Memory} : ∀ j ∈ changes n cw c, errorValue f φ n cw c j ≠ 0 :=
  fun _ hj => mul_ne_zero (mt h.map_eq_zero.mp (xor_ne_zero (mem_changes.mp hj).2)) (pow_ne_zero _ h.location_ne_zero)

/-! ### The syndromes of the changes -/

theorem IsModel.map_codeSyndrome {n twoS : ℕ} {cw c : Memory} (hc : IsCodeword f n twoS c) {k : ℕ} (hk : k < twoS) :
    φ (codeSyndrome f n cw k) = ∑ j ∈ changes n cw c, errorValue f φ n cw c j * location φ n j ^ k := by
  have hsum : φ (codeSyndrome f n cw k) =
      ∑ j ∈ Finset.range n, errorValue f φ n cw c j * location φ n j ^ k := by
    rw [← add_zero (φ _), ← h.map_zero, ← hc k hk, codeSyndrome, codeSyndrome, h.map_xorSum, h.map_xorSum,
      ← Finset.sum_add_distrib]
    refine Finset.sum_congr rfl fun j _ => ?_
    rw [h.map_mul, h.map_mul, h.map_pow, h.map_pow, errorValue, h.map_xor, location]
    ring
  rw [hsum]
  refine (Finset.sum_subset (fun j hj => Finset.mem_range.mpr (mem_changes.mp hj).1) fun j hj hnot => ?_).symm
  have heq : cw.byte j = c.byte j := by
    by_contra hne
    exact hnot (mem_changes.mpr ⟨Finset.mem_range.mp hj, hne⟩)
  have hzero : φ (cw.byte j ^^^ c.byte j) = 0 := h.map_eq_zero.mpr (heq ▸ BitVec.xor_self)
  rw [errorValue, hzero, zero_mul, zero_mul]

theorem IsModel.isPoly_syndromeCoefs {n twoS : ℕ} {cw c : Memory} (hc : IsCodeword f n twoS c) :
    IsPoly φ (syndromeCoefs f n twoS cw)
      (syndromePoly (changes n cw c) (location φ n) (errorValue f φ n cw c) twoS) := fun k => by
  rw [syndromePoly, finsetSum_coeff, syndromeCoefs]
  simp only [coeff_C_mul_X_pow, Finset.sum_ite_eq, Finset.mem_range]
  split
  · next hk => exact (h.map_codeSyndrome hc hk).symm
  · exact h.map_zero.symm

/-- Two codewords differ in no byte, or in more than half as many as there are EC bytes. -/
theorem IsModel.changes_eq_empty {n twoS : ℕ} (hn : n ≤ 255) {cw c : Memory} (hc : IsCodeword f n twoS c)
    (hcode : IsCodeword f n twoS cw) (hle : changedBytes n cw c ≤ twoS) : changes n cw c = ∅ := by
  by_contra hne
  refine syndromePoly_ne_zero _ _ (errorValue f φ n cw c) (Finset.nonempty_iff_ne_empty.mpr hne)
    (fun _ _ => h.location_ne_zero) (h.location_injOn hn cw c) h.errorValue_ne_zero
    ((card_changes n cw c).trans_le hle) ((h.isPoly_syndromeCoefs hc).eq_zero_iff h |>.mpr fun k => ?_)
  rw [syndromeCoefs]
  split
  · next hk => exact hcode k hk
  · rfl

/-- The algorithm ends with the locator and the evaluator of the changes, up to a constant (41_rs.md R207). -/
theorem IsModel.isPoly_locator_evaluator {n twoS : ℕ} (hn : n ≤ 255) (htwo : twoS ≤ n) {cw c : Memory}
    (hc : IsCodeword f n twoS c) (hcode : ¬IsCodeword f n twoS cw) (hle : changedBytes n cw c ≤ twoS / 2) {rEnd tEnd : Coefs}
    (hpasses : Euclid f twoS (powerCoefs twoS) (syndromeCoefs f n twoS cw) (fun _ => 0) (powerCoefs 0) rEnd tEnd) :
    tEnd 0 ≠ 0 ∧
      IsPoly φ (tEnd.scale f (gfInv f (tEnd 0))) (locator (changes n cw c) (location φ n)) ∧
      IsPoly φ (rEnd.scale f (gfInv f (tEnd 0)))
        (evaluator (changes n cw c) (location φ n) (errorValue f φ n cw c)) := by
  obtain ⟨R, T, hR, hT, hres⟩ := h.exists_euclidResult (htwo.trans hn) (fun k hk => if_neg hk.not_gt)
    (h.isPoly_syndromeCoefs hc) hpasses
  obtain ⟨a, ha, rfl, rfl⟩ := hres.eq_const_mul (changes_nonempty hc hcode) (fun _ _ => h.location_ne_zero)
    (h.location_injOn hn cw c) h.errorValue_ne_zero (by rw [card_changes]; omega)
  have h0 : φ (tEnd 0) = a := by rw [← hT 0, mul_coeff_zero, coeff_C_zero, coeff_zero_locator, mul_one]
  have hne : tEnd 0 ≠ 0 := fun hzero => ha (by rw [← h0, hzero, h.map_zero])
  have hinv : ∀ p : K[X], C (φ (gfInv f (tEnd 0))) * (C a * p) = p := fun p => by
    rw [h.map_inv hne, h0, ← mul_assoc, ← C_mul, inv_mul_cancel₀ ha, C_1, one_mul]
  have hsigma := hT.scale h (gfInv f (tEnd 0))
  have homega := hR.scale h (gfInv f (tEnd 0))
  rw [hinv] at hsigma homega
  exact ⟨hne, hsigma, homega⟩

end

end ReedSolomon
end

section
/-!
RS_DECODE restores a codeword with few changed bytes (41_rs.md R213): the locations it finds point to the changed bytes,
and its magnitudes are the changes.
-/

namespace Sys2Proof.Machine

/-- Locations are the powers of the generating element that their positions say (41_rs.md R210). -/
theorem eq_map_of_pointsTo {f : Field} {n : Nat} {xs : List Byte} {ps : List Nat} (hlen : ps.length = xs.length)
    (hps : ∀ k, k < ps.length → PointsTo f n (xs.getD k 0) (ps.getD k 0)) :
    xs = ps.map fun p => gfPow f 2 (n - 1 - p) :=
  List.ext_getElem (by rw [List.length_map, hlen]) fun k hk _ => by
    have hpow := (hps k (hlen ▸ hk)).2
    rw [List.getD_eq_getElem _ _ hk, List.getD_eq_getElem _ _ (hlen ▸ hk)] at hpow
    rw [List.getElem_map, hpow]

theorem lt_of_mem_positions {f : Field} {n : Nat} {xs : List Byte} {ps : List Nat}
    (hps : ∀ k, k < ps.length → PointsTo f n (xs.getD k 0) (ps.getD k 0)) {p : Nat} (hp : p ∈ ps) : p < n := by
  obtain ⟨k, hk, rfl⟩ := List.mem_iff_getElem.mp hp
  have hlt := (hps k hk).1
  rwa [List.getD_eq_getElem _ _ hk] at hlt

theorem nodup_positions {f : Field} {n : Nat} {sigma : Coefs} {ps : List Nat}
    (hlen : ps.length = (locations f sigma).length)
    (hps : ∀ k, k < ps.length → PointsTo f n ((locations f sigma).getD k 0) (ps.getD k 0)) : ps.Nodup := by
  have hnodup := nodup_locations f sigma
  rw [eq_map_of_pointsTo hlen hps] at hnodup
  exact hnodup.of_map _

theorem getD_mem {α : Type} {l : List α} {k : Nat} (hk : k < l.length) (d : α) : l.getD k d ∈ l := by
  rw [List.getD_eq_getElem _ _ hk]
  exact List.getElem_mem hk

/-- Of distinct positions, each gets its own magnitude once. -/
theorem xorSum_positions {ps : List Nat} (hps : ps.Nodup) (g : Nat → Byte) (j : Nat) :
    (xorSum ps.length fun k => if ps.getD k 0 = j then g (ps.getD k 0) else 0) = if j ∈ ps then g j else 0 := by
  induction ps with
  | nil => rfl
  | cons p ps ih =>
    obtain ⟨hp, hps⟩ := List.nodup_cons.mp hps
    rw [List.length_cons, xorSum_succ_left]
    simp only [List.getD_cons_zero, List.getD_cons_succ]
    rw [ih hps]
    by_cases hj : p = j
    · subst hj
      rw [if_pos rfl, if_neg hp, if_pos List.mem_cons_self]
      exact BitVec.xor_zero
    · rw [if_neg hj]
      simp only [List.mem_cons, Ne.symm hj, false_or]
      exact BitVec.zero_xor

end Sys2Proof.Machine

namespace ReedSolomon

open Polynomial Sys2Proof.Machine

variable {f : Sys2Proof.Field} {K : Type} [Field K] {φ : Sys2Proof.Byte ≃ K} (h : IsModel f φ)
include h

/-- The denominator of Forney's formula (41_rs.md R209). -/
theorem IsModel.map_otherFactors (xs : List Sys2Proof.Byte) {k : ℕ} (hk : xs.getD k 0 ≠ 0) :
    φ (otherFactors f xs k) =
      ∏ j ∈ Finset.range xs.length with j ≠ k, (φ (xs.getD j 0) * (φ (xs.getD k 0))⁻¹ + 1) := by
  rw [otherFactors, Finset.prod_filter]
  generalize xs.length = m
  induction m with
  | zero => exact h.map_one
  | succ m ih =>
    rw [List.range_succ, List.foldl_append, Finset.prod_range_succ, ← ih, List.foldl_cons, List.foldl_nil]
    by_cases hm : m = k
    · rw [if_pos hm, if_neg (not_not_intro hm), mul_one]
    · rw [if_neg hm, if_pos hm, h.map_mul, h.map_xor, h.map_mul, h.map_inv hk, h.map_one]

variable {n : ℕ} (hn : n ≤ 255) {cw c : Memory}
include hn

theorem IsModel.natDegree_locator_changes :
    (locator (changes n cw c) (location φ n)).natDegree = changedBytes n cw c ∧ changedBytes n cw c ≤ 255 := by
  refine ⟨(natDegree_locator _ _ fun _ _ => h.location_ne_zero).trans (card_changes n cw c), ?_⟩
  refine (List.length_filter_le _ _).trans ?_
  rwa [List.length_range]

variable {sigma : Coefs} (hsigma : IsPoly φ sigma (locator (changes n cw c) (location φ n)))
include hsigma

/-- The locations are those of the changed bytes. -/
theorem IsModel.mem_locations_iff {a : Sys2Proof.Byte} :
    a ∈ locations f sigma ↔ ∃ j ∈ changes n cw c, PointsTo f n a j := by
  obtain ⟨hdeg, hle⟩ := h.natDegree_locator_changes hn (cw := cw) (c := c)
  have hlt : (locator (changes n cw c) (location φ n)).natDegree < 256 := by omega
  have h0 : sigma 0 = 1 := φ.injective (by rw [← hsigma 0, coeff_zero_locator, h.map_one])
  rw [mem_locations (hsigma.short h hlt) h0]
  constructor
  · rintro ⟨ha, hroot⟩
    rw [← h.map_eq_zero, hsigma.eval_eq h hlt, h.map_inv ha, eval_locator, Finset.prod_eq_zero_iff] at hroot
    obtain ⟨j, hj, hfactor⟩ := hroot
    refine ⟨j, hj, (mem_changes.mp hj).1, h.location_eq_iff.mp ?_⟩
    exact (mul_inv_eq_one₀ (mt h.map_eq_zero.mp ha)).mp (sub_eq_zero.mp hfactor).symm
  · rintro ⟨j, hj, -, hpow⟩
    have hloc := h.location_eq_iff.mpr hpow
    have hφa : φ a ≠ 0 := hloc ▸ h.location_ne_zero
    have ha : a ≠ 0 := mt h.map_eq_zero.mpr hφa
    refine ⟨ha, ?_⟩
    rw [← h.map_eq_zero, hsigma.eval_eq h hlt, h.map_inv ha, eval_locator]
    exact Finset.prod_eq_zero hj (by rw [hloc, mul_inv_cancel₀ hφa, sub_self])

variable {ps : List ℕ} (hlen : ps.length = (locations f sigma).length)
  (hps : ∀ k, k < ps.length → PointsTo f n ((locations f sigma).getD k 0) (ps.getD k 0))
include hlen hps

/-- The positions are those of the changed bytes. -/
theorem IsModel.mem_positions_iff {j : ℕ} : j ∈ ps ↔ j ∈ changes n cw c := by
  have hmap := eq_map_of_pointsTo hlen hps
  have hinj : ∀ {i j}, i < n → j < n → gfPow f 2 (n - 1 - i) = gfPow f 2 (n - 1 - j) → i = j := fun hi hj hij => by
    have := gfPow_two_injective (f := f) (by omega) (by omega) hij
    omega
  constructor
  · intro hj
    have hmem : gfPow f 2 (n - 1 - j) ∈ locations f sigma := hmap ▸ List.mem_map_of_mem hj
    obtain ⟨i, hi, hin, hpow⟩ := (h.mem_locations_iff hn hsigma).mp hmem
    rwa [← hinj hin (lt_of_mem_positions hps hj) hpow]
  · intro hj
    have hjn := (mem_changes.mp hj).1
    have hmem := (h.mem_locations_iff hn hsigma).mpr ⟨j, hj, hjn, rfl⟩
    rw [hmap] at hmem
    obtain ⟨p, hp, hpow⟩ := List.mem_map.mp hmem
    rwa [← hinj (lt_of_mem_positions hps hp) hjn hpow]

theorem IsModel.length_positions : ps.length = changedBytes n cw c := by
  have hset : ps.toFinset = changes n cw c := Finset.ext fun j =>
    List.mem_toFinset.trans (h.mem_positions_iff hn hsigma hlen hps)
  rw [← card_changes, ← hset, List.toFinset_card_of_nodup (nodup_positions hlen hps)]

/-- The denominator is what the other factors of the locator are at the location's root. -/
theorem IsModel.map_otherFactors_locations {k : ℕ} (hk : k < ps.length) :
    φ (otherFactors f (locations f sigma) k) = ∏ j ∈ (changes n cw c).erase (ps.getD k 0),
      (1 - location φ n j * (location φ n (ps.getD k 0))⁻¹) := by
  have hloc : ∀ i < ps.length, φ ((locations f sigma).getD i 0) = location φ n (ps.getD i 0) := fun i hi =>
    (h.location_eq_iff.mpr (hps i hi).2).symm
  have hne : (locations f sigma).getD k 0 ≠ 0 := mt h.map_eq_zero.mpr (hloc k hk ▸ h.location_ne_zero)
  have hinj : ∀ i < ps.length, ∀ j < ps.length, ps.getD i 0 = ps.getD j 0 → i = j := fun i hi j hj hij => by
    rw [List.getD_eq_getElem _ _ hi, List.getD_eq_getElem _ _ hj] at hij
    exact (nodup_positions hlen hps).getElem_inj_iff.mp hij
  rw [h.map_otherFactors _ hne, ← hlen]
  refine Finset.prod_nbij (fun i => ps.getD i 0) (fun i hi => ?_) (fun i hi j hj hij => ?_) (fun p hp => ?_)
    fun i hi => ?_
  · obtain ⟨hi, hik⟩ := Finset.mem_filter.mp hi
    have hi := Finset.mem_range.mp hi
    exact Finset.mem_erase.mpr ⟨fun heq => hik (hinj i hi k hk heq),
      (h.mem_positions_iff hn hsigma hlen hps).mp (getD_mem hi 0)⟩
  · exact hinj i (Finset.mem_range.mp (Finset.mem_filter.mp hi).1) j
      (Finset.mem_range.mp (Finset.mem_filter.mp hj).1) hij
  · obtain ⟨hpk, hp⟩ := Finset.mem_erase.mp (Finset.mem_coe.mp hp)
    obtain ⟨i, hi, rfl⟩ := List.mem_iff_getElem.mp ((h.mem_positions_iff hn hsigma hlen hps).mpr hp)
    rw [← List.getD_eq_getElem _ 0 hi] at hpk ⊢
    exact ⟨i, Finset.mem_coe.mpr (Finset.mem_filter.mpr ⟨Finset.mem_range.mpr hi, fun hik => hpk (hik ▸ rfl)⟩), rfl⟩
  · have hi := Finset.mem_range.mp (Finset.mem_filter.mp hi).1
    rw [hloc i hi, hloc k hk, sub_eq_add_neg, h.neg_eq, add_comm]

/-- Forney's formula gives the changes (41_rs.md R209). -/
theorem IsModel.magnitude_eq {omega : Coefs}
    (homega : IsPoly φ omega (evaluator (changes n cw c) (location φ n) (errorValue f φ n cw c)))
    (hne : (changes n cw c).Nonempty) {k : ℕ} (hk : k < ps.length) :
    magnitude f omega (locations f sigma) k = cw.byte (ps.getD k 0) ^^^ c.byte (ps.getD k 0) := by
  have hloc : φ ((locations f sigma).getD k 0) = location φ n (ps.getD k 0) := (h.location_eq_iff.mpr (hps k hk).2).symm
  have hx : location φ n (ps.getD k 0) ≠ 0 := h.location_ne_zero
  have hne0 : (locations f sigma).getD k 0 ≠ 0 := mt h.map_eq_zero.mpr (hloc ▸ hx)
  have hmem := (h.mem_positions_iff hn hsigma hlen hps).mp (getD_mem hk 0)
  have hlt : (evaluator (changes n cw c) (location φ n) (errorValue f φ n cw c)).natDegree < 256 := by
    have hcard := natDegree_evaluator_lt _ (location φ n) (errorValue f φ n cw c) hne
    have hle := (h.natDegree_locator_changes hn (cw := cw) (c := c)).2
    rw [card_changes] at hcard
    omega
  have hden := h.map_otherFactors_locations hn hsigma hlen hps hk
  have hvalue := eval_evaluator _ (location φ n) (errorValue f φ n cw c) hmem hx
  have hvalue0 := eval_evaluator_ne_zero _ (location φ n) (errorValue f φ n cw c) (fun _ _ => h.location_ne_zero)
    (h.location_injOn hn cw c) h.errorValue_ne_zero hmem
  rw [← hden] at hvalue
  have hden0 : φ (otherFactors f (locations f sigma) k) ≠ 0 := fun h0 => hvalue0 (by rw [hvalue, h0, mul_zero])
  have hquot : φ (gfMul f (omega.eval f (gfInv f ((locations f sigma).getD k 0)))
      (gfInv f (otherFactors f (locations f sigma) k))) = errorValue f φ n cw c (ps.getD k 0) := by
    rw [h.map_mul, homega.eval_eq h hlt, h.map_inv hne0, hloc, hvalue, h.map_inv (mt h.map_eq_zero.mpr hden0),
      mul_assoc, mul_inv_cancel₀ hden0, mul_one]
  refine φ.injective ?_
  unfold magnitude
  rw [h.map_mul, hquot, errorValue]
  cases f with
  | qr =>
    change _ * location φ n _ ^ 0 * φ 1 = _
    rw [pow_zero, mul_one, h.map_one, mul_one]
  | dm =>
    change _ * location φ n _ ^ 1 * φ (gfInv .dm _) = _
    rw [h.map_inv hne0, hloc, pow_one, mul_assoc, mul_inv_cancel₀ hx, mul_one]

end ReedSolomon

namespace Sys2Proof.Machine

/-- The commit of RS_DECODE where few bytes were changed, from its outcome on every word (41_rs.md R212, R213). -/
theorem exec_rsDecode_of_few_changes {f : Field} {s : State} {c : Memory} (h1 : 1 ≤ s.argU 0) (hn : s.argU 0 ≤ 255)
    (htwo : s.argU 1 ≤ s.argU 0) (hc : IsCodeword f (s.argU 0) (s.argU 1) c)
    (hcode : ¬IsCodeword f (s.argU 0) (s.argU 1) s.cw) (hle : changedBytes (s.argU 0) s.cw c ≤ s.argU 1 / 2) :
    ∃ (ps : List Nat) (v syn loc mag : Memory),
      ps.length = changedBytes (s.argU 0) s.cw c ∧ (∀ j, j ∈ ps ↔ j < s.argU 0 ∧ s.cw.byte j ≠ c.byte j) ∧
      (∀ j, v.byte j = if j < s.argU 0 then c.byte j else s.cw.byte j) ∧
      (∀ k, syn.byte k = syndromeCoefs f (s.argU 0) (s.argU 1) s.cw k) ∧
      (∀ k, loc.byte k = if k < ps.length then BitVec.ofNat 8 (ps.getD k 0) else 0) ∧
      (∀ k, mag.byte k = if k < ps.length then s.cw.byte (ps.getD k 0) ^^^ c.byte (ps.getD k 0) else 0) ∧
      exec (.rsDecode f) s =
        .next (({ s with cw := v, syn := syn, eloc := loc, emag := mag }.setResNat 0 ps.length).complete .ok 0) := by
  obtain ⟨K, _, φ, hφ⟩ := ReedSolomon.exists_isModel f
  obtain ⟨-, -, -, hword⟩ := rsDecodeKeepsCodeword f s
  obtain ⟨rEnd, tEnd, hpasses, -, hrest⟩ := hword h1 hn htwo hcode
  obtain ⟨h0, hsigma, homega⟩ := hφ.isPoly_locator_evaluator hn htwo hc hcode hle hpasses
  obtain ⟨-, -, hseven⟩ := hrest h0 _ _ rfl rfl
  obtain ⟨ps, hlen, hps⟩ := exists_positions (f := f) (n := s.argU 0) fun a ha =>
    ((hφ.mem_locations_iff hn hsigma).mp ha).imp fun _ hj => hj.2
  have hmem : ∀ j, j ∈ ps ↔ j < s.argU 0 ∧ s.cw.byte j ≠ c.byte j := fun j =>
    (hφ.mem_positions_iff hn hsigma hlen hps).trans ReedSolomon.mem_changes
  have hlength := hφ.length_positions hn hsigma hlen hps
  have hmag : ∀ k < ps.length, _ = s.cw.byte (ps.getD k 0) ^^^ c.byte (ps.getD k 0) := fun k hk =>
    hφ.magnitude_eq hn hsigma hlen hps homega (ReedSolomon.changes_nonempty hc hcode) hk
  have hroots : (locations f (tEnd.scale f (gfInv f (tEnd 0)))).length =
      (tEnd.scale f (gfInv f (tEnd 0))).degree := by
    obtain ⟨hdeg, hlt⟩ := hφ.natDegree_locator_changes hn (cw := s.cw) (c := c)
    rw [hsigma.degree_eq hφ (by omega), hdeg, ← hlen, hlength]
  obtain ⟨v, hv⟩ := exists_byte_eq s.cw (s.argU 0) c.byte
  have hcorrected : ∀ j, v.byte j = s.cw.byte j ^^^ xorSum ps.length fun k => if ps.getD k 0 = j then
      magnitude f (rEnd.scale f (gfInv f (tEnd 0))) (locations f (tEnd.scale f (gfInv f (tEnd 0)))) k else 0 := by
    intro j
    rw [xorSum_congr fun k hk => by rw [hmag k hk],
      xorSum_positions (nodup_positions hlen hps) fun p => s.cw.byte p ^^^ c.byte p, hv]
    by_cases hj : j ∈ ps
    · rw [if_pos ((hmem j).mp hj).1, if_pos hj, ← BitVec.xor_assoc, BitVec.xor_self]
      exact BitVec.zero_xor.symm
    · rw [if_neg hj]
      refine .trans ?_ BitVec.xor_zero.symm
      split
      · next hjn => exact (not_not.mp fun hne => hj ((hmem j).mpr ⟨hjn, hne⟩)).symm
      · rfl
  have hgood : IsCodeword f (s.argU 0) (s.argU 1) v := hc.congr fun j hj => ((hv j).trans (if_pos hj)).symm
  obtain ⟨cw, syn, loc, mag, hcw, hsyn, hloc, hmag', hrun⟩ := (hseven hroots ps hlen hps v hcorrected).2 hgood
  exact ⟨ps, cw, syn, loc, mag, hlength, hmem, fun j => (hcw j).trans (hv j), hsyn, hloc,
    fun k => (hmag' k).trans (ite_congr rfl (hmag k) fun _ => rfl), hrun⟩

/-- Settles O27: on a codeword nothing is changed, and on another word the algorithm finds the changes. -/
theorem rsDecodeCorrectsErrors : Obligations.RsDecodeCorrectsErrors := by
  intro f s c e h1 hn htwo hc he hle
  subst he
  by_cases hcode : IsCodeword f (s.argU 0) (s.argU 1) s.cw
  · obtain ⟨K, _, φ, hφ⟩ := ReedSolomon.exists_isModel f
    have hempty := hφ.changes_eq_empty hn hc hcode (hle.trans (Nat.div_le_self _ _))
    have hzero : changedBytes (s.argU 0) s.cw c = 0 := by rw [← ReedSolomon.card_changes, hempty, Finset.card_empty]
    have heq : ∀ j < s.argU 0, s.cw.byte j = c.byte j := fun j hj => by
      by_contra hne
      exact Finset.notMem_empty j (hempty ▸ ReedSolomon.mem_changes.mpr ⟨hj, hne⟩)
    obtain ⟨-, -, hclean, -⟩ := rsDecodeKeepsCodeword f s
    rw [hzero]
    refine ⟨s.cw, Memory.zeros, Memory.zeros, Memory.zeros, fun k => ?_, fun k => ?_, fun j hj => ?_,
      fun k hk => absurd hk (Nat.not_lt_zero k), fun k _ => ⟨rfl, rfl⟩, hclean h1 hn htwo hcode⟩
    · split
      · next hk => exact heq k hk
      · rfl
    · split
      · next hk => exact (hcode k hk).symm
      · rfl
    · exact iff_of_false (fun ⟨k, hk, _⟩ => absurd hk (Nat.not_lt_zero k)) (not_not_intro (heq j hj))
  · obtain ⟨ps, v, syn, loc, mag, hlen, hmem, hv, hsyn, hloc, hmag, hrun⟩ :=
      exec_rsDecode_of_few_changes h1 hn htwo hc hcode hle
    have hlt : ∀ k < ps.length, ps.getD k 0 < s.argU 0 := fun k hk => ((hmem _).mp (getD_mem hk 0)).1
    have hpos := toNat_byte_position hn hlt hloc
    rw [← hlen]
    refine ⟨v, syn, loc, mag, hv, hsyn, fun j hj => ?_, fun k hk => ?_, fun k hk => ?_, hrun⟩
    · rw [show s.cw.byte j ≠ c.byte j ↔ j ∈ ps from ((hmem j).trans (and_iff_right hj)).symm]
      constructor
      · rintro ⟨k, hk, rfl⟩
        exact hpos k hk ▸ getD_mem hk 0
      · intro hmemj
        obtain ⟨k, hk, hkj⟩ := List.mem_iff_getElem.mp hmemj
        exact ⟨k, hk, (hpos k hk).trans ((List.getD_eq_getElem _ _ hk).trans hkj)⟩
    · rw [hpos k hk, hmag, if_pos hk]
      exact ⟨hlt k hk, rfl⟩
    · exact ⟨(hloc k).trans (if_neg hk.not_gt), (hmag k).trans (if_neg hk.not_gt)⟩

end Sys2Proof.Machine
end

section
/-!
The BitArray commands (42_bitarray.md R250 to R264): their numbered checks, and what they do bit by bit.
-/

namespace Sys2Proof.Machine

/-! ### Operand checks -/

/-- An index inside the array passes its check (42_bitarray.md R251). -/
theorem not_inRange_eq_false_iff (i : Int) (n : Nat) : ¬inRange i n = false ↔ 0 ≤ i ∧ i < n := by
  simp [inRange]

/-- An index outside the array fails its check (42_bitarray.md R251). -/
theorem inRange_eq_false_iff (i : Int) (n : Nat) : inRange i n = false ↔ i < 0 ∨ n ≤ i := by
  rw [← not_iff_not, not_inRange_eq_false_iff]
  omega

/-- A range fails its check where it is not `0 ≤ start ≤ end ≤ S` (42_bitarray.md R251). -/
theorem State.rangeBad_iff (s : State) :
    s.rangeBad = true ↔ s.argS 0 < 0 ∨ s.argS 1 < s.argS 0 ∨ s.size < s.argS 1 := by
  simp [State.rangeBad, or_assoc]

/-! ### Results -/

/-- A bit is written to a result register with zeros above it. -/
theorem State.setResNat_bool (s : State) (i : Fin 8) (b : Bool) :
    s.setResNat i b.toNat = s.setRes i (if b then 1 else 0) := by
  cases b <;> rfl

/-- The test of a range asks every bit of it (42_bitarray.md R261). -/
theorem State.rangeIs_iff (s : State) (b : Bool) (start stop : Nat) :
    s.rangeIs b start stop = true ↔ ∀ j, start ≤ j → j < stop → s.row.bit j = b := by
  simp only [State.rangeIs, List.all_eq_true, List.mem_range'_1, beq_iff_eq]
  exact ⟨fun h j h1 h2 => h j (by omega), fun h j hj => h j hj.1 (by omega)⟩

/-- A bit of number 0 or 1 is 1 just where its number is. -/
theorem eq_beq_one_iff {n : Nat} (hn : n ≤ 1) (b : Bool) : b = (n == 1) ↔ b.toNat = n := by
  interval_cases n <;> cases b <;> decide

/-- What the scan finds: the first bit equal to `b` from `start` on inside the array, or S (42_bitarray.md R262,
R263). -/
theorem State.scan_spec (s : State) (b : Bool) (start : Nat) :
    s.scan b start ≤ s.size ∧ (s.size ≤ start → s.scan b start = s.size) ∧
      (start < s.size → start ≤ s.scan b start ∧ (∀ j, start ≤ j → j < s.scan b start → s.row.bit j = !b) ∧
        (s.scan b start < s.size → s.row.bit (s.scan b start) = b)) := by
  have hspec := firstBit_spec s.row.bit b start (s.size - start)
  unfold State.scan
  cases hf : firstBit s.row.bit b start (s.size - start) with
  | none =>
    rw [hf] at hspec
    exact ⟨Nat.le_refl _, fun _ => rfl, fun hlt => ⟨hlt.le, fun j h1 h2 => hspec j h1 (by simp at h2; omega),
      fun h => absurd h (Nat.lt_irrefl _)⟩⟩
  | some q =>
    rw [hf] at hspec
    obtain ⟨hge, hlt, hq, hbefore⟩ := hspec
    exact ⟨by simp; omega, fun h => by omega, fun _ => ⟨hge, hbefore, fun _ => hq⟩⟩

/-! ### The commands -/

/-- Settles O28: one bit of the row is read, or written by `setBit`. -/
theorem baSingleBits : Obligations.BaSingleBits := by
  intro s
  refine ⟨fun hout => ?_, fun h0 hlt => ?_⟩
  · have hout' := (inRange_eq_false_iff _ _).mpr hout
    exact ⟨finish_of_check hout', finish_of_check hout', finish_of_check hout'⟩
  · have hin := (not_inRange_eq_false_iff _ _).mpr ⟨h0, hlt⟩
    refine ⟨?_, ⟨_, fun j => s.row.bit_setBit (s.argU 0) j true, finish_of_not_check hin⟩,
      ⟨_, fun j => ?_, finish_of_not_check hin⟩⟩
    · rw [← State.setResNat_bool]
      exact finish_of_not_check hin
    · rw [Memory.bit_setBit]
      split
      · next h => rw [h]
      · rfl

/-- Settles O29: the range is filled by `setBits`, and its test asks every bit of it. -/
theorem baRanges : Obligations.BaRanges := by
  intro s
  refine ⟨fun hbad => ?_, fun h0 h01 h1 => ?_⟩
  · have hbad' := s.rangeBad_iff.mpr hbad
    exact ⟨finish_of_check hbad', finish_of_check hbad'⟩
  · have hok : ¬s.rangeBad = true := by rw [s.rangeBad_iff]; omega
    have hle := (State.argU_le_of_not_rangeBad hok).1
    have htest (hv : s.argU 2 ≤ 1) {r : Word}
        (hr : (if s.rangeIs (s.argU 2 == 1) (s.argU 0) (s.argU 1) then 1 else 0) = r) :
        exec .baIsrange s = .next ((s.setRes 0 r).complete .ok 0) := by
      rw [← hr, ← State.setResNat_bool]
      exact (finish_of_not_check hok).trans (finish_of_not_check hv.not_gt)
    refine ⟨⟨_, fun j => ?_, finish_of_not_check hok⟩,
      fun hv => (finish_of_not_check hok).trans (finish_of_check hv), fun hv hall => ?_, fun hv ⟨j, hj0, hj1, hj⟩ => ?_⟩
    · rw [Memory.bit_setBits, Nat.add_sub_cancel' hle]
    · refine htest hv (if_pos ((s.rangeIs_iff _ _ _).mpr fun j hj0 hj1 => ?_))
      exact (eq_beq_one_iff hv _).mpr (hall j hj0 hj1)
    · refine htest hv (if_neg fun hall => hj ?_)
      exact (eq_beq_one_iff hv _).mp ((s.rangeIs_iff _ _ _).mp hall j hj0 hj1)

/-- Settles O30, by what the scan finds. -/
theorem baScansFindFirst : Obligations.BaScansFindFirst := by
  intro s
  refine ⟨fun hneg => ⟨finish_of_check hneg, finish_of_check hneg⟩, fun h0 b => ?_⟩
  obtain ⟨hle, hpast, hfound⟩ := s.scan_spec b (s.argU 0)
  refine ⟨_, hle, hpast, hfound, ?_⟩
  cases b <;> exact finish_of_not_check h0.not_gt

/-- Settles O31: ROW_MEM is written whole, from zeros or from the reversed bits. -/
theorem baWholeArray : Obligations.BaWholeArray := by
  intro s
  refine ⟨rfl, fun hbad => finish_of_check hbad, fun h0 hmax => ?_, ⟨_, fun j => ?_, rfl⟩⟩
  · have hsize : BitVec.ofNat 13 (s.argU 0) = s.arg[0].setWidth 13 := BitVec.ofNat_toNat _ _
    rw [← hsize]
    exact finish_of_not_check (not_or.mpr ⟨h0.not_gt, hmax.not_gt⟩)
  · rw [Memory.bit_ofBytes_bytesOfBits, State.reversedBit]
    by_cases hj : j < s.size
    · have hbyte : j < 8 * ((s.size + 7) / 8) := by omega
      simp [hj, hbyte]
    · simp [hj]

end Sys2Proof.Machine
end

section
/-!
The padding of the BitArray is read by no scan, no run and no quiet zone (42_bitarray.md R252; 45_matcher.md R381,
R386), and so by no decoding procedure of the matcher (45_matcher.md R387 to R397).
-/

namespace Sys2Proof.Machine

/-! ### Loops over the bits of a row read the stretch they are given -/

theorem firstBit_congr {g g' : Nat → Bool} {b : Bool} {i n : Nat} (h : ∀ j, i ≤ j → j < i + n → g' j = g j) :
    firstBit g' b i n = firstBit g b i n := by
  induction n generalizing i with
  | zero => rfl
  | succ n ih => rw [firstBit, firstBit, h i (by omega) (by omega), ih fun j h1 h2 => h j (by omega) (by omega)]

theorem runsFrom_congr {g g' : Nat → Bool} {p len : Nat} {b : Bool} {i n : Nat}
    (h : ∀ j, i ≤ j → j < i + n → g' j = g j) : runsFrom g' p len b i n = runsFrom g p len b i n := by
  induction n generalizing p len b i with
  | zero => rfl
  | succ n ih =>
    have hrest : ∀ j, i + 1 ≤ j → j < i + 1 + n → g' j = g j := fun j h1 h2 => h j (by omega) (by omega)
    rw [runsFrom, runsFrom, h i (by omega) (by omega), ih hrest, ih hrest]

theorem zerosBefore_congr {g g' : Nat → Bool} {p : Nat} (h : ∀ j, j < p → g' j = g j) :
    zerosBefore g' p = zerosBefore g p := by
  induction p with
  | zero => rfl
  | succ p ih => rw [zerosBefore, zerosBefore, h p p.lt_succ_self, ih fun j hj => h j (by omega)]

theorem zerosAfter_congr {g g' : Nat → Bool} {p n : Nat} (h : ∀ j, p ≤ j → j < p + n → g' j = g j) :
    zerosAfter g' p n = zerosAfter g p n := by
  induction n generalizing p with
  | zero => rfl
  | succ n ih => rw [zerosAfter, zerosAfter, h p (by omega) (by omega), ih fun j h1 h2 => h j (by omega) (by omega)]

/-! ### Runs start inside the row -/

theorem pos_le_of_mem_runsFrom {g : Nat → Bool} {p len : Nat} {b : Bool} {i n : Nat} (hp : p ≤ i + n) :
    ∀ r ∈ runsFrom g p len b i n, r.pos ≤ i + n := by
  induction n generalizing p len b i with
  | zero =>
    intro r hr
    rw [List.mem_singleton.mp hr]
    exact hp
  | succ n ih =>
    intro r hr
    have hend : i + 1 + n = i + (n + 1) := by omega
    rw [runsFrom] at hr
    split at hr
    · exact hend ▸ ih (by omega) r hr
    · rcases List.mem_cons.mp hr with rfl | hr
      · exact hp
      · exact hend ▸ ih (by omega) r hr

theorem runPos_le {rs : List Run} {n : Nat} (h : ∀ r ∈ rs, r.pos ≤ n) (k : Nat) : runPos rs k ≤ n := by
  rw [runPos, List.getD_eq_getElem?_getD]
  cases hk : rs[k]? with
  | none => exact Nat.zero_le _
  | some r => exact h r (List.mem_of_getElem? hk)

theorem State.runPos_runsOf_le (s : State) (start k : Nat) : runPos (s.runsOf start) k ≤ s.size := by
  refine runPos_le (fun r hr => ?_) k
  unfold State.runsOf at hr
  split at hr
  · next hlt =>
    have hpos := pos_le_of_mem_runsFrom (by omega) r hr
    omega
  · cases hr

/-! ### The row with another memory that has the same logical bits -/

/-- A memory has the logical bits of the row; its padding may differ (42_bitarray.md R250, R252). -/
def State.SameRow (s : State) (v : Memory) : Prop := ∀ j, j < s.size → v.bit j = s.row.bit j

namespace State.SameRow

variable {s : State} {v : Memory} (hv : s.SameRow v)
include hv

/-- The stretch from any place to the end of the row has its logical bits. -/
theorem stretch (start : Nat) : ∀ j, start ≤ j → j < start + (s.size - start) → v.bit j = s.row.bit j :=
  fun j _ _ => hv j (by omega)

theorem scan_eq (b : Bool) (start : Nat) : ({ s with row := v } : State).scan b start = s.scan b start :=
  congrArg (fun r => r.getD s.size) (firstBit_congr (hv.stretch start))

theorem rangeIs_eq (b : Bool) (start : Nat) {stop : Nat} (hstop : stop ≤ s.size) :
    ({ s with row := v } : State).rangeIs b start stop = s.rangeIs b start stop := by
  rw [Bool.eq_iff_iff, State.rangeIs_iff, State.rangeIs_iff]
  exact forall_congr' fun j => forall_congr' fun _ => forall_congr' fun hj => by
    rw [← hv j (hj.trans_le hstop)]

theorem reversedBit_eq : ({ s with row := v } : State).reversedBit = s.reversedBit := by
  funext i
  have hbit : i < s.size → v.bit (s.size - 1 - i) = s.row.bit (s.size - 1 - i) := fun hi => hv _ (by omega)
  rw [State.reversedBit, State.reversedBit, Bool.eq_iff_iff, Bool.and_eq_true, Bool.and_eq_true]
  exact and_congr_right fun hi => iff_of_eq (congrArg (· = true) (hbit (of_decide_eq_true hi)))

theorem runsOf_eq (start : Nat) : ({ s with row := v } : State).runsOf start = s.runsOf start := by
  rw [State.runsOf, State.runsOf, hv.scan_eq]
  exact if_congr Iff.rfl (runsFrom_congr (hv.stretch _)) rfl

theorem quietBefore_eq (sym : Sym) {p : Nat} (hp : p ≤ s.size) (w : Nat) :
    ({ s with row := v } : State).quietBefore sym p w = s.quietBefore sym p w := by
  rw [State.quietBefore, State.quietBefore, zerosBefore_congr fun j hj => hv j (hj.trans_le hp)]

theorem quietAfter_eq (sym : Sym) (p w : Nat) :
    ({ s with row := v } : State).quietAfter sym p w = s.quietAfter sym p w :=
   congrArg (fun z => decide (z ≥ min (s.size - p) (w * symQz sym / 4))) (zerosAfter_congr (hv.stretch p))

/-! ### Decoding -/

theorem findStart_eq (sym : Sym) {rs : List Run} (hrs : ∀ k, runPos rs k ≤ s.size) (n j : Nat) :
    findStart { s with row := v } sym rs n j = findStart s sym rs n j := by
  induction n generalizing j with
  | zero => rfl
  | succ n ih => simp only [findStart, ih, hv.quietBefore_eq sym (hrs j)]

theorem endChecks_eq (sym : Sym) (rs : List Run) (j c : Nat) (syms : List Nat) :
    endChecks { s with row := v } sym rs j c syms = endChecks s sym rs j c syms := by
  simp only [endChecks, hv.quietAfter_eq]

theorem decodeChars_eq (sym : Sym) {rs : List Run} (hrs : ∀ k, runPos rs k ≤ s.size) :
    decodeChars { s with row := v } sym rs = decodeChars s sym rs := by
  simp only [decodeChars, hv.findStart_eq sym hrs, hv.endChecks_eq]

theorem itfFindStart_eq {rs : List Run} (hrs : ∀ k, runPos rs k ≤ s.size) (n j : Nat) :
    itfFindStart { s with row := v } rs n j = itfFindStart s rs n j := by
  induction n generalizing j with
  | zero => rfl
  | succ n ih => simp only [itfFindStart, ih, hv.quietBefore_eq .itf (hrs j)]

theorem itfEndAt_eq (rs : List Run) (c : Nat) : itfEndAt { s with row := v } rs c = itfEndAt s rs c := by
  simp only [itfEndAt, hv.quietAfter_eq]

theorem itfPairs_eq (rs : List Run) (n c : Nat) (syms : List Nat) :
    itfPairs { s with row := v } rs n c syms = itfPairs s rs n c syms := by
  induction n generalizing c syms with
  | zero => rfl
  | succ n ih => simp only [itfPairs, ih, hv.itfEndAt_eq]

theorem decodeItf_eq {rs : List Run} (hrs : ∀ k, runPos rs k ≤ s.size) :
    decodeItf { s with row := v } rs = decodeItf s rs := by
  simp only [decodeItf, hv.itfFindStart_eq hrs, hv.itfPairs_eq]

theorem decodeRow_eq (sym : Sym) (chk : Bool) :
    decodeRow { s with row := v } sym chk = decodeRow s sym chk := by
  have hruns : decodeRuns { s with row := v } sym (s.runsOf (s.argU 0)) = decodeRuns s sym (s.runsOf (s.argU 0)) := by
    have hpos := s.runPos_runsOf_le (s.argU 0)
    cases sym with
    | itf => exact hv.decodeItf_eq hpos
    | code39 | code93 | code128 | codabar => exact hv.decodeChars_eq _ hpos
  rw [decodeRow, decodeRow, ← hruns, hv.runsOf_eq]
  rfl

end State.SameRow

end Sys2Proof.Machine
end

section
/-!
The noninterference of the padding of the BitArray (42_bitarray.md R252): from two states that differ only there, every
command passes the same checks and writes the same outputs, but for the padding.
-/

namespace Sys2Proof.Machine

/-! ### States that differ only in the padding of the row -/

/-- Two states differ at most in padding bits of the row (42_bitarray.md R252). -/
structure State.SameButPadding (s s' : State) : Prop where
  rest : { s' with row := s.row } = s
  bits : s.SameRow s'.row

namespace State.SameButPadding

protected theorem refl (s : State) : s.SameButPadding s := ⟨rfl, fun _ _ => rfl⟩

variable {s s' : State}

/-- Updates that leave the row and its size. -/
theorem kept {u u' : State} (h : s.SameButPadding s') (hrest : { u' with row := u.row } = u := by rfl)
    (hrow : u.row = s.row := by rfl) (hrow' : u'.row = s'.row := by rfl) (hsize : u.size = s.size := by rfl) :
    u.SameButPadding u' :=
  ⟨hrest, fun j hj => by rw [hrow, hrow']; exact h.bits j (hsize ▸ hj)⟩

variable (h : s.SameButPadding s')
include h

theorem eq_withRow : s' = { s with row := s'.row } := by rw [← h.rest]

theorem complete (c : Code) (k : Nat) : (s.complete c k).SameButPadding (s'.complete c k) := by
  rw [h.eq_withRow]
  exact h.kept

theorem setRes (i : Fin 8) (x : Word) : (s.setRes i x).SameButPadding (s'.setRes i x) := by
  rw [h.eq_withRow]
  exact h.kept

theorem setResNat (i : Fin 8) {n n' : Nat} (hn : n' = n := by rfl) :
    (s.setResNat i n).SameButPadding (s'.setResNat i n') := hn ▸ h.setRes i _

theorem putPoly (r : PReg) (f : Field) (a : List Byte) : (s.putPoly r f a).SameButPadding (s'.putPoly r f a) := by
  rw [h.eq_withRow]
  cases r <;> exact h.kept

theorem setMat (m : Mat) (x : Memory) : (s.setMat m x).SameButPadding (s'.setMat m x) := by
  rw [h.eq_withRow]
  cases m <;> exact h.kept

theorem setDim (m : Mat) (a b : Nat) : (s.setDim m a b).SameButPadding (s'.setDim m a b) := by
  rw [h.eq_withRow]
  cases m <;> exact h.kept

theorem setGen (f : Field) (g : List (List Byte)) : (s.setGen f g).SameButPadding (s'.setGen f g) := by
  rw [h.eq_withRow]
  cases f <;> exact h.kept

theorem putPoint (p : Option (Nat × Nat)) : (s.putPoint p).SameButPadding (s'.putPoint p) :=
  match p with
  | some _ => ((h.setResNat 0).setResNat 1).setResNat 2
  | none => ((h.setRes 0 _).setRes 1 _).setRes 2 _

theorem odCommit (sym : Sym) (d : Decoded) : (odCommit s sym d).SameButPadding (odCommit s' sym d) := by
  have hres : ({ s with odres := Memory.ofBytes (d.syms.map (BitVec.ofNat 8)) } : State).SameButPadding
      { s' with odres := Memory.ofBytes (d.syms.map (BitVec.ofNat 8)) } := by
    rw [h.eq_withRow]
    exact h.kept
  exact (((((hres.setResNat 0).setResNat 1).setResNat 2).setResNat 3).setResNat 4).setResNat 5

/-- A write that gives every logical bit from the logical bits. -/
theorem withRow {m m' : Memory} (hm : ∀ j, j < s.size → m'.bit j = m.bit j) :
    ({ s with row := m } : State).SameButPadding { s' with row := m' } := ⟨by rw [h.eq_withRow], hm⟩

theorem setRowBit (i : Nat) {b b' : Bool} (hb : b' = b) :
    ({ s with row := s.row.setBit i b } : State).SameButPadding { s' with row := s'.row.setBit i b' } :=
  h.withRow fun j hj => by rw [Memory.bit_setBit, Memory.bit_setBit, hb, h.bits j hj]

theorem setRowBits (i n : Nat) (b : Bool) :
    ({ s with row := s.row.setBits i n b } : State).SameButPadding { s' with row := s'.row.setBits i n b } :=
  h.withRow fun j hj => by rw [Memory.bit_setBits, Memory.bit_setBits, h.bits j hj]

end State.SameButPadding

/-! ### Command bodies -/

/-- Two bodies fail alike, or succeed with states that differ only in the padding. -/
inductive EndsAlike : Except Raise State → Except Raise State → Prop
  | ok {u u' : State} (h : u.SameButPadding u') : EndsAlike (.ok u) (.ok u')
  | error (e : Raise) : EndsAlike (.error e) (.error e)

/-- Two completions, from states that differ only in the padding to such states. -/
def CompletesAlike (r r' : Result) : Prop := ∃ t t' : State, r = .next t ∧ r' = .next t' ∧ t.SameButPadding t'

theorem finish_alike {s s' : State} {r r' : Except Raise State} (h : s.SameButPadding s') (hr : EndsAlike r r') :
    CompletesAlike (finish s r) (finish s' r') :=
  match hr with
  | .ok hu => ⟨_, _, rfl, rfl, hu.complete _ _⟩
  | .error _ => ⟨_, _, rfl, rfl, h.complete _ _⟩

namespace EndsAlike

theorem raise (c : Code) (k : Nat) : EndsAlike (Machine.raise c k) (Machine.raise c k) := .error _

/-- A branch on a condition that reads no padding. -/
theorem ite {p : Prop} [Decidable p] {a a' b b' : Except Raise State} (ha : EndsAlike a a') (hb : ¬p → EndsAlike b b') :
    EndsAlike (if p then a else b) (if p then a' else b') := by
  split
  · exact ha
  · next hp => exact hb hp

/-- A numbered check that reads no padding: what comes after it may use that it passed. -/
theorem check {p : Prop} [Decidable p] {c : Code} {k : Nat} {r r' : Except Raise State} (h : ¬p → EndsAlike r r') :
    EndsAlike (if p then Machine.raise c k else r) (if p then Machine.raise c k else r') := .ite (raise c k) h

theorem bind {α : Type} {x : Except Raise α} {g g' : α → Except Raise State} (h : ∀ a, EndsAlike (g a) (g' a)) :
    EndsAlike (x.bind g) (x.bind g') :=
  match x with
  | .ok a => h a
  | .error e => .error e

end EndsAlike

/-! ### The samples of GRID_SAMPLE read no row -/

theorem sampleRow_withRow (s : State) (v : Memory) (m : Mat) (my mx n : Nat) :
    sampleRow { s with row := v } m my mx n = sampleRow s m my mx n := by
  induction n generalizing mx with
  | zero => rfl
  | succ n ih =>
    have hpoint : samplePoint { s with row := v } m mx my = samplePoint s m mx my := rfl
    rw [sampleRow, sampleRow, ih, hpoint]

theorem sampleRows_withRow (s : State) (v : Memory) (m : Mat) (dimX my n : Nat) :
    sampleRows { s with row := v } m dimX my n = sampleRows s m dimX my n := by
  induction n generalizing my with
  | zero => rfl
  | succ n ih => rw [sampleRows, sampleRows, ih, sampleRow_withRow s v]

section

variable {s : State} {v : Memory} (hv : s.SameRow v)
include hv

theorem State.SameRow.sameButPadding : s.SameButPadding { s with row := v } := ⟨rfl, hv⟩

/-! ### BA commands -/

theorem baGetBody_alike : EndsAlike (baGetBody s) (baGetBody { s with row := v }) :=
  .check fun hi => .ok (hv.sameButPadding.setResNat 0 (congrArg Bool.toNat (hv _ (State.argU_lt_of_inRange hi))))

theorem baSetBody_alike : EndsAlike (baSetBody s) (baSetBody { s with row := v }) :=
  .check fun _ => .ok (hv.sameButPadding.setRowBit _ rfl)

theorem baFlipBody_alike : EndsAlike (baFlipBody s) (baFlipBody { s with row := v }) :=
  .check fun hi => .ok (hv.sameButPadding.setRowBit _ (congrArg (!·) (hv _ (State.argU_lt_of_inRange hi))))

theorem baSetrangeBody_alike : EndsAlike (baSetrangeBody s) (baSetrangeBody { s with row := v }) :=
  .check fun _ => .ok (hv.sameButPadding.setRowBits _ _ _)

theorem baIsrangeBody_alike : EndsAlike (baIsrangeBody s) (baIsrangeBody { s with row := v }) :=
  .check fun hrange => .check fun _ => .ok <| hv.sameButPadding.setResNat 0 <|
    congrArg Bool.toNat (hv.rangeIs_eq _ _ (State.argU_le_of_not_rangeBad hrange).2)

theorem baNextsetBody_alike : EndsAlike (baNextsetBody s) (baNextsetBody { s with row := v }) :=
  .check fun _ => .ok (hv.sameButPadding.setResNat 0 (hv.scan_eq _ _))

theorem baNextunsetBody_alike : EndsAlike (baNextunsetBody s) (baNextunsetBody { s with row := v }) :=
  .check fun _ => .ok (hv.sameButPadding.setResNat 0 (hv.scan_eq _ _))

theorem execBaReverse_alike : CompletesAlike (execBaReverse s) (execBaReverse { s with row := v }) := by
  rw [execBaReverse, execBaReverse, hv.reversedBit_eq]
  exact finish_alike hv.sameButPadding (.ok (.refl _))

/-! ### RS commands -/

theorem rsEncodeBody_alike (f : Field) : EndsAlike (rsEncodeBody f s) (rsEncodeBody f { s with row := v }) := by
  cases f <;> exact .check fun _ => .check fun _ => .check fun _ => .ok hv.sameButPadding.kept

theorem rsSyndromeBody_alike (f : Field) : EndsAlike (rsSyndromeBody f s) (rsSyndromeBody f { s with row := v }) :=
  .check fun _ => .check fun _ => .ok hv.sameButPadding.kept

theorem rsDecodeBody_alike (f : Field) : EndsAlike (rsDecodeBody f s) (rsDecodeBody f { s with row := v }) :=
  .check fun _ => .check fun _ => .ite (.ok hv.sameButPadding.kept) fun _ =>
    .bind fun _ => .ite (.ok hv.sameButPadding.kept) fun _ => .raise _ _

/-! ### GRID_SAMPLE -/

theorem gridSampleBody_alike (m : Mat) : EndsAlike (gridSampleBody m s) (gridSampleBody m { s with row := v }) := by
  rw [gridSampleBody, gridSampleBody, sampleRows_withRow s v]
  exact .check fun _ => .check fun _ => .check fun _ =>
    .bind fun _ => .ok ((hv.sameButPadding.setDim m.other _ _).setMat m.other _)

/-! ### OD commands -/

theorem odRunsBody_alike : EndsAlike (odRunsBody s) (odRunsBody { s with row := v }) := by
  rw [odRunsBody, odRunsBody, hv.runsOf_eq, hv.scan_eq]
  exact .check fun _ => .ok hv.sameButPadding.kept

theorem odPmatchBody_alike (sym : Sym) : EndsAlike (odPmatchBody sym s) (odPmatchBody sym { s with row := v }) :=
  .check fun _ => .check fun _ =>
    match best sym (s.runCounts sym (s.argU 0)) (allEntries sym) with
    | (none, _) => .raise _ _
    | (some _, _) => .ok hv.sameButPadding.kept

theorem odDecodeBody_alike (chk : Bool) (sym : Sym) :
    EndsAlike (odDecodeBody chk sym s) (odDecodeBody chk sym { s with row := v }) := by
  rw [odDecodeBody, odDecodeBody, hv.decodeRow_eq]
  exact .bind fun _ => .ok (hv.sameButPadding.odCommit _ _)

theorem multiTry_alike (chk : Bool) (en : BitVec 5) (syms : List Sym) :
    EndsAlike (multiTry s chk en syms) (multiTry { s with row := v } chk en syms) := by
  induction syms with
  | nil => exact .raise _ _
  | cons sym rest ih =>
    rw [multiTry, multiTry, hv.decodeRow_eq]
    split
    · split
      · exact .ok (hv.sameButPadding.odCommit _ _)
      · exact ih
    · exact ih

theorem odMultiBody_alike (chk : Bool) (en : BitVec 5) :
    EndsAlike (odMultiBody chk en s) (odMultiBody chk en { s with row := v }) :=
  .check fun _ => multiTry_alike hv chk en _

/-! ### Every command -/

theorem exec_alike (i : Instr) : CompletesAlike (exec i s) (exec i { s with row := v }) :=
  have h := hv.sameButPadding
  match i with
  | .nop => finish_alike h (.ok h)
  | .gfAdd _ => finish_alike h (.check fun _ => .check fun _ => .ok h.kept)
  | .gfMul _ => finish_alike h (.check fun _ => .check fun _ => .ok h.kept)
  | .gfDiv _ => finish_alike h (.check fun _ => .check fun _ => .check fun _ => .ok h.kept)
  | .gfInv _ => finish_alike h (.check fun _ => .check fun _ => .ok h.kept)
  | .gfExp _ => finish_alike h (.check fun _ => .ok h.kept)
  | .gfLog _ => finish_alike h (.check fun _ => .check fun _ => .ok h.kept)
  | .pMono f pd => finish_alike h (.check fun _ => .check fun _ => .check fun _ => .ok (h.putPoly pd f _))
  | .pAdd f _ _ pd => finish_alike h (.check fun _ => .check fun _ => .ok (h.putPoly pd f _))
  | .pMul f _ _ pd => finish_alike h (.check fun _ => .check fun _ => .check fun _ => .ok (h.putPoly pd f _))
  | .pScale f _ pd => finish_alike h (.check fun _ => .check fun _ => .ok (h.putPoly pd f _))
  | .pMulmono f _ pd => finish_alike h (.check fun _ => .check fun _ => .check fun _ => .check fun _ => .check fun _ =>
      .ok (h.putPoly pd f _))
  | .pDiv f pe _ _ pd => finish_alike h (.check fun _ => .check fun _ => .check fun _ =>
      .ok ((h.putPoly pd f _).putPoly pe f _))
  | .pEval _ _ => finish_alike h (.check fun _ => .check fun _ => .ok h.kept)
  | .rsEncode f => finish_alike h (rsEncodeBody_alike hv f)
  | .rsSyndrome f => finish_alike h (rsSyndromeBody_alike hv f)
  | .rsDecode f => finish_alike h (rsDecodeBody_alike hv f)
  | .baGet => finish_alike h (baGetBody_alike hv)
  | .baSet => finish_alike h (baSetBody_alike hv)
  | .baFlip => finish_alike h (baFlipBody_alike hv)
  | .baClear => finish_alike h (.ok (.refl _))
  | .baSetrange => finish_alike h (baSetrangeBody_alike hv)
  | .baIsrange => finish_alike h (baIsrangeBody_alike hv)
  | .baNextset => finish_alike h (baNextsetBody_alike hv)
  | .baNextunset => finish_alike h (baNextunsetBody_alike hv)
  | .baReverse => execBaReverse_alike hv
  | .baInit => finish_alike h (.check fun _ => .ok (.refl _))
  | .bmInit m => finish_alike h (.check fun _ => .check fun _ => .check fun _ => .ok ((h.setDim m _ _).setMat m _))
  | .bmGet _ => finish_alike h (.check fun _ => .check fun _ => .check fun _ => .ok h.kept)
  | .bmSet m => finish_alike h (.check fun _ => .check fun _ => .check fun _ => .ok (h.setMat m _))
  | .bmUnset m => finish_alike h (.check fun _ => .check fun _ => .check fun _ => .ok (h.setMat m _))
  | .bmFlip m => finish_alike h (.check fun _ => .check fun _ => .check fun _ => .ok (h.setMat m _))
  | .bmClear m => finish_alike h (.check fun _ => .ok (h.setMat m _))
  | .bmSetregion m => finish_alike h (.check fun _ => .check fun _ => .check fun _ => .check fun _ =>
      .ok (h.setMat m _))
  | .bmGetrow _ => finish_alike h (.check fun _ => .check fun _ => .check fun _ => .ok (.refl _))
  | .bmRot180 m => finish_alike h (.check fun _ => .ok (h.setMat m _))
  | .bmXor m => finish_alike h (.check fun _ => .check fun _ => .check fun _ => .ok (h.setMat m _))
  | .bmCopy m => finish_alike h (.check fun _ => .ok ((h.setMat m.other _).setDim m.other _ _))
  | .bmTopleft _ => finish_alike h (.check fun _ => .ok (h.putPoint _))
  | .bmBotright _ => finish_alike h (.check fun _ => .ok (h.putPoint _))
  | .ptS2q => finish_alike h (.ok h.kept)
  | .ptQ2s => finish_alike h (.ok h.kept)
  | .ptQ2q => finish_alike h (.ok h.kept)
  | .ptAdj => finish_alike h (.ok h.kept)
  | .ptTimes => finish_alike h (.ok h.kept)
  | .ptCopy => finish_alike h (.ok h.kept)
  | .ptXform => finish_alike h (.ok h.kept)
  | .gridSample m => finish_alike h (gridSampleBody_alike hv m)
  | .odRuns => finish_alike h (odRunsBody_alike hv)
  | .odPmatch sym => finish_alike h (odPmatchBody_alike hv sym)
  | .odDecode chk sym => finish_alike h (odDecodeBody_alike hv chk sym)
  | .odMulti chk en => finish_alike h (odMultiBody_alike hv chk en)

end

/-- Settles O32: every command reads the row only in its logical bits, and every write of the row gives its logical bits
from those. -/
theorem rowPaddingIsNeverRead : Obligations.RowPaddingIsNeverRead := by
  intro i s v hv
  obtain ⟨t, t', ht, ht', hsame⟩ := exec_alike hv i
  exact ⟨t, t', ht, ht', hsame.rest, hsame.bits⟩

end Sys2Proof.Machine
end

section
/-!
The bits of a BitMatrix (43_bitmatrix.md R290, R293): the places of its points, a matrix region written whole, a
rectangle filled, and the set points in row-major order.
-/

namespace Sys2Proof.Machine

/-! ### Places -/

theorem bitPlace_eq (w x y : Nat) : bitPlace w x y = x + 32 * rowWords w * y := by
  unfold bitPlace
  ring

theorem bitPlace_mod {w x : Nat} (hx : x < 32 * rowWords w) (y : Nat) : bitPlace w x y % (32 * rowWords w) = x := by
  rw [bitPlace_eq, Nat.add_mul_mod_self_left, Nat.mod_eq_of_lt hx]

theorem bitPlace_div {w x : Nat} (hx : x < 32 * rowWords w) (y : Nat) : bitPlace w x y / (32 * rowWords w) = y := by
  rw [bitPlace_eq, Nat.add_mul_div_left _ _ (by omega), Nat.div_eq_of_lt hx, Nat.zero_add]

/-- A place in a row of the matrix, padding included, lies inside the region (20_memory.md R85). -/
theorem bitPlace_lt_region {w h x y : Nat} (hx : x < 32 * rowWords w) (hy : y < h) :
    bitPlace w x y < 8 * (4 * (rowWords w * h)) := by
  have hrow : bitPlace w x y < h * (32 * rowWords w) := by
    rw [← Nat.div_lt_iff_lt_mul (by omega), bitPlace_div hx]
    exact hy
  calc bitPlace w x y < h * (32 * rowWords w) := hrow
    _ = 8 * (4 * (rowWords w * h)) := by ring

theorem lt_row_of_lt_width {w x : Nat} (hx : x < w) : x < 32 * rowWords w := by
  unfold rowWords
  omega

/-- A place is in a stretch of a row just where it is the place of one of the stretch's columns. -/
theorem bitPlace_stretch_iff (w left width y j : Nat) :
    (bitPlace w left y ≤ j ∧ j < bitPlace w left y + width) ↔
      ∃ x, left ≤ x ∧ x < left + width ∧ j = bitPlace w x y := by
  unfold bitPlace
  constructor
  · rintro ⟨hle, hlt⟩
    exact ⟨j - 32 * (y * rowWords w), by omega, by omega, by omega⟩
  · rintro ⟨x, hle, hlt, rfl⟩
    omega

/-! ### A region written whole -/

/-- The bits of a written region: the given bit inside the matrix, 0 in the padding (43_bitmatrix.md R293). -/
theorem Memory.bit_overwrite_regionBytes (v : Memory) {w h x y : Nat} (g : Nat → Nat → Bool)
    (hx : x < 32 * rowWords w) (hy : y < h) :
    (v.overwrite 0 (regionBytes w h g)).bit (bitPlace w x y) = (decide (x < w) && g x y) := by
  rw [regionBytes, Memory.bit_overwrite_bytesOfBits, if_pos (bitPlace_lt_region hx hy), bitPlace_mod hx,
    bitPlace_div hx]

/-- A written region bit by bit: the matrix, its padding, the words past it (43_bitmatrix.md R293). -/
theorem Memory.overwrite_regionBytes_spec (v : Memory) (w h : Nat) (g : Nat → Nat → Bool) :
    (∀ x y, x < w → y < h → (v.overwrite 0 (regionBytes w h g)).bit (bitPlace w x y) = g x y) ∧
    (∀ x y, w ≤ x → x < 32 * rowWords w → y < h →
      (v.overwrite 0 (regionBytes w h g)).bit (bitPlace w x y) = false) ∧
    (∀ j, 32 * (rowWords w * h) ≤ j → (v.overwrite 0 (regionBytes w h g)).bit j = v.bit j) := by
  refine ⟨fun x y hx hy => ?_, fun x y hw hx hy => ?_, fun j hj => ?_⟩
  · rw [v.bit_overwrite_regionBytes g (lt_row_of_lt_width hx) hy, decide_eq_true hx, Bool.true_and]
  · rw [v.bit_overwrite_regionBytes g hx hy, decide_eq_false hw.not_gt, Bool.false_and]
  · rw [regionBytes, Memory.bit_overwrite_bytesOfBits, if_neg (by omega)]

/-! ### A rectangle filled -/

/-- Filling rows sets exactly the bits of the rectangle (43_bitmatrix.md R306). -/
theorem bit_fillRows_iff (w left width top n : Nat) (v : Memory) (j : Nat) :
    (fillRows w left width top n v).bit j = true ↔ v.bit j = true ∨
      ∃ x y, left ≤ x ∧ x < left + width ∧ top ≤ y ∧ y < top + n ∧ j = bitPlace w x y := by
  induction n with
  | zero =>
    refine ⟨.inl, ?_⟩
    rintro (h | ⟨_, _, -, -, htop, hlt, -⟩)
    · exact h
    · omega
  | succ n ih =>
    rw [fillRows, Memory.bit_setBits]
    split
    · next hrow =>
      obtain ⟨x, hle, hlt, hj⟩ := (bitPlace_stretch_iff ..).mp hrow
      exact iff_of_true rfl (.inr ⟨x, top + n, hle, hlt, by omega, by omega, hj⟩)
    · next hrow =>
      rw [ih]
      refine or_congr_right ⟨?_, ?_⟩
      · rintro ⟨x, y, hle, hlt, htop, hy, hj⟩
        exact ⟨x, y, hle, hlt, htop, by omega, hj⟩
      · rintro ⟨x, y, hle, hlt, htop, hy, hj⟩
        have hne : y ≠ top + n := by
          rintro rfl
          exact hrow ((bitPlace_stretch_iff ..).mpr ⟨x, hle, hlt, hj⟩)
        exact ⟨x, y, hle, hlt, htop, by omega, hj⟩

/-! ### The set points in row-major order -/

/-- Point `p` is `q` or comes before it in row-major order (43_bitmatrix.md R311, R312). -/
def RowMajorLE (p q : Nat × Nat) : Prop := p.2 < q.2 ∨ (p.2 = q.2 ∧ p.1 ≤ q.1)

theorem RowMajorLE.refl (p : Nat × Nat) : RowMajorLE p p := .inr ⟨rfl, Nat.le_refl _⟩

theorem RowMajorLE.antisymm {p q : Nat × Nat} (h : RowMajorLE p q) (h' : RowMajorLE q p) : p = q := by
  unfold RowMajorLE at h h'
  ext <;> omega

theorem State.mem_onPoints_iff (s : State) (m : Mat) (x y : Nat) :
    (x, y) ∈ s.onPoints m ↔ x < s.width m ∧ y < s.height m ∧ s.matBit m x y = true := by
  simp only [State.onPoints, List.mem_flatMap, List.mem_map, List.mem_filter, List.mem_range, Prod.mk.injEq]
  constructor
  · rintro ⟨_, hy, _, ⟨hx, hbit⟩, rfl, rfl⟩
    exact ⟨hx, hy, hbit⟩
  · rintro ⟨hx, hy, hbit⟩
    exact ⟨y, hy, x, ⟨hx, hbit⟩, rfl, rfl⟩

theorem State.onPoints_pairwise (s : State) (m : Mat) : (s.onPoints m).Pairwise RowMajorLE := by
  refine List.pairwise_flatMap.mpr ⟨fun y _ => ?_, List.pairwise_lt_range.imp fun {y y'} hy p hp q hq => ?_⟩
  · exact List.pairwise_map.mpr (List.pairwise_le_range.filter _ |>.imp fun hx => .inr ⟨rfl, hx⟩)
  · obtain ⟨x, -, rfl⟩ := List.mem_map.mp hp
    obtain ⟨x', -, rfl⟩ := List.mem_map.mp hq
    exact .inl hy

/-- The set point before all others is the first listed (43_bitmatrix.md R311). -/
theorem State.head?_onPoints {s : State} {m : Mat} {p : Nat × Nat} (hp : p ∈ s.onPoints m)
    (hfirst : ∀ q ∈ s.onPoints m, RowMajorLE p q) : (s.onPoints m).head? = some p := by
  have hne := List.ne_nil_of_mem hp
  rw [List.head?_eq_some_head hne]
  have hle := (s.onPoints_pairwise m).rel_head_of_rel_head_head hp (.refl _)
  rw [hle.antisymm (hfirst _ (List.head_mem hne))]

/-- The set point after all others is the last listed (43_bitmatrix.md R312). -/
theorem State.getLast?_onPoints {s : State} {m : Mat} {p : Nat × Nat} (hp : p ∈ s.onPoints m)
    (hlast : ∀ q ∈ s.onPoints m, RowMajorLE q p) : (s.onPoints m).getLast? = some p := by
  have hne := List.ne_nil_of_mem hp
  rw [List.getLast?_eq_some_getLast hne]
  have hle := (s.onPoints_pairwise m).rel_getLast_of_rel_getLast_getLast hp (.refl _)
  rw [(hlast _ (List.getLast_mem hne)).antisymm hle]

end Sys2Proof.Machine
end

section
/-!
The BitMatrix commands (43_bitmatrix.md R290 to R312): their numbered checks, and what they do bit by bit.
-/

namespace Sys2Proof.Machine

/-! ### Operand checks -/

theorem State.initialised_eq_false_iff (s : State) (m : Mat) :
    s.initialised m = false ↔ s.width m = 0 ∨ s.height m = 0 := by
  simp only [State.initialised, Bool.and_eq_false_iff, decide_eq_false_iff_not]
  omega

/-- An initialised matrix passes its check (43_bitmatrix.md R292). -/
theorem State.not_initialised_eq_false {s : State} {m : Mat} (hw : 1 ≤ s.width m) (hh : 1 ≤ s.height m) :
    ¬s.initialised m = false := by
  rw [s.initialised_eq_false_iff]
  omega

/-- A dimension in 1..65535 passes its check (43_bitmatrix.md R300). -/
theorem State.not_dim_check {s : State} {i : Fin 8} (h1 : 1 ≤ s.argS i) (hmax : s.argS i ≤ 65535) :
    ¬(s.argS i < 1 ∨ s.argS i > Config.dimMax) := not_or.mpr ⟨h1.not_gt, hmax.not_gt⟩

section

variable {m : Mat} {s : State} (hw : 1 ≤ s.width m) (hh : 1 ≤ s.height m) (u : State)
include hw hh

/-- A point whose x is outside the matrix is refused (43_bitmatrix.md R291, R301). -/
theorem finish_pointChecks_of_x_out (hx : s.argS 0 < 0 ∨ s.width m ≤ s.argS 0) :
    finish s (pointChecks m s u) = .next (s.complete .illegalArgument 2) :=
  (finish_of_not_check (State.not_initialised_eq_false hw hh)).trans
    (finish_of_check ((inRange_eq_false_iff _ _).mpr hx))

variable (hx0 : 0 ≤ s.argS 0) (hx : s.argS 0 < s.width m)
include hx0 hx

/-- A point whose x is inside the matrix is left to the check of its y (43_bitmatrix.md R291, R301). -/
theorem finish_pointChecks_of_x_in :
    finish s (pointChecks m s u) =
      finish s (if inRange (s.argS 1) (s.height m) = false then raise .illegalArgument 3 else .ok u) :=
  (finish_of_not_check (State.not_initialised_eq_false hw hh)).trans
    (finish_of_not_check ((not_inRange_eq_false_iff _ _).mpr ⟨hx0, hx⟩))

/-- A point whose y alone is outside the matrix is refused (43_bitmatrix.md R291, R301). -/
theorem finish_pointChecks_of_y_out (hy : s.argS 1 < 0 ∨ s.height m ≤ s.argS 1) :
    finish s (pointChecks m s u) = .next (s.complete .illegalArgument 3) :=
  (finish_pointChecks_of_x_in hw hh u hx0 hx).trans (finish_of_check ((inRange_eq_false_iff _ _).mpr hy))

/-- A point inside the matrix passes (43_bitmatrix.md R291, R301). -/
theorem finish_pointChecks_of_in (hy0 : 0 ≤ s.argS 1) (hy : s.argS 1 < s.height m) :
    finish s (pointChecks m s u) = .next (u.complete .ok 0) :=
  (finish_pointChecks_of_x_in hw hh u hx0 hx).trans
    (finish_of_not_check ((not_inRange_eq_false_iff _ _).mpr ⟨hy0, hy⟩))

end

/-! ### Dimensions -/

/-- The dimensions after BM_INIT (43_bitmatrix.md R300). -/
theorem State.dim_setDim_setMat_complete (s : State) (m : Mat) (w h : Nat) (v : Memory) (c : Code) (k : Nat) :
    (((s.setDim m w h).setMat m v).complete c k).dim m = ⟨BitVec.ofNat 16 w, BitVec.ofNat 16 h⟩ := by
  cases m <;> rfl

/-- Two matrices of one width and one height have the same dimension register (10_state.md R44). -/
theorem State.dim_eq_of_width_of_height {s : State} {m n : Mat} (hw : s.width m = s.width n)
    (hh : s.height m = s.height n) : s.dim m = s.dim n :=
  congrArg₂ Dim.mk (BitVec.eq_of_toNat_eq hw) (BitVec.eq_of_toNat_eq hh)

/-! ### The commands -/

/-- Settles O33: the first check of every body is on its matrix. -/
theorem bmChecksInitialised : Obligations.BmChecksInitialised := by
  intro m s h i hi
  have hun := (s.initialised_eq_false_iff m).mpr h
  fin_cases hi <;> exact finish_of_check hun

/-- Settles O34: the checks pass or fail in order, and the dimensions taken fit their 16 bits. -/
theorem bmInitClear : Obligations.BmInitClear := by
  intro m s
  refine ⟨fun hw => finish_of_check hw, fun hw1 hw hh => ?_, fun hw1 hw hh1 hh hbig => ?_,
    fun hw1 hw hh1 hh hfit => ⟨_, ?_, ?_, ?_, rfl⟩,
    fun hw hh => finish_of_not_check (State.not_initialised_eq_false hw hh)⟩
  · exact (finish_of_not_check (State.not_dim_check hw1 hw)).trans (finish_of_check hh)
  · exact (finish_of_not_check (State.not_dim_check hw1 hw)).trans
      ((finish_of_not_check (State.not_dim_check hh1 hh)).trans (finish_of_check hbig))
  · exact (finish_of_not_check (State.not_dim_check hw1 hw)).trans
      ((finish_of_not_check (State.not_dim_check hh1 hh)).trans (finish_of_not_check hfit.not_gt))
  · have hwU : s.argS 0 = s.argU 0 := State.argS_of_nonneg (by omega)
    rw [State.width, State.dim_setDim_setMat_complete, BitVec.toNat_ofNat, Nat.mod_eq_of_lt (by omega)]
  · have hhU : s.argS 1 = s.argU 1 := State.argS_of_nonneg (by omega)
    rw [State.height, State.dim_setDim_setMat_complete, BitVec.toNat_ofNat, Nat.mod_eq_of_lt (by omega)]

/-- Settles O35: the point's checks in order; the bit of the point is read, or written by `setBit`. -/
theorem bmSingleBits : Obligations.BmSingleBits := by
  intro m s hw hh
  refine ⟨fun hx i hi => ?_, fun hx0 hx hy i hi => ?_, fun hx0 hx hy0 hy => ?_⟩
  · fin_cases hi <;> exact finish_pointChecks_of_x_out hw hh _ hx
  · fin_cases hi <;> exact finish_pointChecks_of_y_out hw hh _ hx0 hx hy
  · have hok (u : State) := finish_pointChecks_of_in hw hh u hx0 hx hy0 hy
    refine ⟨?_, ⟨_, fun j => (s.mat m).bit_setBit _ j true, hok _⟩,
      ⟨_, fun j => (s.mat m).bit_setBit _ j false, hok _⟩, ⟨_, fun j => ?_, hok _⟩⟩
    · rw [← State.setResNat_bool]
      exact hok _
    · rw [Memory.bit_setBit]
      split
      · next hj => rw [hj, State.matBit]
      · rfl

/-- Settles O36: the sums are checked as integers, and the rectangle is filled row by row. -/
theorem bmSetregionFills : Obligations.BmSetregionFills := by
  intro m s hw hh
  have hinit := State.not_initialised_eq_false hw hh
  refine ⟨fun hneg => (finish_of_not_check hinit).trans (finish_of_check hneg), fun hx hy hempty => ?_,
    fun hx hy hrw hrh hout => ?_, fun hx hy hrw hrh hxin hyin => ⟨_, bit_fillRows_iff _ _ _ _ _ _, ?_⟩⟩
  · exact (finish_of_not_check hinit).trans
      ((finish_of_not_check (not_or.mpr ⟨hx.not_gt, hy.not_gt⟩)).trans (finish_of_check hempty))
  · exact (finish_of_not_check hinit).trans
      ((finish_of_not_check (not_or.mpr ⟨hx.not_gt, hy.not_gt⟩)).trans
        ((finish_of_not_check (not_or.mpr ⟨hrw.not_gt, hrh.not_gt⟩)).trans (finish_of_check hout)))
  · exact (finish_of_not_check hinit).trans
      ((finish_of_not_check (not_or.mpr ⟨hx.not_gt, hy.not_gt⟩)).trans
        ((finish_of_not_check (not_or.mpr ⟨hrw.not_gt, hrh.not_gt⟩)).trans
          (finish_of_not_check (not_or.mpr ⟨hxin.not_gt, hyin.not_gt⟩))))

/-- Settles O37: ROW_MEM is written whole from the bits of the row, and the width fits ROWSIZE. -/
theorem bmGetrowCopiesRow : Obligations.BmGetrowCopiesRow := by
  intro m s hw hh
  have hinit := State.not_initialised_eq_false hw hh
  have hyin (hy0 : 0 ≤ s.argS 0) (hy : s.argS 0 < s.height m) := (not_inRange_eq_false_iff _ _).mpr ⟨hy0, hy⟩
  refine ⟨fun hy => (finish_of_not_check hinit).trans (finish_of_check ((inRange_eq_false_iff _ _).mpr hy)),
    fun hy0 hy hwide => (finish_of_not_check hinit).trans
      ((finish_of_not_check (hyin hy0 hy)).trans (finish_of_check hwide)),
    fun hy0 hy hfit => ⟨_, _, (finish_of_not_check hinit).trans
      ((finish_of_not_check (hyin hy0 hy)).trans (finish_of_not_check hfit.not_gt)), ?_, fun j => ?_, rfl⟩⟩
  · exact (BitVec.toNat_ofNat _ _).trans (Nat.mod_eq_of_lt (by omega))
  · rw [Memory.bit_ofBytes_bytesOfBits]
    by_cases hj : j < s.width m
    · have hbyte : j < 8 * ((s.width m + 7) / 8) := by omega
      simp [hj, hbyte]
    · simp [hj]

/-- Settles O38: the matrix region is written whole. -/
theorem bmRot180Rotates : Obligations.BmRot180Rotates := by
  intro m s hw hh
  obtain ⟨hin, hpad, hpast⟩ := (s.mat m).overwrite_regionBytes_spec (s.width m) (s.height m)
    fun x y => s.matBit m (s.width m - 1 - x) (s.height m - 1 - y)
  exact ⟨_, hin, hpad, hpast, finish_of_not_check (State.not_initialised_eq_false hw hh)⟩

/-- Settles O39: the matrix region is written whole, and BM_COPY takes memory and dimensions as they are. -/
theorem bmXorCopy : Obligations.BmXorCopy := by
  intro m s hw hh
  have hinit := State.not_initialised_eq_false hw hh
  refine ⟨fun hun => ?_, fun hw' hh' hne => ?_, fun heqw heqh => ?_, finish_of_not_check hinit⟩
  · exact (finish_of_not_check hinit).trans (finish_of_check ((s.initialised_eq_false_iff _).mpr hun))
  · have hdim : s.dim m ≠ s.dim m.other := fun h => hne (by rw [State.width, State.height, h]; rfl)
    exact (finish_of_not_check hinit).trans
      ((finish_of_not_check (State.not_initialised_eq_false hw' hh')).trans (finish_of_check hdim))
  · have hinit' := State.not_initialised_eq_false (heqw ▸ hw) (heqh ▸ hh)
    have hdim := State.dim_eq_of_width_of_height heqw heqh
    obtain ⟨hin, hpad, hpast⟩ := (s.mat m).overwrite_regionBytes_spec (s.width m) (s.height m)
      fun x y => s.matBit m x y ^^ s.matBit m.other x y
    exact ⟨_, hin, hpad, hpast, (finish_of_not_check hinit).trans
      ((finish_of_not_check hinit').trans (finish_of_not_check (not_not_intro hdim)))⟩

/-- Settles O40: the set points are listed in row-major order, so the first is the head and the last the end. -/
theorem bmBoundingBits : Obligations.BmBoundingBits := by
  intro m s hw hh
  have hinit := State.not_initialised_eq_false hw hh
  have htop : exec (.bmTopleft m) s = .next ((s.putPoint (s.onPoints m).head?).complete .ok 0) :=
    finish_of_not_check hinit
  have hbot : exec (.bmBotright m) s = .next ((s.putPoint (s.onPoints m).getLast?).complete .ok 0) :=
    finish_of_not_check hinit
  refine ⟨fun x y hx hy hbit => ?_, fun hclear i hi => ?_⟩
  · have hmem := (s.mem_onPoints_iff m x y).mpr ⟨hx, hy, hbit⟩
    refine ⟨fun hfirst => ?_, fun hlast => ?_⟩
    · rw [htop, State.head?_onPoints hmem]
      · rfl
      · rintro ⟨x', y'⟩ hq
        obtain ⟨hx', hy', hbit'⟩ := (s.mem_onPoints_iff m x' y').mp hq
        exact hfirst x' y' hx' hy' hbit'
    · rw [hbot, State.getLast?_onPoints hmem]
      · rfl
      · rintro ⟨x', y'⟩ hq
        obtain ⟨hx', hy', hbit'⟩ := (s.mem_onPoints_iff m x' y').mp hq
        exact hlast x' y' hx' hy' hbit'
  · have hnil : s.onPoints m = [] := by
      refine List.eq_nil_iff_forall_not_mem.mpr fun ⟨x, y⟩ hq => ?_
      obtain ⟨hx, hy, hbit⟩ := (s.mem_onPoints_iff m x y).mp hq
      exact Bool.false_ne_true ((hclear x y hx hy).symm.trans hbit)
    rw [hnil] at htop hbot
    fin_cases hi
    · exact htop
    · exact hbot

end Sys2Proof.Machine
end

section
/-!
The fields of binary64 encodings (44_sampler.md R330): the magnitude as a function of the 63 bits below the sign, and
the sign and magnitude of a packed and of a negated encoding.
-/

namespace Sys2Proof.Machine

/-! ### Signs -/

/-- An integer from its sign and magnitude. -/
def withSign (neg : Bool) (n : Nat) : Int := if neg then -(n : Int) else n

@[simp] theorem withSign_false (n : Nat) : withSign false n = n := rfl

@[simp] theorem withSign_true (n : Nat) : withSign true n = -(n : Int) := rfl

@[simp] theorem natAbs_withSign (neg : Bool) (n : Nat) : (withSign neg n).natAbs = n := by
  cases neg <;> simp

theorem withSign_eq_zero_iff (neg : Bool) (n : Nat) : withSign neg n = 0 ↔ n = 0 := by
  cases neg <;> simp

theorem withSign_not (neg : Bool) (n : Nat) : withSign (!neg) n = -withSign neg n := by
  cases neg <;> simp

theorem withSign_mul (neg neg' : Bool) (n n' : Nat) :
    withSign neg n * withSign neg' n' = withSign (neg ^^ neg') (n * n') := by
  cases neg <;> cases neg' <;> simp

theorem withSign_mul_natCast (neg : Bool) (n k : Nat) : withSign neg n * k = withSign neg (n * k) := by
  cases neg <;> simp

theorem withSign_decide_lt_zero (i : Int) : withSign (decide (i < 0)) i.natAbs = i := by
  by_cases h : i < 0
  · rw [decide_eq_true h, withSign_true]
    omega
  · rw [decide_eq_false h, withSign_false]
    omega

theorem withSign_lt_zero {neg : Bool} {n : Nat} (hn : 0 < n) : decide (withSign neg n < 0) = neg := by
  cases neg
  · exact decide_eq_false (Int.natCast_nonneg n).not_gt
  · exact decide_eq_true (by rw [withSign_true]; omega)

/-- A nonzero integer's sign as a factor turns a magnitude into one of that sign. -/
theorem withSign_mul_sign {n : Nat} (hn : 0 < n) (neg neg' : Bool) (k : Nat) :
    withSign neg k * (withSign neg' n).sign = withSign (neg ^^ neg') k := by
  have hsign : (n : Int).sign = 1 := Int.sign_eq_one_of_pos (by exact_mod_cast hn)
  cases neg <;> cases neg' <;> simp [hsign]

/-- Two signed magnitudes are at least as far apart as the magnitudes are. -/
theorem natAbs_sub_le_withSign (neg neg' : Bool) (n n' : Nat) :
    ((n : Int) - n').natAbs ≤ (withSign neg n - withSign neg' n').natAbs := by
  cases neg <;> cases neg' <;> simp only [withSign_false, withSign_true] <;> omega

/-- Magnitudes of one sign are as far apart as they are without it. -/
theorem natAbs_withSign_sub (neg : Bool) (n n' : Nat) :
    (withSign neg n - withSign neg n').natAbs = ((n : Int) - n').natAbs := by
  cases neg
  · rfl
  · rw [withSign_true, withSign_true]
    omega

/-- Magnitudes of opposite signs are as far apart as their sum. -/
theorem natAbs_withSign_sub_of_ne {neg neg' : Bool} (h : neg' ≠ neg) (n n' : Nat) :
    (withSign neg n - withSign neg' n').natAbs = n + n' := by
  obtain rfl : neg' = !neg := Bool.eq_not_of_ne h
  cases neg <;> simp only [Bool.not_false, Bool.not_true, withSign_false, withSign_true] <;> omega

/-! ### Magnitudes -/

/-- The magnitude, in units of 2^-1074, that the exponent and fraction bits below the sign encode. -/
def magOfBits (b : Nat) : Nat :=
  if b / 2 ^ 52 = 0 then b % 2 ^ 52 else (2 ^ 52 + b % 2 ^ 52) * 2 ^ (b / 2 ^ 52 - 1)

theorem fMag_eq_magOfBits (d : Dword) : fMag d = magOfBits (d.toNat % 2 ^ 63) := by
  have hexp : d.toNat % 2 ^ 63 / 2 ^ 52 = ieeeExp d := by
    unfold ieeeExp
    omega
  have hfrac : d.toNat % 2 ^ 63 % 2 ^ 52 = ieeeFrac d := by
    unfold ieeeFrac
    omega
  rw [fMag, fExp_eq, fFrac_eq, magOfBits, hexp, hfrac]

/-- A significand shifted up by `s` places, hidden bit and carry included, is encoded by their sum. -/
theorem magOfBits_place {s q : Nat} (hs : s = 0 ∨ 2 ^ 52 ≤ q) (hq : q ≤ 2 ^ 53) :
    magOfBits (s * 2 ^ 52 + q) = q * 2 ^ s := by
  unfold magOfBits
  rcases Nat.lt_or_ge q (2 ^ 52) with hsub | hnormal
  · obtain rfl : s = 0 := by omega
    have hexp : (0 * 2 ^ 52 + q) / 2 ^ 52 = 0 := by omega
    rw [if_pos hexp, pow_zero]
    omega
  rcases Nat.lt_or_ge q (2 ^ 53) with hlt | hcarry
  · have hexp : (s * 2 ^ 52 + q) / 2 ^ 52 = s + 1 := by omega
    have hfrac : 2 ^ 52 + (s * 2 ^ 52 + q) % 2 ^ 52 = q := by omega
    rw [hexp, hfrac, if_neg s.succ_ne_zero, Nat.add_sub_cancel]
  · obtain rfl : q = 2 ^ 53 := by omega
    have hexp : (s * 2 ^ 52 + 2 ^ 53) / 2 ^ 52 = s + 2 := by omega
    have hfrac : 2 ^ 52 + (s * 2 ^ 52 + 2 ^ 53) % 2 ^ 52 = 2 ^ 52 := by omega
    rw [hexp, hfrac, if_neg (by omega), show s + 2 - 1 = s + 1 from rfl, pow_succ]
    ring

theorem magOfBits_strictMono : StrictMono magOfBits := by
  refine strictMono_nat_of_lt_succ fun b => ?_
  have hb : b = (b / 2 ^ 52 - 1) * 2 ^ 52 + (b - (b / 2 ^ 52 - 1) * 2 ^ 52) := by omega
  generalize hs : b / 2 ^ 52 - 1 = s at hb
  generalize hq : b - s * 2 ^ 52 = q at hb
  have hplace : s = 0 ∨ 2 ^ 52 ≤ q := by omega
  rw [hb, add_assoc, magOfBits_place hplace (by omega), magOfBits_place (by omega) (by omega)]
  exact Nat.mul_lt_mul_of_pos_right q.lt_succ_self (by positivity)

@[simp] theorem magOfBits_zero : magOfBits 0 = 0 := rfl

/-- The overflow bound is halfway between the largest finite magnitude and what the next encoding would be. -/
theorem two_mul_overflowUnits : 2 * overflowUnits = magOfBits (fInfBits - 1) + magOfBits fInfBits := by
  have hlargest : fInfBits - 1 = 2045 * 2 ^ 52 + (2 ^ 53 - 1) := by decide
  have hinf : fInfBits = 2045 * 2 ^ 52 + 2 ^ 53 := by decide
  rw [hlargest, magOfBits_place (.inr (by decide)) (by decide), hinf, magOfBits_place (.inr (by decide)) le_rfl,
    overflowUnits, pow_succ 2 2044]
  generalize 2 ^ 2044 = p
  omega

/-! ### The kinds of values -/

theorem fIsInf_eq (d : Dword) : fIsInf d = (decide (ieeeExp d = 2047) && decide (ieeeFrac d = 0)) := by
  rw [fIsInf, fExp_eq, fFrac_eq, Bool.eq_iff_iff]
  simp

theorem fIsNaN_of_finite {d : Dword} (h : ieeeFinite d = true) : fIsNaN d = false := by
  rw [fIsNaN_eq, ieeeNaN, decide_eq_false (of_decide_eq_true h).ne, Bool.false_and]

theorem fIsInf_of_finite {d : Dword} (h : ieeeFinite d = true) : fIsInf d = false := by
  rw [fIsInf_eq, decide_eq_false (of_decide_eq_true h).ne, Bool.false_and]

theorem fIsNaN_of_inf {d : Dword} (h : fIsInf d = true) : fIsNaN d = false := by
  unfold fIsInf at h
  unfold fIsNaN
  rw [Bool.and_eq_true, beq_iff_eq, beq_iff_eq] at h
  rw [h.2]
  exact Bool.and_false _

theorem ieeeFinite_iff_bits (d : Dword) : ieeeFinite d = true ↔ d.toNat % 2 ^ 63 < fInfBits := by
  rw [ieeeFinite, decide_eq_true_eq, ieeeExp, fInfBits]
  omega

theorem ieeeUnits_eq_withSign (d : Dword) : ieeeUnits d = withSign (ieeeNeg d) (fMag d) := by
  rw [← fVal_eq, ← fSign_eq]
  rfl

theorem fIsZero_of_finite {d : Dword} (h : ieeeFinite d = true) : fIsZero d = decide (ieeeUnits d = 0) := by
  rw [fIsZero, fIsFinite_eq, h, Bool.true_and, ieeeUnits_eq_withSign, Bool.eq_iff_iff, decide_eq_true_eq,
    withSign_eq_zero_iff, beq_iff_eq]

/-! ### Packed encodings -/

section

variable (neg : Bool) {b : Nat} (hb : b ≤ fInfBits)
include hb

theorem toNat_fPack : (fPack neg b).toNat = neg.toNat * 2 ^ 63 + b := by
  rw [fPack, BitVec.toNat_ofNat]
  unfold fInfBits at hb
  cases neg <;> simp only [Bool.toNat_false, Bool.toNat_true] <;> omega

theorem bits_fPack : (fPack neg b).toNat % 2 ^ 63 = b := by
  rw [toNat_fPack neg hb]
  unfold fInfBits at hb
  omega

theorem ieeeNeg_fPack : ieeeNeg (fPack neg b) = neg := by
  rw [ieeeNeg, toNat_fPack neg hb]
  unfold fInfBits at hb
  cases neg <;> simp only [Bool.toNat_false, Bool.toNat_true, decide_eq_true_eq, decide_eq_false_iff_not] <;> omega

theorem ieeeUnits_fPack : ieeeUnits (fPack neg b) = withSign neg (magOfBits b) := by
  rw [ieeeUnits_eq_withSign, ieeeNeg_fPack neg hb, fMag_eq_magOfBits, bits_fPack neg hb]

theorem ieeeFinite_fPack_iff : ieeeFinite (fPack neg b) = true ↔ b < fInfBits := by
  rw [ieeeFinite_iff_bits, bits_fPack neg hb]

theorem ieeeNaN_fPack : ieeeNaN (fPack neg b) = false := by
  have hbits := bits_fPack neg hb
  rw [ieeeNaN, ieeeExp, ieeeFrac, Bool.and_eq_false_iff, decide_eq_false_iff_not, decide_eq_false_iff_not]
  unfold fInfBits at hb
  omega

theorem getLsbD_zero_fPack : (fPack neg b).getLsbD 0 = decide (b % 2 = 1) := by
  have hbits := bits_fPack neg hb
  rw [BitVec.getLsbD, Nat.testBit_zero, Bool.eq_iff_iff, decide_eq_true_eq, decide_eq_true_eq]
  omega

end

theorem fPack_fInfBits (neg : Bool) : fPack neg fInfBits = ieeeInf neg := by cases neg <;> rfl

theorem fPack_zero (neg : Bool) : fPack neg 0 = ieeeZero neg := by cases neg <;> rfl

/-! ### Infinities -/

@[simp] theorem fIsInf_ieeeInf (neg : Bool) : fIsInf (ieeeInf neg) = true := by cases neg <;> decide

@[simp] theorem fIsNaN_ieeeInf (neg : Bool) : fIsNaN (ieeeInf neg) = false := fIsNaN_of_inf (fIsInf_ieeeInf neg)

@[simp] theorem fSign_ieeeInf (neg : Bool) : fSign (ieeeInf neg) = neg := by cases neg <;> decide

@[simp] theorem fIsZero_ieeeInf (neg : Bool) : fIsZero (ieeeInf neg) = false := by cases neg <;> decide

/-! ### Negation -/

@[simp] theorem fExp_fNeg (d : Dword) : fExp (fNeg d) = fExp d := by
  rw [fExp, fNeg, BitVec.extractLsb'_xor, show (0x8000000000000000 : Dword).extractLsb' 52 11 = 0#11 from by decide,
    BitVec.xor_zero, fExp]

@[simp] theorem fFrac_fNeg (d : Dword) : fFrac (fNeg d) = fFrac d := by
  rw [fFrac, fNeg, BitVec.extractLsb'_xor, show (0x8000000000000000 : Dword).extractLsb' 0 52 = 0#52 from by decide,
    BitVec.xor_zero, fFrac]

@[simp] theorem fSign_fNeg (d : Dword) : fSign (fNeg d) = !fSign d := by
  rw [fSign, fNeg, BitVec.getLsbD_xor, show (0x8000000000000000 : Dword).getLsbD 63 = true from by decide,
    Bool.xor_true, fSign]

@[simp] theorem fIsNaN_fNeg (d : Dword) : fIsNaN (fNeg d) = fIsNaN d := by
  rw [fIsNaN, fExp_fNeg, fFrac_fNeg, fIsNaN]

@[simp] theorem fIsInf_fNeg (d : Dword) : fIsInf (fNeg d) = fIsInf d := by
  rw [fIsInf, fExp_fNeg, fFrac_fNeg, fIsInf]

@[simp] theorem fNeg_ieeeInf (neg : Bool) : fNeg (ieeeInf neg) = ieeeInf !neg := by cases neg <;> decide

@[simp] theorem ieeeFinite_fNeg (d : Dword) : ieeeFinite (fNeg d) = ieeeFinite d := by
  rw [← fIsFinite_eq, ← fIsFinite_eq, fIsFinite, fExp_fNeg, fIsFinite]

@[simp] theorem ieeeNeg_fNeg (d : Dword) : ieeeNeg (fNeg d) = !ieeeNeg d := by
  rw [← fSign_eq, ← fSign_eq, fSign_fNeg]

@[simp] theorem ieeeUnits_fNeg (d : Dword) : ieeeUnits (fNeg d) = -ieeeUnits d := by
  have hmag : fMag (fNeg d) = fMag d := by rw [fMag, fExp_fNeg, fFrac_fNeg, fMag]
  rw [ieeeUnits_eq_withSign, ieeeUnits_eq_withSign, ieeeNeg_fNeg, hmag, withSign_not]

end Sys2Proof.Machine
end

section
/-!
Rounding (44_sampler.md R330): the encoding that the arithmetic computes is the one of two neighbours nearer to the
exact quotient, the even one of two equally near, and so no other encoding is nearer.
-/

namespace Sys2Proof.Machine

/-- `b` is the one of the neighbouring encodings `lo` and `lo + 1` around `num / den` that is nearer to it, the even one
of two equally near. -/
structure RoundsBetween (num den lo b : Nat) : Prop where
  below : den * magOfBits lo ≤ num
  above : num < den * magOfBits (lo + 1)
  nearer : (b = lo ∧ 2 * num ≤ den * magOfBits lo + den * magOfBits (lo + 1)) ∨
    (b = lo + 1 ∧ den * magOfBits lo + den * magOfBits (lo + 1) ≤ 2 * num)
  tie : 2 * num = den * magOfBits lo + den * magOfBits (lo + 1) → b % 2 = 0

namespace RoundsBetween

variable {num den lo b : Nat} (h : RoundsBetween num den lo b)
include h

/-- No encoding is nearer. -/
theorem nearest (c : Nat) :
    ((num : Int) - (magOfBits b * den : Nat)).natAbs ≤ ((num : Int) - (magOfBits c * den : Nat)).natAbs := by
  obtain ⟨hbelow, habove, hnearer, -⟩ := h
  have hc : den * magOfBits c ≤ den * magOfBits lo ∨ den * magOfBits (lo + 1) ≤ den * magOfBits c := by
    rcases Nat.lt_or_ge lo c with hlt | hle
    · exact .inr (Nat.mul_le_mul_left _ (magOfBits_strictMono.monotone hlt))
    · exact .inl (Nat.mul_le_mul_left _ (magOfBits_strictMono.monotone hle))
  rw [Nat.mul_comm _ den, Nat.mul_comm _ den]
  rcases hnearer with ⟨rfl, hnear⟩ | ⟨rfl, hnear⟩ <;> omega

/-- Where another encoding is as near, the rounded one is even. -/
theorem even {c : Nat} (hc : c ≠ b) (hden : 0 < den)
    (heq : ((num : Int) - (magOfBits b * den : Nat)).natAbs = ((num : Int) - (magOfBits c * den : Nat)).natAbs) :
    b % 2 = 0 := by
  refine h.tie ?_
  obtain ⟨hbelow, habove, hnearer, -⟩ := h
  have hmono {x y : Nat} (hxy : x < y) : den * magOfBits x < den * magOfBits y :=
    Nat.mul_lt_mul_of_pos_left (magOfBits_strictMono hxy) hden
  rw [Nat.mul_comm _ den, Nat.mul_comm _ den] at heq
  rcases hnearer with ⟨rfl, hnear⟩ | ⟨rfl, hnear⟩
  · rcases lt_trichotomy c (b + 1) with hlt | rfl | hgt
    · have := hmono (show c < b by omega)
      omega
    · omega
    · have := hmono hgt
      omega
  · rcases lt_trichotomy c lo with hlt | rfl | hgt
    · have := hmono hlt
      omega
    · omega
    · have := hmono (show lo + 1 < c by omega)
      omega

/-- The rounded encoding is below that of the infinity just where the exact value is below the overflow bound. -/
theorem lt_fInfBits_iff (hden : 0 < den) : b < fInfBits ↔ num < den * overflowUnits := by
  obtain ⟨hbelow, habove, hnearer, htie⟩ := h
  have hmono {x y : Nat} (hxy : x ≤ y) : den * magOfBits x ≤ den * magOfBits y :=
    Nat.mul_le_mul_left _ (magOfBits_strictMono.monotone hxy)
  have hbound : 2 * (den * overflowUnits) = den * magOfBits (fInfBits - 1) + den * magOfBits fInfBits := by
    rw [← mul_add, ← two_mul_overflowUnits, Nat.mul_left_comm]
  have hedge : den * magOfBits (fInfBits - 1) < den * magOfBits fInfBits :=
    Nat.mul_lt_mul_of_pos_left (magOfBits_strictMono (by decide)) hden
  rcases lt_trichotomy (lo + 1) fInfBits with hlt | heq | hgt
  · have := hmono (show lo + 1 ≤ fInfBits - 1 by omega)
    exact iff_of_true (by omega) (by omega)
  · have hodd : lo % 2 = 1 := by
      unfold fInfBits at heq
      omega
    rw [← heq, Nat.add_sub_cancel] at hbound
    rcases hnearer with ⟨rfl, hnear⟩ | ⟨rfl, hnear⟩
    · have hne := mt htie (by omega)
      exact iff_of_true (by omega) (by omega)
    · exact iff_of_false (by omega) (by omega)
  · have := hmono (show fInfBits ≤ lo by omega)
    exact iff_of_false (by omega) (by omega)

end RoundsBetween

/-! ### The rounded encoding -/

/-- The scaled-down quotient is a significand of at most 53 bits, with its top bit set where it is scaled. -/
theorem shifted_quotient_bounds (w : Nat) :
    w / 2 ^ fShift w < 2 ^ 53 ∧ (fShift w = 0 ∨ 2 ^ 52 ≤ w / 2 ^ fShift w) := by
  have hlt := Nat.lt_log2_self (n := w)
  unfold fShift
  rcases Nat.le_total w.log2 52 with hsmall | hlarge
  · rw [Nat.sub_eq_zero_of_le hsmall, pow_zero, Nat.div_one]
    exact ⟨hlt.trans_le (Nat.pow_le_pow_right (by decide) (by omega)), .inl rfl⟩
  · have hw : w ≠ 0 := by
      rintro rfl
      exact absurd hlarge (by decide)
    have hle := Nat.log2_self_le hw
    obtain ⟨s, hs⟩ := Nat.exists_eq_add_of_le hlarge
    rw [hs] at hle hlt ⊢
    rw [Nat.add_sub_cancel_left, Nat.div_lt_iff_lt_mul (by positivity), Nat.le_div_iff_mul_le (by positivity),
      ← pow_add, ← pow_add]
    exact ⟨by rwa [show 53 + s = 52 + s + 1 by omega], .inr hle⟩

/-- Half-even rounding is between the integers around the quotient, whatever unit both are counted in. -/
theorem roundHalfEven_spec {num den : Nat} (hden : 0 < den) :
    den * (num / den) ≤ num ∧ num < den * (num / den + 1) ∧
      ((roundHalfEven num den = num / den ∧ 2 * num ≤ den * (num / den) + den * (num / den + 1)) ∨
        (roundHalfEven num den = num / den + 1 ∧ den * (num / den) + den * (num / den + 1) ≤ 2 * num)) ∧
      (2 * num = den * (num / den) + den * (num / den + 1) → roundHalfEven num den % 2 = 0) := by
  have hdiv := Nat.div_add_mod num den
  have hmod := Nat.mod_lt num hden
  rw [Nat.mul_add_one]
  unfold roundHalfEven
  split <;> omega

/-- What the arithmetic rounds to before it looks for an overflow (44_sampler.md R330). -/
theorem roundsBetween_place {num den : Nat} (hden : 0 < den) :
    RoundsBetween num den (fShift (num / den) * 2 ^ 52 + num / (den * 2 ^ fShift (num / den)))
      (fShift (num / den) * 2 ^ 52 + roundHalfEven num (den * 2 ^ fShift (num / den))) := by
  obtain ⟨hlt, hplace⟩ := shifted_quotient_bounds (num / den)
  rw [Nat.div_div_eq_div_mul] at hlt hplace
  generalize fShift (num / den) = s at *
  obtain ⟨hbelow, habove, hnearer, htie⟩ := roundHalfEven_spec (num := num) (den := den * 2 ^ s) (by positivity)
  generalize num / (den * 2 ^ s) = q at *
  generalize roundHalfEven num (den * 2 ^ s) = r at *
  have hlo : den * magOfBits (s * 2 ^ 52 + q) = den * 2 ^ s * q := by
    rw [magOfBits_place hplace hlt.le]
    ring
  have hhi : den * magOfBits (s * 2 ^ 52 + q + 1) = den * 2 ^ s * (q + 1) := by
    rw [add_assoc, magOfBits_place (q := q + 1) (hplace.imp_right Nat.le_succ_of_le) hlt]
    ring
  rw [← hlo, ← hhi] at hnearer htie
  exact ⟨hlo ▸ hbelow, hhi ▸ habove, by omega, fun heq => by have := htie heq; omega⟩

/-- The rounded magnitude is the encoding that rounds, or that of the infinity in its place (44_sampler.md R330). -/
theorem exists_roundMag_eq_min {num den : Nat} (hden : 0 < den) :
    ∃ lo b, roundMag num den = min fInfBits b ∧ RoundsBetween num den lo b :=
  ⟨_, _, rfl, roundsBetween_place hden⟩

theorem roundMag_le (num den : Nat) : roundMag num den ≤ fInfBits := Nat.min_le_left _ _

theorem overflowUnits_pos : 0 < overflowUnits := Nat.mul_pos (by decide) (by positivity)

/-- The exact value, signed, is at least as far from a value as it is without the signs. -/
theorem natAbs_sub_le_ieeeUnits (neg : Bool) (num den : Nat) (c : Dword) :
    ((num : Int) - (magOfBits (c.toNat % 2 ^ 63) * den : Nat)).natAbs ≤
      (withSign neg num - ieeeUnits c * den).natAbs := by
  rw [ieeeUnits_eq_withSign, withSign_mul_natCast, ← fMag_eq_magOfBits]
  exact natAbs_sub_le_withSign _ _ _ _

/-- The exact value is as far from a packed value of its sign as it is without the sign. -/
theorem natAbs_sub_ieeeUnits_fPack (neg : Bool) (num den : Nat) {b : Nat} (hb : b ≤ fInfBits) :
    (withSign neg num - ieeeUnits (fPack neg b) * den).natAbs = ((num : Int) - (magOfBits b * den : Nat)).natAbs := by
  rw [ieeeUnits_fPack neg hb, withSign_mul_natCast, natAbs_withSign_sub]

section

variable {num den lo b : Nat} (h : RoundsBetween num den lo b) (neg : Bool) (hb : b ≤ fInfBits)
include h hb

/-- No value, of either sign, is nearer. -/
theorem RoundsBetween.nearest_fPack (c : Dword) :
    (withSign neg num - ieeeUnits (fPack neg b) * den).natAbs ≤ (withSign neg num - ieeeUnits c * den).natAbs := by
  rw [natAbs_sub_ieeeUnits_fPack neg num den hb]
  exact (h.nearest _).trans (natAbs_sub_le_ieeeUnits neg num den c)

/-- Where another value, of either sign, is as near, the rounded one is even. -/
theorem RoundsBetween.even_fPack (hden : 0 < den) {c : Dword}
    (heq : (withSign neg num - ieeeUnits (fPack neg b) * den).natAbs = (withSign neg num - ieeeUnits c * den).natAbs)
    (hne : ieeeUnits c ≠ ieeeUnits (fPack neg b)) : b % 2 = 0 := by
  rw [natAbs_sub_ieeeUnits_fPack neg num den hb] at heq
  by_cases hc : c.toNat % 2 ^ 63 = b
  · rw [ieeeUnits_eq_withSign, fMag_eq_magOfBits, hc] at heq hne
    rw [ieeeUnits_fPack neg hb] at hne
    have hsign : ieeeNeg c ≠ neg := fun hs => hne (by rw [hs])
    rw [withSign_mul_natCast, natAbs_withSign_sub_of_ne hsign] at heq
    have hzero := h.nearest 0
    rw [magOfBits_zero, Nat.zero_mul] at hzero
    have hprod : magOfBits b * den = 0 := by omega
    obtain hmag | hden0 := Nat.mul_eq_zero.mp hprod
    · exact absurd (by rw [hmag, (withSign_eq_zero_iff _ _).mpr rfl, (withSign_eq_zero_iff _ _).mpr rfl]) hne
    · exact absurd hden0 hden.ne'
  · exact h.even hc hden (le_antisymm (h.nearest _) (heq ▸ natAbs_sub_le_ieeeUnits neg num den c))

end

/-- A rounded magnitude under a sign is the exact signed value rounded to nearest, ties to even (44_sampler.md R330). -/
theorem roundedTo_fPack (neg : Bool) (num : Nat) {den : Nat} (hden : 0 < den) :
    RoundedTo (withSign neg num) den (fPack neg (roundMag num den)) := by
  obtain ⟨lo, b, hround, hb⟩ := exists_roundMag_eq_min (num := num) hden
  have hiff := hb.lt_fInfBits_iff hden
  have hfinite : ieeeFinite (fPack neg (roundMag num den)) = true ↔ b < fInfBits := by
    rw [ieeeFinite_fPack_iff neg (roundMag_le num den), hround]
    omega
  have hmin (hfin : ieeeFinite (fPack neg (roundMag num den)) = true) : roundMag num den = b ∧ b ≤ fInfBits := by
    have hlt := hfinite.mp hfin
    exact ⟨hround.trans (Nat.min_eq_right hlt.le), hlt.le⟩
  constructor
  case finite => rw [hfinite, natAbs_withSign, hiff]
  case overflow =>
    intro hinf
    have hge : ¬b < fInfBits := mt hfinite.mpr (by rw [hinf]; exact Bool.false_ne_true)
    have hpos : 0 < num := (Nat.mul_pos hden overflowUnits_pos).trans_le (not_lt.mp (mt hiff.mpr hge))
    rw [hround, Nat.min_eq_left (not_lt.mp hge), fPack_fInfBits, withSign_lt_zero hpos]
  case nearest =>
    intro hfin c _
    obtain ⟨hr, hle⟩ := hmin hfin
    rw [hr]
    exact hb.nearest_fPack neg hle c
  case even =>
    intro hfin c _ heq hne
    obtain ⟨hr, hle⟩ := hmin hfin
    rw [hr] at heq hne ⊢
    rw [getLsbD_zero_fPack neg hle, hb.even_fPack neg hle hden heq hne]
    rfl

end Sys2Proof.Machine
end

section
/-!
Sums, differences, products, quotients and conversions of finite values (44_sampler.md R330).
-/

namespace Sys2Proof.Machine

/-! ### Sums and differences -/

/-- A zero of either sign is the exact value zero rounded. -/
theorem roundedTo_ieeeZero (neg : Bool) : RoundedTo 0 1 (ieeeZero neg) := by
  have hround := roundedTo_fPack neg 0 one_pos
  rwa [(withSign_eq_zero_iff neg 0).mpr rfl, show roundMag 0 1 = 0 by decide, fPack_zero] at hround

section

variable {a b : Dword} (ha : ieeeFinite a = true) (hb : ieeeFinite b = true)
include ha hb

/-- A sum of finite values: a signed zero, or the exact sum rounded. -/
theorem fAdd_of_finite :
    fAdd a b = if ieeeUnits a + ieeeUnits b = 0 then ieeeZero (ieeeNeg a && ieeeNeg b)
      else fPack (decide (ieeeUnits a + ieeeUnits b < 0)) (roundMag (ieeeUnits a + ieeeUnits b).natAbs 1) := by
  simp only [fAdd, fIsNaN_of_finite ha, fIsNaN_of_finite hb, fIsInf_of_finite ha, fIsInf_of_finite hb, fVal_eq,
    fSign_eq, fPack_zero, Bool.false_eq_true, or_self, if_false]

theorem fAdd_of_units_eq_zero (h : ieeeUnits a + ieeeUnits b = 0) :
    fAdd a b = ieeeZero (ieeeNeg a && ieeeNeg b) := by rw [fAdd_of_finite ha hb, if_pos h]

theorem roundedTo_fAdd : RoundedTo (ieeeUnits a + ieeeUnits b) 1 (fAdd a b) := by
  by_cases h : ieeeUnits a + ieeeUnits b = 0
  · rw [fAdd_of_units_eq_zero ha hb h, h]
    exact roundedTo_ieeeZero _
  · rw [fAdd_of_finite ha hb, if_neg h]
    have hround := roundedTo_fPack (decide (ieeeUnits a + ieeeUnits b < 0)) (ieeeUnits a + ieeeUnits b).natAbs one_pos
    rwa [withSign_decide_lt_zero] at hround

/-! ### Products -/

theorem fMul_of_finite :
    fMul a b = fPack (ieeeNeg a ^^ ieeeNeg b) (roundMag (fMag a * fMag b) (2 ^ 1074)) := by
  simp only [fMul, fIsNaN_of_finite ha, fIsNaN_of_finite hb, fIsInf_of_finite ha, fIsInf_of_finite hb, fSign_eq,
    fUnit, Bool.false_eq_true, or_self, if_false]

theorem roundedTo_fMul : RoundedTo (ieeeUnits a * ieeeUnits b) (2 ^ 1074) (fMul a b) := by
  rw [fMul_of_finite ha hb, ieeeUnits_eq_withSign, ieeeUnits_eq_withSign, withSign_mul]
  exact roundedTo_fPack _ _ (by positivity)

theorem ieeeNeg_fMul : ieeeNeg (fMul a b) = (ieeeNeg a ^^ ieeeNeg b) := by
  rw [fMul_of_finite ha hb, ieeeNeg_fPack _ (roundMag_le _ _)]

/-! ### Quotients -/

theorem fDiv_of_units_ne_zero (h : ieeeUnits b ≠ 0) :
    fDiv a b = fPack (ieeeNeg a ^^ ieeeNeg b) (roundMag (fMag a * 2 ^ 1074) (fMag b)) := by
  have hzero : fIsZero b = false := by rw [fIsZero_of_finite hb, decide_eq_false h]
  simp only [fDiv, fIsNaN_of_finite ha, fIsNaN_of_finite hb, fIsInf_of_finite ha, fIsInf_of_finite hb, hzero,
    fSign_eq, fUnit, Bool.false_eq_true, or_self, if_false]

theorem roundedTo_fDiv (h : ieeeUnits b ≠ 0) :
    RoundedTo (ieeeUnits a * 2 ^ 1074 * (ieeeUnits b).sign) (ieeeUnits b).natAbs (fDiv a b) := by
  have hpos : 0 < fMag b := by
    rw [ieeeUnits_eq_withSign, Ne, withSign_eq_zero_iff] at h
    exact Nat.pos_of_ne_zero h
  have hnum : ieeeUnits a * 2 ^ 1074 * (ieeeUnits b).sign =
      withSign (ieeeNeg a ^^ ieeeNeg b) (fMag a * 2 ^ 1074) := by
    rw [← withSign_mul_sign hpos, ← withSign_mul_natCast, ← ieeeUnits_eq_withSign, ← ieeeUnits_eq_withSign,
      Nat.cast_pow, Nat.cast_ofNat]
  rw [hnum, fDiv_of_units_ne_zero ha hb h, ieeeUnits_eq_withSign b, natAbs_withSign]
  exact roundedTo_fPack _ _ hpos

theorem ieeeNeg_fDiv (h : ieeeUnits b ≠ 0) : ieeeNeg (fDiv a b) = (ieeeNeg a ^^ ieeeNeg b) := by
  rw [fDiv_of_units_ne_zero ha hb h, ieeeNeg_fPack _ (roundMag_le _ _)]

end

/-! ### Conversions -/

/-- The value of an encoding below the infinity's is rounded to that encoding. -/
theorem roundMag_of_representable {b : Nat} (hb : b < fInfBits) : roundMag (magOfBits b) 1 = b := by
  obtain ⟨lo, b', hround, hb'⟩ := exists_roundMag_eq_min (num := magOfBits b) one_pos
  have hnear := hb'.nearest b
  rw [Nat.mul_one, Nat.mul_one, Int.sub_self, Int.natAbs_zero] at hnear
  have hmag : magOfBits b' = magOfBits b := by omega
  rw [hround, magOfBits_strictMono.injective hmag, Nat.min_eq_right hb.le]

/-- Every integer of at most 53 bits has an encoding. -/
theorem exists_magOfBits_eq {n : Nat} (hn : n < 2 ^ 53) : ∃ b, b < fInfBits ∧ magOfBits b = n * 2 ^ 1074 := by
  rcases Nat.eq_zero_or_pos n with rfl | hpos
  · exact ⟨0, by decide, (Nat.zero_mul _).symm⟩
  have hle := Nat.log2_self_le hpos.ne'
  have hlt := Nat.lt_log2_self (n := n)
  have hlog : n.log2 < 53 := (Nat.log2_lt hpos.ne').mpr hn
  obtain ⟨k, hk⟩ := Nat.exists_eq_add_of_le (show n.log2 ≤ 52 by omega)
  have hlower : 2 ^ 52 ≤ n * 2 ^ k := by
    rw [hk, pow_add]
    exact Nat.mul_le_mul_right _ hle
  have hupper : n * 2 ^ k < 2 ^ 53 := by
    rw [show 53 = n.log2 + 1 + k by omega, pow_add]
    exact Nat.mul_lt_mul_of_pos_right hlt (by positivity)
  refine ⟨(1022 + n.log2) * 2 ^ 52 + n * 2 ^ k, ?_, ?_⟩
  · unfold fInfBits
    omega
  · rw [magOfBits_place (.inr hlower) hupper.le, Nat.mul_assoc, ← pow_add, show k + (1022 + n.log2) = 1074 by omega]

theorem ieeeUnits_fOfNat {n : Nat} (hn : n < 2 ^ 53) : ieeeUnits (fOfNat n) = n * 2 ^ 1074 := by
  obtain ⟨b, hb, hmag⟩ := exists_magOfBits_eq hn
  rw [fOfNat, ieeeUnits_fPack _ (roundMag_le _ _), fUnit, ← hmag, roundMag_of_representable hb, hmag,
    withSign_false, Nat.cast_mul, Nat.cast_pow, Nat.cast_ofNat]

theorem ieeeFinite_fOfNat {n : Nat} (hn : n < 2 ^ 53) : ieeeFinite (fOfNat n) = true := by
  obtain ⟨b, hb, hmag⟩ := exists_magOfBits_eq hn
  rw [fOfNat, ieeeFinite_fPack_iff _ (roundMag_le _ _), fUnit, ← hmag, roundMag_of_representable hb]
  exact hb

theorem ieeeNeg_fOfNat (n : Nat) : ieeeNeg (fOfNat n) = false := ieeeNeg_fPack _ (roundMag_le _ _)

theorem fTrunc_eq_tdiv (d : Dword) : fTrunc d = (ieeeUnits d).tdiv (2 ^ 1074) := by
  have hunit : (2 ^ 1074 : Int) = (fUnit : Nat) := by rw [fUnit, Nat.cast_pow, Nat.cast_ofNat]
  rw [ieeeUnits_eq_withSign, fTrunc, fSign_eq, hunit]
  cases ieeeNeg d
  · exact Int.ofNat_tdiv _ _
  · rw [withSign_true, Int.neg_tdiv, if_pos rfl]
    exact congrArg Neg.neg (Int.ofNat_tdiv _ _)

/-- Truncation takes a converted integer back. -/
theorem fTrunc_fOfNat {n : Nat} (hn : n < 2 ^ 53) : fTrunc (fOfNat n) = n := by
  rw [fTrunc_eq_tdiv, ieeeUnits_fOfNat hn]
  exact Int.mul_tdiv_cancel _ (by positivity)

/-- Settles O43: each operation on finite values packs a sign with the rounded exact magnitude, and a difference is the
sum with the negation. -/
theorem arithmeticRoundsToNearest : Obligations.ArithmeticRoundsToNearest := by
  refine ⟨fun a b ha hb => ?_, fun n hn => ⟨ieeeFinite_fOfNat hn, ieeeUnits_fOfNat hn, ieeeNeg_fOfNat n⟩,
    fun a _ => fTrunc_eq_tdiv a⟩
  have hneg : ieeeFinite (fNeg b) = true := (ieeeFinite_fNeg b).trans hb
  have hsub := roundedTo_fAdd ha hneg
  have hsubZero := fAdd_of_units_eq_zero ha hneg
  rw [ieeeUnits_fNeg, ← sub_eq_add_neg] at hsub hsubZero
  rw [ieeeNeg_fNeg] at hsubZero
  exact ⟨roundedTo_fAdd ha hb, fAdd_of_units_eq_zero ha hb, hsub, hsubZero, roundedTo_fMul ha hb, ieeeNeg_fMul ha hb,
    fun h => ⟨roundedTo_fDiv ha hb h, ieeeNeg_fDiv ha hb h⟩⟩

end Sys2Proof.Machine
end

section
/-!
NaNs, infinities and division by zero (44_sampler.md R330).
-/

namespace Sys2Proof.Machine

/-! ### A NaN result is the canonical one -/

/-- A value is the canonical NaN or no NaN (44_sampler.md R330). -/
def CanonicalIfNaN (d : Dword) : Prop := ieeeNaN d = true → d = fNaN

theorem canonicalIfNaN_fNaN : CanonicalIfNaN fNaN := fun _ => rfl

theorem canonicalIfNaN_fPack (neg : Bool) {b : Nat} (hb : b ≤ fInfBits) : CanonicalIfNaN (fPack neg b) := fun h => by
  rw [ieeeNaN_fPack neg hb] at h
  cases h

theorem canonicalIfNaN_of_inf {d : Dword} (hd : fIsInf d = true) : CanonicalIfNaN d := fun h => by
  rw [← fIsNaN_eq, fIsNaN_of_inf hd] at h
  cases h

theorem CanonicalIfNaN.ite {p : Prop} [Decidable p] {x y : Dword} (hx : p → CanonicalIfNaN x)
    (hy : ¬p → CanonicalIfNaN y) : CanonicalIfNaN (if p then x else y) := by
  split
  · next h => exact hx h
  · next h => exact hy h

theorem canonicalIfNaN_fAdd (a b : Dword) : CanonicalIfNaN (fAdd a b) :=
  .ite (fun _ => canonicalIfNaN_fNaN) fun _ =>
    .ite (fun ha => .ite (fun _ => canonicalIfNaN_fNaN) fun _ => canonicalIfNaN_of_inf ha) fun _ =>
      .ite canonicalIfNaN_of_inf fun _ =>
        .ite (fun _ => canonicalIfNaN_fPack _ (Nat.zero_le _)) fun _ => canonicalIfNaN_fPack _ (roundMag_le _ _)

theorem canonicalIfNaN_fMul (a b : Dword) : CanonicalIfNaN (fMul a b) :=
  .ite (fun _ => canonicalIfNaN_fNaN) fun _ =>
    .ite (fun _ => .ite (fun _ => canonicalIfNaN_fNaN) fun _ => canonicalIfNaN_fPack _ le_rfl) fun _ =>
      canonicalIfNaN_fPack _ (roundMag_le _ _)

theorem canonicalIfNaN_fDiv (a b : Dword) : CanonicalIfNaN (fDiv a b) :=
  .ite (fun _ => canonicalIfNaN_fNaN) fun _ =>
    .ite (fun _ => .ite (fun _ => canonicalIfNaN_fNaN) fun _ => canonicalIfNaN_fPack _ le_rfl) fun _ =>
      .ite (fun _ => canonicalIfNaN_fPack _ (Nat.zero_le _)) fun _ =>
        .ite (fun _ => .ite (fun _ => canonicalIfNaN_fNaN) fun _ => canonicalIfNaN_fPack _ le_rfl) fun _ =>
          canonicalIfNaN_fPack _ (roundMag_le _ _)

/-! ### A NaN operand -/

section

variable {a b : Dword} (h : fIsNaN a = true ∨ fIsNaN b = true)
include h

theorem fAdd_of_nan : fAdd a b = fNaN := if_pos h

theorem fSub_of_nan : fSub a b = fNaN := fAdd_of_nan (by rwa [fIsNaN_fNeg])

theorem fMul_of_nan : fMul a b = fNaN := if_pos h

theorem fDiv_of_nan : fDiv a b = fNaN := if_pos h

end

/-! ### Two infinities -/

theorem fAdd_ieeeInf (m n : Bool) : fAdd (ieeeInf m) (ieeeInf n) = if m = n then ieeeInf m else fNaN := by
  by_cases h : m = n <;> simp [fAdd, h]

theorem fSub_ieeeInf (m n : Bool) : fSub (ieeeInf m) (ieeeInf n) = if m = n then fNaN else ieeeInf m := by
  rw [fSub, fNeg_ieeeInf, fAdd_ieeeInf]
  cases m <;> cases n <;> rfl

theorem fMul_ieeeInf (m n : Bool) : fMul (ieeeInf m) (ieeeInf n) = ieeeInf (m ^^ n) := by
  simp [fMul, fPack_fInfBits]

theorem fDiv_ieeeInf (m n : Bool) : fDiv (ieeeInf m) (ieeeInf n) = fNaN := by simp [fDiv]

/-! ### One infinity and a finite value -/

section

variable {a : Dword} (ha : ieeeFinite a = true) (m : Bool)
include ha

theorem fAdd_ieeeInf_left : fAdd (ieeeInf m) a = ieeeInf m := by
  simp [fAdd, fIsNaN_of_finite ha, fIsInf_of_finite ha]

theorem fAdd_ieeeInf_right : fAdd a (ieeeInf m) = ieeeInf m := by
  simp [fAdd, fIsNaN_of_finite ha, fIsInf_of_finite ha]

theorem fSub_ieeeInf_left : fSub (ieeeInf m) a = ieeeInf m :=
  fAdd_ieeeInf_left ((ieeeFinite_fNeg a).trans ha) m

theorem fSub_ieeeInf_right : fSub a (ieeeInf m) = ieeeInf !m := by
  rw [fSub, fNeg_ieeeInf, fAdd_ieeeInf_right ha]

theorem fMul_ieeeInf_left :
    fMul (ieeeInf m) a = if ieeeUnits a = 0 then fNaN else ieeeInf (m ^^ ieeeNeg a) := by
  simp [fMul, fIsNaN_of_finite ha, fIsZero_of_finite ha, fSign_eq a, fPack_fInfBits]

theorem fMul_ieeeInf_right :
    fMul a (ieeeInf m) = if ieeeUnits a = 0 then fNaN else ieeeInf (ieeeNeg a ^^ m) := by
  simp [fMul, fIsNaN_of_finite ha, fIsZero_of_finite ha, fSign_eq a, fPack_fInfBits]

theorem fDiv_ieeeInf_left : fDiv (ieeeInf m) a = ieeeInf (m ^^ ieeeNeg a) := by
  simp [fDiv, fIsNaN_of_finite ha, fIsInf_of_finite ha, fSign_eq a, fPack_fInfBits]

theorem fDiv_ieeeInf_right : fDiv a (ieeeInf m) = ieeeZero (ieeeNeg a ^^ m) := by
  simp [fDiv, fIsNaN_of_finite ha, fIsInf_of_finite ha, fSign_eq a, fPack_zero]

end

/-- A finite value divided by a zero (44_sampler.md R330). -/
theorem fDiv_of_units_eq_zero {a b : Dword} (ha : ieeeFinite a = true) (hb : ieeeFinite b = true)
    (h : ieeeUnits b = 0) : fDiv a b = if ieeeUnits a = 0 then fNaN else ieeeInf (ieeeNeg a ^^ ieeeNeg b) := by
  simp [fDiv, fIsNaN_of_finite ha, fIsInf_of_finite ha, fIsNaN_of_finite hb, fIsInf_of_finite hb,
    fIsZero_of_finite ha, fIsZero_of_finite hb, h, fSign_eq, fPack_fInfBits]

/-- Settles O44, by the branch of each operation that its operands take. -/
theorem nanIsCanonical : Obligations.NanIsCanonical := by
  refine ⟨fun a b op hop => ?_,
    fun m n => ⟨fAdd_ieeeInf m n, fSub_ieeeInf m n, fMul_ieeeInf m n, fDiv_ieeeInf m n⟩,
    fun a m ha => ⟨fAdd_ieeeInf_left ha m, fAdd_ieeeInf_right ha m, fSub_ieeeInf_left ha m, fSub_ieeeInf_right ha m,
      fMul_ieeeInf_left ha m, fMul_ieeeInf_right ha m, fDiv_ieeeInf_left ha m, fDiv_ieeeInf_right ha m⟩,
    fun a b ha hb h => fDiv_of_units_eq_zero ha hb h⟩
  rw [← fIsNaN_eq a, ← fIsNaN_eq b]
  fin_cases hop
  · exact ⟨canonicalIfNaN_fAdd a b, fAdd_of_nan⟩
  · exact ⟨canonicalIfNaN_fAdd a (fNeg b), fSub_of_nan⟩
  · exact ⟨canonicalIfNaN_fMul a b, fMul_of_nan⟩
  · exact ⟨canonicalIfNaN_fDiv a b, fDiv_of_nan⟩

end Sys2Proof.Machine
end

section
/-!
The transform commands (44_sampler.md R331 to R342): the model's expressions are the rules', element by element.
-/

namespace Sys2Proof.Machine

/-- An index below a vector's length reads its element there. -/
theorem getD_eq_getElem_of_lt {α : Type} {n : Nat} (v : Vector α n) {i : Nat} (hi : i < n) (d : α) :
    v.getD i d = v[i] := by
  rw [getD_eq_getElem?_getD, Vector.getElem?_eq_getElem hi, Option.getD_some]

/-- The affine case of s2q: both skews are a zero (44_sampler.md R334). -/
theorem ruleAffine_iff (q : Quad) :
    ruleAffine q[0] q[1] q[2] q[3] q[4] q[5] q[6] q[7] ↔
      fIsZero (quadSkew q[0] q[2] q[4] q[6]) = true ∧ fIsZero (quadSkew q[1] q[3] q[5] q[7]) = true := by
  rw [fIsZero_iff, fIsZero_iff]
  exact Iff.rfl

/-- The model's square-to-quadrilateral function is the rule's (44_sampler.md R334). -/
theorem isS2q_s2q (q : Quad) : IsS2q q[0] q[1] q[2] q[3] q[4] q[5] q[6] q[7] (s2q q) := by
  constructor
  · intro haffine
    exact if_pos ((ruleAffine_iff q).mp haffine)
  · intro hprojective
    exact ⟨_, _, _, _, _, _, _, _, _, rfl, rfl, rfl, rfl, rfl, rfl, rfl, rfl, rfl,
      if_neg (mt (ruleAffine_iff q).mpr hprojective)⟩

/-- The model's composition is the rule's (44_sampler.md R335). -/
theorem isTimes_timesT (t u : Transform) : IsTimes t u (timesT t u) := by
  intro i j hi hj
  simp (disch := omega) only [timesElement, getD_eq_getElem_of_lt]
  interval_cases i <;> interval_cases j <;> rfl

/-- Each of the eight points is transformed (44_sampler.md R342). -/
theorem getD_xformPoints (t : Transform) (f : Vector Dword 16) {j : Nat} (hj : j < 8) :
    ((xformPoints t f).getD (2 * j) 0, (xformPoints t f).getD (2 * j + 1) 0) =
      ruleApply t (f.getD (2 * j) 0) (f.getD (2 * j + 1) 0) := by
  simp (disch := omega) only [getD_eq_getElem_of_lt]
  interval_cases j <;> rfl

/-- Settles O42: no PT command has a check; s2q and the composition are the rules' by their lemmas, the adjoint as it is
written. -/
theorem ptCommandsComplete : Obligations.PtCommandsComplete := by
  intro s
  exact ⟨⟨s2q s.quadLow, isS2q_s2q s.quadLow, rfl, rfl,
      s2q s.quadHigh, timesT (s2q s.quadHigh) (adjT (s2q s.quadLow)), isS2q_s2q s.quadHigh, isTimes_timesT _ _, rfl⟩,
    rfl, ⟨timesT s.ta s.tb, isTimes_timesT _ _, rfl⟩, rfl,
    ⟨xformPoints s.ta s.f, fun _ hj => getD_xformPoints s.ta s.f hj, rfl⟩⟩

end Sys2Proof.Machine
end

section
/-!
Grid sampling (44_sampler.md R345 to R347): what nudging gives, and the loops over the modules, which end at the first
point that fails or with a bit for every module.
-/

namespace Sys2Proof.Machine

/-! ### One point -/

/-- A coordinate that fails its check raises that check (44_sampler.md R346). -/
theorem nudge_of_coordFails {v : Dword} {lim k : Nat} (h : coordFails v lim = some k) :
    nudge v lim = raise .notFound k := by
  unfold coordFails at h
  unfold nudge
  split at h
  · next hfin =>
    cases h
    rw [if_pos hfin]
  · next hfin =>
    split at h
    · next hout =>
      cases h
      rw [if_neg hfin, if_pos hout]
    · cases h

theorem fTrunc_fZero : fTrunc fZero = 0 := by
  rw [fTrunc_eq_tdiv, show ieeeUnits fZero = 0 by decide, Int.zero_tdiv]

/-- A coordinate inside the nudge window becomes one that truncates to its pixel (44_sampler.md R346). -/
theorem nudge_of_coordFails_eq_none {v : Dword} {lim : Nat} (hlim : lim < 2 ^ 16) (h : coordFails v lim = none) :
    ∃ u, nudge v lim = .ok u ∧ (fTrunc u).toNat = coordPixel v lim := by
  unfold coordFails at h
  unfold nudge coordPixel
  by_cases hfin : fIsFinite v = false
  · rw [if_pos hfin] at h
    cases h
  rw [if_neg hfin] at h ⊢
  by_cases hout : fTrunc v < -1 ∨ fTrunc v > lim
  · rw [if_pos hout] at h
    cases h
  rw [if_neg hout]
  by_cases hleft : fTrunc v = -1
  · have hneg : fTrunc v < 0 := by omega
    exact ⟨fZero, if_pos hleft, by rw [if_pos hneg, fTrunc_fZero, Int.toNat_zero]⟩
  have hnonneg : ¬fTrunc v < 0 := by omega
  rw [if_neg hleft, if_neg hnonneg]
  by_cases hright : fTrunc v = lim
  · refine ⟨fOfNat (lim - 1), if_pos hright, ?_⟩
    rw [if_pos hright.ge, fTrunc_fOfNat (by omega), Int.toNat_natCast]
  · have hinside : ¬fTrunc v ≥ lim := by omega
    exact ⟨v, if_neg hright, (if_neg hinside).symm⟩

theorem State.width_lt (s : State) (m : Mat) : s.width m < 2 ^ 16 := (s.dim m).w.isLt

theorem State.height_lt (s : State) (m : Mat) : s.height m < 2 ^ 16 := (s.dim m).h.isLt

/-- The source pixel of a module's point, moved inside (44_sampler.md R346, R347). -/
def State.sampledBit (s : State) (m : Mat) (mx my : Nat) : Bool :=
  s.matBit m (coordPixel (s.gridPoint mx my).1 (s.width m)) (coordPixel (s.gridPoint mx my).2 (s.height m))

/-- The sample of a module in terms of its grid point: x is nudged before y (44_sampler.md R345, R347). -/
theorem samplePoint_eq (s : State) (m : Mat) (mx my : Nat) :
    samplePoint s m mx my = (nudge (s.gridPoint mx my).1 (s.width m)).bind fun u =>
      (nudge (s.gridPoint mx my).2 (s.height m)).bind fun v => .ok (s.matBit m (fTrunc u).toNat (fTrunc v).toNat) := rfl

theorem samplePoint_of_pointFails {s : State} {m : Mat} {mx my k : Nat} (h : s.pointFails m mx my = some k) :
    samplePoint s m mx my = raise .notFound k := by
  rw [State.pointFails] at h
  rw [samplePoint_eq]
  cases hx : coordFails (s.gridPoint mx my).1 (s.width m) with
  | some kx =>
    rw [hx, Option.some_or] at h
    cases h
    rw [nudge_of_coordFails hx, raise_bind]
  | none =>
    rw [hx, Option.none_or] at h
    obtain ⟨u, hu, -⟩ := nudge_of_coordFails_eq_none (s.width_lt m) hx
    rw [hu, nudge_of_coordFails h]
    rfl

theorem samplePoint_of_pointFails_eq_none {s : State} {m : Mat} {mx my : Nat} (h : s.pointFails m mx my = none) :
    samplePoint s m mx my = .ok (s.sampledBit m mx my) := by
  obtain ⟨hx, hy⟩ := Option.or_eq_none_iff.mp h
  obtain ⟨u, hu, hux⟩ := nudge_of_coordFails_eq_none (s.width_lt m) hx
  obtain ⟨v, hv, hvy⟩ := nudge_of_coordFails_eq_none (s.height_lt m) hy
  rw [samplePoint_eq, hu, hv, State.sampledBit, ← hux, ← hvy]
  rfl

/-- The source pixels of all modules, row by row. -/
def State.sampledRows (s : State) (m : Mat) (dimX dimY : Nat) : List (List Bool) :=
  (List.range' 0 dimY).map fun my => (List.range' 0 dimX).map fun mx => s.sampledBit m mx my

theorem State.getD_sampledRows {s : State} {m : Mat} {dimX dimY mx my : Nat} (hmx : mx < dimX) (hmy : my < dimY) :
    ((s.sampledRows m dimX dimY).getD my []).getD mx false = s.sampledBit m mx my := by
  simp [State.sampledRows, List.getD_eq_getElem?_getD, hmx, hmy]

/-! ### The loops -/

/-- `n` results from index `i` on, in order, or the first failure: the shape of both loops over the modules. -/
def collect {α : Type} (f : Nat → Except Raise α) : Nat → Nat → Except Raise (List α)
  | _, 0 => .ok []
  | i, n + 1 => (f i).bind fun a => (collect f (i + 1) n).bind fun as => .ok (a :: as)

theorem sampleRow_eq_collect (s : State) (m : Mat) (my i n : Nat) :
    sampleRow s m my i n = collect (fun mx => samplePoint s m mx my) i n := by
  induction n generalizing i with
  | zero => rfl
  | succ n ih => rw [sampleRow, collect, ih]

theorem sampleRows_eq_collect (s : State) (m : Mat) (dimX i n : Nat) :
    sampleRows s m dimX i n = collect (fun my => sampleRow s m my 0 dimX) i n := by
  induction n generalizing i with
  | zero => rfl
  | succ n ih => rw [sampleRows, collect, ih]

section

variable {α : Type} {f : Nat → Except Raise α}

theorem collect_eq_ok {g : Nat → α} {i n : Nat} (h : ∀ j, j < i + n → f j = .ok (g j)) :
    collect f i n = .ok ((List.range' i n).map g) := by
  induction n generalizing i with
  | zero => rfl
  | succ n ih =>
    rw [collect, h i (by omega), ih fun j hj => h j (by omega)]
    rfl

/-- The first index that fails decides (44_sampler.md R347). -/
theorem collect_eq_error {i n k : Nat} {e : Raise} (hik : i ≤ k) (hkn : k < i + n) (hk : f k = .error e)
    (hbefore : ∀ j, j < k → ∃ a, f j = .ok a) : collect f i n = .error e := by
  induction n generalizing i with
  | zero => omega
  | succ n ih =>
    rw [collect]
    rcases hik.eq_or_lt with rfl | hlt
    · rw [hk]
      rfl
    · obtain ⟨a, ha⟩ := hbefore i hlt
      rw [ha, ih hlt (by omega)]
      rfl

end

section

variable {s : State} {m : Mat}

theorem sampleRow_eq_ok {my dimX : Nat} (h : ∀ mx, mx < dimX → s.pointFails m mx my = none) :
    sampleRow s m my 0 dimX = .ok ((List.range' 0 dimX).map fun mx => s.sampledBit m mx my) := by
  rw [sampleRow_eq_collect]
  exact collect_eq_ok fun mx hmx => samplePoint_of_pointFails_eq_none (h mx (by omega))

/-- Where every point passes, the loops give the bit of every module (44_sampler.md R347). -/
theorem sampleRows_eq_ok {dimX dimY : Nat} (h : ∀ mx my, mx < dimX → my < dimY → s.pointFails m mx my = none) :
    sampleRows s m dimX 0 dimY =
      .ok (s.sampledRows m dimX dimY) := by
  rw [sampleRows_eq_collect]
  exact collect_eq_ok fun my hmy => sampleRow_eq_ok fun mx hmx => h mx my hmx (by omega)

/-- The first point that fails, in sampling order, decides (44_sampler.md R347). -/
theorem sampleRows_eq_raise {dimX dimY mx my k : Nat} (hmx : mx < dimX) (hmy : my < dimY)
    (hfails : s.pointFails m mx my = some k)
    (hbefore : ∀ mx' my', mx' < dimX → my' < dimY → (my' < my ∨ (my' = my ∧ mx' < mx)) →
      s.pointFails m mx' my' = none) :
    sampleRows s m dimX 0 dimY = raise .notFound k := by
  have hrow : sampleRow s m my 0 dimX = raise .notFound k := by
    rw [sampleRow_eq_collect]
    exact collect_eq_error mx.zero_le (by omega) (samplePoint_of_pointFails hfails) fun mx' hlt =>
      ⟨_, samplePoint_of_pointFails_eq_none (hbefore mx' my (by omega) hmy (.inr ⟨rfl, hlt⟩))⟩
  rw [sampleRows_eq_collect]
  exact collect_eq_error my.zero_le (by omega) hrow fun my' hlt =>
    ⟨_, sampleRow_eq_ok fun mx' hmx' => hbefore mx' my' hmx' (by omega) (.inl hlt)⟩

end

/-! ### The commit -/

/-- The bits of a memory written whole with a matrix region: the given bit at the place of each point of the matrix, 0
everywhere else (20_memory.md R85; 44_sampler.md R347). -/
theorem Memory.ofBytes_regionBytes_spec (w h : Nat) (g : Nat → Nat → Bool) :
    (∀ x y, x < w → y < h → (Memory.ofBytes (regionBytes w h g)).bit (bitPlace w x y) = g x y) ∧
    (∀ j, (∀ x y, x < w → y < h → j ≠ bitPlace w x y) → (Memory.ofBytes (regionBytes w h g)).bit j = false) := by
  refine ⟨fun x y hx hy => ?_, fun j hj => ?_⟩
  · have hrow := lt_row_of_lt_width hx
    rw [regionBytes, Memory.bit_ofBytes_bytesOfBits, decide_eq_true (bitPlace_lt_region hrow hy), bitPlace_mod hrow,
      bitPlace_div hrow, decide_eq_true hx, Bool.true_and, Bool.true_and]
  · rw [regionBytes, Memory.bit_ofBytes_bytesOfBits, Bool.and_eq_false_iff, Bool.and_eq_false_iff,
      decide_eq_false_iff_not, decide_eq_false_iff_not]
    by_contra hset
    push Not at hset
    obtain ⟨hin, hx, -⟩ := hset
    refine hj _ (j / (32 * rowWords w)) hx ?_ ?_
    · rw [Nat.div_lt_iff_lt_mul (by unfold rowWords; omega)]
      calc j < 8 * (4 * (rowWords w * h)) := hin
        _ = h * (32 * rowWords w) := by ring
    · rw [bitPlace_eq, Nat.mod_add_div]

/-! ### The command -/

/-- Past its checks 1 to 3, GRID_SAMPLE samples every module (44_sampler.md R347). -/
theorem exec_gridSample_of_gridArgsOk {s : State} {m : Mat} (h : s.gridArgsOk m) :
    exec (.gridSample m) s = finish s ((sampleRows s m (s.argU 0) 0 (s.argU 1)).bind fun rows =>
      .ok (gridCommit s m (s.argU 0) (s.argU 1) rows)) := by
  obtain ⟨hinit, hx, hy, hxmax, hymax, hfit⟩ := h
  exact (finish_of_not_check (Bool.eq_false_iff.not_left.mpr hinit)).trans
    ((finish_of_not_check (not_or.mpr ⟨hx.not_ge, hy.not_ge⟩)).trans
      (finish_of_not_check (not_or.mpr ⟨hxmax.not_gt, not_or.mpr ⟨hymax.not_gt, hfit.not_gt⟩⟩)))

/-- Settles O45: the loops give every module's bit, and the matrix memory is written whole from them. -/
theorem gridSampleSamples : Obligations.GridSampleSamples := by
  intro m s hargs hpass
  obtain ⟨hin, hout⟩ := Memory.ofBytes_regionBytes_spec (s.argU 0) (s.argU 1) fun x y =>
    ((s.sampledRows m (s.argU 0) (s.argU 1)).getD y []).getD x false
  refine ⟨_, fun mx my hmx hmy => ?_, hout, ?_⟩
  · rw [hin mx my hmx hmy, State.getD_sampledRows hmx hmy, State.sampledBit]
  · rw [exec_gridSample_of_gridArgsOk hargs, sampleRows_eq_ok hpass]
    rfl

/-- Settles O46: the checks in order, then the first failing point ends the loops. -/
theorem gridSampleFailures : Obligations.GridSampleFailures := by
  intro m s
  refine ⟨fun hun => finish_of_check ((s.initialised_eq_false_iff m).mpr hun), fun hw hh hneg => ?_,
    fun hw hh hx hy hbig => ?_, fun hargs mx my k hmx hmy hfails hbefore => ?_⟩
  · exact (finish_of_not_check (State.not_initialised_eq_false hw hh)).trans (finish_of_check hneg)
  · exact (finish_of_not_check (State.not_initialised_eq_false hw hh)).trans
      ((finish_of_not_check (not_or.mpr ⟨hx.not_ge, hy.not_ge⟩)).trans (finish_of_check hbig))
  · rw [exec_gridSample_of_gridArgsOk hargs, sampleRows_eq_raise hmx hmy hfails hbefore, raise_bind, finish_raise]

end Sys2Proof.Machine
end

section
/-!
The runs of the row (45_matcher.md R381): they follow one another up to its end, no other list of runs is the row's, and
OD_RUNS stores their lengths (R390).
-/

namespace Sys2Proof.Machine

/-! ### What the runs of a row are, by their positions -/

section

variable {g : Nat → Bool} {size start : Nat} {rs rs' : List Run}

theorem getElem?_eq_some_getD {k : Nat} (hk : k < rs.length) : rs[k]? = some (rs.getD k ⟨0, 0⟩) := by
  rw [List.getElem?_eq_getElem hk, List.getD_eq_getElem _ _ hk]

namespace IsRuns

variable (h : IsRuns g size start rs) (h' : IsRuns g size start rs')
include h

theorem runStart_lt_runStop {k : Nat} (hk : k < rs.length) : runStart rs k < runStop rs k :=
  Nat.lt_add_of_pos_right (h.colour k _ (getElem?_eq_some_getD hk)).1

theorem colour_at {k i : Nat} (hk : k < rs.length) (hge : runStart rs k ≤ i) (hlt : i < runStop rs k) :
    g i = (k % 2 == 0) :=
  (h.colour k _ (getElem?_eq_some_getD hk)).2 i hge hlt

theorem colour_runStart {k : Nat} (hk : k < rs.length) : g (runStart rs k) = (k % 2 == 0) :=
  h.colour_at hk (Nat.le_refl _) (h.runStart_lt_runStop hk)

theorem runStart_succ {k : Nat} (hk : k + 1 < rs.length) : runStart rs (k + 1) = runStop rs k :=
  h.next k _ _ (getElem?_eq_some_getD (k.lt_succ_self.trans hk)) (getElem?_eq_some_getD hk)

theorem runStop_last {k : Nat} (hk : k + 1 = rs.length) : runStop rs k = size := by
  refine h.last _ ?_
  rw [List.getLast?_eq_getElem?, ← hk]
  exact getElem?_eq_some_getD (by omega)

/-- A later run starts at or past the end of an earlier one. -/
theorem runStop_le_runStart {k l : Nat} (hkl : k < l) (hl : l < rs.length) : runStop rs k ≤ runStart rs l := by
  induction l, hkl using Nat.le_induction with
  | base => exact (h.runStart_succ hl).ge
  | succ l hkl ih =>
    calc runStop rs k ≤ runStart rs l := ih (by omega)
      _ ≤ runStop rs l := (h.runStart_lt_runStop (by omega)).le
      _ = runStart rs (l + 1) := (h.runStart_succ hl).symm

theorem runStop_le_size {k : Nat} (hk : k < rs.length) : runStop rs k ≤ size := by
  have hlast : runStop rs (rs.length - 1) = size := h.runStop_last (by omega)
  rcases Nat.lt_or_ge k (rs.length - 1) with hlt | hge
  · have hle := h.runStop_le_runStart hlt (by omega)
    have hpos := h.runStart_lt_runStop (k := rs.length - 1) (by omega)
    omega
  · rw [show k = rs.length - 1 by omega, hlast]

/-- A run that ends inside the row is not the last. -/
theorem succ_lt_length {k : Nat} (hk : k < rs.length) (hstop : runStop rs k < size) : k + 1 < rs.length := by
  by_contra hlast
  have := h.runStop_last (k := k) (by omega)
  omega

/-- The first run starts at or past START, and only white is before it. -/
theorem first_at (h0 : 0 < rs.length) :
    start ≤ runStart rs 0 ∧ ∀ i, start ≤ i → i < runStart rs 0 → g i = false :=
  h.first _ (by rw [List.head?_eq_getElem?]; exact getElem?_eq_some_getD h0)

theorem start_le_runStart {k : Nat} (hk : k < rs.length) : start ≤ runStart rs k := by
  have h0 := (h.first_at (by omega)).1
  rcases Nat.eq_zero_or_pos k with rfl | hpos
  · exact h0
  · have hlt := h.runStart_lt_runStop (k := 0) (by omega)
    have hle := h.runStop_le_runStart hpos hk
    omega

/-- A row that is white from START on has no runs. -/
theorem eq_nil_of_white (hwhite : ∀ i, start ≤ i → i < size → g i = false) : rs = [] := by
  by_contra hne
  have h0 := List.length_pos_iff.mpr hne
  have hblack := h.colour_runStart h0
  have hlt := h.runStart_lt_runStop h0
  rw [hwhite _ (h.start_le_runStart h0) (hlt.trans_le (h.runStop_le_size h0))] at hblack
  cases hblack

/-! ### They are the only runs of the row -/

include h'

theorem length_pos_of_length_pos (h0 : 0 < rs.length) : 0 < rs'.length := by
  refine List.length_pos_iff.mpr fun hnil => ?_
  rw [h.eq_nil_of_white (h'.empty hnil)] at h0
  exact Nat.lt_irrefl _ h0

theorem runStart_zero_le (h0 : 0 < rs.length) (h0' : 0 < rs'.length) : runStart rs 0 ≤ runStart rs' 0 := by
  by_contra hlt
  have hwhite := (h.first_at h0).2 _ (h'.start_le_runStart h0') (by omega)
  rw [h'.colour_runStart h0'] at hwhite
  cases hwhite

/-- Two runs of one number that start together end together: where one ended first, the colour would change there. -/
theorem runStop_le_runStop {k : Nat} (hk : k < rs.length) (hk' : k < rs'.length)
    (hstart : runStart rs k = runStart rs' k) : runStop rs k ≤ runStop rs' k := by
  by_contra hlt
  have hnext := h'.succ_lt_length hk' (by have := h.runStop_le_size hk; omega)
  have hlong : g (runStop rs' k) = (k % 2 == 0) :=
    h.colour_at hk (by have := h'.runStart_lt_runStop hk'; omega) (by omega)
  have hchange := h'.colour_runStart hnext
  rw [h'.runStart_succ hnext, hlong] at hchange
  rcases Nat.mod_two_eq_zero_or_one k with hmod | hmod <;> simp [Nat.add_mod, hmod] at hchange

theorem run_eq {k : Nat} (hk : k < rs.length) :
    k < rs'.length ∧ runStart rs k = runStart rs' k ∧ runStop rs k = runStop rs' k := by
  have hboth : k < rs'.length ∧ runStart rs k = runStart rs' k := by
    induction k with
    | zero =>
      have h0' := h.length_pos_of_length_pos h' hk
      exact ⟨h0', le_antisymm (h.runStart_zero_le h' hk h0') (h'.runStart_zero_le h h0' hk)⟩
    | succ k ih =>
      obtain ⟨hk', hstart⟩ := ih (by omega)
      have hstop := le_antisymm (h.runStop_le_runStop h' (by omega) hk' hstart)
        (h'.runStop_le_runStop h hk' (by omega) hstart.symm)
      have hnext : k + 1 < rs'.length := by
        refine h'.succ_lt_length hk' ?_
        have hlt := h.runStart_lt_runStop hk
        have hle := h.runStop_le_size hk
        have hsucc := h.runStart_succ hk
        omega
      exact ⟨hnext, by rw [h.runStart_succ hk, h'.runStart_succ hnext, hstop]⟩
  obtain ⟨hk', hstart⟩ := hboth
  exact ⟨hk', hstart, le_antisymm (h.runStop_le_runStop h' hk hk' hstart)
    (h'.runStop_le_runStop h hk' hk hstart.symm)⟩

theorem length_le : rs.length ≤ rs'.length := by
  by_contra hlt
  exact Nat.lt_irrefl _ (h.run_eq h' (k := rs'.length) (by omega)).1

/-- The rule has only one list of runs for a row (45_matcher.md R381). -/
theorem unique : rs = rs' := by
  refine List.ext_getElem (le_antisymm (h.length_le h') (h'.length_le h)) fun k hk hk' => ?_
  obtain ⟨-, hstart, hstop⟩ := h.run_eq h' hk
  rw [runStart, runStart] at hstart
  rw [runStop, runStop, hstart, Nat.add_left_cancel_iff] at hstop
  rw [← List.getD_eq_getElem _ ⟨0, 0⟩ hk, ← List.getD_eq_getElem _ ⟨0, 0⟩ hk']
  exact congrArg₂ Run.mk hstart hstop

end IsRuns

end

/-! ### OD_RUNS -/

theorem headD_runsFrom_pos (g : Nat → Bool) (p len : Nat) (b : Bool) (i n : Nat) (d : Run) :
    ((runsFrom g p len b i n).headD d).pos = p := by
  induction n generalizing len i with
  | zero => rfl
  | succ n ih =>
    rw [runsFrom]
    split
    · exact ih _ _
    · rfl

/-- The first run starts where the scan for a black module ends, at S where there is none (45_matcher.md R390). -/
theorem State.headD_runsOf_pos (s : State) (start : Nat) :
    ((s.runsOf start).headD ⟨s.size, 0⟩).pos = s.scan true start := by
  unfold State.runsOf
  split
  · exact headD_runsFrom_pos _ _ _ _ _ _ _
  · next hge => exact le_antisymm (Nat.le_of_not_lt hge) (s.scan_spec true start).1

/-- The lengths of the runs in RUN_MEM, and what is past them (45_matcher.md R390). -/
theorem Memory.half_writeHalves_runs (m : Memory) (rs : List Run) (k : Nat) :
    (m.writeHalves 0 (rs.map fun r => BitVec.ofNat 16 r.len)).half k =
      if k < rs.length then BitVec.ofNat 16 (rs.getD k ⟨0, 0⟩).len else m.half k := by
  rw [Memory.half_writeHalves, List.length_map]
  simp only [Nat.zero_le, true_and, Nat.zero_add, Nat.sub_zero]
  refine ite_congr rfl (fun hk => ?_) fun _ => rfl
  rw [List.getD_eq_getElem _ _ (by simpa using hk), List.getElem_map, List.getD_eq_getElem _ _ hk]

/-- Settles O47: the model's runs are those of the rule, and RUN_MEM is overwritten from entry 0 on with their
lengths. -/
theorem odRunsExtractsRuns : Obligations.OdRunsExtractsRuns := by
  intro s
  refine ⟨fun hout => finish_of_check hout, fun hin =>
    ⟨_, _, s.runsOf_isRuns _ hin, s.run.half_writeHalves_runs _, ?_⟩⟩
  rw [s.headD_runsOf_pos]
  exact finish_of_not_check hin.not_gt

end Sys2Proof.Machine
end

section
/-!
What the matcher's best entry says of a character (45_matcher.md R382 to R385): a match gives an entry exactly where the
rule has a best one, which is then the only one; and OD_PMATCH (R391).
-/

namespace Sys2Proof.Machine

/-! ### The parameter table and the entries -/

@[simp] theorem symRow_k (sym : Sym) : (symRow sym).k = symK sym := by rw [symRow_eq]

@[simp] theorem symRow_start (sym : Sym) : (symRow sym).start = symStart sym := by rw [symRow_eq]

@[simp] theorem symRow_stop (sym : Sym) : (symRow sym).stop = symStop sym := by rw [symRow_eq]

@[simp] theorem symRow_gap (sym : Sym) : (symRow sym).gap = symGap sym := by rw [symRow_eq]

@[simp] theorem symRow_term (sym : Sym) : (symRow sym).term = symTerm sym := by rw [symRow_eq]

theorem entriesOf_eq (sym : Sym) : entriesOf sym = allEntries sym := by rw [entriesOf, symRow_eq, allEntries]

theorem symStart_sorted (sym : Sym) : (symStart sym).Pairwise (· < ·) := by cases sym <;> decide

theorem symStart_lt (sym : Sym) : ∀ v ∈ symStart sym, v < symEntries sym := by cases sym <;> decide

theorem symK_pos (sym : Sym) : 0 < symK sym := by cases sym <;> decide

/-! ### The best entry -/

/-- Each of two best entries is no worse than the other. -/
theorem IsBest.unique {sym : Sym} {counts entries : List Nat} {v v' x x' : Nat} (h : IsBest sym counts entries v x)
    (h' : IsBest sym counts entries v' x') : v = v' ∧ x = x' := by
  obtain ⟨hv, hx, -, hleast⟩ := h
  obtain ⟨hv', hx', -, hleast'⟩ := h'
  have hle := hleast v' hv' x' hx'
  have hle' := hleast' v hv x hx
  omega

theorem NoBest.not_isBest {sym : Sym} {counts entries : List Nat} {v x : Nat} (h : NoBest sym counts entries) :
    ¬IsBest sym counts entries v x := by
  rintro ⟨hv, hx, hlimit, -⟩
  exact (h v hv x hx).not_gt hlimit

section

variable {sym : Sym} {counts es : List Nat} (hc : counts.length = symK sym) (hs : es.Pairwise (· < ·))
  (he : ∀ v ∈ es, v < symEntries sym)
include hc hs he

theorem best_eq_of_isBest {v x : Nat} (h : IsBest sym counts es v x) : best sym counts es = (some v, x) := by
  rcases best_spec sym counts hc es hs he with ⟨-, -, hnone⟩ | ⟨w, y, hbest, hw⟩
  · exact absurd h hnone.not_isBest
  · obtain ⟨rfl, rfl⟩ := hw.unique h
    exact hbest

theorem best_eq_none_of_noBest (h : NoBest sym counts es) : (best sym counts es).1 = none := by
  rcases best_spec sym counts hc es hs he with ⟨hnone, -, -⟩ | ⟨w, y, -, hw⟩
  · exact hnone
  · exact absurd hw h.not_isBest

end

/-! ### The character at a run -/

section

variable {sym : Sym} {rs : List Run} {k v v' : Nat} {es : List Nat}

theorem Reads.unique (h : Reads sym rs k es v) (h' : Reads sym rs k es v') : v = v' := by
  obtain ⟨-, x, hx⟩ := h
  obtain ⟨-, x', hx'⟩ := h'
  exact (hx.unique hx').1

theorem Reads.mem (h : Reads sym rs k es v) : v ∈ es := by
  obtain ⟨-, x, hv, -⟩ := h
  exact hv

theorem Reads.add_le_length (h : Reads sym rs k es v) : k + symK sym ≤ rs.length := symRow_k sym ▸ h.1

theorem ReadsNone.not_reads (h : ReadsNone sym rs k es) : ¬Reads sym rs k es v := by
  rintro ⟨hle, x, hx⟩
  exact h.elim (fun hlt => hlt.not_ge hle) fun hnone => hnone.not_isBest hx

/-- A match gives the character of the rule, whatever ascending entries it is among (45_matcher.md R385). -/
theorem bestAt_eq_some_iff (hs : es.Pairwise (· < ·)) (he : ∀ v ∈ es, v < symEntries sym) :
    (bestAt sym rs k es).1 = some v ↔ Reads sym rs k es v := by
  refine ⟨reads_of_bestAt hs he, fun h => ?_⟩
  rcases bestAt_spec sym rs k es hs he with ⟨-, hnone⟩ | ⟨w, hw, hreads⟩
  · exact absurd h hnone.not_reads
  · rw [hw, hreads.unique h]

/-- The match of a start character (45_matcher.md R387). -/
theorem bestAt_start_eq_some_iff : (bestAt sym rs k (symStart sym)).1 = some v ↔ Reads sym rs k (symRow sym).start v := by
  rw [symRow_start]
  exact bestAt_eq_some_iff (symStart_sorted sym) (symStart_lt sym)

/-- The match of a character (45_matcher.md R388). -/
theorem bestAt_all_eq_some_iff : (bestAt sym rs k (allEntries sym)).1 = some v ↔ Reads sym rs k (entriesOf sym) v := by
  rw [← entriesOf_eq]
  exact bestAt_eq_some_iff (entriesOf_sorted sym) (entriesOf_lt sym)

theorem bestAt_all_eq_none_iff :
    (bestAt sym rs k (allEntries sym)).1 = none ↔ ∀ v, ¬Reads sym rs k (entriesOf sym) v := by
  simp only [Option.eq_none_iff_forall_ne_some, ne_eq, bestAt_all_eq_some_iff]

end

/-! ### OD_PMATCH -/

theorem matchSpan_eq (sym : Sym) : matchSpan sym = if sym = .itf then 9 else (symRow sym).k := by cases sym <;> rfl

theorem State.runCounts_eq (s : State) (sym : Sym) (j : Nat) :
    s.runCounts sym j =
      (List.range (symRow sym).k).map fun i => (s.run.half (j + (if sym = .itf then 2 else 1) * i)).toNat := by
  cases sym <;> rfl

theorem State.length_runCounts (s : State) (sym : Sym) (j : Nat) : (s.runCounts sym j).length = symK sym := by
  rw [State.runCounts, List.length_map, List.length_range]

/-- Settles O48: past its checks the command gives what `best` gives over the entry's runs. -/
theorem odPmatchFindsBest : Obligations.OdPmatchFindsBest := by
  rintro sym s span counts rfl rfl
  rw [← matchSpan_eq, ← s.runCounts_eq, entriesOf_eq]
  have hentries := entriesOf_lt sym
  have hsorted := entriesOf_sorted sym
  rw [entriesOf_eq] at hentries hsorted
  have hlen := s.length_runCounts sym (s.argU 0)
  have hexec (hruns : s.nruns.toNat ≤ 4096) (hfit : s.argU 0 + matchSpan sym ≤ s.nruns.toNat) :
      exec (.odPmatch sym) s = finish s (putMatch s (best sym (s.runCounts sym (s.argU 0)) (allEntries sym))) :=
    (finish_of_not_check hruns.not_gt).trans (finish_of_not_check hfit.not_gt)
  refine ⟨fun hruns => finish_of_check hruns,
    fun hruns hshort => (finish_of_not_check hruns.not_gt).trans (finish_of_check hshort),
    fun hruns hfit hnone => ?_, fun hruns hfit v x hbest => ?_⟩
  · have hfst := best_eq_none_of_noBest hlen hsorted hentries hnone
    rw [hexec hruns hfit, show best _ _ _ = (none, _) from Prod.ext hfst rfl]
    rfl
  · rw [hexec hruns hfit, best_eq_of_isBest hlen hsorted hentries hbest]
    rfl

end Sys2Proof.Machine
end

section
/-!
The validation of decoded symbols (45_matcher.md R392 to R396): the model's weighted sums are those of the rules, so it
fails the check that they name, and what it lets pass is a valid symbol.
-/

namespace Sys2Proof.Machine

/-! ### Weighted sums -/

/-- The weight after `k % w + 1`, which goes back to 1 after `w` (45_matcher.md R393). -/
theorem nextWeight_eq {w : Nat} (hw : 0 < w) (k : Nat) :
    (if k % w + 1 + 1 > w then 1 else k % w + 1 + 1) = (k + 1) % w + 1 := by
  have hlt := Nat.mod_lt k hw
  rw [← Nat.mod_add_mod k w 1]
  split
  · rw [show k % w + 1 = w by omega, Nat.mod_self]
  · rw [Nat.mod_eq_of_lt (show k % w + 1 < w by omega)]

/-- The sum of Code 93 from the last value back, from weight `k % w + 1` on (45_matcher.md R393). -/
theorem code93Sum_reverse {w : Nat} (hw : 0 < w) (l : List Nat) (k : Nat) :
    code93Sum w (k % w + 1) l.reverse =
      ((List.range l.length).map fun i => ((k + (l.length - 1 - i)) % w + 1) * l.getD i 0).sum := by
  induction l using List.reverseRecOn generalizing k with
  | nil => rfl
  | append_singleton l x ih =>
    rw [List.reverse_append, List.reverse_singleton, List.singleton_append, code93Sum, nextWeight_eq hw, ih,
      List.length_append, List.length_singleton, List.range_succ, List.map_append, List.sum_append, Nat.add_comm]
    congr 1
    · congr 1
      refine List.map_congr_left fun i hi => ?_
      have hi := List.mem_range.mp hi
      rw [List.getD_append _ _ _ _ hi, show k + 1 + (l.length - 1 - i) = k + (l.length + 1 - 1 - i) by omega]
    · simp

/-- The check of Code 93 compares with the rule's sum (45_matcher.md R393). -/
theorem code93Check_iff {data : List Nat} {cp w : Nat} (hw : 0 < w) (hcp : cp ≤ data.length) :
    code93Check data cp w = true ↔ Code93Holds data cp w := by
  have hsum : code93Sum w 1 (data.take cp).reverse % 47 = code93Value data cp w := by
    have hrev := code93Sum_reverse hw (data.take cp) 0
    rw [Nat.zero_mod, List.length_take, min_eq_left hcp] at hrev
    rw [hrev, code93Value]
    congr 2
    refine List.map_congr_left fun i hi => ?_
    have hi := List.mem_range.mp hi
    rw [Nat.zero_add, List.getD_eq_getElem?_getD, List.getElem?_take_of_lt hi, ← List.getD_eq_getElem?_getD]
  rw [code93Check, hsum, beq_iff_eq, Code93Holds]

/-- The sum of Code 128 with weights from `w` on (45_matcher.md R394). -/
theorem weightedSum_eq (w : Nat) (l : List Nat) :
    weightedSum w l = ((List.range l.length).map fun i => (w + i) * l.getD i 0).sum := by
  induction l generalizing w with
  | nil => rfl
  | cons d ds ih =>
    rw [weightedSum, ih, List.length_cons, List.range_succ_eq_map, List.map_cons, List.sum_cons, List.map_map]
    congr 1
    congr 1
    refine List.map_congr_left fun i _ => ?_
    simp only [Function.comp_apply, List.getD_cons_succ, Nat.succ_eq_add_one, Nat.add_assoc, Nat.add_comm 1]

/-- The check of Code 128 takes the rule's sum, over the data before the check value (45_matcher.md R394). -/
theorem add_weightedSum_mod (start : Nat) (data : List Nat) :
    (start + weightedSum 1 data.dropLast) % 103 = code128Value start data := by
  rw [code128Value, weightedSum_eq, List.length_dropLast]
  congr 3
  refine List.map_congr_left fun i hi => ?_
  have hi := List.mem_range.mp hi
  rw [Nat.add_comm 1, List.dropLast_eq_take, List.getD_eq_getElem?_getD, List.getElem?_take_of_lt hi,
    ← List.getD_eq_getElem?_getD]

/-! ### The checks of each symbology -/

section

variable (chk : Bool) (v : Nat) (ds : List Nat) (z : Nat)

@[simp] theorem symData_symbols : symData (v :: ds ++ [z]) = ds := by simp [symData]

theorem length_symbols : (v :: ds ++ [z]).length = ds.length + 2 := by
  rw [List.length_append, List.length_cons, List.length_singleton]

theorem getD_symbols_zero : (v :: ds ++ [z]).getD 0 0 = v := rfl

/-- A check that a rule names, taken apart as the model's body has it. -/
theorem elim_check {p : Prop} [Decidable p] (e : Code × Nat) (o : Option (Code × Nat)) :
    ((if p then some e else o).elim (.ok ()) fun e => raise e.1 e.2 : Except Raise Unit) =
      if p then raise e.1 e.2 else o.elim (.ok ()) fun e => raise e.1 e.2 := by
  split <;> rfl

/-- The validation of the symbols `v`, `ds`, `z` fails the check that the rules name, or none (45_matcher.md R392 to
R396). -/
theorem validate_symbols (sym : Sym) :
    validate sym chk (v :: ds ++ [z]) = (validityCheck sym chk v ds).elim (.ok ()) fun e => raise e.1 e.2 := by
  cases sym with
  | code39 =>
    simp only [validate, validate39, validityCheck, symData_symbols, List.dropLast_eq_take, elim_check, Option.elim_none]
  | code93 =>
    simp only [validate, validate93, validityCheck, symData_symbols, elim_check, Option.elim_none]
    refine ite_congr rfl (fun _ => rfl) fun hlen => ?_
    have h20 := code93Check_iff (w := 20) (data := ds) (cp := ds.length - 2) (by decide) (by omega)
    have h15 := code93Check_iff (w := 15) (data := ds) (cp := ds.length - 1) (by decide) (by omega)
    simp only [← Bool.not_eq_true, h20, h15, Code93Holds, eq_comm (a := ds.getD _ 0), ne_eq]
  | code128 =>
    simp only [validate, validate128, validityCheck, symData_symbols, getD_symbols_zero,
      add_weightedSum_mod, ← Bool.decide_and, elim_check, Option.elim_none]
  | itf => rfl
  | codabar => simp only [validate, validateCodabar, validityCheck, symData_symbols, elim_check, Option.elim_none]

theorem check_eq_none_iff {p : Prop} [Decidable p] {e : Code × Nat} {o : Option (Code × Nat)} :
    (if p then some e else o) = none ↔ ¬p ∧ o = none := by
  split <;> simp [*]

/-- Symbols are valid where they fail no check (45_matcher.md R392 to R396). -/
theorem validSymbols_of_validityCheck {sym : Sym} (hsym : sym ≠ .itf) (h : validityCheck sym chk v ds = none) :
    ValidSymbols sym chk (v :: ds ++ [z]) := by
  have hlast : ds.getLastD 0 = ds.getD (ds.length - 1) 0 := by
    rw [List.getLastD_eq_getLast?, List.getLast?_eq_getElem?, List.getD_eq_getElem?_getD]
  cases sym with
  | code39 =>
    simp only [validityCheck, check_eq_none_iff] at h
    obtain ⟨hlen, hsum, -⟩ := h
    rw [ValidSymbols, symData_symbols, hlast, List.dropLast_eq_take]
    exact ⟨by omega, fun hchk => by_contra fun hne => hsum ⟨hchk, hne⟩⟩
  | code93 =>
    simp only [validityCheck, check_eq_none_iff] at h
    obtain ⟨hlen, h20, h15, -⟩ := h
    rw [ValidSymbols, symData_symbols]
    exact ⟨by omega, (not_not.mp h20).symm, (not_not.mp h15).symm⟩
  | code128 =>
    simp only [validityCheck, check_eq_none_iff, List.any_eq_true, decide_eq_true_eq] at h
    obtain ⟨hlen, hstart, hsum, -⟩ := h
    rw [ValidSymbols, symData_symbols, hlast]
    exact ⟨by omega, fun x hx hbad => hstart ⟨x, hx, hbad⟩, not_not.mp hsum⟩
  | itf => exact absurd rfl hsym
  | codabar =>
    simp only [validityCheck, check_eq_none_iff] at h
    rw [ValidSymbols, symData_symbols]
    omega

end

end Sys2Proof.Machine
end

section
/-!
The start searches of the matcher (45_matcher.md R387, R389): both try every second run up to the last that has room for
a start pattern, so each ends at the first black run with a start pattern and its quiet zone, or fails check 3.
-/

namespace Sys2Proof.Machine

/-! ### The search of every second run -/

/-- The first result of `find` at runs `j`, `j + 2`, … with `width` runs left, the shape of both start searches. -/
def searchStart {α : Type} (find : Nat → Option α) (width len : Nat) : Nat → Nat → Except Raise α
  | 0, _ => raise .notFound 3
  | n + 1, j =>
    if j + width > len then raise .notFound 3
    else
      match find j with
      | some a => .ok a
      | none => searchStart find width len n (j + 2)

section

variable {α : Type} {find : Nat → Option α} {width len : Nat}

theorem searchStart_eq_ok {n i j : Nat} {a : α} (hfind : find j = some a) (hroom : j + width ≤ len)
    (hij : i ≤ j) (heven : i % 2 = j % 2) (hfuel : j < i + 2 * n)
    (hbefore : ∀ k, k < j → k % 2 = j % 2 → find k = none) : searchStart find width len n i = .ok a := by
  induction n generalizing i with
  | zero => omega
  | succ n ih =>
    rw [searchStart, if_neg (by omega)]
    rcases hij.eq_or_lt with rfl | hlt
    · rw [hfind]
    · rw [hbefore i hlt heven]
      exact ih (by omega) (by omega) (by omega)

theorem searchStart_eq_raise {n i : Nat} (hnone : ∀ k, k % 2 = i % 2 → k + width ≤ len → find k = none) :
    searchStart find width len n i = raise .notFound 3 := by
  induction n generalizing i with
  | zero => rfl
  | succ n ih =>
    rw [searchStart]
    split
    · rfl
    · rw [hnone i rfl (by omega)]
      exact ih fun k hk => hnone k (by omega)

theorem exists_of_searchStart_eq_ok {n i : Nat} {a : α} (h : searchStart find width len n i = .ok a) :
    ∃ j, j + width ≤ len ∧ find j = some a := by
  induction n generalizing i with
  | zero => cases h
  | succ n ih =>
    rw [searchStart] at h
    split at h
    · cases h
    · next hroom =>
      split at h
      · next b hb =>
        cases h
        exact ⟨i, by omega, hb⟩
      · exact ih h

end

/-! ### The start character of the common procedure (45_matcher.md R387) -/

/-- The start character at run `j` with its quiet zone, if any, and its run. -/
def startAt (s : State) (sym : Sym) (rs : List Run) (j : Nat) : Option (Nat × Nat) :=
  (bestAt sym rs j (symStart sym)).1.bind fun v =>
    if s.quietBefore sym (runPos rs j) (runEnd rs (j + symK sym - 1) - runPos rs j) then some (j, v) else none

theorem findStart_eq_searchStart (s : State) (sym : Sym) (rs : List Run) (n j : Nat) :
    findStart s sym rs n j = searchStart (startAt s sym rs) (symK sym) rs.length n j := by
  induction n generalizing j with
  | zero => rfl
  | succ n ih =>
    rw [findStart, searchStart, ih, startAt]
    cases (bestAt sym rs j (symStart sym)).1 with
    | none => rfl
    | some v =>
      rw [Option.bind_some]
      cases s.quietBefore sym (runPos rs j) (runEnd rs (j + symK sym - 1) - runPos rs j) <;> rfl

section

variable {s : State} {sym : Sym} {rs : List Run} {j v : Nat}

theorem startAt_eq_some_iff {a : Nat × Nat} :
    startAt s sym rs j = some a ↔ a.1 = j ∧ StartsAt s.row.bit sym rs j a.2 := by
  obtain ⟨j', v⟩ := a
  rw [StartsAt, ← bestAt_start_eq_some_iff, ← State.quietBefore_iff, symRow_k]
  simp only [startAt, Option.bind_eq_some_iff, Option.ite_none_right_eq_some, Option.some_inj, Prod.mk.injEq]
  constructor
  · rintro ⟨w, hw, hq, rfl, rfl⟩
    exact ⟨rfl, hw, hq⟩
  · rintro ⟨rfl, hw, hq⟩
    exact ⟨v, hw, hq, rfl, rfl⟩

theorem startAt_eq_none (h : ∀ u, ¬StartsAt s.row.bit sym rs j u) : startAt s sym rs j = none :=
  Option.eq_none_iff_forall_ne_some.mpr fun a ha => h a.2 (startAt_eq_some_iff.mp ha).2

theorem findStart_of_firstStart (h : FirstStart s.row.bit sym rs j v) :
    findStart s sym rs (rs.length + 1) 0 = .ok (j, v) := by
  obtain ⟨heven, hstart, hbefore⟩ := h
  have hroom := hstart.1.add_le_length
  rw [findStart_eq_searchStart]
  exact searchStart_eq_ok (startAt_eq_some_iff.mpr ⟨rfl, hstart⟩) hroom (Nat.zero_le j) heven.symm (by omega)
    fun k hk hmod => startAt_eq_none (hbefore k hk (hmod.trans heven))

theorem findStart_of_no_start (h : ∀ i, i % 2 = 0 → ∀ u, ¬StartsAt s.row.bit sym rs i u) (n : Nat) :
    findStart s sym rs n 0 = raise .notFound 3 := by
  rw [findStart_eq_searchStart]
  exact searchStart_eq_raise fun k hk _ => startAt_eq_none (h k hk)

theorem startsAt_of_findStart {n i : Nat} {js : Nat × Nat} (h : findStart s sym rs n i = .ok js) :
    StartsAt s.row.bit sym rs js.1 js.2 := by
  rw [findStart_eq_searchStart] at h
  obtain ⟨j, -, hj⟩ := exists_of_searchStart_eq_ok h
  obtain ⟨hrun, hstart⟩ := startAt_eq_some_iff.mp hj
  exact hrun.symm ▸ hstart

end

/-! ### The start pattern of ITF (45_matcher.md R389) -/

/-- A pattern of fixed widths matches where its variance is below the limit of ITF. -/
theorem fixedAt_iff {rs : List Run} {k : Nat} {ref : List Nat} (hroom : k + ref.length ≤ rs.length) :
    fixedAt rs k ref = true ↔ ∃ x, variance (runWidths rs k 1 ref.length) ref 204 = some x ∧ x < 107 := by
  have hlen : (runWidths rs k 1 ref.length).length = ref.length := by simp [runWidths]
  rw [variance_eq _ _ _ hlen, runWidths_eq rs k _ hroom, fixedAt, symMaxInd, symMaxAvg]
  cases pmv (runLens rs k ref.length) ref 204 <;> simp

/-- The run itself where the start pattern of ITF is at it with its quiet zone. -/
def itfStartAt (s : State) (rs : List Run) (j : Nat) : Option Nat :=
  if fixedAt rs j itfStart ∧ s.quietBefore .itf (runPos rs j) (runEnd rs (j + 3) - runPos rs j) then some j else none

theorem itfFindStart_eq_searchStart (s : State) (rs : List Run) (n j : Nat) :
    itfFindStart s rs n j = searchStart (itfStartAt s rs) 4 rs.length n j := by
  induction n generalizing j with
  | zero => rfl
  | succ n ih =>
    rw [itfFindStart, searchStart, ih, itfStartAt]
    congr 1
    split <;> rfl

section

variable {s : State} {rs : List Run} {i j : Nat}

theorem itfStartAt_eq_some_iff (hroom : i + 4 ≤ rs.length) :
    itfStartAt s rs i = some j ↔ j = i ∧ ItfStartsAt s.row.bit rs i := by
  have hfixed := fixedAt_iff (ref := itfStart) hroom
  rw [itfStartAt, Option.ite_none_right_eq_some, hfixed, State.quietBefore_iff, Option.some_inj, ItfStartsAt,
    and_comm, eq_comm, and_iff_right hroom]
  rfl

theorem itfStartAt_eq_none (hroom : i + 4 ≤ rs.length) (h : ¬ItfStartsAt s.row.bit rs i) : itfStartAt s rs i = none :=
  Option.eq_none_iff_forall_ne_some.mpr fun _ ha => h ((itfStartAt_eq_some_iff hroom).mp ha).2

theorem itfFindStart_of_firstStart (h : ItfFirstStart s.row.bit rs j) :
    itfFindStart s rs (rs.length + 1) 0 = .ok j := by
  obtain ⟨heven, hstart, hbefore⟩ := h
  have hroom := hstart.1
  rw [itfFindStart_eq_searchStart]
  exact searchStart_eq_ok ((itfStartAt_eq_some_iff hroom).mpr ⟨rfl, hstart⟩) hroom (Nat.zero_le j) heven.symm
    (by omega) fun k hk hmod => itfStartAt_eq_none (by omega) (hbefore k hk (hmod.trans heven))

theorem itfFindStart_of_no_start (h : ∀ i, i % 2 = 0 → ¬ItfStartsAt s.row.bit rs i) (n : Nat) :
    itfFindStart s rs n 0 = raise .notFound 3 := by
  rw [itfFindStart_eq_searchStart]
  exact searchStart_eq_raise fun k hk hroom => itfStartAt_eq_none hroom (h k hk)

end

end Sys2Proof.Machine
end

section
/-!
The common decoding procedure (45_matcher.md R388): the characters that the loop reads are those of the rule, whichever
way it ends.
-/

namespace Sys2Proof.Machine

variable {s : State} {sym : Sym} {rs : List Run} {j : Nat} {ds : List Nat}

/-! ### The runs of the characters -/

theorem charRun_zero (sym : Sym) (j : Nat) : charRun sym j 0 = j + symK sym + symGap sym := by
  simp only [charRun, symRow_k, symRow_gap]
  omega

theorem charRun_succ (sym : Sym) (j m : Nat) :
    charRun sym j (m + 1) = charRun sym j m + symK sym + symGap sym := by
  simp only [charRun, symRow_k, symRow_gap, Nat.succ_mul]
  omega

theorem add_symK_le_charRun (sym : Sym) (j m : Nat) : j + symK sym + m ≤ charRun sym j m := by
  induction m with
  | zero => rw [charRun_zero]; omega
  | succ m ih =>
    have hpos := symK_pos sym
    rw [charRun_succ]
    omega

/-! ### The characters after the start -/

theorem dataRead_nil : DataRead sym rs j [] := ⟨by decide, fun _ hm => absurd hm (Nat.not_lt_zero _)⟩

/-- One character more: there is room for it, and it is the next and no stop character. -/
theorem dataRead_append_singleton_iff {w : Nat} :
    DataRead sym rs j (ds ++ [w]) ↔ DataRead sym rs j ds ∧ 1 + ds.length < Config.resMax ∧
      Reads sym rs (charRun sym j ds.length) (entriesOf sym) w ∧ w ∉ symStop sym := by
  have hget {m : Nat} (hm : m < ds.length) : (ds ++ [w]).getD m 0 = ds.getD m 0 := List.getD_append _ _ _ _ hm
  have hlast : (ds ++ [w]).getD ds.length 0 = w := by simp
  simp only [DataRead, List.length_append, List.length_singleton, Nat.lt_succ_iff_lt_or_eq, symRow_stop]
  constructor
  · rintro ⟨hroom, hread⟩
    have hw := hread ds.length (.inr rfl)
    rw [hlast] at hw
    exact ⟨⟨by omega, fun m hm => hget hm ▸ hread m (.inl hm)⟩, by omega, hw⟩
  · rintro ⟨⟨-, hread⟩, hroom, hw⟩
    refine ⟨by omega, fun m hm => ?_⟩
    rcases hm with hm | rfl
    · exact (hget hm).symm ▸ hread m hm
    · exact hlast.symm ▸ hw

/-- Every character takes up runs of its own. -/
theorem DataRead.length_le (h : DataRead sym rs j ds) : ds.length ≤ rs.length := by
  rcases Nat.eq_zero_or_pos ds.length with hzero | hpos
  · omega
  · have hlast := (h.2 (ds.length - 1) (by omega)).1.add_le_length
    have hrun := add_symK_le_charRun sym j (ds.length - 1)
    have hk := symK_pos sym
    omega

theorem DataRead.lt_symEntries (h : DataRead sym rs j ds) : ∀ x ∈ ds, x < symEntries sym := by
  intro x hx
  obtain ⟨m, hm, rfl⟩ := List.mem_iff_getElem.mp hx
  rw [← List.getD_eq_getElem ds 0 hm]
  exact entriesOf_lt sym _ (h.2 m hm).1.mem

/-! ### The character loop -/

section

variable {n c v z : Nat} {syms : List Nat}

theorem charLoop_of_no_character (h : ∀ z, ¬Reads sym rs c (entriesOf sym) z) :
    charLoop sym rs n c syms = raise .notFound 4 := by
  cases n with
  | zero => rfl
  | succ n => rw [charLoop, bestAt_all_eq_none_iff.mpr h]

theorem charLoop_of_reads (h : Reads sym rs c (entriesOf sym) z) :
    charLoop sym rs (n + 1) c syms =
      if syms.length = Config.resMax then raise .notFound 5
      else if z ∈ symStop sym then .ok (c, syms ++ [z])
      else charLoop sym rs n (c + symK sym + symGap sym) (syms ++ [z]) := by
  rw [charLoop, bestAt_all_eq_some_iff.mpr h]

/-- The loop takes the characters of the rule one after another. -/
theorem charLoop_of_dataRead (v : Nat) (h : DataRead sym rs j ds) :
    charLoop sym rs (n + ds.length) (charRun sym j 0) [v] = charLoop sym rs n (charRun sym j ds.length) (v :: ds) := by
  induction ds using List.reverseRecOn generalizing n with
  | nil => rfl
  | append_singleton ds w ih =>
    obtain ⟨hds, hroom, hw, hstop⟩ := dataRead_append_singleton_iff.mp h
    have hfull : (v :: ds).length ≠ Config.resMax := by rw [List.length_cons]; omega
    rw [List.length_append, List.length_singleton, ← Nat.add_assoc, Nat.add_right_comm, ih hds, charLoop_of_reads hw,
      if_neg hfull, if_neg hstop, charRun_succ, List.cons_append]

/-- A loop that succeeds has read the characters up to a stop character. -/
theorem stopsAt_of_charLoop {out : Nat × List Nat} (hds : DataRead sym rs j ds)
    (h : charLoop sym rs n (charRun sym j ds.length) (v :: ds) = .ok out) :
    ∃ ds' z, StopsAt sym rs j ds' out.1 z ∧ out.2 = v :: ds' ++ [z] := by
  induction n generalizing ds with
  | zero => cases h
  | succ n ih =>
    by_cases hz : ∃ z, Reads sym rs (charRun sym j ds.length) (entriesOf sym) z
    · obtain ⟨z, hz⟩ := hz
      rw [charLoop_of_reads hz] at h
      split at h
      · cases h
      · next hfull =>
        rw [List.length_cons] at hfull
        have hroom : 1 + ds.length < Config.resMax := by have := hds.1; omega
        split at h
        · next hstop =>
          cases h
          exact ⟨ds, z, ⟨hds, rfl, hroom, hz, by rwa [symRow_stop]⟩, rfl⟩
        · next hstop =>
          refine ih (dataRead_append_singleton_iff.mpr ⟨hds, hroom, hz, hstop⟩) ?_
          rwa [List.length_append, List.length_singleton, charRun_succ]
    · rw [charLoop_of_no_character (not_exists.mp hz)] at h
      cases h

/-! ### The end checks -/

theorem lastOf_eq (sym : Sym) (c : Nat) : lastOf sym c = lastRun sym c := by
  rw [lastOf, lastRun, symRow_term, symRow_k]

theorem le_lastOf (sym : Sym) (c : Nat) : c ≤ lastOf sym c := by
  have hk := symK_pos sym
  rw [lastOf_eq, lastRun]
  split <;> omega

theorem endChecks_of_no_bar (hterm : (symRow sym).term = true) (hend : rs.length ≤ c + (symRow sym).k) :
    endChecks s sym rs j c syms = raise .notFound 6 := by
  rw [symRow_term] at hterm
  rw [symRow_k] at hend
  exact if_pos ⟨hterm, hend⟩

theorem not_missing_bar (hlast : lastOf sym c < rs.length) : ¬(symTerm sym = true ∧ c + symK sym ≥ rs.length) := by
  rintro ⟨hterm, hend⟩
  rw [lastOf_eq, lastRun, if_pos hterm] at hlast
  omega

theorem endChecks_of_not_quiet (hlast : lastOf sym c < rs.length)
    (hquiet : ¬QuietRight s.row.bit s.size sym (runStop rs (lastOf sym c))
      (runStop rs (lastOf sym c) - runStart rs c)) : endChecks s sym rs j c syms = raise .notFound 7 := by
  rw [← State.quietAfter_iff, Bool.not_eq_true, lastOf_eq] at hquiet
  rw [endChecks, if_neg (not_missing_bar hlast)]
  exact if_pos hquiet

theorem endChecks_of_quiet (hlast : lastOf sym c < rs.length)
    (hquiet : QuietRight s.row.bit s.size sym (runStop rs (lastOf sym c))
      (runStop rs (lastOf sym c) - runStart rs c)) :
    endChecks s sym rs j c syms =
      .ok ⟨syms, runStart rs j, runStop rs (j + (symRow sym).k - 1), runStart rs c, runStop rs (lastOf sym c)⟩ := by
  rw [← State.quietAfter_iff, lastOf_eq] at hquiet
  rw [endChecks, if_neg (not_missing_bar hlast), symRow_k, lastOf_eq]
  exact if_neg (by rw [Bool.not_eq_false]; exact hquiet)

/-- What the end checks give where they pass, for a stop character that is whole. -/
theorem of_endChecks_eq_ok {d : Decoded} (hchar : c + symK sym ≤ rs.length)
    (h : endChecks s sym rs j c syms = .ok d) : lastOf sym c < rs.length ∧
      d = ⟨syms, runStart rs j, runStop rs (j + symK sym - 1), runStart rs c, runStop rs (lastOf sym c)⟩ := by
  unfold endChecks at h
  split at h
  · cases h
  · next hbar =>
    split at h
    · cases h
    · cases h
      have hk := symK_pos sym
      rw [lastOf_eq]
      refine ⟨?_, rfl⟩
      unfold lastRun
      split
      · next hterm => exact Nat.lt_of_not_ge fun hend => hbar ⟨hterm, hend⟩
      · omega

/-! ### The procedure -/

theorem decodeChars_of_no_start (h : ∀ i, i % 2 = 0 → ∀ u, ¬StartsAt s.row.bit sym rs i u) :
    decodeChars s sym rs = raise .notFound 3 := by
  rw [decodeChars, findStart_of_no_start h]
  rfl

section

variable (hstart : FirstStart s.row.bit sym rs j v) (hds : DataRead sym rs j ds)
include hstart hds

/-- After the characters that the rule reads, the loop goes on with the next, with passes left. -/
theorem decodeChars_of_dataRead :
    ∃ n, decodeChars s sym rs = (charLoop sym rs (n + 1) (charRun sym j ds.length) (v :: ds)).bind fun cs =>
      endChecks s sym rs j cs.1 cs.2 := by
  refine ⟨rs.length - ds.length, ?_⟩
  have hfuel : rs.length + 1 = rs.length - ds.length + 1 + ds.length := by have := hds.length_le; omega
  rw [decodeChars, findStart_of_firstStart hstart, ← charLoop_of_dataRead v hds, ← hfuel, charRun_zero]
  rfl

theorem decodeChars_of_readsNone (hnone : ReadsNone sym rs (charRun sym j ds.length) (entriesOf sym)) :
    decodeChars s sym rs = raise .notFound 4 := by
  obtain ⟨n, hloop⟩ := decodeChars_of_dataRead hstart hds
  rw [hloop, charLoop_of_no_character fun _ => hnone.not_reads, raise_bind]

theorem decodeChars_of_full (hfull : 1 + ds.length = Config.resMax)
    (hz : Reads sym rs (charRun sym j ds.length) (entriesOf sym) z) : decodeChars s sym rs = raise .notFound 5 := by
  obtain ⟨n, hloop⟩ := decodeChars_of_dataRead hstart hds
  rw [hloop, charLoop_of_reads hz, if_pos (by rw [List.length_cons]; omega), raise_bind]

end

theorem decodeChars_of_stopsAt (hstart : FirstStart s.row.bit sym rs j v) (hstop : StopsAt sym rs j ds c z) :
    decodeChars s sym rs = endChecks s sym rs j c (v :: ds ++ [z]) := by
  obtain ⟨hds, rfl, hroom, hz, hmem⟩ := hstop
  rw [symRow_stop] at hmem
  obtain ⟨n, hloop⟩ := decodeChars_of_dataRead hstart hds
  rw [hloop, charLoop_of_reads hz, if_neg (by rw [List.length_cons]; omega), if_pos hmem]
  rfl

/-- A success is a start character, data and a stop character, with the bounds of their runs. -/
theorem exists_of_decodeChars_eq_ok {d : Decoded} (h : decodeChars s sym rs = .ok d) :
    ∃ j v ds c z, StartsAt s.row.bit sym rs j v ∧ StopsAt sym rs j ds c z ∧ lastOf sym c < rs.length ∧
      d = ⟨v :: ds ++ [z], runStart rs j, runStop rs (j + symK sym - 1), runStart rs c, runStop rs (lastOf sym c)⟩ := by
  obtain ⟨⟨j, v⟩, hstart, h⟩ := bind_ok h
  obtain ⟨⟨c, syms⟩, hloop, h⟩ := bind_ok h
  rw [← charRun_zero] at hloop
  obtain ⟨ds, z, hstop, hsyms⟩ := stopsAt_of_charLoop dataRead_nil hloop
  obtain ⟨hlast, hd⟩ := of_endChecks_eq_ok hstop.2.2.2.1.add_le_length h
  exact ⟨j, v, ds, c, z, startsAt_of_findStart hstart, hstop, hlast, hsyms ▸ hd⟩

end

end Sys2Proof.Machine
end

section
/-!
The ITF procedure (45_matcher.md R389, R395): the digit pairs that the loop reads are those of the rule, whichever way it
ends.
-/

namespace Sys2Proof.Machine

variable {s : State} {rs : List Run} {j n c : Nat} {ds : List (Nat × Nat)} {syms : List Nat}

/-! ### The end pattern and the digit pairs -/

/-- The end pattern of ITF with its quiet zone, as the rule has it. -/
theorem itfEndAt_iff : itfEndAt s rs c = true ↔ ItfEndsAt s.row.bit s.size rs c := by
  rw [itfEndAt, Bool.and_eq_true, Bool.and_eq_true, decide_eq_true_eq, State.quietAfter_iff, and_assoc]
  exact and_congr_right fun hroom => and_congr_left' (fixedAt_iff (ref := itfEnd) hroom)

theorem length_runWidths (rs : List Run) (k step n : Nat) : (runWidths rs k step n).length = n := by
  rw [runWidths, List.length_map, List.length_range]

theorem itfDigit_eq (rs : List Run) (k : Nat) :
    itfDigit rs k = (best .itf (runWidths rs k 2 5) (entriesOf .itf)).1 := by
  rw [entriesOf_eq]
  rfl

theorem itfDigit_eq_some_iff {k d : Nat} :
    itfDigit rs k = some d ↔ ∃ x, IsBest .itf (runWidths rs k 2 5) (entriesOf .itf) d x := by
  have hlen := length_runWidths rs k 2 5
  rw [itfDigit_eq]
  refine ⟨isBest_of_best hlen (entriesOf_sorted _) (entriesOf_lt _), fun ⟨x, hx⟩ => ?_⟩
  rw [best_eq_of_isBest hlen (entriesOf_sorted _) (entriesOf_lt _) hx]

theorem itfPair_iff {d : Nat × Nat} :
    ItfPair rs c d ↔ c + 10 ≤ rs.length ∧ itfDigit rs c = some d.1 ∧ itfDigit rs (c + 1) = some d.2 := by
  rw [itfDigit_eq_some_iff, itfDigit_eq_some_iff, ItfPair]

theorem ItfNoPair.not_itfPair (h : ItfNoPair rs c) (d : Nat × Nat) : ¬ItfPair rs c d := by
  rintro ⟨hroom, ⟨x, hx⟩, y, hy⟩
  rcases h with hshort | hfirst | hsecond
  · exact hshort.not_ge hroom
  · exact hfirst.not_isBest hx
  · exact hsecond.not_isBest hy

/-- The digits of pairs, in order. -/
def pairDigits (ds : List (Nat × Nat)) : List Nat := ds.flatMap fun d => [d.1, d.2]

theorem pairDigits_append_singleton (ds : List (Nat × Nat)) (d : Nat × Nat) :
    pairDigits (ds ++ [d]) = pairDigits ds ++ [d.1, d.2] := by
  rw [pairDigits, List.flatMap_append, List.flatMap_singleton, pairDigits]

theorem length_pairDigits (ds : List (Nat × Nat)) : (pairDigits ds).length = 2 * ds.length := by
  induction ds using List.reverseRecOn with
  | nil => rfl
  | append_singleton ds d ih =>
    rw [pairDigits_append_singleton, List.length_append, ih, List.length_append, Nat.mul_add]
    rfl

/-! ### The pairs after the start pattern -/

theorem itfDataRead_nil {g : Nat → Bool} {size : Nat} : ItfDataRead g size rs j [] :=
  ⟨by decide, fun _ hm => absurd hm (Nat.not_lt_zero _)⟩

/-- One pair more: there is room for it, no end pattern is before it, and it is the next. -/
theorem itfDataRead_append_singleton_iff {g : Nat → Bool} {size : Nat} {d : Nat × Nat} :
    ItfDataRead g size rs j (ds ++ [d]) ↔ ItfDataRead g size rs j ds ∧ 2 * ds.length + 2 ≤ Config.resMax ∧
      ¬ItfEndsAt g size rs (j + 4 + 10 * ds.length) ∧ ItfPair rs (j + 4 + 10 * ds.length) d := by
  have hget {m : Nat} (hm : m < ds.length) : (ds ++ [d]).getD m (0, 0) = ds.getD m (0, 0) :=
    List.getD_append _ _ _ _ hm
  have hlast : (ds ++ [d]).getD ds.length (0, 0) = d := by simp
  simp only [ItfDataRead, List.length_append, List.length_singleton, Nat.lt_succ_iff_lt_or_eq]
  constructor
  · rintro ⟨hroom, hread⟩
    have hd := hread ds.length (.inr rfl)
    rw [hlast] at hd
    exact ⟨⟨by omega, fun m hm => hget hm ▸ hread m (.inl hm)⟩, by omega, hd⟩
  · rintro ⟨⟨-, hread⟩, hroom, hd⟩
    refine ⟨by omega, fun m hm => ?_⟩
    rcases hm with hm | rfl
    · exact (hget hm).symm ▸ hread m hm
    · exact hlast.symm ▸ hd

/-- Every pair takes up runs of its own. -/
theorem ItfDataRead.length_le {g : Nat → Bool} {size : Nat} (h : ItfDataRead g size rs j ds) :
    ds.length ≤ rs.length := by
  rcases Nat.eq_zero_or_pos ds.length with hzero | hpos
  · omega
  · have hlast := (h.2 (ds.length - 1) (by omega)).2.1
    omega

theorem ItfDataRead.lt_symEntries {g : Nat → Bool} {size : Nat} (h : ItfDataRead g size rs j ds) :
    ∀ x ∈ pairDigits ds, x < symEntries .itf := by
  intro x hx
  obtain ⟨d, hd, hx⟩ := List.mem_flatMap.mp hx
  obtain ⟨m, hm, rfl⟩ := List.mem_iff_getElem.mp hd
  obtain ⟨-, ⟨_, hfst, -⟩, _, hsnd, -⟩ := (h.2 m hm).2
  rw [List.getD_eq_getElem _ _ hm] at hfst hsnd
  rcases List.mem_pair.mp hx with rfl | rfl
  · exact entriesOf_lt _ _ hfst
  · exact entriesOf_lt _ _ hsnd

/-! ### The pair loop -/

theorem itfPairs_of_end (hend : ItfEndsAt s.row.bit s.size rs c) : itfPairs s rs (n + 1) c syms = .ok (c, syms) :=
  if_pos (itfEndAt_iff.mpr hend)

section

variable (hend : ¬ItfEndsAt s.row.bit s.size rs c)
include hend

theorem itfPairs_of_pair {d : Nat × Nat} (hd : ItfPair rs c d) :
    itfPairs s rs (n + 1) c syms =
      if syms.length + 2 > Config.resMax then raise .notFound 5
      else itfPairs s rs n (c + 10) (syms ++ [d.1, d.2]) := by
  obtain ⟨hroom, hfst, hsnd⟩ := itfPair_iff.mp hd
  rw [itfPairs, if_neg (mt itfEndAt_iff.mp hend), if_neg hroom.not_gt, hfst, hsnd]

theorem itfPairs_of_no_pair (hnone : ∀ d, ¬ItfPair rs c d) : itfPairs s rs n c syms = raise .notFound 4 := by
  cases n with
  | zero => rfl
  | succ n =>
    rw [itfPairs, if_neg (mt itfEndAt_iff.mp hend)]
    split
    · rfl
    · next hroom =>
      split
      · next d1 d2 hfst hsnd => exact absurd (itfPair_iff.mpr ⟨by omega, hfst, hsnd⟩) (hnone (d1, d2))
      · rfl

end

/-- The loop takes the pairs of the rule one after another. -/
theorem itfPairs_of_dataRead (h : ItfDataRead s.row.bit s.size rs j ds) :
    itfPairs s rs (n + ds.length) (j + 4) [] = itfPairs s rs n (j + 4 + 10 * ds.length) (pairDigits ds) := by
  induction ds using List.reverseRecOn generalizing n with
  | nil => rfl
  | append_singleton ds d ih =>
    obtain ⟨hds, hroom, hend, hd⟩ := itfDataRead_append_singleton_iff.mp h
    have hfits : ¬(pairDigits ds).length + 2 > Config.resMax := by rw [length_pairDigits]; omega
    rw [List.length_append, List.length_singleton, ← Nat.add_assoc, Nat.add_right_comm, ih hds,
      itfPairs_of_pair hend hd, if_neg hfits, pairDigits_append_singleton, Nat.mul_add, Nat.mul_one, Nat.add_assoc]

/-- A loop that succeeds has read the pairs up to an end pattern. -/
theorem exists_of_itfPairs_eq_ok {out : Nat × List Nat} (hds : ItfDataRead s.row.bit s.size rs j ds)
    (h : itfPairs s rs n (j + 4 + 10 * ds.length) (pairDigits ds) = .ok out) :
    ∃ ds', ItfDataRead s.row.bit s.size rs j ds' ∧ ItfEndsAt s.row.bit s.size rs (j + 4 + 10 * ds'.length) ∧
      out = (j + 4 + 10 * ds'.length, pairDigits ds') := by
  induction n generalizing ds with
  | zero => cases h
  | succ n ih =>
    by_cases hend : ItfEndsAt s.row.bit s.size rs (j + 4 + 10 * ds.length)
    · rw [itfPairs_of_end hend] at h
      cases h
      exact ⟨ds, hds, hend, rfl⟩
    · by_cases hd : ∃ d, ItfPair rs (j + 4 + 10 * ds.length) d
      · obtain ⟨d, hd⟩ := hd
        rw [itfPairs_of_pair hend hd] at h
        split at h
        · cases h
        · next hfits =>
          rw [length_pairDigits] at hfits
          refine ih (itfDataRead_append_singleton_iff.mpr ⟨hds, by omega, hend, hd⟩) ?_
          rwa [List.length_append, List.length_singleton, pairDigits_append_singleton, Nat.mul_add, Nat.mul_one,
            ← Nat.add_assoc]
      · rw [itfPairs_of_no_pair hend (not_exists.mp hd)] at h
        cases h

/-! ### The procedure -/

theorem decodeItf_of_no_start (h : ∀ i, i % 2 = 0 → ¬ItfStartsAt s.row.bit rs i) :
    decodeItf s rs = raise .notFound 3 := by
  rw [decodeItf, itfFindStart_of_no_start h]
  rfl

section

variable (hstart : ItfFirstStart s.row.bit rs j) (hds : ItfDataRead s.row.bit s.size rs j ds)
include hstart hds

/-- After the pairs that the rule reads, the loop goes on with the next, with passes left. -/
theorem decodeItf_of_dataRead :
    ∃ n, decodeItf s rs = (itfPairs s rs (n + 1) (j + 4 + 10 * ds.length) (pairDigits ds)).bind fun cs =>
      itfFinish rs j cs.1 cs.2 := by
  refine ⟨rs.length - ds.length, ?_⟩
  have hfuel : rs.length + 1 = rs.length - ds.length + 1 + ds.length := by have := hds.length_le; omega
  rw [decodeItf, itfFindStart_of_firstStart hstart, ← itfPairs_of_dataRead hds, ← hfuel]
  rfl

theorem decodeItf_of_end (hend : ItfEndsAt s.row.bit s.size rs (j + 4 + 10 * ds.length)) :
    decodeItf s rs = itfFinish rs j (j + 4 + 10 * ds.length) (pairDigits ds) := by
  obtain ⟨n, hloop⟩ := decodeItf_of_dataRead hstart hds
  rw [hloop, itfPairs_of_end hend]
  rfl

variable (hend : ¬ItfEndsAt s.row.bit s.size rs (j + 4 + 10 * ds.length))
include hend

theorem decodeItf_of_no_pair (hnone : ItfNoPair rs (j + 4 + 10 * ds.length)) :
    decodeItf s rs = raise .notFound 4 := by
  obtain ⟨n, hloop⟩ := decodeItf_of_dataRead hstart hds
  rw [hloop, itfPairs_of_no_pair hend hnone.not_itfPair, raise_bind]

theorem decodeItf_of_full {d : Nat × Nat} (hd : ItfPair rs (j + 4 + 10 * ds.length) d)
    (hfull : Config.resMax < 2 * ds.length + 2) : decodeItf s rs = raise .notFound 5 := by
  obtain ⟨n, hloop⟩ := decodeItf_of_dataRead hstart hds
  rw [hloop, itfPairs_of_pair hend hd, if_pos (by rw [length_pairDigits]; omega), raise_bind]

end

theorem itfFinish_eq (hne : ds ≠ []) :
    itfFinish rs j c (pairDigits ds) =
      .ok ⟨pairDigits ds, runStart rs j, runStop rs (j + 3), runStart rs c, runStop rs (c + 2)⟩ := by
  have hpos := List.length_pos_iff.mpr hne
  exact if_neg (by rw [length_pairDigits]; omega)

/-- A success is a start pattern, digit pairs and an end pattern, with the bounds of their runs. -/
theorem exists_of_decodeItf_eq_ok {d : Decoded} (h : decodeItf s rs = .ok d) :
    ∃ j ds c, ItfDataRead s.row.bit s.size rs j ds ∧ ds ≠ [] ∧ j + 4 ≤ c ∧ c + 3 ≤ rs.length ∧
      d = ⟨pairDigits ds, runStart rs j, runStop rs (j + 3), runStart rs c, runStop rs (c + 2)⟩ := by
  obtain ⟨j, -, h⟩ := bind_ok h
  obtain ⟨cs, hloop, h⟩ := bind_ok h
  obtain ⟨ds, hds, hend, rfl⟩ := exists_of_itfPairs_eq_ok itfDataRead_nil hloop
  have hne : ds ≠ [] := by
    rintro rfl
    cases h
  rw [itfFinish_eq hne] at h
  exact ⟨j, ds, j + 4 + 10 * ds.length, hds, hne, by omega, hend.1, (Except.ok.inj h).symm⟩

end Sys2Proof.Machine
end

section
/-!
OD_DECODE and OD_MULTI (45_matcher.md R397, R398): the outcome of every row, check by check, from what the decoding
procedures and the validation give on its runs.
-/

namespace Sys2Proof.Machine

/-! ### How the commands end -/

section

variable {chk : Bool} {sym : Sym} {s : State}

theorem exec_odDecode_of_raise {c : Code} {k : Nat} (h : decodeRow s sym chk = raise c k) :
    exec (.odDecode chk sym) s = .next (s.complete c k) := by
  change finish s ((decodeRow s sym chk).bind _) = _
  rw [h, raise_bind, finish_raise]

theorem exec_odDecode_of_ok {d : Decoded} (h : decodeRow s sym chk = .ok d) :
    exec (.odDecode chk sym) s = .next ((odCommit s sym d).complete .ok 0) := by
  change finish s ((decodeRow s sym chk).bind _) = _
  rw [h]
  rfl

/-- ODRES holds the symbols with zeros after them (45_matcher.md R397). -/
theorem Memory.byte_ofBytes_symbols (syms : List Nat) (k : Nat) :
    (Memory.ofBytes (syms.map (BitVec.ofNat 8))).byte k = BitVec.ofNat 8 (syms.getD k 0) := by
  rw [Memory.byte_ofBytes, show (0 : Byte) = BitVec.ofNat 8 0 from rfl, List.getD_map]

/-- Only Code 39 has a check character (45_matcher.md R392, R398). -/
theorem decodeRow_multiChk (s : State) (sym : Sym) (chk : Bool) :
    decodeRow s sym (chk && sym == .code39) = decodeRow s sym chk := by
  cases sym with
  | code39 => rw [show (chk && Sym.code39 == .code39) = chk by simp]
  | code93 | code128 | itf | codabar => rfl

theorem decodeRow_of_outside (h : s.size < s.argU 0) : decodeRow s sym chk = raise .illegalArgument 1 := if_pos h

theorem decodeRow_of_white (hin : s.argU 0 ≤ s.size)
    (hwhite : ∀ i, s.argU 0 ≤ i → i < s.size → s.row.bit i = false) : decodeRow s sym chk = raise .notFound 2 := by
  rw [decodeRow, if_neg hin.not_gt, (s.runsOf_isRuns _ hin).eq_nil_of_white hwhite]
  rfl

/-- A row with runs is decoded and then validated. -/
theorem decodeRow_of_isRuns {rs : List Run} (hin : s.argU 0 ≤ s.size)
    (hrs : IsRuns s.row.bit s.size (s.argU 0) rs) (hne : rs ≠ []) :
    decodeRow s sym chk =
      (decodeRuns s sym rs).bind fun d => (validate sym chk d.syms).bind fun _ => .ok d := by
  rw [decodeRow, if_neg hin.not_gt, (s.runsOf_isRuns _ hin).unique hrs]
  exact if_neg (mt List.length_eq_zero_iff.mp hne)

theorem decodeRuns_of_ne_itf {rs : List Run} (hsym : sym ≠ .itf) : decodeRuns s sym rs = decodeChars s sym rs := by
  cases sym with
  | itf => exact absurd rfl hsym
  | code39 | code93 | code128 | codabar => rfl

/-- A success starts inside the row, and its symbols pass the validation. -/
theorem of_decodeRow_eq_ok {d : Decoded} (h : decodeRow s sym chk = .ok d) :
    s.argU 0 ≤ s.size ∧ decodeRuns s sym (s.runsOf (s.argU 0)) = .ok d ∧ validate sym chk d.syms = .ok () := by
  unfold decodeRow at h
  split at h
  · cases h
  · next hin =>
    split at h
    · cases h
    · obtain ⟨d', hd, h⟩ := bind_ok h
      obtain ⟨u, hu, h⟩ := bind_ok h
      cases h
      exact ⟨Nat.le_of_not_gt hin, hd, hu⟩

end

/-! ### Every success is a symbol inside the row -/

/-- Patterns from run `j` to run `e` and from run `c` to run `l` that follow each other are in order inside the row. -/
theorem IsRuns.bounds_in_order {g : Nat → Bool} {size start : Nat} {rs : List Run} (h : IsRuns g size start rs)
    {j e c l : Nat} (hje : j ≤ e) (hec : e < c) (hcl : c ≤ l) (hl : l < rs.length) :
    start ≤ runStart rs j ∧ runStart rs j < runStop rs e ∧ runStop rs e ≤ runStart rs c ∧
      runStart rs c < runStop rs l ∧ runStop rs l ≤ size := by
  have hpattern {a b : Nat} (hab : a ≤ b) (hb : b < rs.length) : runStart rs a < runStop rs b := by
    rcases hab.eq_or_lt with rfl | hlt
    · exact h.runStart_lt_runStop hb
    · have ha := h.runStart_lt_runStop (hlt.trans hb)
      have hle := h.runStop_le_runStart hlt hb
      have hb := h.runStart_lt_runStop hb
      omega
  exact ⟨h.start_le_runStart (by omega), hpattern hje (by omega), h.runStop_le_runStart hec (by omega),
    hpattern hcl hl, h.runStop_le_size hl⟩

/-- What a decoded symbol is: symbol values that are valid, and bounds in order inside the row (45_matcher.md R388, R389,
R392 to R397). -/
def Decoded.Good (d : Decoded) (s : State) (sym : Sym) (chk : Bool) : Prop :=
  (∀ x ∈ d.syms, x < symEntries sym) ∧ ValidSymbols sym chk d.syms ∧
    s.argU 0 ≤ d.sb ∧ d.sb < d.se ∧ d.se ≤ d.pb ∧ d.pb < d.pe ∧ d.pe ≤ s.size

section

variable {chk : Bool} {sym : Sym} {s : State} {rs : List Run} {d : Decoded}
  (hrs : IsRuns s.row.bit s.size (s.argU 0) rs)
include hrs

theorem good_of_decodeChars (hsym : sym ≠ .itf) (h : decodeChars s sym rs = .ok d)
    (hvalid : validate sym chk d.syms = .ok ()) : d.Good s sym chk := by
  obtain ⟨j, v, ds, c, z, ⟨hv, -⟩, ⟨hds, rfl, -, hz, -⟩, hlast, rfl⟩ := exists_of_decodeChars_eq_ok h
  have hk := symK_pos sym
  have hchar := add_symK_le_charRun sym j ds.length
  have hstop := le_lastOf sym (charRun sym j ds.length)
  refine ⟨fun x hx => ?_, validSymbols_of_validityCheck chk v ds z hsym ?_,
    hrs.bounds_in_order (by omega) (by omega) (by omega) hlast⟩
  · rw [List.mem_append, List.mem_cons, List.mem_singleton] at hx
    rcases hx with (rfl | hx) | rfl
    · exact symStart_lt sym _ (symRow_start sym ▸ hv.mem)
    · exact hds.lt_symEntries x hx
    · exact entriesOf_lt sym _ hz.mem
  · cases hcheck : validityCheck sym chk v ds with
    | none => rfl
    | some e =>
      rw [validate_symbols, hcheck] at hvalid
      cases hvalid

theorem good_of_decodeItf (h : decodeItf s rs = .ok d) : d.Good s .itf chk := by
  obtain ⟨j, ds, c, hds, hne, hjc, hend, rfl⟩ := exists_of_decodeItf_eq_ok h
  have hpos := List.length_pos_iff.mpr hne
  refine ⟨hds.lt_symEntries, ?_, hrs.bounds_in_order (by omega) (by omega) (by omega) (by omega)⟩
  rw [ValidSymbols, length_pairDigits]
  omega

end

theorem decoded_good {chk : Bool} {sym : Sym} {s : State} {d : Decoded} (h : decodeRow s sym chk = .ok d) :
    d.Good s sym chk := by
  obtain ⟨hin, hd, hvalid⟩ := of_decodeRow_eq_ok h
  have hrs := s.runsOf_isRuns _ hin
  cases sym with
  | itf => exact good_of_decodeItf hrs hd
  | code39 | code93 | code128 | codabar => exact good_of_decodeChars hrs (by decide) hd hvalid

/-! ### OD_DECODE -/

section

variable {chk : Bool} {sym : Sym} {s : State} {rs : List Run} (hin : s.argU 0 ≤ s.size)
  (hrs : IsRuns s.row.bit s.size (s.argU 0) rs) (hne : rs ≠ [])
include hin hrs hne

theorem exec_odDecode_of_decodeRuns_raise {c : Code} {k : Nat} (h : decodeRuns s sym rs = raise c k) :
    exec (.odDecode chk sym) s = .next (s.complete c k) :=
  exec_odDecode_of_raise (by rw [decodeRow_of_isRuns hin hrs hne, h, raise_bind])

theorem exec_odDecode_of_validate_raise {d : Decoded} {c : Code} {k : Nat} (h : decodeRuns s sym rs = .ok d)
    (hvalid : validate sym chk d.syms = raise c k) : exec (.odDecode chk sym) s = .next (s.complete c k) :=
  exec_odDecode_of_raise (by rw [decodeRow_of_isRuns hin hrs hne, h, Except.bind, hvalid, raise_bind])

theorem exec_odDecode_of_validate_ok {d : Decoded} (h : decodeRuns s sym rs = .ok d)
    (hvalid : validate sym chk d.syms = .ok ()) :
    ∃ m : Memory, (∀ k, m.byte k = BitVec.ofNat 8 (d.syms.getD k 0)) ∧
      exec (.odDecode chk sym) s =
        .next ((s.withSymbol sym m d.syms.length d.sb d.se d.pb d.pe).complete .ok 0) :=
  ⟨_, Memory.byte_ofBytes_symbols d.syms,
    exec_odDecode_of_ok (by rw [decodeRow_of_isRuns hin hrs hne, h, Except.bind, hvalid]; rfl)⟩

end

/-- Settles O49: the runs of the rule are the model's, on them the procedure ends as the rule says, check by check, and
every success is good. -/
theorem odDecodeReportsSymbol : Obligations.OdDecodeReportsSymbol := by
  intro chk sym s
  refine ⟨fun hout => exec_odDecode_of_raise (decodeRow_of_outside hout),
    fun hin hwhite => exec_odDecode_of_raise (decodeRow_of_white hin hwhite), fun d hd => ?_,
    fun hin rs hrs hne hsym => ?_, fun hin rs hrs hne hsym => ?_⟩
  · obtain ⟨hsyms, hvalid, hbounds⟩ := decoded_good hd
    have hlen := decodeRow_length hd
    rw [decodeRow_multiChk] at hd
    obtain ⟨hsb, hse, hpb, hpe, hend⟩ := hbounds
    exact ⟨_, Memory.byte_ofBytes_symbols d.syms, hlen, hsyms, hvalid, hsb, hse, hpb, hpe, hend,
      exec_odDecode_of_ok hd⟩
  · have hruns := decodeRuns_of_ne_itf (s := s) (rs := rs) hsym
    have hraise {c : Code} {k : Nat} (h : decodeChars s sym rs = raise c k) :
        exec (.odDecode chk sym) s = .next (s.complete c k) :=
      exec_odDecode_of_decodeRuns_raise hin hrs hne (hruns.trans h)
    refine ⟨fun hnone => hraise (decodeChars_of_no_start hnone), fun j v hstart =>
      ⟨fun ds hds hnone => hraise (decodeChars_of_readsNone hstart hds hnone),
        fun ds z hds hfull hz => hraise (decodeChars_of_full hstart hds hfull hz), fun ds c z hstop => ?_⟩⟩
    have hchars := decodeChars_of_stopsAt hstart hstop
    refine ⟨fun hterm hend => hraise (hchars.trans (endChecks_of_no_bar hterm hend)),
      fun hlast hquiet => hraise (hchars.trans (endChecks_of_not_quiet hlast hquiet)), fun hlast hquiet => ?_⟩
    have hok := (hruns.trans hchars).trans (endChecks_of_quiet hlast hquiet)
    have hvalidate := validate_symbols chk v ds z sym
    refine ⟨fun code k hcheck => ?_, fun hcheck => ?_⟩
    · rw [hcheck] at hvalidate
      exact exec_odDecode_of_validate_raise hin hrs hne hok hvalidate
    · rw [hcheck] at hvalidate
      obtain ⟨m, hm, hexec⟩ := exec_odDecode_of_validate_ok hin hrs hne hok hvalidate
      exact ⟨m, hm, length_symbols v ds z ▸ hexec⟩
  · subst hsym
    have hraise {c : Code} {k : Nat} (h : decodeItf s rs = raise c k) :
        exec (.odDecode chk .itf) s = .next (s.complete c k) :=
      exec_odDecode_of_decodeRuns_raise hin hrs hne h
    refine ⟨fun hnone => hraise (decodeItf_of_no_start hnone), ?_⟩
    rintro j ds c hstart hds rfl
    refine ⟨fun hend hnone => hraise (decodeItf_of_no_pair hstart hds hend hnone),
      fun hend ⟨d, hd⟩ hfull => hraise (decodeItf_of_full hstart hds hend hd hfull), fun hend hnil => ?_,
      fun hend hsome => ?_⟩
    · subst hnil
      exact hraise (decodeItf_of_end hstart hds hend)
    · have hok := (decodeItf_of_end hstart hds hend).trans (itfFinish_eq hsome)
      obtain ⟨m, hm, hexec⟩ := exec_odDecode_of_validate_ok hin hrs hne (chk := chk) (sym := .itf) hok rfl
      exact ⟨m, hm, length_pairDigits ds ▸ hexec⟩

/-! ### OD_MULTI -/

/-- The first enabled symbology of a list that decodes the row decides. -/
theorem multiTry_append_cons {s : State} {chk : Bool} {en : BitVec 5} {pre post : List Sym} {sym : Sym} {d : Decoded}
    (hen : en.getLsbD sym.num = true) (hd : decodeRow s sym (multiChk chk sym) = .ok d)
    (hbefore : ∀ sym' ∈ pre, en.getLsbD sym'.num = true → ∀ d', decodeRow s sym' (multiChk chk sym') ≠ .ok d') :
    multiTry s chk en (pre ++ sym :: post) = .ok (odCommit s sym d) := by
  induction pre with
  | nil => rw [List.nil_append, multiTry, if_pos hen, hd]
  | cons sym' pre ih =>
    have hrest := ih fun x hx => hbefore x (List.mem_cons_of_mem _ hx)
    rw [List.cons_append, multiTry]
    split
    · next hen' =>
      split
      · next d' hd' => exact absurd hd' (hbefore sym' List.mem_cons_self hen' d')
      · exact hrest
    · exact hrest

theorem multiTry_of_none {s : State} {chk : Bool} {en : BitVec 5} {syms : List Sym}
    (hnone : ∀ sym ∈ syms, en.getLsbD sym.num = true → ∀ d, decodeRow s sym (multiChk chk sym) ≠ .ok d) :
    multiTry s chk en syms = raise .notFound 2 := by
  induction syms with
  | nil => rfl
  | cons sym syms ih =>
    have hrest := ih fun x hx => hnone x (List.mem_cons_of_mem _ hx)
    rw [multiTry]
    split
    · next hen =>
      split
      · next d hd => exact absurd hd (hnone sym List.mem_cons_self hen d)
      · exact hrest
    · exact hrest

/-- The symbologies are tried in SYM order (45_matcher.md R398). -/
theorem exists_allSyms_eq (sym : Sym) :
    ∃ pre post, allSyms = pre ++ sym :: post ∧ ∀ sym' ∈ pre, sym'.num < sym.num := by
  refine ⟨allSyms.take sym.num, allSyms.drop (sym.num + 1), ?_⟩
  cases sym <;> decide

/-- Settles O50: the list of all symbologies is in SYM order, so the first that decodes is the lowest. -/
theorem odMultiTriesInOrder : Obligations.OdMultiTriesInOrder := by
  intro chk en s
  have hexec (hin : s.argU 0 ≤ s.size) : exec (.odMulti chk en) s = finish s (multiTry s chk en allSyms) :=
    finish_of_not_check hin.not_gt
  refine ⟨fun hout => finish_of_check hout, fun hin hnone => ?_, fun sym d hen hd hbefore => ?_⟩
  · rw [hexec hin, multiTry_of_none fun sym _ hen d => hnone sym d hen, finish_raise]
  · obtain ⟨pre, post, hall, hpre⟩ := exists_allSyms_eq sym
    have hmulti : exec (.odMulti chk en) s = .next ((odCommit s sym d).complete .ok 0) := by
      rw [hexec (of_decodeRow_eq_ok hd).1, hall,
        multiTry_append_cons hen hd fun sym' hmem hen' d' => hbefore sym' d' (hpre sym' hmem) hen', finish_ok]
    exact ⟨hmulti.trans (exec_odDecode_of_ok hd).symm, hmulti⟩

end Sys2Proof.Machine
end

section
/-!
The control command (46_control.md R450).
-/

namespace Sys2Proof.Machine

/-- An OK completion leaves the sticky ERR as it is (60_exceptions.md R464). -/
theorem State.complete_ok (s : State) :
    s.complete .ok 0 = { s with code := .ok, check := 0, done := true, executor := .idle } := by
  have herr : (s.err || Code.ok != .ok) = s.err := Bool.or_false s.err
  rw [State.complete, herr]
  rfl

/-- The opcode of NOP is 0, so a word that has it and no bit below it is 0. -/
theorem eq_zero_of_opcField_eq_zero {w : Word} (hopc : opcField w = 0) (hmask : w &&& ~~~(0xFF000000 : Word) = 0) :
    w = 0 :=
  calc w = w &&& 0xFF000000 := (and_eq_self_of_and_not hmask).symm
    _ = atBit 24 (opcField w).toNat := (atBit_opcField w).symm
    _ = 0 := by rw [hopc]; rfl

/-- Settles O8: NOP is an OK completion of the state it finds, and the row of opcode 0 has no bit that may be 1 but the
opcode's. -/
theorem nopCompletes : Obligations.NopCompletes := by
  refine ⟨fun s => ?_, by decide, fun w hne hshift => ?_⟩
  · rw [← s.complete_ok]
    exact finish_ok s s
  · have hopc : opcField w = 0 := BitVec.eq_of_toNat_eq (by rw [toNat_opcField, hshift]; rfl)
    have hrow : opRow (opcField w) = some ⟨0x00, 0xFF000000, fun _ => some .nop⟩ := by rw [hopc]; rfl
    exact decode_of_mask hrow fun hmask => hne (eq_zero_of_opcField_eq_zero hopc hmask)

end Sys2Proof.Machine
end

section
/-!
How every command ends (60_exceptions.md R461, R463, R464): OK over a state that keeps all but the command's outputs, or
over the state it found with a failure that its row of the summary table lists.
-/

namespace Sys2Proof

@[simp] theorem Mat.other_other (m : Mat) : m.other.other = m := by cases m <;> rfl

end Sys2Proof

namespace Sys2Proof.Machine

/-! ### What a command leaves as it was -/

/-- From `s` to `t` the rule of command `i` changed no memory or register but its outputs
(70_reset_and_hazards.md R507). -/
structure Frame (i : Instr) (s t : State) : Prop where
  memory : ∀ id, id ∉ outMems i → t.memory id = s.memory id
  res : ∀ k : Fin 8, outRes i ≤ k.val → t.res[k] = s.res[k]
  tag : ∀ r, MemId.p r ∉ outMems i → t.tag r = s.tag r
  f : i ≠ .ptXform → t.f = s.f
  ta : i ∉ [.ptS2q, .ptQ2s, .ptQ2q, .ptAdj, .ptTimes] → t.ta = s.ta
  tb : i ≠ .ptCopy → t.tb = s.tb
  rowSize : i ≠ .baInit → (∀ m, i ≠ .bmGetrow m) → t.rowSize = s.rowSize
  nruns : i ≠ .odRuns → t.nruns = s.nruns
  dim : ∀ m, i ∉ [.bmInit m, .bmCopy m.other, .gridSample m.other] → t.dim m = s.dim m
  gen : ∀ f, i ≠ .rsEncode f → t.gen f = s.gen f
  arg : t.arg = s.arg
  lastcmd : t.lastcmd = s.lastcmd
  ieDone : t.ieDone = s.ieDone
  ieErr : t.ieErr = s.ieErr
  err : t.err = s.err
  cmdovr : t.cmdovr = s.cmdovr
  wovr : t.wovr = s.wovr
  porHeld : t.porHeld = s.porHeld
  port : t.port = s.port
  latencies : t.latencies = s.latencies
  bus : t.bus = s.bus
  draws : t.draws = s.draws

namespace Frame

variable {i : Instr} {s t : State}

theorem refl : Frame i s s := by constructor <;> intros <;> rfl

theorem setRes (h : Frame i s t) {k : Fin 8} {v : Word} (hk : k.val < outRes i := by simp [outRes]) :
    Frame i s (t.setRes k v) :=
  { h with
    res := fun j hj => by
      have hne : k.val ≠ j.val := (hk.trans_le hj).ne
      exact (Vector.getElem_set_ne k.isLt j.isLt hne).trans (h.res j hj) }

theorem setResNat (h : Frame i s t) {k : Fin 8} {n : Nat} (hk : k.val < outRes i := by simp [outRes]) :
    Frame i s (t.setResNat k n) := h.setRes hk

theorem setMemory (h : Frame i s t) (id : MemId) {m : Memory} (hid : id ∈ outMems i := by simp [outMems]) :
    Frame i s (t.setMemory id m) := by
  have hmem : ∀ jd, jd ∉ outMems i → (t.setMemory id m).memory jd = s.memory jd := fun jd hjd => by
    have hne : jd ≠ id := fun he => hjd (he ▸ hid)
    rw [State.memory_setMemory, if_neg hne]
    exact h.memory jd hjd
  cases id with
  | p r => cases r <;> exact { h with memory := hmem }
  | mat m => cases m <;> exact { h with memory := hmem }
  | cw | syn | eloc | emag | row | odres | run => exact { h with memory := hmem }

theorem setTag (h : Frame i s t) (r : PReg) {f : Field} (hr : .p r ∈ outMems i := by simp [outMems]) :
    Frame i s (t.setTag r f) :=
  { h with
    tag := fun q hq => by
      have hne : q ≠ r := fun he => hq (he ▸ hr)
      rw [State.tag_setTag, if_neg hne]
      exact h.tag q hq }

theorem putPoly (h : Frame i s t) (r : PReg) {f : Field} {a : List Byte}
    (hr : .p r ∈ outMems i := by simp [outMems]) :
    Frame i s (t.putPoly r f a) := (h.setMemory (.p r) hr).setTag r hr

theorem setDim (h : Frame i s t) (m : Mat) {w n : Nat}
    (hi : i ∈ [.bmInit m, .bmCopy m.other, .gridSample m.other] := by simp) : Frame i s (t.setDim m w n) := by
  have hdim : ∀ l, i ∉ [.bmInit l, .bmCopy l.other, .gridSample l.other] → (t.setDim m w n).dim l = s.dim l :=
    fun l hl => by
      have hne : l ≠ m := fun he => hl (he ▸ hi)
      rw [State.dim_setDim, if_neg hne]
      exact h.dim l hl
  cases m <;> exact { h with dim := hdim }

theorem setGen (h : Frame i s t) (f : Field) {g : List (List Byte)} (hi : i = .rsEncode f := by rfl) :
    Frame i s (t.setGen f g) := by
  have hgen : ∀ f', i ≠ .rsEncode f' → (t.setGen f g).gen f' = s.gen f' := fun f' hf' => by
    have hne : f' ≠ f := fun he => hf' (he ▸ hi)
    rw [State.gen_setGen, if_neg hne]
    exact h.gen f' hf'
  cases f <;> exact { h with gen := hgen }

theorem withF (h : Frame i s t) {v : Vector Dword 16} (hi : i = .ptXform := by rfl) : Frame i s { t with f := v } :=
  { h with f := fun hn => absurd hi hn }

theorem withTa (h : Frame i s t) {v : Transform}
    (hi : i ∈ [.ptS2q, .ptQ2s, .ptQ2q, .ptAdj, .ptTimes] := by simp) : Frame i s { t with ta := v } :=
  { h with ta := fun hn => absurd hi hn }

theorem withTb (h : Frame i s t) {v : Transform} (hi : i = .ptCopy := by rfl) : Frame i s { t with tb := v } :=
  { h with tb := fun hn => absurd hi hn }

theorem withRowSize (h : Frame i s t) {n : BitVec 13} (hi : i = .baInit ∨ ∃ m, i = .bmGetrow m := by simp) :
    Frame i s { t with rowSize := n } :=
  { h with rowSize := fun hn hm => (hi.elim hn fun ⟨m, hi⟩ => hm m hi).elim }

theorem withNruns (h : Frame i s t) {n : BitVec 13} (hi : i = .odRuns := by rfl) : Frame i s { t with nruns := n } :=
  { h with nruns := fun hn => absurd hi hn }

end Frame

/-! ### How a body ends -/

/-- A body gives a result as `P` says, or fails with a code and check of the list `fs`. -/
inductive EndsIn {α : Type} (fs : List (Code × Nat)) (P : α → Prop) : Except Raise α → Prop
  | ok {a : α} (h : P a) : EndsIn fs P (.ok a)
  | error {e : Raise} (h : (e.code, e.check) ∈ fs) : EndsIn fs P (.error e)

/-- A part of a body fails only with a code and check of the list. -/
abbrev FailsIn {α : Type} (fs : List (Code × Nat)) (x : Except Raise α) : Prop := EndsIn fs (fun _ => True) x

namespace EndsIn

variable {α β : Type} {fs : List (Code × Nat)} {P : α → Prop}

theorem raise {c : Code} {k : Nat} (h : (c, k) ∈ fs := by simp [failures]) : EndsIn fs P (Machine.raise c k) :=
  .error h

/-- A numbered check, then the rest of the body. -/
theorem check {p : Prop} [Decidable p] {c : Code} {k : Nat} {r : Except Raise α} (h : EndsIn fs P r)
    (hck : (c, k) ∈ fs := by simp [failures]) : EndsIn fs P (if p then Machine.raise c k else r) := by
  split
  · exact .raise hck
  · exact h

theorem bind {x : Except Raise β} {g : β → Except Raise α} (hx : FailsIn fs x) (hg : ∀ b, EndsIn fs P (g b)) :
    EndsIn fs P (x.bind g) := by
  cases hx with
  | ok _ => exact hg _
  | error he => exact .error he

end EndsIn

section

variable {s : State}

theorem pointChecks_endsIn {fs : List (Code × Nat)} {P : State → Prop} {u : State} (m : Mat) (hu : P u)
    (h1 : (.illegalArgument, 1) ∈ fs := by simp [failures]) (h2 : (.illegalArgument, 2) ∈ fs := by simp [failures])
    (h3 : (.illegalArgument, 3) ∈ fs := by simp [failures]) : EndsIn fs P (pointChecks m s u) :=
  .check (.check (.check (.ok hu) h3) h2) h1

/-! ### RS_DECODE (41_rs.md R206 to R211) -/

section

variable (f : Field)

theorem euclidLoop_failsIn (twoS n : Nat) (rLast r tLast t : List Byte) :
    FailsIn (failures (.rsDecode f)) (euclidLoop f twoS n rLast r tLast t) := by
  induction n generalizing rLast r tLast t with
  | zero => exact .ok trivial
  | succ n ih =>
    rw [euclidLoop]
    split
    · exact .check (ih _ _ _ _)
    · exact .ok trivial

theorem euclid_failsIn (a b : List Byte) (twoS : Nat) : FailsIn (failures (.rsDecode f)) (euclid f a b twoS) := by
  refine .bind ?_ fun _ => .check (.ok trivial)
  split
  · exact euclidLoop_failsIn f _ _ _ _ _ _
  · exact euclidLoop_failsIn f _ _ _ _ _ _

theorem locate_failsIn (sigma : List Byte) : FailsIn (failures (.rsDecode f)) (locate f sigma) := by
  unfold locate
  split
  · exact .ok trivial
  · exact .check (.ok trivial)

theorem positions_failsIn (n : Nat) (xs : List Byte) : FailsIn (failures (.rsDecode f)) (positions f n xs) := by
  unfold positions
  split
  · exact .ok trivial
  · exact .raise

theorem findErrors_failsIn (n twoS : Nat) (syn : List Byte) :
    FailsIn (failures (.rsDecode f)) (findErrors f n twoS syn) :=
  .bind (euclid_failsIn f _ _ _) fun _ => .bind (locate_failsIn f _) fun _ =>
    .bind (positions_failsIn f _ _) fun _ => .ok trivial

theorem rsVerify_endsIn (twoS : Nat) (syn bs : List Byte) (errs : List (Nat × Byte)) :
    EndsIn (failures (.rsDecode f)) (Frame (.rsDecode f) s) (rsVerify f s twoS syn bs errs) := by
  unfold rsVerify
  split
  · have hcw : Frame (.rsDecode f) s (s.setMemory .cw (s.cw.overwrite 0 (correct bs errs))) := .setMemory .refl .cw
    exact .ok ((((hcw.setMemory .syn).setMemory .eloc).setMemory .emag).setResNat)
  · exact .raise

theorem rsDecodeBody_endsIn : EndsIn (failures (.rsDecode f)) (Frame (.rsDecode f) s) (rsDecodeBody f s) := by
  refine .check (.check ?_)
  split
  · have hsyn : Frame (.rsDecode f) s (s.setMemory .syn (.ofBytes (syndromes f (s.argU 1) (s.cw.bytes (s.argU 0))))) :=
      .setMemory .refl .syn
    exact .ok (((hsyn.setMemory .eloc).setMemory .emag).setResNat)
  · exact .bind (findErrors_failsIn f _ _ _) fun errs => rsVerify_endsIn f _ _ _ errs

end

/-! ### GRID_SAMPLE (44_sampler.md R346, R347) -/

section

variable (m : Mat)

theorem nudge_failsIn (v : Dword) (lim : Nat) : FailsIn (failures (.gridSample m)) (nudge v lim) := by
  refine .check (.check ?_)
  split
  · exact .ok trivial
  · split <;> exact .ok trivial

theorem samplePoint_failsIn (mx my : Nat) : FailsIn (failures (.gridSample m)) (samplePoint s m mx my) :=
  .bind (nudge_failsIn m _ _) fun _ => .bind (nudge_failsIn m _ _) fun _ => .ok trivial

theorem sampleRow_failsIn (my mx n : Nat) : FailsIn (failures (.gridSample m)) (sampleRow s m my mx n) := by
  induction n generalizing mx with
  | zero => exact .ok trivial
  | succ n ih => exact .bind (samplePoint_failsIn m _ _) fun _ => .bind (ih _) fun _ => .ok trivial

theorem sampleRows_failsIn (dimX my n : Nat) : FailsIn (failures (.gridSample m)) (sampleRows s m dimX my n) := by
  induction n generalizing my with
  | zero => exact .ok trivial
  | succ n ih => exact .bind (sampleRow_failsIn m _ _ _) fun _ => .bind (ih _) fun _ => .ok trivial

end

/-! ### OD_DECODE and OD_MULTI (45_matcher.md R387 to R398) -/

section

variable (chk : Bool) (sym : Sym)

theorem findStart_failsIn (sym' : Sym) (rs : List Run) (n j : Nat) :
    FailsIn (failures (.odDecode chk sym)) (findStart s sym' rs n j) := by
  induction n generalizing j with
  | zero => exact .raise
  | succ n ih =>
    refine .check ?_
    split
    · exact ih _
    · split
      · exact .ok trivial
      · exact ih _

theorem charLoop_failsIn (sym' : Sym) (rs : List Run) (n c : Nat) (syms : List Nat) :
    FailsIn (failures (.odDecode chk sym)) (charLoop sym' rs n c syms) := by
  induction n generalizing c syms with
  | zero => exact .raise
  | succ n ih =>
    rw [charLoop]
    split
    · exact .raise
    · refine .check ?_
      split
      · exact .ok trivial
      · exact ih _ _

theorem decodeChars_failsIn (sym' : Sym) (rs : List Run) :
    FailsIn (failures (.odDecode chk sym)) (decodeChars s sym' rs) :=
  .bind (findStart_failsIn chk sym _ _ _ _) fun _ => .bind (charLoop_failsIn chk sym _ _ _ _ _) fun _ =>
    .check (.check (.ok trivial))

theorem itfFindStart_failsIn (rs : List Run) (n j : Nat) :
    FailsIn (failures (.odDecode chk sym)) (itfFindStart s rs n j) := by
  induction n generalizing j with
  | zero => exact .raise
  | succ n ih =>
    refine .check ?_
    split
    · exact .ok trivial
    · exact ih _

theorem itfPairs_failsIn (rs : List Run) (n c : Nat) (syms : List Nat) :
    FailsIn (failures (.odDecode chk sym)) (itfPairs s rs n c syms) := by
  induction n generalizing c syms with
  | zero => exact .raise
  | succ n ih =>
    rw [itfPairs]
    split
    · exact .ok trivial
    · refine .check ?_
      split
      · exact .check (ih _ _)
      · exact .raise

theorem decodeItf_failsIn (rs : List Run) : FailsIn (failures (.odDecode chk sym)) (decodeItf s rs) :=
  .bind (itfFindStart_failsIn chk sym _ _ _) fun _ => .bind (itfPairs_failsIn chk sym _ _ _ _) fun _ =>
    .check (.ok trivial)

theorem validate_failsIn (sym' : Sym) (syms : List Nat) :
    FailsIn (failures (.odDecode chk sym)) (validate sym' chk syms) :=
  match sym' with
  | .code39 => .check (.check (.ok trivial))
  | .code93 => .check (.check (.check (.ok trivial)))
  | .code128 => .check (.check (.check (.ok trivial)))
  | .itf => .ok trivial
  | .codabar => .check (.ok trivial)

theorem decodeRuns_failsIn (rs : List Run) : FailsIn (failures (.odDecode chk sym)) (decodeRuns s sym rs) := by
  cases sym with
  | itf => exact decodeItf_failsIn chk .itf rs
  | code39 | code93 | code128 | codabar => exact decodeChars_failsIn chk _ _ rs

theorem decodeRow_failsIn : FailsIn (failures (.odDecode chk sym)) (decodeRow s sym chk) :=
  .check <| .check <| .bind (decodeRuns_failsIn chk sym _) fun d =>
    .bind (validate_failsIn chk sym sym d.syms) fun _ => .ok trivial

end

/-- The commit of a decoded symbol writes ODRES and RES0 to RES5 (45_matcher.md R397). -/
theorem odCommit_frame {i : Instr} (sym : Sym) (d : Decoded) (hmem : .odres ∈ outMems i := by simp [outMems])
    (hres : outRes i = 6 := by rfl) : Frame i s (odCommit s sym d) := by
  have hodres : Frame i s (s.setMemory .odres (.ofBytes (d.syms.map (BitVec.ofNat 8)))) := .setMemory .refl .odres hmem
  have hlt (k : Fin 8) (hk : k.val < 6) : k.val < outRes i := hres ▸ hk
  exact (((((hodres.setResNat (hlt 0 (by decide))).setResNat (hlt 1 (by decide))).setResNat
    (hlt 2 (by decide))).setResNat (hlt 3 (by decide))).setResNat (hlt 4 (by decide))).setResNat (hlt 5 (by decide))

/-- A failed attempt of OD_MULTI leaves no failure of its own (45_matcher.md R398). -/
theorem multiTry_endsIn (chk : Bool) (en : BitVec 5) (syms : List Sym) :
    EndsIn (failures (.odMulti chk en)) (Frame (.odMulti chk en) s) (multiTry s chk en syms) := by
  induction syms with
  | nil => exact .raise
  | cons sym rest ih =>
    rw [multiTry]
    split
    · split
      · next d hd => exact .ok (odCommit_frame sym d)
      · exact ih
    · exact ih

theorem odPmatchBody_endsIn (sym : Sym) :
    EndsIn (failures (.odPmatch sym)) (Frame (.odPmatch sym) s) (odPmatchBody sym s) := by
  refine .check (.check ?_)
  rcases best sym (s.runCounts sym (s.argU 0)) (allEntries sym) with ⟨_ | v, x⟩
  · exact .raise
  · exact .ok (.setResNat (.setResNat .refl))

/-- The result of a bounding query is RES0 to RES2 (43_bitmatrix.md R311, R312). -/
theorem putPoint_frame {i : Instr} (p : Option (Nat × Nat)) (hres : outRes i = 3 := by rfl) :
    Frame i s (s.putPoint p) := by
  have hlt (k : Fin 8) (hk : k.val < 3) : k.val < outRes i := hres ▸ hk
  have h0 := hlt 0 (by decide)
  have h1 := hlt 1 (by decide)
  have h2 := hlt 2 (by decide)
  cases p with
  | some xy => exact .setResNat (.setResNat (.setResNat .refl h0) h1) h2
  | none => exact .setRes (.setRes (.setRes .refl h0) h1) h2

theorem baInitBody_endsIn : EndsIn (failures .baInit) (Frame .baInit s) (baInitBody s) :=
  have hsize : Frame .baInit s { s with rowSize := BitVec.ofNat 13 (s.argU 0) } := .withRowSize .refl
  .check (.ok (hsize.setMemory .row))

theorem bmGetrowBody_endsIn (m : Mat) :
    EndsIn (failures (.bmGetrow m)) (Frame (.bmGetrow m) s) (bmGetrowBody m s) :=
  have hsize : Frame (.bmGetrow m) s { s with rowSize := BitVec.ofNat 13 (s.width m) } := .withRowSize .refl
  .check (.check (.check (.ok (hsize.setMemory .row))))

theorem odRunsBody_endsIn : EndsIn (failures .odRuns) (Frame .odRuns s) (odRunsBody s) :=
  have hrun : Frame .odRuns s (s.setMemory .run (s.run.writeHalves 0
      ((s.runsOf (s.argU 0)).map fun r : Run => BitVec.ofNat 16 r.len))) := .setMemory .refl .run
  .check (.ok (hrun.withNruns.setResNat.setResNat))

/-! ### Every command -/

/-- Every command is a body that ends as the tables of outputs and failures say (60_exceptions.md R461, R463). -/
theorem exec_ends (i : Instr) (s : State) : ∃ r, exec i s = finish s r ∧ EndsIn (failures i) (Frame i s) r :=
  match i with
  | .nop => ⟨_, rfl, .ok .refl⟩
  | .gfAdd _ => ⟨_, rfl, .check (.check (.ok (.setResNat .refl)))⟩
  | .gfMul _ => ⟨_, rfl, .check (.check (.ok (.setResNat .refl)))⟩
  | .gfDiv _ => ⟨_, rfl, .check (.check (.check (.ok (.setResNat .refl))))⟩
  | .gfInv _ => ⟨_, rfl, .check (.check (.ok (.setResNat .refl)))⟩
  | .gfExp _ => ⟨_, rfl, .check (.ok (.setResNat .refl))⟩
  | .gfLog _ => ⟨_, rfl, .check (.check (.ok (.setResNat .refl)))⟩
  | .pMono _ pd => ⟨_, rfl, .check (.check (.check (.ok (.putPoly .refl pd))))⟩
  | .pAdd _ _ _ pd => ⟨_, rfl, .check (.check (.ok (.putPoly .refl pd)))⟩
  | .pMul _ _ _ pd => ⟨_, rfl, .check (.check (.check (.ok (.putPoly .refl pd))))⟩
  | .pScale _ _ pd => ⟨_, rfl, .check (.check (.ok (.putPoly .refl pd)))⟩
  | .pMulmono _ _ pd => ⟨_, rfl, .check (.check (.check (.check (.check (.ok (.putPoly .refl pd))))))⟩
  | .pDiv _ pe _ _ pd => ⟨_, rfl, .check (.check (.check (.ok (.putPoly (.putPoly .refl pd) pe))))⟩
  | .pEval _ _ => ⟨_, rfl, .check (.check (.ok (.setResNat .refl)))⟩
  | .rsEncode f => ⟨_, rfl, .check (.check (.check (.ok (.setMemory (.setGen .refl f) .cw))))⟩
  | .rsSyndrome _ => ⟨_, rfl, .check (.check (.ok (.setResNat (.setMemory .refl .syn))))⟩
  | .rsDecode f => ⟨_, rfl, rsDecodeBody_endsIn f⟩
  | .baGet => ⟨_, rfl, .check (.ok (.setResNat .refl))⟩
  | .baSet => ⟨_, rfl, .check (.ok (.setMemory .refl .row))⟩
  | .baFlip => ⟨_, rfl, .check (.ok (.setMemory .refl .row))⟩
  | .baClear => ⟨_, rfl, .ok (.setMemory .refl .row)⟩
  | .baSetrange => ⟨_, rfl, .check (.ok (.setMemory .refl .row))⟩
  | .baIsrange => ⟨_, rfl, .check (.check (.ok (.setResNat .refl)))⟩
  | .baNextset => ⟨_, rfl, .check (.ok (.setResNat .refl))⟩
  | .baNextunset => ⟨_, rfl, .check (.ok (.setResNat .refl))⟩
  | .baReverse => ⟨_, rfl, .ok (.setMemory .refl .row)⟩
  | .baInit => ⟨_, rfl, baInitBody_endsIn⟩
  | .bmInit m => ⟨_, rfl, .check (.check (.check (.ok (.setMemory (.setDim .refl m) (.mat m)))))⟩
  | .bmGet m => ⟨_, rfl, pointChecks_endsIn m (.setResNat .refl)⟩
  | .bmSet m => ⟨_, rfl, pointChecks_endsIn m (.setMemory .refl (.mat m))⟩
  | .bmUnset m => ⟨_, rfl, pointChecks_endsIn m (.setMemory .refl (.mat m))⟩
  | .bmFlip m => ⟨_, rfl, pointChecks_endsIn m (.setMemory .refl (.mat m))⟩
  | .bmClear m => ⟨_, rfl, .check (.ok (.setMemory .refl (.mat m)))⟩
  | .bmSetregion m => ⟨_, rfl, .check (.check (.check (.check (.ok (.setMemory .refl (.mat m))))))⟩
  | .bmGetrow m => ⟨_, rfl, bmGetrowBody_endsIn m⟩
  | .bmRot180 m => ⟨_, rfl, .check (.ok (.setMemory .refl (.mat m)))⟩
  | .bmXor m => ⟨_, rfl, .check (.check (.check (.ok (.setMemory .refl (.mat m)))))⟩
  | .bmCopy m => ⟨_, rfl, .check (.ok (.setDim (.setMemory .refl (.mat m.other)) m.other))⟩
  | .bmTopleft _ => ⟨_, rfl, .check (.ok (putPoint_frame _))⟩
  | .bmBotright _ => ⟨_, rfl, .check (.ok (putPoint_frame _))⟩
  | .ptS2q => ⟨_, rfl, .ok (.withTa .refl)⟩
  | .ptQ2s => ⟨_, rfl, .ok (.withTa .refl)⟩
  | .ptQ2q => ⟨_, rfl, .ok (.withTa .refl)⟩
  | .ptAdj => ⟨_, rfl, .ok (.withTa .refl)⟩
  | .ptTimes => ⟨_, rfl, .ok (.withTa .refl)⟩
  | .ptCopy => ⟨_, rfl, .ok (.withTb .refl)⟩
  | .ptXform => ⟨_, rfl, .ok (.withF .refl)⟩
  | .gridSample m => ⟨_, rfl, .check <| .check <| .check <| .bind (sampleRows_failsIn m _ _ _) fun _ =>
      .ok (.setMemory (.setDim .refl m.other) (.mat m.other))⟩
  | .odRuns => ⟨_, rfl, odRunsBody_endsIn⟩
  | .odPmatch sym => ⟨_, rfl, odPmatchBody_endsIn sym⟩
  | .odDecode chk sym => ⟨_, rfl, .bind (decodeRow_failsIn chk sym) fun d => .ok (odCommit_frame sym d)⟩
  | .odMulti chk en => ⟨_, rfl, .check (multiTry_endsIn chk en _)⟩

end

/-- Every listed failure has a code other than OK and a check number that fits ERRINFO (60_exceptions.md R463). -/
theorem failures_fail (i : Instr) : ∀ ck ∈ failures i, ck.1 ≠ .ok ∧ ck.2 < 2 ^ 8 := by
  cases i <;> simp [failures]

/-- A command completes OK over a frame of the state it found, or with a listed failure over that state itself
(60_exceptions.md R461, R463). -/
theorem exec_cases (i : Instr) (s : State) :
    (∃ u, Frame i s u ∧ exec i s = .next (u.complete .ok 0)) ∨
      ∃ c k, (c, k) ∈ failures i ∧ exec i s = .next (s.complete c k) := by
  obtain ⟨r, hexec, hr⟩ := exec_ends i s
  rw [hexec]
  cases hr with
  | ok hu => exact .inl ⟨_, hu, rfl⟩
  | error he => exact .inr ⟨_, _, he, rfl⟩

/-! ### The completion of a command (60_exceptions.md R461, R463, R464) -/

/-- A failure sets ERR whatever it was (60_exceptions.md R464). -/
theorem State.complete_of_fail (s : State) {c : Code} (hc : c ≠ .ok) (k : Nat) :
    s.complete c k =
      { s with code := c, check := BitVec.ofNat 8 k, done := true, err := true, executor := .idle } := by
  have herr : (s.err || c != .ok) = true := by rw [bne_iff_ne.mpr hc, Bool.or_true]
  rw [State.complete, herr]

/-- Settles O10: success keeps ERR because no command's rule writes it, and a failure completes over the state it
found. -/
theorem everyCommandCompletes : Obligations.EveryCommandCompletes := by
  intro i s
  rcases exec_cases i s with ⟨u, hu, hexec⟩ | ⟨c, k, hck, hexec⟩
  · exact ⟨_, hexec, rfl, rfl, congrArg (· || false) hu.err, fun _ => rfl, fun hfail => absurd rfl hfail⟩
  · have hc : c ≠ .ok := (failures_fail i _ hck).1
    exact ⟨_, hexec, rfl, rfl, rfl, fun hok => absurd hok hc, fun _ => s.complete_of_fail hc k⟩

/-- Settles O11: a completion that is not OK is that of a listed failure, whose check number ERRINFO holds whole. -/
theorem failuresAreListed : Obligations.FailuresAreListed := by
  intro i s t hnext hfail
  rcases exec_cases i s with ⟨u, -, hexec⟩ | ⟨c, k, hck, hexec⟩ <;> cases hexec.symm.trans hnext
  · exact absurd rfl hfail
  · have hk : k < 2 ^ 8 := (failures_fail i _ hck).2
    rwa [State.check_complete, BitVec.toNat_ofNat, Nat.mod_eq_of_lt hk]

/-- The frame of a command is that of its outputs, since the completion writes are none of what it names
(60_exceptions.md R464). -/
theorem exec_frame {i : Instr} {s t : State} (h : exec i s = .next t) :
    ∃ (u : State) (c : Code) (k : Nat), Frame i s u ∧ t = u.complete c k := by
  rcases exec_cases i s with ⟨u, hu, hexec⟩ | ⟨c, k, -, hexec⟩ <;> cases hexec.symm.trans h
  · exact ⟨u, .ok, 0, hu, rfl⟩
  · exact ⟨s, c, k, .refl, rfl⟩

/-- Settles O12: the frame of the outputs, then the completion writes, which name none of its registers and memories. -/
theorem commandFrames : Obligations.CommandFrames := by
  intro i s t h
  obtain ⟨u, c, k, hu, rfl⟩ := exec_frame h
  exact ⟨hu.memory, hu.res, hu.tag, hu.arg, hu.lastcmd, hu.ieDone, hu.ieErr, hu.cmdovr, hu.wovr, hu.f, hu.ta, hu.tb,
    hu.rowSize, hu.nruns, hu.dim, hu.gen, hu.porHeld, hu.port, hu.latencies, hu.bus, hu.draws⟩

end Sys2Proof.Machine
end

section
/-!
The turns of the port, the acceptance of command words, and the interrupt output (60_exceptions.md R462, R465, R467,
R474).
-/

namespace Sys2Proof.Machine

/-! ### The port's turns (60_exceptions.md R474; 70_reset_and_hazards.md R510) -/

theorem State.serve_of_port_eq_cons {s : State} {e : PortEvent} {es : List PortEvent} (h : s.port = e :: es) :
    s.serve = ({ s with port := es } : State).event e := by rw [State.serve, h]

theorem State.serve_of_port_eq_nil {s : State} (h : s.port = []) : s.serve = .next s := by rw [State.serve, h]

/-- Settles O5: each clause is the port's turn with or without an event. -/
theorem stepServesPort : Obligations.StepServesPort := by
  refine ⟨fun s e es hidle hport => ?_, fun s w n e es hrun hport => ?_, fun s w n hrun hport => ?_,
    fun s hidle hport => ?_⟩
  · rw [step_eq_serve (.inl ⟨hidle, rfl⟩), ← hidle]
    exact State.serve_of_port_eq_cons hport
  · rw [step_eq_serve (.inr ⟨w, n, hrun, rfl⟩)]
    exact State.serve_of_port_eq_cons hport
  · rw [step_eq_serve (.inr ⟨w, n, hrun, rfl⟩)]
    exact State.serve_of_port_eq_nil hport
  · rw [step_eq_serve (.inl ⟨hidle, rfl⟩), ← hidle]
    exact State.serve_of_port_eq_nil hport

/-! ### Writes to CMD (60_exceptions.md R462, R465) -/

theorem writeCmd_of_idle {s : State} (h : s.executor = .idle) (w : Word) : s.writeCmd w = s.accept w := by
  have hbusy : s.busy = false := by rw [State.busy, h]
  rw [State.writeCmd, hbusy, if_neg Bool.false_ne_true]

theorem writeCmd_of_running {s : State} {w : Word} {n : Nat} (h : s.executor = .running w n) (v : Word) :
    s.writeCmd v = { s with cmdovr := true } := by
  have hbusy : s.busy = true := by rw [State.busy, h]
  rw [State.writeCmd, if_pos hbusy]

/-- Settles O51: the write lands on CMD, which the idle engine accepts and the busy one drops. -/
theorem cmdWriteAcceptedOrDropped : Obligations.CmdWriteAcceptedOrDropped := by
  intro s v es hpor hport
  have hloc : locOf 0x010 = .cmd := rfl
  refine ⟨fun hidle => ?_, fun w n hrun => ?_⟩
  · rw [step_write32 (.inl ⟨hidle, rfl⟩) hpor hport (by decide) (by decide), hloc, State.hostWrite,
      writeCmd_of_idle rfl]
    rfl
  · rw [step_write32 (.inr ⟨w, n, hrun, rfl⟩) hpor hport (by decide) (by decide), hloc, State.hostWrite,
      writeCmd_of_running rfl]

/-- A due word that fails decoding completes with its check (60_exceptions.md R462, R464). -/
theorem step_of_decode_error {s : State} {w : Word} {e : DecodeError} (hrun : s.executor = .running w 0)
    (he : decode w = .error e) :
    step s = .next { s with
      code := .illegalCommand, check := BitVec.ofNat 8 e.check, done := true, err := true, executor := .idle } := by
  rw [step, State.turn, hrun, ← s.complete_of_fail (by decide)]
  simp only [runWord, he, illegalCommand, finish_raise]

/-- Settles O9: the word is accepted as every CMD write is, and the next step is its completion. -/
theorem illegalWordCompletes : Obligations.IllegalWordCompletes := by
  intro s v es e hidle hpor hport hlatency he
  constructor
  · rw [(cmdWriteAcceptedOrDropped s v es hpor hport).1 hidle, hlatency]
  · rw [step_of_decode_error rfl he]
    cases e <;> rfl

/-! ### The interrupt output (60_exceptions.md R467) -/

theorem writeCtrl_of_no_reset {v : Word} (h : v.getLsbD 2 = false) (s : State) :
    s.writeCtrl v = { s with ieDone := v.getLsbD 0, ieErr := v.getLsbD 1 } := by
  rw [State.writeCtrl, h, if_neg Bool.false_ne_true]

/-- Settles O60: writing 1 to CTRL enables DONE, writing 2 the three error bits, and neither word resets. -/
theorem irqIsLevel : Obligations.IrqIsLevel := by
  refine ⟨fun _ => rfl, fun s hdone => ?_, fun s herr => ?_⟩
  · rw [writeCtrl_of_no_reset (by decide)]
    simp [State.irq, hdone]
  · have hany : (s.err || s.cmdovr || s.wovr) = true := by simpa [or_assoc] using herr
    rw [writeCtrl_of_no_reset (by decide), State.irq, hany]
    exact Bool.or_true _

end Sys2Proof.Machine
end

section
/-!
The outputs of a command as the window shows them: an offset lies in one of the spans that the command's rule writes
just where the model's own lists name its location (70_reset_and_hazards.md R501, R507; 10_state.md R62).
-/

namespace Sys2Proof.Machine

/-! ### The part of the window each kind of location takes -/

/-- The span of a local memory in the window, where a RUN_MEM entry takes four bytes (20_memory.md R86). -/
def memSpan (id : MemId) : Nat × Nat := (memoryBase id, if id = .run then 0x4000 else id.size)

/-- The span of a binary64 register file in the window. -/
def fileSpan (file : DFile) : Nat × Nat := (file.base, 8 * file.count)

/-- The span of the RES registers from RES0 on, `n` of them. -/
def resSpan (n : Nat) : Nat × Nat := (0x060, 4 * n)

/-- The span of a 32-bit register. -/
def regSpan (l : Loc) : Nat × Nat := (l.offset, 4)

/-- The offset lies in the span. -/
def InSpan (a : Nat) (r : Nat × Nat) : Prop := r.1 ≤ a ∧ a < r.1 + r.2

theorem memoryBase_eq_base (id : MemId) : memoryBase id = id.base := by
  cases id with
  | p r => cases r <;> rfl
  | mat m => cases m <;> rfl
  | cw | syn | eloc | emag | row | odres | run => rfl

theorem memoryBase_ge (id : MemId) : 0x1000 ≤ memoryBase id := by
  cases id with
  | p r => cases r <;> decide
  | mat m => cases m <;> decide
  | cw | syn | eloc | emag | row | odres | run => decide

theorem memSpan_mem_spans (id : MemId) : ⟨(memSpan id).1, (memSpan id).2, .mem id⟩ ∈ spans := by
  by_cases hid : id = .run
  · subst hid
    exact run_mem_spans
  · rw [memSpan, memoryBase_eq_base, if_neg hid]
    exact memory_mem_spans hid

theorem memSpan_pos (id : MemId) : 0 < (memSpan id).2 := by
  cases id <;> exact Nat.zero_lt_succ _

/-- The first word of a local memory lies at its base. -/
theorem locOf_memoryBase (id : MemId) : locOf (memoryBase id) = .mem id 0 :=
  locOf_base_add (memSpan_mem_spans id) (w := 0) (memSpan_pos id)

/-- A mapped location lies at its own offset. -/
theorem eq_offset_of_locOf {a : Nat} {l : Loc} (ha : a % 4 = 0) (h : locOf a = l) (hl : l ≠ .unmapped) :
    a = l.offset := by
  rw [← h]
  exact ((offset_locOf ha).resolve_right (h ▸ hl)).symm

/-- The registers of one word that some command writes: PFLD, GENDEG, ROWSIZE, NRUNS and the dimensions. -/
def outputRegs : List Loc := [.pfld, .gendeg, .rowsize, .nruns, .dim .m0, .dim .m1]

theorem outRegs_subset (i : Instr) : outRegs i ⊆ outputRegs := by
  have hdim : ∀ m : Mat, m = .m0 ∨ m = .m1 := fun m => by cases m <;> decide
  cases i <;> simp [outRegs, outputRegs, hdim]

theorem locOf_offset_of_mem_outputRegs :
    ∀ l ∈ outputRegs, locOf l.offset = l ∧ l ≠ .unmapped ∧ l.offset % 4 = 0 := by decide

section

variable {a : Nat} (ha : a % 4 = 0)
include ha

theorem inSpan_memSpan_iff (id : MemId) : InSpan a (memSpan id) ↔ ∃ w, locOf a = .mem id w := by
  constructor
  · intro h
    exact ⟨_, locOf_of_span (memSpan_mem_spans id) h⟩
  · rintro ⟨w, hw⟩
    have hbound := locOf_mem_bound hw
    have hoff : a = id.base + 4 * w := eq_offset_of_locOf ha hw nofun
    rw [InSpan, memSpan, memoryBase_eq_base]
    by_cases hid : id = .run
    · subst hid
      rw [if_pos rfl, MemId.size] at hbound
      simp only [if_pos]
      omega
    · rw [if_neg hid] at hbound
      simp only [if_neg hid]
      omega

theorem inSpan_fileSpan_iff (file : DFile) : InSpan a (fileSpan file) ↔ ∃ i hi, locOf a = .dbl file i hi := by
  constructor
  · intro h
    exact ⟨_, _, locOf_of_span (file_mem_spans file) h⟩
  · rintro ⟨i, hi, h⟩
    have hbound := locOf_dbl_bound h
    have hoff : a = file.base + 8 * i + 4 * hi.toNat := eq_offset_of_locOf ha h nofun
    have hhalf := hi.toNat_lt
    simp only [InSpan, fileSpan]
    omega

theorem inSpan_resSpan_iff {n : Nat} (hn : n ≤ 8) :
    InSpan a (resSpan n) ↔ ∃ k : Fin 8, locOf a = .res k ∧ k.val < n := by
  simp only [InSpan, resSpan]
  constructor
  · intro h
    have hres : 0x060 ≤ a ∧ a < 0x060 + 0x20 := by omega
    have hk : (a - 0x060) / 4 < 8 := by omega
    refine ⟨Fin.ofNat 8 ((a - 0x060) / 4), locOf_of_span res_mem_spans hres, ?_⟩
    rw [Fin.val_ofNat, Nat.mod_eq_of_lt hk]
    omega
  · rintro ⟨k, h, hk⟩
    have hoff : a = 0x060 + 4 * k.val := eq_offset_of_locOf ha h nofun
    omega

/-- A register that is one word of the window: its span holds its own offset and no other multiple of 4. -/
theorem inSpan_regSpan_iff {l : Loc} (hl : l ∈ outputRegs) : InSpan a (regSpan l) ↔ locOf a = l := by
  obtain ⟨hloc, hmapped, halign⟩ := locOf_offset_of_mem_outputRegs l hl
  simp only [InSpan, regSpan]
  constructor
  · intro h
    have heq : a = l.offset := by omega
    rw [heq, hloc]
  · intro h
    have heq := eq_offset_of_locOf ha h hmapped
    omega

end

/-! ### The outputs of a command -/

theorem dimSpan_eq (m : Mat) : dimSpan m = ((Loc.dim m).offset, 4) := by cases m <;> rfl

theorem not_inSpan_zero (a b : Nat) : ¬ InSpan a (b, 0) := fun h => Nat.not_lt_of_le h.1 h.2

/-- CW_MEM, SYN_MEM, ELOC_MEM and EMAG_MEM are one stretch of the window (10_state.md R62). -/
theorem inSpan_rsMemories_iff (a : Nat) : InSpan a (0x1000, 0x400) ↔
    InSpan a (0x1000, 0x100) ∨ InSpan a (0x1100, 0x100) ∨ InSpan a (0x1200, 0x100) ∨ InSpan a (0x1300, 0x100) := by
  simp only [InSpan]
  omega

/-- The spans of the rules, sorted as the model's lists are: memories, registers of one word, binary64 files and RES
registers. -/
theorem exists_outputSpans_iff (i : Instr) (a : Nat) : (∃ r ∈ outputSpans i, InSpan a r) ↔
    (∃ id ∈ outMems i, InSpan a (memSpan id)) ∨ (∃ l ∈ outRegs i, InSpan a (regSpan l)) ∨
      (∃ file ∈ outFiles i, InSpan a (fileSpan file)) ∨ InSpan a (resSpan (outRes i)) := by
  cases i with
  | pDiv f pe pb pa pd =>
    have hspans : outputSpans (.pDiv f pe pb pa pd) =
        [memSpan (.p pd), regSpan .pfld, memSpan (.p pe), regSpan .pfld] := rfl
    simp only [hspans, outMems, outRegs, outFiles, outRes, resSpan, not_inSpan_zero, Nat.mul_zero, List.mem_cons,
      List.not_mem_nil, or_false, false_and, exists_false, exists_eq_or_imp, exists_eq_left]
    tauto
  | _ =>
    simp [outputSpans, polySpans, matSpan, dimSpan_eq, inSpan_rsMemories_iff, outMems, outRegs, outFiles, outRes,
      memSpan, memoryBase, MemId.size, regSpan, Loc.offset, fileSpan, DFile.base, DFile.count, resSpan,
      not_inSpan_zero, or_assoc]

theorem outputOffset_iff (i : Instr) (a : Nat) :
    outputOffset i a = true ↔ a = 0x018 ∨ ∃ r ∈ outputSpans i, InSpan a r := by
  simp [outputOffset, InSpan]

theorem isOutput_iff (i : Instr) (l : Loc) : isOutput i l = true ↔ l = .errinfo ∨
    (∃ id ∈ outMems i, ∃ w, l = .mem id w) ∨ l ∈ outRegs i ∨ (∃ file ∈ outFiles i, ∃ k hi, l = .dbl file k hi) ∨
      ∃ k : Fin 8, l = .res k ∧ k.val < outRes i := by
  have hregs : l ∉ outputRegs → l ∉ outRegs i := mt (@outRegs_subset i l)
  cases l with
  | mem | dbl | res => simp [isOutput, hregs (by simp [outputRegs])]
  | _ => simp [isOutput]

theorem outRes_le (i : Instr) : outRes i ≤ 8 := by cases i <;> simp [outRes]

/-- An aligned offset lies in an output of the command just where the model says so of its location
(70_reset_and_hazards.md R507). -/
theorem outputOffset_eq_isOutput (i : Instr) {a : Nat} (ha : a % 4 = 0) : outputOffset i a = isOutput i (locOf a) := by
  have herrinfo : a = 0x018 ↔ locOf a = .errinfo := ⟨fun h => h ▸ rfl, fun h => eq_offset_of_locOf ha h nofun⟩
  have hregs : (∃ l ∈ outRegs i, InSpan a (regSpan l)) ↔ locOf a ∈ outRegs i := by
    constructor
    · rintro ⟨l, hl, h⟩
      rwa [(inSpan_regSpan_iff ha (outRegs_subset i hl)).mp h]
    · intro hl
      exact ⟨_, hl, (inSpan_regSpan_iff ha (outRegs_subset i hl)).mpr rfl⟩
  rw [Bool.eq_iff_iff, outputOffset_iff, isOutput_iff, exists_outputSpans_iff, herrinfo, hregs,
    inSpan_resSpan_iff ha (outRes_le i)]
  simp only [inSpan_memSpan_iff ha, inSpan_fileSpan_iff ha]

/-- The memories that the rule writes are those whose bases lie in its outputs (70_reset_and_hazards.md R501). -/
theorem outputOffset_memoryBase (i : Instr) (id : MemId) :
    outputOffset i (memoryBase id) = decide (id ∈ outMems i) := by
  have halign : memoryBase id % 4 = 0 := base_mod_four (memSpan_mem_spans id)
  rw [outputOffset_eq_isOutput i halign, locOf_memoryBase, isOutput]

end Sys2Proof.Machine
end

section
/-!
Accesses of a busy engine: the writes it drops, the writes that any engine ignores, and the reads, whose answer is
unspecified only where the running word writes (70_reset_and_hazards.md R506, R507; 20_memory.md R81).
-/

namespace Sys2Proof.Machine

/-! ### Dropped and ignored writes (70_reset_and_hazards.md R506) -/

theorem locOf_ne_of_offset_ne {a : Nat} {l : Loc} (ha : a % 4 = 0) (hl : l ≠ .unmapped) (hne : a ≠ l.offset) :
    locOf a ≠ l :=
  fun h => hne (eq_offset_of_locOf ha h hl)

/-- A location that stores no write, and is none of the three registers with rules of their own, ignores it. -/
theorem hostWrite_of_not_stores {s : State} {l : Loc} (hl : l ∉ [.ctrl, .status, .cmd]) (hstores : l.stores = false)
    (v : Word) : s.hostWrite l v = s := by
  simp only [List.mem_cons, List.not_mem_nil, or_false, not_or] at hl
  obtain ⟨hctrl, hstatus, hcmd⟩ := hl
  rcases s.hostWrite_cases l v with ⟨h, -⟩ | ⟨h, -⟩ | ⟨h, -⟩ | ⟨h, -⟩ | ⟨h, -⟩ | ⟨-, -, -, -, h⟩
  · exact absurd h hctrl
  · exact absurd h hstatus
  · exact absurd h hcmd
  · exact absurd h (Bool.eq_false_iff.mp hstores)
  · exact absurd h (Bool.eq_false_iff.mp hstores)
  · exact h

/-- A busy engine drops a write to a location that stores one, and sets WOVR. -/
theorem hostWrite_of_busy {s : State} {l : Loc} (hbusy : s.busy = true) (hstores : l.stores = true) (v : Word) :
    s.hostWrite l v = { s with wovr := true } := by
  rcases s.hostWrite_cases l v with ⟨rfl, -⟩ | ⟨rfl, -⟩ | ⟨rfl, -⟩ | ⟨-, -, h⟩ | ⟨-, h, -⟩ | ⟨-, -, -, h, -⟩
  · cases hstores
  · cases hstores
  · cases hstores
  · exact h
  · cases hbusy.symm.trans h
  · cases hstores.symm.trans h

/-- Settles O52: outside CTRL, STATUS and CMD the write of a busy engine is stored nowhere, and sets WOVR just where an
idle one would store it. -/
theorem writesDroppedOrIgnored : Obligations.WritesDroppedOrIgnored := by
  intro s off v es hpor hport hoff halign hregs
  have hloc : locOf off ∉ [.ctrl, .status, .cmd] := by
    simp only [List.mem_cons, List.not_mem_nil, or_false, not_or] at hregs ⊢
    obtain ⟨hctrl, hstatus, hcmd⟩ := hregs
    exact ⟨locOf_ne_of_offset_ne halign nofun hctrl, locOf_ne_of_offset_ne halign nofun hstatus,
      locOf_ne_of_offset_ne halign nofun hcmd⟩
  refine ⟨fun w n hrun => ?_, fun hidle hro => ?_⟩
  · rw [step_write32 (.inr ⟨w, n, hrun, rfl⟩) hpor hport hoff halign]
    cases hstores : writableOffset off with
    | true => rw [hostWrite_of_busy rfl ((stores_locOf off).trans hstores), Bool.or_true]
    | false => rw [hostWrite_of_not_stores hloc ((stores_locOf off).trans hstores), Bool.or_false]
  · rw [step_write32 (.inl ⟨hidle, hidle⟩) hpor hport hoff halign,
      hostWrite_of_not_stores hloc ((stores_locOf off).trans hro)]

/-! ### Reads while a command runs (70_reset_and_hazards.md R507) -/

theorem runningOutput_of_decode_ok {s : State} {w : Word} {n : Nat} {i : Instr} (hrun : s.executor = .running w n)
    (hi : decode w = .ok i) (l : Loc) : s.runningOutput l = isOutput i l := by
  simp only [State.runningOutput, hrun, hi]

theorem runningOutput_of_decode_error {s : State} {w : Word} {n : Nat} {e : DecodeError}
    (hrun : s.executor = .running w n) (he : decode w = .error e) (l : Loc) :
    s.runningOutput l = (l == .errinfo) := by
  simp only [State.runningOutput, hrun, he]

/-- The window shows that a command runs, in STATUS, and not how long it still does. -/
theorem windowRead_running {s : State} {w : Word} {m : Nat} (hrun : s.executor = .running w m) (n : Nat)
    (es : List PortEvent) {a : Nat} (ha : a % 4 = 0) :
    ({ s with executor := .running w n, port := es } : State).windowRead a = s.windowRead a := by
  have hbusy : s.busy = true := by rw [State.busy, hrun]
  rw [State.windowRead_eq_readLoc _ ha, State.windowRead_eq_readLoc _ ha]
  cases locOf a with
  | status =>
    simp only [State.readLoc, State.statusWord, hbusy]
    rfl
  | _ => rfl

section

variable {s : State} {w : Word} {n off : Nat} {es : List PortEvent} (hrun : s.executor = .running w (n + 1))
  (hpor : s.porHeld = false) (hport : s.port = .read .w32 off :: es) (hoff : off < Config.windowBytes)
  (halign : off % 4 = 0)
include hrun hpor hport hoff halign

theorem step_read_of_not_output (hout : ∀ t : State, t.executor = .running w n → t.runningOutput (locOf off) = false) :
    step s = .next { s with port := es, executor := .running w n, bus := .data (s.windowRead off) } := by
  rw [step_read32 (.inr ⟨w, n, hrun, rfl⟩) hpor hport hoff halign, State.hostRead, hout _ rfl,
    if_neg Bool.false_ne_true, ← State.windowRead_eq_readLoc _ halign, windowRead_running hrun n es halign]

theorem step_read_of_output (hout : ∀ t : State, t.executor = .running w n → t.runningOutput (locOf off) = true) :
    ∃ v, step s = .next { s with port := es, executor := .running w n, bus := .data v, draws := s.draws + 1 } := by
  rw [step_read32 (.inr ⟨w, n, hrun, rfl⟩) hpor hport hoff halign, State.hostRead, hout _ rfl, if_pos rfl]
  exact ⟨_, rfl⟩

end

theorem isOutput_status (i : Instr) : isOutput i .status = false :=
  decide_eq_false fun h => absurd (outRegs_subset i h) (by decide)

theorem isOutput_pdeg (i : Instr) : isOutput i .pdeg = false :=
  decide_eq_false fun h => absurd (outRegs_subset i h) (by decide)

/-- Settles O54: the port asks whether the location is an output of the running word, and an aligned offset is one just
where its location is. -/
theorem busyReads : Obligations.BusyReads := by
  intro s w n off es hrun hpor hport hoff halign
  refine ⟨fun i hi => ⟨fun hout => ?_, fun hout => ?_, ?_, ?_⟩, fun e he => ⟨fun hne => ?_, fun heq => ?_⟩⟩
  · refine step_read_of_not_output hrun hpor hport hoff halign fun t ht => ?_
    rw [runningOutput_of_decode_ok ht hi, ← outputOffset_eq_isOutput i halign, hout]
  · refine step_read_of_output hrun hpor hport hoff halign fun t ht => ?_
    rw [runningOutput_of_decode_ok ht hi, ← outputOffset_eq_isOutput i halign, hout]
  · exact (outputOffset_eq_isOutput i rfl).trans (isOutput_status i)
  · exact (outputOffset_eq_isOutput i rfl).trans (isOutput_pdeg i)
  · refine step_read_of_not_output hrun hpor hport hoff halign fun t ht => ?_
    rw [runningOutput_of_decode_error ht he]
    exact beq_eq_false_iff_ne.mpr (locOf_ne_of_offset_ne halign nofun hne)
  · subst heq
    refine step_read_of_output hrun hpor hport hoff halign fun t ht => ?_
    rw [runningOutput_of_decode_error ht he]
    rfl

end Sys2Proof.Machine
end

section
/-!
The two resets: the soft reset by SRST, which keeps the local memories but for the abandoned command's, and the power-on
reset by its input, which draws nine of them anew; and the values that both leave (70_reset_and_hazards.md R500, R501).
-/

namespace Sys2Proof.Machine

/-! ### The reset values (70_reset_and_hazards.md R500) -/

theorem degreeBelow_zeros (n : Nat) : degreeBelow Memory.zeros.byte n = 0 := by
  induction n with
  | zero => rfl
  | succ n ih => rw [degreeBelow, if_neg (not_not_intro (Memory.byte_zeros n)), ih]

theorem littleWord_zeros (a : Nat) : littleWord Memory.zeros a = 0 := rfl

theorem doubleHalf_replicate_zero (n base a : Nat) : doubleHalf (Vector.replicate n 0) base a = 0 := by
  have hreg : (Vector.replicate n (0 : Dword)).getD ((a - base) / 8) 0 = 0 := by
    rw [getD_eq_getElem?_getD, Vector.getElem?_replicate]
    split <;> rfl
  rw [doubleHalf, hreg]
  split <;> rfl

theorem getD_replicate_zero (n i : Nat) : (Vector.replicate n (0 : Word)).getD i 0 = 0 := by
  rw [getD_eq_getElem?_getD, Vector.getElem?_replicate]
  split <;> rfl

/-- After the power-on reset every offset below the local memories but those of ID and VERSION reads 0: it names a
register at 0, PDEG of four zero polynomials, or nothing. -/
theorem windowRead_powerOn_of_lt (s : State) (held : Bool) {a : Nat} (hident : a ≠ 0x000) (hversion : a ≠ 0x004)
    (hlt : a < 0x1000) : ({ s.powerOn with porHeld := held } : State).windowRead a = 0 := by
  have hpdeg : ({ s.powerOn with porHeld := held } : State).pdegValue = 0 := by
    simp only [State.pdegValue]
    exact congrArg (fun d => d + 2 ^ 8 * d + 2 ^ 16 * d + 2 ^ 24 * d) (degreeBelow_zeros 256)
  -- The branches in the order of the map: the registers, then the local memories, whose offsets lie above `a`.
  unfold State.windowRead
  refine ite_eq_iff'.mpr ⟨fun h => absurd h hident, fun _ => ?_⟩
  refine ite_eq_iff'.mpr ⟨fun h => absurd h hversion, fun _ => ?_⟩
  iterate 6 refine ite_eq_iff'.mpr ⟨fun _ => rfl, fun _ => ?_⟩
  refine ite_eq_iff'.mpr ⟨fun _ => by rw [hpdeg]; rfl, fun _ => ?_⟩
  iterate 4 refine ite_eq_iff'.mpr ⟨fun _ => rfl, fun _ => ?_⟩
  iterate 2 refine ite_eq_iff'.mpr ⟨fun _ => getD_replicate_zero 8 _, fun _ => ?_⟩
  iterate 3 refine ite_eq_iff'.mpr ⟨fun _ => doubleHalf_replicate_zero _ _ _, fun _ => ?_⟩
  iterate 13 refine ite_eq_iff'.mpr ⟨fun h => by omega, fun _ => ?_⟩
  rfl

/-- The reset state is what the power-on reset leaves of an engine that has made no draw. -/
theorem reset_eq_powerOn :
    State.reset = { ({ State.reset with draws := 0 } : State).powerOn with porHeld := false } := rfl

/-- Settles O7: the power-on reset leaves a good state, and the invariant does not read the released input. -/
theorem resetHasInv : Obligations.ResetHasInv := by
  rw [Obligations.ResetHasInv, reset_eq_powerOn]
  exact (powerOn_inv _).of_frame_rfl nofun

/-- The registers after a power-on reset do not depend on what it found. -/
theorem windowRead_powerOn_eq_reset (s : State) (held : Bool) {a : Nat} (hlt : a < 0x1000) :
    ({ s.powerOn with porHeld := held } : State).windowRead a = State.reset.windowRead a := by
  by_cases hident : a = 0x000
  · subst hident
    rfl
  by_cases hversion : a = 0x004
  · subst hversion
    rfl
  rw [windowRead_powerOn_of_lt s held hident hversion hlt, reset_eq_powerOn,
    windowRead_powerOn_of_lt _ false hident hversion hlt]

/-- P0 to P3 read 0 after reset. -/
theorem windowRead_reset_poly {a : Nat} (hlo : 0x1400 ≤ a) (hhi : a < 0x1800) : State.reset.windowRead a = 0 := by
  unfold State.windowRead
  iterate 22 refine ite_eq_iff'.mpr ⟨fun h => by omega, fun _ => ?_⟩
  iterate 4 refine ite_eq_iff'.mpr ⟨fun _ => littleWord_zeros _, fun _ => ?_⟩
  iterate 5 refine ite_eq_iff'.mpr ⟨fun h => by omega, fun _ => ?_⟩
  rfl

/-- Settles O58: below the local memories reset leaves what the power-on reset leaves, and P0 to P3 are zeros. -/
theorem resetValues : Obligations.ResetValues := by
  refine ⟨rfl, rfl, fun a hlo hhi => ?_, fun a hlo hhi => windowRead_reset_poly hlo hhi, rfl, rfl, rfl, rfl⟩
  rw [reset_eq_powerOn]
  exact windowRead_powerOn_of_lt _ false (by omega) (by omega) hhi

/-! ### The power-on reset (70_reset_and_hazards.md R500) -/

/-- Where no command is due, the port has the turn. -/
theorem exists_turn {s : State} (h : s.executor = .idle ∨ ∃ w n, s.executor = .running w (n + 1)) :
    ∃ x : Executor, (s.executor = .idle ∧ x = .idle) ∨ ∃ w n, s.executor = .running w (n + 1) ∧ x = .running w n := by
  rcases h with h | ⟨w, n, h⟩
  · exact ⟨_, .inl ⟨h, rfl⟩⟩
  · exact ⟨_, .inr ⟨w, n, h, rfl⟩⟩

/-- The step that takes an event, idle or busy. -/
theorem step_eq_event {s : State} {x : Executor} {e : PortEvent} {es : List PortEvent}
    (hx : (s.executor = .idle ∧ x = .idle) ∨ ∃ w n, s.executor = .running w (n + 1) ∧ x = .running w n)
    (hport : s.port = e :: es) : step s = ({ s with executor := x, port := es } : State).event e := by
  rw [step_eq_serve hx]
  exact State.serve_of_port_eq_cons hport

/-- Each memory but P0 to P3 is drawn anew. -/
theorem memory_powerOn (s : State) {id : MemId} (hid : ∀ r, id ≠ .p r) :
    ∃ k, s.draws ≤ k ∧ k < s.powerOn.draws ∧ s.powerOn.memory id = Memory.fresh k := by
  have hdraw : ∀ j < 9, s.powerOn.memory id = Memory.fresh (s.draws + j) →
      ∃ k, s.draws ≤ k ∧ k < s.powerOn.draws ∧ s.powerOn.memory id = Memory.fresh k :=
    fun j hj h => ⟨s.draws + j, Nat.le_add_right _ _, Nat.add_lt_add_left hj _, h⟩
  cases id with
  | cw => exact hdraw 0 (by decide) rfl
  | syn => exact hdraw 1 (by decide) rfl
  | eloc => exact hdraw 2 (by decide) rfl
  | emag => exact hdraw 3 (by decide) rfl
  | p r => exact absurd rfl (hid r)
  | row => exact hdraw 4 (by decide) rfl
  | odres => exact hdraw 5 (by decide) rfl
  | run => exact hdraw 6 (by decide) rfl
  | mat m =>
    cases m with
    | m0 => exact hdraw 7 (by decide) rfl
    | m1 => exact hdraw 8 (by decide) rfl

/-- Settles O59: the port's turn takes each event, and under power-on reset an access is answered by nothing. -/
theorem powerOnReset : Obligations.PowerOnReset := by
  intro s es
  refine ⟨fun hexec hport => ?_, fun hidle hheld => ⟨fun width off hoff hport => ?_, fun width off v hoff hport => ?_,
    fun hport => ?_⟩⟩
  · obtain ⟨x, hx⟩ := exists_turn hexec
    refine ⟨_, step_eq_event hx hport, rfl, rfl, rfl, fun a ha => windowRead_powerOn_eq_reset _ true ha, rfl, rfl,
      fun r => by cases r <;> rfl, fun id hid => ?_⟩
    exact memory_powerOn { s with executor := x, port := es } hid
  · have hwindow : off < Config.windowBytes := hoff
    rw [step_eq_event (.inl ⟨hidle, hidle⟩) hport, State.event, if_pos hwindow, State.readAt, if_pos hheld]
  · have hwindow : off < Config.windowBytes := hoff
    rw [step_eq_event (.inl ⟨hidle, hidle⟩) hport, State.event, if_pos hwindow, State.writeAt, if_pos hheld]
  · rw [step_eq_event (.inl ⟨hidle, hidle⟩) hport, State.event]

/-! ### The soft reset (70_reset_and_hazards.md R501) -/

theorem mem_runningMems_iff {s : State} {id : MemId} : id ∈ s.runningMems ↔
    ∃ w n i, s.executor = .running w n ∧ decode w = .ok i ∧ id ∈ outMems i := by
  cases hexec : s.executor with
  | idle => simp [State.runningMems, hexec]
  | running w n => cases hw : decode w <;> simp [State.runningMems, hexec, hw]

/-- The port's turn does not change what runs. -/
theorem runningMems_turn {s : State} {x : Executor} (es : List PortEvent)
    (hx : (s.executor = .idle ∧ x = .idle) ∨ ∃ w n, s.executor = .running w (n + 1) ∧ x = .running w n) :
    ({ s with executor := x, port := es } : State).runningMems = s.runningMems := by
  rcases hx with ⟨h, rfl⟩ | ⟨w, n, h, rfl⟩ <;> simp only [State.runningMems, h]

/-- What no write of a memory and no draw changes, drawing memories anew does not. -/
theorem redraw_keeps {α : Type} (g : State → α)
    (hg : ∀ (s : State) (id : MemId) (m : Memory) (n : Nat), g { s.setMemory id m with draws := n } = g s)
    (ids : List MemId) (s : State) : g (redraw ids s) = g s := by
  induction ids generalizing s with
  | nil => rfl
  | cons id ids ih => rw [redraw, ih, hg]

theorem softReset_keeps {α : Type} (g : State → α)
    (hg : ∀ (s : State) (id : MemId) (m : Memory) (n : Nat), g { s.setMemory id m with draws := n } = g s)
    (s : State) : g s.softReset = g s.resetRegisters := redraw_keeps g hg _ _

/-- Below the local memories lie registers alone. -/
theorem locOf_ne_mem_of_lt {a : Nat} (halign : a % 4 = 0) (hlt : a < 0x1000) (id : MemId) (w : Nat) :
    locOf a ≠ .mem id w := by
  intro h
  have hspan : memoryBase id ≤ a := ((inSpan_memSpan_iff halign id).mpr ⟨w, h⟩).1
  have hbase : 0x1000 ≤ memoryBase id := memoryBase_ge id
  omega

/-- Every register reads as after a power-on reset, but PDEG, which is computed from the P0 to P3 kept. -/
theorem readLoc_resetRegisters (s : State) {l : Loc} (hpdeg : l ≠ .pdeg) (hmem : ∀ id w, l ≠ .mem id w) :
    s.resetRegisters.readLoc l = State.reset.readLoc l := by
  cases l with
  | pdeg => exact absurd rfl hpdeg
  | mem id w => exact absurd rfl (hmem id w)
  | dim m => cases m <;> rfl
  | dbl file i hi => cases file <;> rfl
  | _ => rfl

theorem readLoc_withDraws (s : State) (n : Nat) (l : Loc) :
    ({ s with draws := n } : State).readLoc l = s.readLoc l := by
  cases l <;> rfl

theorem readLoc_withBus (s : State) (b : Response) (l : Loc) :
    ({ s with bus := b } : State).readLoc l = s.readLoc l := by
  cases l <;> rfl

theorem windowRead_softReset (s : State) {a : Nat} (halign : a % 4 = 0) (hlt : a < 0x1000) (hpdeg : a ≠ 0x024) :
    s.softReset.windowRead a = State.reset.windowRead a := by
  have hnotPdeg : locOf a ≠ .pdeg := locOf_ne_of_offset_ne halign nofun hpdeg
  have hnotMem := locOf_ne_mem_of_lt halign hlt
  rw [State.windowRead_eq_readLoc _ halign, State.windowRead_eq_readLoc _ halign]
  calc s.softReset.readLoc (locOf a)
      _ = s.resetRegisters.readLoc (locOf a) :=
        softReset_keeps (State.readLoc · (locOf a)) (fun t id m n => (readLoc_withDraws _ n _).trans
          (readLoc_setMemory_of_register t id m hnotPdeg hnotMem)) s
      _ = State.reset.readLoc (locOf a) := readLoc_resetRegisters s hnotPdeg hnotMem

theorem memory_softReset (s : State) :
    (∀ id, id ∉ s.runningMems → s.softReset.memory id = s.memory id) ∧
      ∀ id, id ∈ s.runningMems →
        ∃ k, s.draws ≤ k ∧ k < s.softReset.draws ∧ s.softReset.memory id = Memory.fresh k :=
  (redraw_spec s.runningMems s.resetRegisters).2

/-- Settles O57: the write resets the registers, and draws anew the memories that what runs would write. -/
theorem softResetResets : Obligations.SoftResetResets := by
  intro s v es hexec hpor hport hsrst
  obtain ⟨x, hx⟩ := exists_turn hexec
  have hmems := runningMems_turn es hx
  generalize hu : ({ s with executor := x, port := es } : State) = u at hmems
  obtain ⟨hkept, hdrawn⟩ := memory_softReset u
  have hmemory : u.memory = s.memory := hu ▸ rfl
  have hdraws : u.draws = s.draws := hu ▸ rfl
  have hstep : step s = .next { u.softReset with bus := .written } := by
    have hloc : locOf 0x008 = .ctrl := rfl
    rw [step_write32 hx hpor hport (by decide) rfl, hu, hloc, State.hostWrite, State.writeCtrl,
      getLsbD_setWidth_word v (by decide), hsrst, if_pos rfl]
  refine ⟨_, hstep, ?_, ?_, fun a hlt halign hpdeg => ?_, ?_, ?_, fun id hid => ?_, fun id w n i hrun hi hout => ?_⟩
  · exact softReset_keeps State.executor (by simp) u
  · exact softReset_keeps State.irq (by simp [State.irq]) u
  · rw [← windowRead_softReset u halign hlt hpdeg, State.windowRead_eq_readLoc _ halign,
      State.windowRead_eq_readLoc _ halign, readLoc_withBus]
  · exact softReset_keeps State.gen0 (by simp) u
  · exact softReset_keeps State.gen1 (by simp) u
  · have hnot : id ∉ u.runningMems := by
      rw [hmems, mem_runningMems_iff]
      rintro ⟨w, n, i, hrun, hi, hid'⟩
      simpa [outputOffset_memoryBase, hid'] using hid w n i hrun hi
    exact (hkept id hnot).trans (congrFun hmemory id)
  · rw [outputOffset_memoryBase, decide_eq_true_iff] at hout
    rw [← hdraws]
    exact hdrawn id (hmems ▸ mem_runningMems_iff.mpr ⟨w, n, i, hrun, hi, hout⟩)

end Sys2Proof.Machine
end
